-- ==== Sys2Proof/Word.lean ====
section
/-! DEFINITION. The word types of the machine (00_scope.md R8: XLEN = 8, ALEN = 16) and nothing else. -/

namespace Sys2Proof

/-- A byte: the width of `A`, `X`, `Y`, `SP` and of every bus access (R8, R70). -/
abbrev Byte := BitVec 8

/-- A 16-bit address or pointer, and the width of `PC` (R8, R25). -/
abbrev Word := BitVec 16

/-- A pen, a pixel or half of a screen byte (R17, R408). -/
abbrev Nibble := BitVec 4

/-- One expanded pixel of the video sink: alpha, red, green, blue, 8 bits each (R357, R482). -/
abbrev Argb := BitVec 32

end Sys2Proof
end

