-- ==== Sys2Proof/Config.lean ====
section
/-! DEFINITION. The implementation parameters of 00_scope.md R8 at the values the spec fixes, and the free values:
opaque constants for what the spec leaves open, of which nothing can be proved. -/

namespace Sys2Proof

/-- The two meanings of $CB and $DB (R2, R243, R244, D2). -/
inductive WaiStp
  | nop
  | wdc
  deriving DecidableEq, Repr

/-- The two back-ends of the ComLynx wire (R440, D33). -/
inductive ComlynxBackend
  | perBit
  | coarse
  deriving DecidableEq, Repr

/-- The two readings of "V flag computed from the binary intermediate" (R172, D7). -/
inductive DecimalV
  | seq2
  | binary
  deriving DecidableEq, Repr

namespace Config

/-- `RAM_SIZE` (R8). -/
def ramSize : Nat := 65536

/-- `P_BITOPS`: RMB, SMB, BBR and BBS are implemented (R8, D1). -/
def bitOps : Bool := true

/-- `P_WAI_STP` (R8, D2). -/
def waiStp : WaiStp := .nop

/-- `P_DEC_V` (R8, D7). -/
def decimalV : DecimalV := .seq2

/-- `STACK_PAGE` (R8, D6). -/
def stackPage : Byte := 0x01

/-- `VEC_NMI` (R8, D5). -/
def vecNmi : Word := 0xFFFA

/-- `VEC_RESET` (R8, D5). -/
def vecReset : Word := 0xFFFC

/-- `VEC_IRQ`, the vector of IRQ and of BRK (R8, D5). -/
def vecIrq : Word := 0xFFFE

/-- `TICKS_PAGE`: the charge of an access in the page of the previous one (R462). -/
def ticksPage : Nat := 4

/-- `TICKS_NORMAL`: the charge of a page change or of a device register (R462). -/
def ticksNormal : Nat := 5

/-- DESIGN CHOICE (log 8): the ticks charged for a cycle in which the spec lists no access (R522, R524). -/
def ticksIdle : Nat := 4

/-- `SERIAL_BIT_TICKS` (R431, C10). -/
def serialBitTicks : Nat := 16

/-- `COMLYNX_BACKEND` (R440, D33). -/
def comlynxBackend : ComlynxBackend := .perBit

/-- `BREAK_ON_BRK` (R321, D24). -/
def breakOnBrk : Bool := false

/-- `TRACE_HOOK`: a hook is installed (R321, D24). -/
def traceHook : Bool := false

/-- `LINE_BYTES` (R350). -/
def lineBytes : Nat := 80

/-- `LINE_PIXELS` (R350). -/
def linePixels : Nat := 160

/-- `FRAME_LINES` (R350). -/
def frameLines : Nat := 102

/-- The number of ticks at which `current_tick` would wrap; behaviour there is not defined (R474, U12). -/
def tickLimit : Nat := 2 ^ 64

/-- Free value (log 12, N14): the phase of the prescaled clock of counter `unit` when it is enabled at a tick. -/
opaque timerPhase (unit tick : Nat) : Nat

/-- Free value (log 15, N15): how the slack of a display line is spread over its DMA reads. -/
opaque dmaGap (tick : Nat) : Nat

/-- Free value (log 16): the result of negating the volume -128, which no signed byte holds (R359). -/
opaque negatedMin (unit tick : Nat) : Byte

/-- Free value (log 19, N20): whether a write of the low byte of a 16-bit Suzy register clears its high byte. -/
opaque lowWriteClearsHigh : Bool

/-- Free value (log 20, U5): what a read of Suzy's arithmetic unit returns. -/
opaque mathByte (offset tick : Nat) : Byte

/-- Free value (log 20, U5): bits 7:5 of a read of SPRSYS. -/
opaque mathStatus (tick : Nat) : BitVec 3

/-- Free value (log 20, N2): what SUZYHREV reads. -/
opaque suzyHrev : Byte

/-- Free value (log 39): bits 7:1 of a read of SWITCHES, of which the spec gives bit 0 only (R418). -/
opaque switchesHigh (tick : Nat) : BitVec 7

/-- Free value (log 40): the received-parity bit of a byte that came without one (R432). -/
opaque strayParity (tick : Nat) : Bool

/-- Free value (log 42, N17): how far the tick of an audio sample at a rate lies behind the earliest tick after the sample
before it. -/
opaque sampleGap (rate tick : Nat) : Nat

/-- Free value (log 41, N27): `readMem` and `writeMem` go through the overlays. -/
opaque hostMemThroughMap : Bool

/-- Free value (log 41, N27): `readMem` and `writeMem` trigger register side effects. -/
opaque hostMemEffects : Bool

/-- Free value (log 34, N26): whether the address in a BS93 image has its low byte first. -/
opaque bs93LowFirst : Bool

end Config

end Sys2Proof
end

