-- ==== Sys2Proof/Machine/Bits.lean ====
section
/-! DEFINITION. The notation of 00_scope.md R10: halves, concatenation, extension and single bits. -/

namespace Sys2Proof

/-- `hi(w)`, `w[15:8]`. -/
def hi (w : Word) : Byte := w.extractLsb' 8 8

/-- `lo(w)`, `w[7:0]`. -/
def lo (w : Word) : Byte := w.setWidth 8

/-- `{h, l}`, `h` the more significant. -/
def join (h l : Byte) : Word := h ++ l

/-- `zext_8(b)` as an address. -/
def zext (b : Byte) : Word := b.setWidth 16

/-- `sext_8(b)` modulo 65536. -/
def sext (b : Byte) : Word := b.signExtend 16

/-- `b[k]`. -/
def bit (b : Byte) (k : Nat) : Bool := b.getLsbD k

/-- The byte with bit `k` alone. -/
def bitMask (k : Nat) : Byte := (1 : Byte) <<< k

/-- The high nibble, `b[7:4]`. -/
def hiNib (b : Byte) : Nibble := b.extractLsb' 4 4

/-- The low nibble, `b[3:0]`. -/
def loNib (b : Byte) : Nibble := b.setWidth 4

/-- A byte from its two nibbles. -/
def joinNib (h l : Nibble) : Byte := h ++ l

/-- `u8` of an integer (R10). -/
def u8 (t : Int) : Byte := BitVec.ofInt 8 t

/-- `u16` of an integer (R10). -/
def u16 (t : Int) : Word := BitVec.ofInt 16 t

/-- `w` with its low byte replaced. -/
def setLo (w : Word) (l : Byte) : Word := join (hi w) l

/-- `w` with its high byte replaced. -/
def setHi (w : Word) (h : Byte) : Word := join h (lo w)

end Sys2Proof
end

