-- ==== Sys2Proof/Syntax.lean ====
section
/-! DEFINITION. The instructions of spec/opcode_table.json: one constructor per mnemonic with its operand form as an
argument (30_encoding.md R101 to R118), and one per group of reserved opcodes (48_reserved_nop.md R261 to R267). -/

namespace Sys2Proof

/-- The memory operand forms, R105 to R113. -/
inductive Addr
  /-- `$nn`, R105 -/
  | zp (d8 : Byte)
  /-- `$nn,X`, R106 -/
  | zpx (d8 : Byte)
  /-- `$nn,Y`, R107 -/
  | zpy (d8 : Byte)
  /-- `$nnnn`, R108 -/
  | abs (a16 : Word)
  /-- `$nnnn,X`, R109 -/
  | abx (a16 : Word)
  /-- `$nnnn,Y`, R110 -/
  | aby (a16 : Word)
  /-- `($nn,X)`, R111 -/
  | izx (d8 : Byte)
  /-- `($nn),Y`, R112 -/
  | izy (d8 : Byte)
  /-- `($nn)`, R113 -/
  | izp (d8 : Byte)
  deriving DecidableEq, Repr

/-- The operand of a reading instruction: an immediate byte (R104) or a memory byte. -/
inductive Src
  | imm (d8 : Byte)
  | mem (ea : Addr)
  deriving DecidableEq, Repr

/-- The operand of a shift, an increment or a decrement: the accumulator (R103) or a memory byte. -/
inductive Rmw
  | acc
  | mem (ea : Addr)
  deriving DecidableEq, Repr

/-- The target forms of JMP, R108, R115, R116. -/
inductive JmpTarget
  | abs (a16 : Word)
  | ind (a16 : Word)
  | iax (a16 : Word)
  deriving DecidableEq, Repr

/-- The instructions. -/
inductive Instr
  /-- LDA, R141. -/
  | lda (src : Src)
  /-- LDX, R142. -/
  | ldx (src : Src)
  /-- LDY, R143. -/
  | ldy (src : Src)
  /-- STA, R144. -/
  | sta (dst : Addr)
  /-- STX, R145. -/
  | stx (dst : Addr)
  /-- STY, R146. -/
  | sty (dst : Addr)
  /-- STZ, R147. -/
  | stz (dst : Addr)
  /-- TAX, R148. -/
  | tax
  /-- TAY, R149. -/
  | tay
  /-- TXA, R150. -/
  | txa
  /-- TYA, R151. -/
  | tya
  /-- TSX, R152. -/
  | tsx
  /-- TXS, R153. -/
  | txs
  /-- PHA, R161. -/
  | pha
  /-- PLA, R162. -/
  | pla
  /-- PHP, R163. -/
  | php
  /-- PLP, R164. -/
  | plp
  /-- PHX, R165. -/
  | phx
  /-- PLX, R166. -/
  | plx
  /-- PHY, R167. -/
  | phy
  /-- PLY, R168. -/
  | ply
  /-- ADC, R173. -/
  | adc (src : Src)
  /-- SBC, R176. -/
  | sbc (src : Src)
  /-- CMP, R178. -/
  | cmp (src : Src)
  /-- CPX, R179. -/
  | cpx (src : Src)
  /-- CPY, R180. -/
  | cpy (src : Src)
  /-- AND, R186. -/
  | and (src : Src)
  /-- ORA, R187. -/
  | ora (src : Src)
  /-- EOR, R188. -/
  | eor (src : Src)
  /-- BIT, R189. -/
  | bit (src : Src)
  /-- TSB, R190. -/
  | tsb (dst : Addr)
  /-- TRB, R191. -/
  | trb (dst : Addr)
  /-- ASL, R196. -/
  | asl (dst : Rmw)
  /-- LSR, R197. -/
  | lsr (dst : Rmw)
  /-- ROL, R198. -/
  | rol (dst : Rmw)
  /-- ROR, R199. -/
  | ror (dst : Rmw)
  /-- INC, R200. -/
  | inc (dst : Rmw)
  /-- DEC, R201. -/
  | dec (dst : Rmw)
  /-- INX, R202. -/
  | inx
  /-- INY, R203. -/
  | iny
  /-- DEX, R204. -/
  | dex
  /-- DEY, R205. -/
  | dey
  /-- BCC, R211. -/
  | bcc (rel : Byte)
  /-- BCS, R212. -/
  | bcs (rel : Byte)
  /-- BEQ, R213. -/
  | beq (rel : Byte)
  /-- BNE, R214. -/
  | bne (rel : Byte)
  /-- BMI, R215. -/
  | bmi (rel : Byte)
  /-- BPL, R216. -/
  | bpl (rel : Byte)
  /-- BVC, R217. -/
  | bvc (rel : Byte)
  /-- BVS, R218. -/
  | bvs (rel : Byte)
  /-- BRA, R219. -/
  | bra (rel : Byte)
  /-- JMP, R220. -/
  | jmp (target : JmpTarget)
  /-- JSR, R221. The meaning reads the high byte of the target from memory, after its two pushes. -/
  | jsr (target : Word)
  /-- RTS, R222. -/
  | rts
  /-- CLC, R231. -/
  | clc
  /-- SEC, R232. -/
  | sec
  /-- CLI, R233. -/
  | cli
  /-- SEI, R234. -/
  | sei
  /-- CLD, R235. -/
  | cld
  /-- SED, R236. -/
  | sed
  /-- CLV, R237. -/
  | clv
  /-- NOP $EA, R238. -/
  | nop
  /-- BRK with its signature byte, R239. -/
  | brk (sig : Byte)
  /-- RTI, R240. -/
  | rti
  /-- WAI $CB, R243, R268. -/
  | wai
  /-- STP $DB, R244, R268. -/
  | stp
  /-- RMB0, R251. -/
  | rmb0 (zp : Byte)
  /-- RMB1, R251. -/
  | rmb1 (zp : Byte)
  /-- RMB2, R251. -/
  | rmb2 (zp : Byte)
  /-- RMB3, R251. -/
  | rmb3 (zp : Byte)
  /-- RMB4, R251. -/
  | rmb4 (zp : Byte)
  /-- RMB5, R251. -/
  | rmb5 (zp : Byte)
  /-- RMB6, R251. -/
  | rmb6 (zp : Byte)
  /-- RMB7, R251. -/
  | rmb7 (zp : Byte)
  /-- SMB0, R252. -/
  | smb0 (zp : Byte)
  /-- SMB1, R252. -/
  | smb1 (zp : Byte)
  /-- SMB2, R252. -/
  | smb2 (zp : Byte)
  /-- SMB3, R252. -/
  | smb3 (zp : Byte)
  /-- SMB4, R252. -/
  | smb4 (zp : Byte)
  /-- SMB5, R252. -/
  | smb5 (zp : Byte)
  /-- SMB6, R252. -/
  | smb6 (zp : Byte)
  /-- SMB7, R252. -/
  | smb7 (zp : Byte)
  /-- BBR0, R253. The meaning reads the displacement from memory, after the zero-page byte. -/
  | bbr0 (zp rel : Byte)
  /-- BBR1, R253. The meaning reads the displacement from memory, after the zero-page byte. -/
  | bbr1 (zp rel : Byte)
  /-- BBR2, R253. The meaning reads the displacement from memory, after the zero-page byte. -/
  | bbr2 (zp rel : Byte)
  /-- BBR3, R253. The meaning reads the displacement from memory, after the zero-page byte. -/
  | bbr3 (zp rel : Byte)
  /-- BBR4, R253. The meaning reads the displacement from memory, after the zero-page byte. -/
  | bbr4 (zp rel : Byte)
  /-- BBR5, R253. The meaning reads the displacement from memory, after the zero-page byte. -/
  | bbr5 (zp rel : Byte)
  /-- BBR6, R253. The meaning reads the displacement from memory, after the zero-page byte. -/
  | bbr6 (zp rel : Byte)
  /-- BBR7, R253. The meaning reads the displacement from memory, after the zero-page byte. -/
  | bbr7 (zp rel : Byte)
  /-- BBS0, R254. As BBR0. -/
  | bbs0 (zp rel : Byte)
  /-- BBS1, R254. As BBR1. -/
  | bbs1 (zp rel : Byte)
  /-- BBS2, R254. As BBR2. -/
  | bbs2 (zp rel : Byte)
  /-- BBS3, R254. As BBR3. -/
  | bbs3 (zp rel : Byte)
  /-- BBS4, R254. As BBR4. -/
  | bbs4 (zp rel : Byte)
  /-- BBS5, R254. As BBR5. -/
  | bbs5 (zp rel : Byte)
  /-- BBS6, R254. As BBR6. -/
  | bbs6 (zp rel : Byte)
  /-- BBS7, R254. As BBR7. -/
  | bbs7 (zp rel : Byte)
  /-- Reserved one-byte no-operation $x3 (`colB` false) or $xB, R261. -/
  | nopImp (row : Nibble) (colB : Bool)
  /-- Reserved two-byte no-operation $02 + $20 * row, R262. -/
  | nopImm (row : BitVec 3) (d8 : Byte)
  /-- Reserved two-byte no-operation $44, R263. -/
  | nopZp (d8 : Byte)
  /-- Reserved two-byte no-operation $x4 (x = 5, D, F), R264. -/
  | nopZpx (row : Nibble) (d8 : Byte)
  /-- Reserved three-byte no-operation $xC (x = D, F), R265. -/
  | nopAbs (row : Nibble) (a16 : Word)
  /-- Reserved three-byte no-operation $5C, R266. -/
  | nopLong (a16 : Word)
  /-- Column x7 (`colF` false) or xF as a one-byte no-operation, R267 (`P_BITOPS` false only). -/
  | nopBit (row : Nibble) (colF : Bool)
  deriving DecidableEq, Repr

end Sys2Proof
end

