-- ==== Sys2Proof/Machine/State.lean ====
section
/-! DEFINITION. The state of the machine (10_state.md R20 to R51) as plain data, its reasons to stop, and the state
after reset (70_reset_and_hazards.md R500 to R503). INVENTORY.md lists every field with its rule and reset value. -/

namespace Sys2Proof.Machine

/-! ### Reasons to stop -/

/-- The machine has no fault: no opcode, address, access or arithmetic is illegal, and the core "never throws"
(R301, R413). Nothing raises one. -/
inductive Fault
  deriving DecidableEq, Repr

/-- Reasons for which the model declines to answer. -/
inductive Refusal
  /-- Raised by an arm of `exec` whose instruction has no meaning yet; no arm does. Safe. -/
  | notModelled (mnemonic : String)
  /-- Raised by `step` when `current_tick` has left its 64 bits, where behaviour is not defined (R474, U12, log 11). Safe. -/
  | tickCounterWrap
  deriving DecidableEq, Repr

/-! ### The CPU -/

/-- The CPU's registers, flags and latches (R20). -/
structure Cpu where
  /-- Accumulator, R21. -/
  a : Byte
  /-- R22. -/
  x : Byte
  /-- R23. -/
  y : Byte
  /-- Stack pointer, R24. -/
  sp : Byte
  /-- Program counter, R25. -/
  pc : Word
  /-- Negative, R26. -/
  n : Bool
  /-- Overflow, R26. -/
  v : Bool
  /-- Decimal mode, R26. -/
  d : Bool
  /-- Interrupt disable, R26. -/
  i : Bool
  /-- Zero, R26. -/
  z : Bool
  /-- Carry, R26. -/
  c : Bool
  /-- R28. -/
  irqLatch : Bool
  /-- R28. -/
  nmiLatch : Bool
  /-- The NMI level at the previous poll, R29. -/
  nmiPrev : Bool
  /-- `cpu_waiting`, R33. -/
  waiting : Bool
  /-- `cpu_stopped`, R33. -/
  stopped : Bool
  deriving DecidableEq, Repr

/-- What the CPU does after the opcode and its operand bytes are fetched, or in place of them (R306). -/
inductive Work
  | instr (i : Instr)
  | irq
  | nmi
  deriving DecidableEq, Repr

/-- The opcode pipeline (R31): the continuation of the CPU's pseudocode after its last access, as the registers it started
from and the bytes its accesses have moved so far (a write counts as $00). Every suspension point of R464 is one of these
values. -/
inductive Pipeline
  /-- Empty: at a fetch boundary. -/
  | atFetch
  /-- Between the opcode and the last operand byte that is fetched before the instruction's other accesses. -/
  | fetch (start : Cpu) (log : List Byte)
  /-- Inside an instruction or a trap entry. -/
  | work (w : Work) (start : Cpu) (log : List Byte)
  deriving DecidableEq, Repr

/-! ### Mikey -/

/-- The fields a timer and an audio channel share (R340, R358). -/
structure Timer where
  /-- Reload value, R341. -/
  backup : Byte
  /-- Control A, R342. -/
  ctl : Byte
  /-- Current value, R341. -/
  value : Byte
  /-- Control B, with the done latch in bit 3, R342. -/
  status : Byte
  /-- It fired without reload and waits for software to rewrite the counter, R345. -/
  stopped : Bool
  /-- The tick of the next edge of its prescaled clock, R47, R347. -/
  deadline : Nat
  deriving DecidableEq, Repr

/-- One audio channel, R358, R359. -/
structure Channel where
  /-- Backup, control, counter; the status is the low nibble of register +7. -/
  timer : Timer
  /-- Signed, register +0. -/
  volume : Byte
  /-- Feedback tap enables, register +1. -/
  feedback : Byte
  /-- Signed output value, register +2. -/
  output : Byte
  /-- Registers +3 and +7 bits 7:4. -/
  shift : BitVec 12
  deriving DecidableEq, Repr

/-- Video DMA and the video sink (R47, R351 to R353, R482). -/
structure Video where
  /-- The line to be fetched, 0 to 101, or 102 in vertical blank. -/
  line : Nat
  /-- Bytes fetched in this line. -/
  fetched : Nat
  /-- DISPADR as sampled when the frame began. -/
  base : Word
  /-- Pixels of the line being fetched. -/
  lineBuf : List Argb
  /-- Pixels of the lines emitted in this frame. -/
  frame : List Argb
  /-- The frame last committed to the video sink. -/
  sink : List Argb
  /-- How many frames have been committed. -/
  frames : Nat
  deriving DecidableEq, Repr

/-! ### ComLynx -/

/-- Transmitter states, R433. -/
inductive TxState
  | idle
  | start
  | data (k : Nat)
  | parity
  | stop
  deriving DecidableEq, Repr

/-- Receiver states, R437. -/
inductive RxState
  | idle
  | data (k : Nat)
  | parity
  | stop
  deriving DecidableEq, Repr

/-- One party's serial transceiver, R432 to R439. -/
structure Serial where
  /-- SERCTL as last written. -/
  ctl : Byte
  txBuf : Byte
  txFull : Bool
  tx : TxState
  txShift : Byte
  /-- This party pulls the wire low, R430. -/
  pulling : Bool
  rx : RxState
  rxShift : Byte
  rxPar : Bool
  rxBuf : Byte
  rxFull : Bool
  /-- Parity bit of the last received byte, SERCTL read bit 0. -/
  parBit : Bool
  parErr : Bool
  overrun : Bool
  framErr : Bool
  rxBrk : Bool
  /-- Consecutive low bit times, R439. -/
  lowRun : Nat
  /-- The wire at the previous pulse, R437. -/
  prevW : Bool
  deriving DecidableEq, Repr

/-! ### Everything that moves with time -/

/-- The bus clock, the queued device actions, Mikey and the serial port. -/
structure Io where
  /-- `current_tick`, R46. -/
  tick : Nat
  /-- The address of the previous bus access, R462. -/
  lastAddr : Option Word
  /-- Deadline of the queued CPU-step, or of the Suzy-step while the CPU is halted, R470, R475. -/
  masterDue : Nat
  /-- Deadline of timer 2's firing whose frame end is still to come, R348, R470. -/
  frameDue : Option Nat
  /-- Deadline of the queued Mikey-line action, R470, R471. -/
  lineDue : Option Nat
  /-- Deadline of the queued Mikey-pixel action, R470, R471. -/
  pixelDue : Option Nat
  /-- Deadline of the queued ComLynx-pulse action, R431, R470. -/
  pulseDue : Nat
  timers : Vector Timer 8
  channels : Vector Channel 4
  /-- Interrupt pending byte, R364. -/
  pending : Byte
  /-- ATTEN, one byte a channel, R360. -/
  atten : Vector Byte 4
  /-- $FD44, R360. -/
  attenEnable : Byte
  /-- STEREO, R360. -/
  stereo : Byte
  /-- DISPADR, R38, R355. -/
  dispadr : Word
  /-- $FDA0+n, R356. -/
  green : Vector Byte 16
  /-- $FDB0+n, R356. -/
  blueRed : Vector Byte 16
  video : Video
  serial : Serial
  deriving DecidableEq, Repr

/-! ### Cartridge and parallel port -/

/-- R443 to R448. A bank that is absent is the empty list. -/
structure Cart where
  bank0 : List Byte
  bank1 : List Byte
  bank0A : List Byte
  bank1A : List Byte
  shiftReg : Byte
  counter : BitVec 11
  /-- SYSCTL1 as last written; bit 0 is the strobe, R444. -/
  sysctl1 : Byte
  iodir : Byte
  iodat : Byte
  deriving DecidableEq, Repr

/-! ### Suzy -/

/-- The byte under construction of a video or collision operator, R48, R408. -/
structure Accum where
  addr : Word
  data : Byte
  /-- The high nibble of `data` is to be stored. -/
  hiSet : Bool
  /-- The low nibble of `data` is to be stored. -/
  loSet : Bool
  /-- The byte in memory, once a flush has read it. -/
  old : Option Byte
  deriving DecidableEq, Repr

/-- Position of the pixel parser in a line, R399, R400. -/
inductive Parse
  /-- A literal sprite: a pen comes next. -/
  | literal
  /-- A packed sprite: a block header comes next. -/
  | header
  /-- `left` pens of a literal block come next. -/
  | block (left : Nat)
  /-- The pen of a repeat block comes next, to be yielded once and `left` more times. -/
  | runPen (left : Nat)
  /-- The repeated pen comes `left` more times. -/
  | run (left : Nat) (pen : Nibble)
  deriving DecidableEq, Repr

/-- Resumption point of the drawing state machine, R48, R416. -/
inductive Phase
  | idle
  /-- The head of the walk's loop, R385. -/
  | chain
  /-- SCB byte `k` comes next (offsets 0 to 10), R381, R385. -/
  | scb (k : Nat)
  /-- Byte `k` of the size, stretch and tilt fields comes next, R388. -/
  | reload (k : Nat)
  /-- Palette byte `k` comes next, R389. -/
  | palette (k : Nat)
  /-- Byte `k` of the shifter's initial fill comes next, R397. -/
  | fill (k : Nat)
  /-- The line length is to be taken from the shifter, R397, R398. -/
  | lineHead
  /-- Columns and pens of a screen row, R399 to R404. -/
  | parse
  /-- The collision operator at the current column, R406. -/
  | coll
  /-- The video operator at the current column, R407, R408. -/
  | video
  /-- The flush of the video operator at a row's end, R408. -/
  | rowVideo
  /-- The flush of the collision operator at a row's end. -/
  | rowColl
  /-- The bookkeeping between rows, R409, R410. -/
  | rowEnd
  /-- The collision deposit and the stop test, R411, R412. -/
  | deposit
  deriving DecidableEq, Repr

/-- Suzy's registers and the sprite engine (R41, R48, R382). -/
structure Suzy where
  /-- `sprite_working`, R384. -/
  working : Bool
  /-- `cpu_halted_by_suzy`, R32. -/
  halted : Bool
  tmpadr : Word
  tiltacum : Word
  hoff : Word
  voff : Word
  vidbas : Word
  collbas : Word
  vidadr : Word
  colladr : Word
  scbnext : Word
  sprdline : Word
  hposstrt : Word
  vposstrt : Word
  sprhsiz : Word
  sprvsiz : Word
  stretch : Word
  tilt : Word
  sprdoff : Word
  /-- The row `voff` of R394. -/
  sprvpos : Word
  colloff : Word
  vsizacum : Word
  hsizoff : Word
  vsizoff : Word
  scbadr : Word
  procadr : Word
  /-- R394; it has no address. -/
  hsizacum : Word
  /-- The column `hoff` of R394; it has no address. -/
  sprhpos : Word
  sprctl0 : Byte
  sprctl1 : Byte
  sprcoll : Byte
  sprinit : Byte
  suzyBusEn : Byte
  /-- SPRGO as last written. -/
  sprgo : Byte
  /-- SPRSYS as last written. -/
  sprsys : Byte
  /-- SPRSYS read bit 2, the access flag that writing bit 2 clears. -/
  badAccess : Bool
  /-- Everon enable, R384. -/
  everonEn : Bool
  /-- The pen-index table, R389. -/
  pens : Vector Nibble 16
  /-- The bit shifter, next bit at the top, R396. -/
  shifter : BitVec 32
  /-- Bits buffered in the shifter. -/
  shiftCount : Nat
  /-- Bits left in the line, R397, R401. -/
  budget : Nat
  /-- The current quadrant's number, R392. -/
  quadrant : Nat
  /-- Quadrants finished in this sprite. -/
  quadsDone : Nat
  /-- Screen rows left of this source row, R395. -/
  rowsLeft : Nat
  /-- Columns left of the current pen, R404. -/
  colsLeft : Nat
  /-- The parsed value whose columns are being drawn. -/
  curPen : Nibble
  parse : Parse
  /-- Any pixel was drawn, R391. -/
  anyPixel : Bool
  /-- R391, R406. -/
  hiColl : Byte
  /-- `disableCollisions`, R390. -/
  noColl : Bool
  videoAcc : Option Accum
  collAcc : Option Accum
  phase : Phase
  deriving DecidableEq, Repr

/-! ### The outside -/

/-- Host-owned inputs (R51), changed by the host only, between two turns of the scheduler (log 28). -/
structure Inputs where
  /-- Bits 0 to 8: left, up, right, down, opt1, pause, opt2, A, B (R418, D39). -/
  keypad : BitVec 9
  /-- `nmi_line`, R30. -/
  nmiLine : Bool
  /-- The serial peer's pulling flag from each tick on, the latest entry first, R430, R476. -/
  peer : List (Nat × Bool)
  /-- What the peer sends under the coarse back-end: the tick of the pulse, the byte and its parity bit, R440. -/
  peerFrames : List (Nat × Byte × Bool)
  /-- External levels of the parallel port's pins, R446. -/
  pins : Byte
  /-- R324. -/
  stopRequested : Bool
  deriving DecidableEq, Repr

/-- The whole machine. -/
structure State where
  cpu : Cpu
  /-- R31. -/
  pipe : Pipeline
  /-- The 64 KiB of RAM: sorted by address, no byte equal to `ramDefault` listed (R45, log 2). -/
  ram : List Host.Cell
  /-- R35. -/
  mapctl : Byte
  /-- `BOOT_ROM`, offsets from $FE00; empty when absent (R61, R451). -/
  rom : List Byte
  io : Io
  cart : Cart
  suzy : Suzy
  inputs : Inputs
  deriving DecidableEq, Repr

/-- What an unlisted byte of RAM reads as. DESIGN CHOICE (log 2): the spec leaves RAM unspecified after reset. -/
def ramDefault : Byte := 0

/-! ### Reset -/

/-- All bytes $00: disabled, not reloading, clock 0, not done (R349). -/
def Timer.reset : Timer :=
  { backup := 0, ctl := 0, value := 0, status := 0, stopped := false, deadline := 0 }

/-- All bytes $00 (R500). -/
def Channel.reset : Channel :=
  { timer := Timer.reset, volume := 0, feedback := 0, output := 0, shift := 0 }

/-- No line fetched, no frame committed (log 14). -/
def Video.reset : Video :=
  { line := 0, fetched := 0, base := 0, lineBuf := [], frame := [], sink := [], frames := 0 }

/-- Idle, not pulling, buffers empty, no error (R441). DESIGN CHOICE 0 (log 4): TXINTEN is 0 by R436; the spec gives no value
for the other bits of SERCTL (PAREN, PAREVEN, RXINTEN, TXOPEN, TXBRK), for the received-parity bit or for the contents of
the buffers and shifters. -/
def Serial.reset : Serial :=
  { ctl := 0, txBuf := 0, txFull := false, tx := .idle, txShift := 0, pulling := false, rx := .idle, rxShift := 0,
    rxPar := false, rxBuf := 0, rxFull := false, parBit := false, parErr := false, overrun := false, framErr := false,
    rxBrk := false, lowRun := 0, prevW := true }

/-- `current_tick` 0, the CPU-step queued at it and the periodic pulse, all timer and audio bytes $00, nothing pending (R500). -/
def Io.reset : Io :=
  { tick := 0, lastAddr := none, masterDue := 0, frameDue := none, lineDue := none, pixelDue := none, pulseDue := Config.serialBitTicks,
    timers := .replicate 8 Timer.reset, channels := .replicate 4 Channel.reset, pending := 0,
    atten := .replicate 4 0, attenEnable := 0, stereo := 0, dispadr := 0, green := .replicate 16 0,
    blueRed := .replicate 16 0, video := Video.reset, serial := Serial.reset }

/-- No cartridge; address 0, IODIR and IODAT $00 (R448). -/
def Cart.reset : Cart :=
  { bank0 := [], bank1 := [], bank0A := [], bank1A := [], shiftReg := 0, counter := 0, sysctl1 := 0, iodir := 0,
    iodat := 0 }

/-- `sprite_working` and `cpu_halted_by_suzy` 0 (R419); the rest DESIGN CHOICE 0 (log 4). -/
def Suzy.reset : Suzy :=
  { working := false, halted := false, tmpadr := 0, tiltacum := 0, hoff := 0, voff := 0, vidbas := 0, collbas := 0,
    vidadr := 0, colladr := 0, scbnext := 0, sprdline := 0, hposstrt := 0, vposstrt := 0, sprhsiz := 0, sprvsiz := 0,
    stretch := 0, tilt := 0, sprdoff := 0, sprvpos := 0, colloff := 0, vsizacum := 0, hsizoff := 0, vsizoff := 0,
    scbadr := 0, procadr := 0, hsizacum := 0, sprhpos := 0, sprctl0 := 0, sprctl1 := 0, sprcoll := 0, sprinit := 0, suzyBusEn := 0,
    sprgo := 0, sprsys := 0, badAccess := false, everonEn := false, pens := .replicate 16 0, shifter := 0,
    shiftCount := 0, budget := 0, quadrant := 0, quadsDone := 0, rowsLeft := 0, colsLeft := 0,
    curPen := 0, parse := .literal, anyPixel := false, hiColl := 0, noColl := false, videoAcc := none,
    collAcc := none, phase := .idle }

/-- No key pressed, NMI inactive (R29, D29), wire released. -/
def Inputs.reset : Inputs :=
  { keypad := 0, nmiLine := false, peer := [], peerFrames := [], pins := 0, stopRequested := false }

/-- The parameters that R501 leaves open: `RESET_A`, `RESET_X`, `RESET_Y`, `RESET_SP`, `RESET_NVZC`, `RESET_RAM` and
the unspecified device registers. -/
structure ResetDraw where
  a : Byte
  x : Byte
  y : Byte
  sp : Byte
  n : Bool
  v : Bool
  z : Bool
  c : Bool
  ram : List Host.Cell
  atten : Vector Byte 4
  attenEnable : Byte
  stereo : Byte
  dispadr : Word
  green : Vector Byte 16
  blueRed : Vector Byte 16
  /-- Every Suzy register; the reset procedure clears `sprite_working`, the halt and the engine's phase in it. -/
  suzy : Suzy
  deriving DecidableEq, Repr

/-- DESIGN CHOICE (logs 1, 2, 4): all zero, nothing listed. -/
def ResetDraw.zero : ResetDraw :=
  { a := 0, x := 0, y := 0, sp := 0, n := false, v := false, z := false, c := false, ram := [],
    atten := .replicate 4 0, attenEnable := 0, stereo := 0, dispadr := 0, green := .replicate 16 0,
    blueRed := .replicate 16 0, suzy := Suzy.reset }

/-- The byte of the boot ROM at an offset from $FE00, $FF beyond the image and without one (R61, R62, R451). -/
def romByte (rom : List Byte) (offset : Nat) : Byte := rom.getD offset 0xFF

/-- The byte that the reset vector's fetch finds `k` bytes into the vector, in the boot ROM as the map stands after MAPCTL is
cleared (R502). -/
def resetVector (rom : List Byte) (k : Nat) : Byte := romByte rom (Config.vecReset.toNat - 0xFE00 + k)

/-- The reset procedure R500, for any boot ROM, cartridge, host inputs and draw of the unspecified values. DESIGN CHOICE
(log 36): the two vector reads charge no ticks and are not the previous access of the first fetch, so that `current_tick` is
0 after them (R503, R504). -/
def State.resetWith (rom : List Byte) (cart : Cart) (inputs : Inputs) (draw : ResetDraw) : State :=
  { cpu :=
      { a := draw.a, x := draw.x, y := draw.y, sp := draw.sp, pc := join (resetVector rom 1) (resetVector rom 0),
        n := draw.n, v := draw.v, d := false, i := true, z := draw.z, c := draw.c, irqLatch := false, nmiLatch := false,
        nmiPrev := false, waiting := false, stopped := false },
    pipe := .atFetch, ram := draw.ram, mapctl := 0, rom := rom,
    io :=
      { Io.reset with
        atten := draw.atten, attenEnable := draw.attenEnable, stereo := draw.stereo, dispadr := draw.dispadr,
        green := draw.green, blueRed := draw.blueRed },
    cart := { cart with shiftReg := 0, counter := 0, sysctl1 := 0, iodir := 0, iodat := 0 },
    suzy := { draw.suzy with working := false, halted := false, phase := .idle },
    inputs := inputs }

/-- The machine right after reset without a boot ROM or a cartridge, every unspecified value zero (logs 1 to 4). -/
def State.reset : State := State.resetWith [] Cart.reset Inputs.reset ResetDraw.zero

end Sys2Proof.Machine
end

