-- ==== Sys2Proof/Machine/Memory.lean ====
section
/-! DEFINITION. RAM as a list of (address, byte) pairs in one canonical form: addresses strictly rising and below `RAM_SIZE`,
no byte equal to what an unlisted address reads as (R45, R60; log 2). -/

namespace Sys2Proof.Machine

/-- The byte at an address. -/
def Ram.read : List Host.Cell → Nat → Byte
  | [], _ => ramDefault
  | (k, b) :: rest, a => if k = a then b else Ram.read rest a

/-- Store a byte; storing what an unlisted address reads as removes the entry. -/
def Ram.write : List Host.Cell → Nat → Byte → List Host.Cell
  | [], a, v => if v = ramDefault then [] else [(a, v)]
  | (k, b) :: rest, a, v =>
    if a < k then (if v = ramDefault then (k, b) :: rest else (a, v) :: (k, b) :: rest)
    else if a = k then (if v = ramDefault then rest else (a, v) :: rest)
    else (k, b) :: Ram.write rest a v

/-- Canonical, with no address below `low`. -/
def Ram.wfFrom : Nat → List Host.Cell → Bool
  | _, [] => true
  | low, (k, b) :: rest => decide (low ≤ k) && decide (k < Config.ramSize) && (b != ramDefault) && Ram.wfFrom (k + 1) rest

/-- The canonical form. -/
def Ram.wf (m : List Host.Cell) : Bool := Ram.wfFrom 0 m

/-- The RAM byte at a 16-bit address, whatever overlay lies above it (R60, R64). -/
def State.ramAt (s : State) (a : Word) : Byte := Ram.read s.ram a.toNat

/-- Store to RAM, whatever overlay lies above (R60, R64). -/
def State.setRam (s : State) (a : Word) (v : Byte) : State := { s with ram := Ram.write s.ram a.toNat v }

end Sys2Proof.Machine
end

