-- ==== Sys2Proof/Machine/Timers.lean ====
section
/-! DEFINITION. Mikey's timers and audio channels: counting, firing and the linked cascade
(61_mikey.md R340 to R349, R358, R359). -/

namespace Sys2Proof.Machine

/-! ### Control fields, R342 -/

/-- Interrupt enable, control A bit 7. -/
def Timer.intEnabled (t : Timer) : Bool := bit t.ctl 7

/-- Reload enable, control A bit 4. -/
def Timer.reloads (t : Timer) : Bool := bit t.ctl 4

/-- Count enable, control A bit 3. -/
def Timer.enabled (t : Timer) : Bool := bit t.ctl 3

/-- Prescaler selector, control A bits 2:0. -/
def Timer.sel (t : Timer) : Nat := (t.ctl &&& 7).toNat

/-- Selector value 7 is "link" (R343, C4). -/
def Timer.linked (t : Timer) : Bool := t.sel == 7

/-- The done latch, control B bit 3. -/
def Timer.done (t : Timer) : Bool := bit t.status 3

/-- Clock period in ticks of selector `sel` (0 to 6), R343. -/
def clockPeriod (sel : Nat) : Nat := 16 * 2 ^ sel

/-! ### Counting -/

/-- One selected input edge (R345). The flag says whether the timer fired. -/
def Timer.count (t : Timer) : Timer × Bool :=
  if t.enabled && !t.stopped then
    if t.value = 0 then
      ({ t with
          status := t.status ||| bitMask 3
          value := if t.reloads then t.backup else 0
          stopped := !t.reloads }, true)
    else ({ t with value := t.value - 1 }, false)
  else (t, false)

/-- Bring a timer up to tick `now`: a linked timer takes the edge of its upstream timer's firing `up`, another the edge of
its prescaled clock when that is due (R343, R344, R347). An access charges fewer ticks than the shortest period, so that
one edge at most is due. -/
def Timer.upTo (now : Nat) (up : Bool) (t : Timer) : Timer × Bool :=
  if t.linked then (if up then t.count else (t, false))
  else if t.enabled && decide (t.deadline ≤ now) then
    ({ t.count.1 with deadline := t.deadline + clockPeriod t.sel }, t.count.2)
  else (t, false)

/-! ### Audio channels, R358, R359 -/

/-- The shift-register bits that can be tapped, each with whether it is. PRESUMED (log 16): feedback bits 0 to 5 are taps
0 to 5, bits 6 and 7 taps 10 and 11. -/
def Channel.taps (c : Channel) : List (Bool × Bool) :=
  [(bit c.feedback 0, c.shift.getLsbD 0), (bit c.feedback 1, c.shift.getLsbD 1), (bit c.feedback 2, c.shift.getLsbD 2),
   (bit c.feedback 3, c.shift.getLsbD 3), (bit c.feedback 4, c.shift.getLsbD 4), (bit c.feedback 5, c.shift.getLsbD 5),
   (bit c.timer.ctl 7, c.shift.getLsbD 7), (bit c.feedback 6, c.shift.getLsbD 10),
   (bit c.feedback 7, c.shift.getLsbD 11)]

/-- The new bit 0: the inverted exclusive-or of the tapped bits. -/
def Channel.newBit (c : Channel) : Bool := !(c.taps.foldl (fun p t => p ^^ (t.1 && t.2)) false)

/-- An integer saturated at -128 and 127. -/
def saturate (v : Int) : Byte := u8 (if v < -128 then -128 else if v > 127 then 127 else v)

/-- `-volume`; of -128 a free value, as no signed byte is its negation (log 16). -/
def negatedVolume (unit now : Nat) (volume : Byte) : Byte :=
  if volume = 0x80 then Config.negatedMin unit now else -volume

/-- One firing: the shift register advances and the output is recomputed (control bit 5 is integrate mode). -/
def Channel.fire (unit now : Nat) (c : Channel) : Channel :=
  { c with
    shift := (c.shift <<< 1) ||| (if c.newBit then 1 else 0)
    output :=
      if bit c.timer.ctl 5 then
        saturate (if c.newBit then c.output.toInt + c.volume.toInt else c.output.toInt - c.volume.toInt)
      else if c.newBit then c.volume
      else negatedVolume unit now c.volume }

/-- Bring a channel up to tick `now`; `unit` is its number. -/
def Channel.upTo (unit now : Nat) (up : Bool) (c : Channel) : Channel × Bool :=
  let r := c.timer.upTo now up
  if r.2 then (({ c with timer := r.1 }).fire unit now, true) else ({ c with timer := r.1 }, false)

/-! ### The cascade -/

/-- The state of all timers and channels after bringing them up to a tick, and which timers fired. -/
structure Cascade where
  timers : Vector Timer 8
  channels : Vector Channel 4
  fired : Vector Bool 8

/-- The fixed link topology (R344): 0 → 2 → 4; 1 → 3 → 5 → 7 → audio 0 → 1 → 2 → 3; 6 stands alone; nothing feeds 0, 1
and 6 (C12). -/
def cascade (now : Nat) (t : Vector Timer 8) (ch : Vector Channel 4) : Cascade :=
  let r0 := t[0].upTo now false
  let r2 := t[2].upTo now r0.2
  let r4 := t[4].upTo now r2.2
  let r1 := t[1].upTo now false
  let r3 := t[3].upTo now r1.2
  let r5 := t[5].upTo now r3.2
  let r7 := t[7].upTo now r5.2
  let r6 := t[6].upTo now false
  let a0 := ch[0].upTo 0 now r7.2
  let a1 := ch[1].upTo 1 now a0.2
  let a2 := ch[2].upTo 2 now a1.2
  let a3 := ch[3].upTo 3 now a2.2
  { timers := #v[r0.1, r1.1, r2.1, r3.1, r4.1, r5.1, r6.1, r7.1]
    channels := #v[a0.1, a1.1, a2.1, a3.1]
    fired := #v[r0.2, r1.2, r2.2, r3.2, r4.2, r5.2, r6.2, r7.2] }

/-- Bit `i` of the pending byte is set when timer `i` fires with its interrupt enable set (R347, R364). -/
def firedMask (t : Vector Timer 8) (fired : Vector Bool 8) : Byte :=
  (if fired[0] && t[0].intEnabled then bitMask 0 else 0) ||| (if fired[1] && t[1].intEnabled then bitMask 1 else 0) |||
  (if fired[2] && t[2].intEnabled then bitMask 2 else 0) ||| (if fired[3] && t[3].intEnabled then bitMask 3 else 0) |||
  (if fired[4] && t[4].intEnabled then bitMask 4 else 0) ||| (if fired[5] && t[5].intEnabled then bitMask 5 else 0) |||
  (if fired[6] && t[6].intEnabled then bitMask 6 else 0) ||| (if fired[7] && t[7].intEnabled then bitMask 7 else 0)

/-! ### Register access, R341, R342, R349, R359 -/

/-- A write of control A at tick `now`: bit 6 clears the done latch; a newly enabled or newly selected prescaled clock has
its next edge one to one period of ticks away, its phase being free (log 12, N14). -/
def Timer.writeCtl (unit now : Nat) (v : Byte) (t : Timer) : Timer :=
  let sel' := (v &&& 7).toNat
  { t with
    ctl := v
    status := if bit v 6 then t.status &&& ~~~(bitMask 3) else t.status
    deadline :=
      if t.enabled && t.sel == sel' then t.deadline
      else now + 1 + Config.timerPhase unit now % clockPeriod sel' }

/-- A write of the counter sets the current value and lets a stopped timer count again (R341, R345; log 13). -/
def Timer.writeValue (v : Byte) (t : Timer) : Timer := { t with value := v, stopped := false }

/-- Register `r` (0 to 3) of a timer as read. -/
def Timer.readReg (r : Nat) (t : Timer) : Byte :=
  match r with
  | 0 => t.backup
  | 1 => t.ctl
  | 2 => t.value
  | _ => t.status

/-- A write of register `r` (0 to 3) of timer `unit` at tick `now`. -/
def Timer.writeReg (unit now r : Nat) (v : Byte) (t : Timer) : Timer :=
  match r with
  | 0 => { t with backup := v }
  | 1 => t.writeCtl unit now v
  | 2 => t.writeValue v
  | _ => { t with status := v }

/-- Register `r` (0 to 7) of an audio channel as read. -/
def Channel.readReg (r : Nat) (c : Channel) : Byte :=
  match r with
  | 0 => c.volume
  | 1 => c.feedback
  | 2 => c.output
  | 3 => c.shift.setWidth 8
  | 4 => c.timer.backup
  | 5 => c.timer.ctl
  | 6 => c.timer.value
  | _ => joinNib (c.shift.extractLsb' 8 4) (loNib c.timer.status)

/-- A write of register `r` (0 to 7) of audio channel `unit` at tick `now`. Its clock's phase is drawn under the number
`8 + unit`. -/
def Channel.writeReg (unit now r : Nat) (v : Byte) (c : Channel) : Channel :=
  match r with
  | 0 => { c with volume := v }
  | 1 => { c with feedback := v }
  | 2 => { c with output := v }
  | 3 => { c with shift := c.shift.extractLsb' 8 4 ++ v }
  | 4 => { c with timer := { c.timer with backup := v } }
  | 5 => { c with timer := c.timer.writeCtl (8 + unit) now v }
  | 6 => { c with timer := c.timer.writeValue v }
  | _ => { c with shift := hiNib v ++ c.shift.setWidth 8, timer := { c.timer with status := joinNib 0 (loNib v) } }

end Sys2Proof.Machine
end

