-- ==== Sys2Proof/Machine/Serial.lean ====
section
/-! DEFINITION. The ComLynx transceiver, one pulse per bit time, with the per-bit and the coarse back-end
(63_comlynx_cart.md R430 to R441). -/

namespace Sys2Proof.Machine

/-! ### SERCTL fields as written, R432 -/

/-- `TXINTEN`. -/
def Serial.txIntEn (p : Serial) : Bool := bit p.ctl 7

/-- `PAREN`. -/
def Serial.parEn (p : Serial) : Bool := bit p.ctl 4

/-- `TXBRK`. -/
def Serial.txBrk (p : Serial) : Bool := bit p.ctl 1

/-- PAREVEN: even parity. -/
def Serial.parEven (p : Serial) : Bool := bit p.ctl 0

/-! ### Parity and the wire -/

/-- The exclusive-or of the eight bits. -/
def xorBits (b : Byte) : Bool :=
  bit b 0 ^^ bit b 1 ^^ bit b 2 ^^ bit b 3 ^^ bit b 4 ^^ bit b 5 ^^ bit b 6 ^^ bit b 7

/-- The parity bit of a byte: its exclusive-or for even parity, the complement for odd (R434). -/
def Serial.parityOf (p : Serial) (b : Byte) : Bool := if p.parEven then xorBits b else !(xorBits b)

/-- The wire's level from the parties' pulling flags: low when any pulls (R430). -/
def wire (pulling peer : Bool) : Bool := !(pulling || peer)

/-! ### Transmitter, R433, R435 -/

/-- The idle rule, which the stop state applies in the same pulse. -/
def Serial.txIdle (p : Serial) : Serial :=
  if p.txFull then { p with txShift := p.txBuf, txFull := false, tx := .start, pulling := true }
  else { p with tx := .idle, pulling := false }

/-- The transmitter's move in a pulse, before `TXBRK` is looked at. -/
def Serial.txMove (p : Serial) : Serial :=
  match p.tx with
  | .idle => p.txIdle
  | .start => { p with tx := .data 0, pulling := !(bit p.txShift 0) }
  | .data k =>
    if k < 7 then { p with tx := .data (k + 1), pulling := !(bit p.txShift (k + 1)) }
    else if p.parEn then { p with tx := .parity, pulling := !(p.parityOf p.txShift) }
    else { p with tx := .stop, pulling := false }
  | .parity => { p with tx := .stop, pulling := false }
  | .stop => p.txIdle

/-- The transmitter's part of a pulse: `TXBRK` forces continuous low in every state (R435). -/
def Serial.txPulse (p : Serial) : Serial :=
  let q := p.txMove
  { q with pulling := q.pulling || p.txBrk }

/-! ### Receiver, R437 to R439 -/

/-- SERCTL read bit 0 after a byte: the parity bit it came with; without one a free value (log 40). -/
def Serial.parityShown (now : Nat) (p : Serial) : Bool := if p.parEn then p.rxPar else Config.strayParity now

/-- A byte arrives with stop level `w`: the errors, then delivery (R437, R438, D40). DESIGN CHOICE (log 40): SERCTL read bit 0
changes here, with the buffer, and not when the parity bit is sampled. -/
def Serial.deliver (now : Nat) (w : Bool) (p : Serial) : Serial :=
  { p with
    framErr := p.framErr || !w
    parErr := p.parErr || (p.parEn && p.rxPar != p.parityOf p.rxShift)
    overrun := p.overrun || p.rxFull
    rxBuf := p.rxShift
    rxFull := true
    parBit := p.parityShown now
    rx := .idle }

/-- The receiver's move in a pulse on wire level `w`. -/
def Serial.rxMove (now : Nat) (w : Bool) (p : Serial) : Serial :=
  match p.rx with
  | .idle => if p.prevW && !w then { p with rx := .data 0 } else p
  | .data k =>
    { p with
      rxShift := if w then p.rxShift ||| bitMask k else p.rxShift &&& ~~~(bitMask k)
      rx := if k < 7 then .data (k + 1) else if p.parEn then .parity else .stop }
  | .parity => { p with rxPar := w, rx := .stop }
  | .stop => p.deliver now w

/-- The break counter and the level to be remembered (R437, R439). -/
def Serial.heed (w : Bool) (p : Serial) : Serial :=
  let low := if w then 0 else p.lowRun + 1
  { p with lowRun := low, rxBrk := p.rxBrk || low == 25, prevW := w }

/-- The receiver's part of a pulse. -/
def Serial.rxPulse (now : Nat) (w : Bool) (p : Serial) : Serial := (p.rxMove now w).heed w

/-- One pulse of this party against a peer's level: the transmitters act before the receivers sample (R431, D40). -/
def Serial.pulse (now : Nat) (peer : Bool) (p : Serial) : Serial :=
  let q := p.txPulse
  q.rxPulse now (wire q.pulling peer)

/-! ### The coarse back-end, R440 -/

/-- A byte with its coded parity bit reaches the receiver whole. -/
def Serial.accept (now : Nat) (frame : Byte × Bool) (p : Serial) : Serial :=
  ({ p with rxShift := frame.1, rxPar := frame.2 }).deliver now true

/-- The byte that the transmitter completes in this pulse, as its stop state begins; without parity the released wire stands
in the parity bit's place. -/
def Serial.completed (p : Serial) : Option (Byte × Bool) :=
  if p.tx = .stop then some (p.txShift, if p.parEn then p.parityOf p.txShift else true) else none

/-- One pulse under the coarse back-end: the transmitter keeps its timing, bytes travel whole, and only a break holds the wire
low (log 43). -/
def Serial.coarsePulse (now : Nat) (peer : Bool) (frame : Option (Byte × Bool)) (p : Serial) : Serial :=
  let q := { p.txMove with pulling := p.txBrk }
  let r := match q.completed with
    | some f => q.accept now f
    | none => q
  let u := match frame with
    | some f => r.accept now f
    | none => r
  u.heed (wire u.pulling peer)

/-- One pulse under either back-end, at tick `now`, with the peer's level and what it has sent whole. -/
def Serial.pulseWith (backend : ComlynxBackend) (now : Nat) (peer : Bool) (frame : Option (Byte × Bool)) (p : Serial) : Serial :=
  match backend with
  | .perBit => p.pulse now peer
  | .coarse => p.coarsePulse now peer frame

/-! ### Interrupt and registers -/

/-- The serial interrupt request, a level (R436). -/
def Serial.irq (p : Serial) : Bool := p.txIntEn && !p.txFull

/-- SERCTL as read (R432). -/
def Serial.readCtl (p : Serial) : Byte :=
  (if !p.txFull then bitMask 7 else 0) ||| (if p.rxFull then bitMask 6 else 0) |||
  (if p.tx = .idle ∧ p.txFull = false then bitMask 5 else 0) ||| (if p.parErr then bitMask 4 else 0) |||
  (if p.overrun then bitMask 3 else 0) ||| (if p.framErr then bitMask 2 else 0) |||
  (if p.rxBrk then bitMask 1 else 0) ||| (if p.parBit then bitMask 0 else 0)

/-- A write of SERCTL; bit 3 clears the error bits (R432). -/
def Serial.writeCtl (v : Byte) (p : Serial) : Serial :=
  if bit v 3 then { p with ctl := v, framErr := false, parErr := false, overrun := false, rxBrk := false }
  else { p with ctl := v }

/-- A write of SERDAT loads the transmit buffer (R432). -/
def Serial.writeData (v : Byte) (p : Serial) : Serial := { p with txBuf := v, txFull := true }

/-- The effect of a read of SERDAT: the receive buffer is empty (R432). -/
def Serial.readDataEffect (p : Serial) : Serial := { p with rxFull := false }

end Sys2Proof.Machine
end

