-- ==== Sys2Proof/Machine/Video.lean ====
section
/-! DEFINITION. Palette, display line fetch and frame completion (61_mikey.md R348, R350 to R357), as far as they do not
charge ticks. -/

namespace Sys2Proof.Machine

/-- A 4-bit component expanded to 8 bits, `c * 17` (R357). -/
def expand (c : Nibble) : Byte := c.setWidth 8 * 17

/-- ARGB entry `pen`, recomposed from its two register bytes (R356, R357). -/
def Io.paletteEntry (io : Io) (pen : Nibble) : Argb :=
  let g := io.green[pen.toNat]'pen.isLt
  let br := io.blueRed[pen.toNat]'pen.isLt
  (0xFF : Byte) ++ expand (loNib br) ++ expand (loNib g) ++ expand (hiNib br)

/-- The address of the next display read, `base + line * 80 + k` (R351). -/
def Video.address (v : Video) : Word :=
  v.base + BitVec.ofNat 16 (v.line * Config.lineBytes + v.fetched)

/-- The two pixels of a display byte, the high nibble's on the left (R351). -/
def Io.pixels (io : Io) (b : Byte) : List Argb := [io.paletteEntry (hiNib b), io.paletteEntry (loNib b)]

/-- A line of 80 bytes is complete: it is emitted, and after 102 lines the frame is committed to the sink (R352, R353). -/
def Video.emitLine (v : Video) : Video :=
  let frame' := v.frame ++ v.lineBuf
  if v.line + 1 = Config.frameLines then
    { v with
      line := v.line + 1, fetched := 0, lineBuf := [], frame := [], sink := frame', frames := v.frames + 1 }
  else { v with line := v.line + 1, fetched := 0, lineBuf := [], frame := frame' }

/-- One display byte has been read and expanded. -/
def Video.take (px : List Argb) (v : Video) : Video :=
  let v' := { v with fetched := v.fetched + 1, lineBuf := v.lineBuf ++ px }
  if v.fetched + 1 = Config.lineBytes then v'.emitLine else v'

/-- A line's fetch begins; the first line of a frame samples DISPADR (R351, R353). -/
def Video.startLine (dispadr : Word) (v : Video) : Video :=
  { v with fetched := 0, lineBuf := [], base := if v.line = 0 then dispadr else v.base }

/-- Timer 2 fires: the frame period ends and the next frame starts at line 0 (R348, D36; log 14). -/
def Video.endPeriod (v : Video) : Video := { v with line := 0, fetched := 0, lineBuf := [], frame := [] }

end Sys2Proof.Machine
end

