-- ==== Sys2Proof/Machine/Mikey.lean ====
section
/-! DEFINITION. Simulated time (64_bus_scheduler.md R462 to R473), the device actions, the audio mixer and Mikey's register
file (61_mikey.md). -/

namespace Sys2Proof.Machine

/-! ### Ticks and timers -/

/-- The charge of an access at `a`: `TICKS_PAGE` in the page of the previous access, else, and always for a device register
or with MAPCTL bit 7 set, `TICKS_NORMAL` (R462, R463). -/
def Io.chargeOf (io : Io) (mapctl : Byte) (isReg : Bool) (a : Word) : Nat :=
  if !isReg && !(bit mapctl 7) && (io.lastAddr.map hi == some (hi a)) then Config.ticksPage else Config.ticksNormal

/-- The deadline of the input edge on which timer 2 fires: its own clock's, or that of timer 0 if linked (R344). -/
def Io.edgeOf2 (io : Io) : Nat := if io.timers[2].linked then io.timers[0].deadline else io.timers[2].deadline

/-- What the firing of timers 0 and 2 queues, each under the deadline of its edge: the Mikey-line action and the end of the
frame period (R348, R470). -/
def Io.roles (fired0 fired2 : Bool) (edge0 edge2 : Nat) (io : Io) : Io :=
  { io with
    lineDue := if fired0 then some edge0 else io.lineDue
    frameDue := if fired2 then some edge2 else io.frameDue }

/-- Bring all timers and channels up to `tick` (R347, R465). -/
def Io.runTimers (io : Io) : Io :=
  let r := cascade io.tick io.timers io.channels
  Io.roles r.fired[0] r.fired[2] io.timers[0].deadline io.edgeOf2
    { io with
      timers := r.timers
      channels := r.channels
      pending := io.pending ||| firedMask io.timers r.fired }

/-- Simulated time moves on by `ticks` (R465). -/
def Io.elapse (ticks : Nat) (io : Io) : Io := Io.runTimers { io with tick := io.tick + ticks }

/-- The clock's part of a bus access: the charge, with the timers brought up to it, before the master continues (R462,
R465). -/
def Io.access (mapctl : Byte) (isReg : Bool) (a : Word) (io : Io) : Io :=
  { io.elapse (io.chargeOf mapctl isReg a) with lastAddr := some a }

/-! ### Device actions -/

/-- The frame period ends: the next frame starts at line 0 (R348, D36; log 14). -/
def Io.frameAction (io : Io) : Io := { io with frameDue := none, pixelDue := none, video := io.video.endPeriod }

/-- The ticks until timer 0 fires next, as it stands; none if it will not (R346). -/
def Io.lineLeft (io : Io) : Option Nat :=
  let t := io.timers[0]
  if t.enabled && !t.linked && !t.stopped then some (t.deadline + t.value.toNat * clockPeriod t.sel - io.tick) else none

/-- The ticks from now to the next of the `left` reads this line still needs: a free value, within what keeps 10 ticks for
each of them before the line ends (R352; log 15). It may take all of the slack, so that the reads may come late in the line. -/
def Io.gap (left : Nat) (io : Io) : Nat :=
  match io.lineLeft with
  | some avail => Config.dmaGap io.tick % (1 + (avail - 10 * left))
  | none => Config.dmaGap io.tick

/-- Action Mikey-line: a display line starts, unless the frame is complete (R348, R351; log 14, log 15). -/
def Io.lineAction (io : Io) : Io :=
  if io.video.line < Config.frameLines then
    { io with
      lineDue := none, pixelDue := some (io.tick + io.gap Config.lineBytes), video := io.video.startLine io.dispadr }
  else { io with lineDue := none }

/-- The display byte `b` read by DMA is expanded, and the next read of the line is queued. -/
def Io.takeByte (b : Byte) (io : Io) : Io :=
  { io with
    video := io.video.take (io.pixels b)
    pixelDue :=
      if io.video.fetched + 1 = Config.lineBytes then none
      else some (io.tick + io.gap (Config.lineBytes - io.video.fetched - 1)) }

/-- The queued line start comes before the queued end of the frame period (R471, R472). -/
def Io.lineFirst (io : Io) : Bool :=
  match io.lineDue, io.frameDue with
  | some l, some f => decide (l < f)
  | _, _ => false

/-- The frame period ends, after the line start if one is queued with an earlier deadline (R77, R473). -/
def Io.endFrame (io : Io) : Io := if io.lineFirst then io.lineAction.frameAction else io.frameAction

/-- Action Mikey-pixel: one DMA read of the display, charged like any access and with the timers brought up to date before the
byte is taken (R351, R352, R465, R466). A frame period that ends in its ticks ends first, and the byte is dropped (log 14). -/
def Io.pixelAction (mapctl : Byte) (ram : List Host.Cell) (io : Io) : Io :=
  let t := Io.access mapctl false io.video.address io
  if t.frameDue.isSome && io.frameDue.isNone then t.endFrame else t.takeByte (Ram.read ram io.video.address.toNat)

/-- The latest entry of a time-stamped input at tick `now`, the latest entry standing first (R476). -/
def levelAt (now : Nat) : List (Nat × Bool) → Bool
  | [] => false
  | (since, level) :: rest => if since ≤ now then level else levelAt now rest

/-- What the peer sends whole in the pulse at tick `now` (R440). -/
def frameAt (now : Nat) : List (Nat × Byte × Bool) → Option (Byte × Bool)
  | [] => none
  | (stamp, frame) :: rest => if stamp = now then some frame else frameAt now rest

/-- Action ComLynx-pulse, which queues its next occurrence (R431); the peer's flag is its flag at this bit time (R430). -/
def Io.pulseAction (inputs : Inputs) (io : Io) : Io :=
  { io with
    serial :=
      io.serial.pulseWith Config.comlynxBackend io.pulseDue (levelAt io.pulseDue inputs.peer)
        (frameAt io.pulseDue inputs.peerFrames)
    pulseDue := io.pulseDue + Config.serialBitTicks }

/-! ### The queue, R470 to R473 -/

/-- The device actions that the queue holds, in the order of their priority (R472). -/
inductive Device
  /-- The role of timer 2. -/
  | frame
  | line
  | pixel
  | pulse
  deriving DecidableEq, Repr

/-- An entry of the queue, if it is queued. -/
def entry (due : Option Nat) (d : Device) : List (Nat × Device) :=
  match due with
  | some n => [(n, d)]
  | none => []

/-- The queued device actions with their deadlines (R471): at most one of a kind. -/
def Io.queue (io : Io) : List (Nat × Device) :=
  entry io.frameDue .frame ++ entry io.lineDue .line ++ entry io.pixelDue .pixel ++ [(io.pulseDue, .pulse)]

/-- The entry with the earliest deadline, the first one of a tie (R472, R473). -/
def earliest : List (Nat × Device) → Option (Nat × Device)
  | [] => none
  | e :: rest =>
    match earliest rest with
    | some f => if e.1 ≤ f.1 then some e else some f
    | none => some e

/-- Run a device action (R464: to completion). -/
def Io.run (mapctl : Byte) (ram : List Host.Cell) (inputs : Inputs) (d : Device) (io : Io) : Io :=
  match d with
  | .frame => io.frameAction
  | .line => io.lineAction
  | .pixel => io.pixelAction mapctl ram
  | .pulse => io.pulseAction inputs

/-- What happens before the bus master's continuation, which is queued at `masterDue` behind the device actions of the same
deadline (R472, R473): the earliest device action that is due, else one tick of time; none when the master is next. DEDUCED
(log 10): an action whose deadline lies inside the ticks of an access runs at the tick at which the access ends. -/
def Io.beat (mapctl : Byte) (ram : List Host.Cell) (inputs : Inputs) (io : Io) : Option Io :=
  match earliest io.queue with
  | some (due, d) =>
    if due ≤ io.tick ∧ due ≤ io.masterDue then some (io.run mapctl ram inputs d)
    else if io.tick < io.masterDue then some (io.elapse 1)
    else none
  | none => none

/-- Beats until the master is next, at most `n`. -/
def Io.settle (mapctl : Byte) (ram : List Host.Cell) (inputs : Inputs) : Nat → Io → Io
  | 0, io => io
  | n + 1, io =>
    match io.beat mapctl ram inputs with
    | some io' => Io.settle mapctl ram inputs n io'
    | none => io

/-- A bound on the beats before the master is next: each is a tick, or one of the few actions due in a tick. -/
def Io.beats (io : Io) : Nat := 6 * (io.masterDue - io.tick) + 64

/-- The deadlines ahead: of the queue, of the clocked timers and channels, and of the master (R470). -/
def Io.deadlines (io : Io) : List Nat :=
  io.masterDue :: io.queue.map (fun e => e.1) ++
    ((io.timers.toList ++ io.channels.toList.map (fun c => c.timer)).filter fun t => t.enabled && !t.linked).map
      (fun t => t.deadline)

/-! ### Interrupt aggregation -/

/-- The pending byte as seen by the CPU: the serial port's level stands in bit 4 (R364, R366). -/
def Io.pendingNow (io : Io) : Byte := io.pending ||| (if io.serial.irq then bitMask 4 else 0)

/-- `irq_line` (R365). -/
def Io.irqLine (io : Io) : Bool := io.pendingNow != 0

/-! ### Mixer, R360 -/

/-- The gain of channel `c` in sixteenths; `shift` is 4 for the left ear and 0 for the right (log 16, log 17). -/
def Io.gain16 (io : Io) (shift : Nat) (c : Fin 4) : Int :=
  if bit io.stereo (shift + c.val) then 0
  else if bit io.attenEnable (shift + c.val) then
    if shift = 4 then (hiNib io.atten[c]).toNat else (loNib io.atten[c]).toNat
  else 16

/-- One ear's sample in sixteenths. -/
def Io.ear16 (io : Io) (shift : Nat) : Int :=
  io.channels[0].output.toInt * io.gain16 shift 0 + io.channels[1].output.toInt * io.gain16 shift 1 +
  io.channels[2].output.toInt * io.gain16 shift 2 + io.channels[3].output.toInt * io.gain16 shift 3

/-- The stereo sample (left, right) in sixteenths of an output unit. -/
def Io.mixer (io : Io) : Int × Int := (io.ear16 4, io.ear16 0)

/-! ### Register file, page $FD -/

/-- The level of pin `k` of the parallel port: the written value if it is an output, else the external level (R446). -/
def Cart.readIodat (c : Cart) (pins : Byte) : Byte := (c.iodat &&& c.iodir) ||| (pins &&& ~~~c.iodir)

/-- The byte a CPU read of $FD00 + `o` returns; $FF where no register can be read (R62). -/
def Io.readReg (io : Io) (cart : Cart) (pins : Byte) (o : Nat) : Byte :=
  if h : o < 0x20 then (io.timers[o / 4]'(by omega)).readReg (o % 4)
  else if h : o < 0x40 then (io.channels[(o - 0x20) / 8]'(by omega)).readReg (o % 8)
  else if h : 0x40 ≤ o ∧ o < 0x44 then io.atten[o - 0x40]'(by omega)
  else if h : 0xA0 ≤ o ∧ o < 0xB0 then io.green[o - 0xA0]'(by omega)
  else if h : 0xB0 ≤ o ∧ o < 0xC0 then io.blueRed[o - 0xB0]'(by omega)
  else
    match o with
    | 0x44 => io.attenEnable
    | 0x50 => io.stereo
    | 0x80 => io.pendingNow
    | 0x81 => io.pendingNow
    | 0x8A => cart.iodir
    | 0x8B => cart.readIodat pins
    | 0x8C => io.serial.readCtl
    | 0x8D => io.serial.rxBuf
    | 0x94 => lo io.dispadr
    | 0x95 => hi io.dispadr
    | _ => 0xFF

/-- What a CPU read of $FD00 + `o` changes: SERDAT's full flag (R432). -/
def Io.readEffect (o : Nat) (io : Io) : Io :=
  { io with serial := if o = 0x8D then io.serial.readDataEffect else io.serial }

/-- A CPU write of $FD00 + `o`, as far as it concerns Mikey and the serial port. INTRST clears, INTSET sets (R364). -/
def Io.writeReg (o : Nat) (v : Byte) (io : Io) : Io :=
  if h : o < 0x20 then
    { io with timers := io.timers.set (o / 4) ((io.timers[o / 4]'(by omega)).writeReg (o / 4) io.tick (o % 4) v) (by omega) }
  else if h : o < 0x40 then
    { io with
      channels := io.channels.set ((o - 0x20) / 8)
        ((io.channels[(o - 0x20) / 8]'(by omega)).writeReg ((o - 0x20) / 8) io.tick (o % 8) v) (by omega) }
  else if h : 0x40 ≤ o ∧ o < 0x44 then { io with atten := io.atten.set (o - 0x40) v (by omega) }
  else if h : 0xA0 ≤ o ∧ o < 0xB0 then { io with green := io.green.set (o - 0xA0) v (by omega) }
  else if h : 0xB0 ≤ o ∧ o < 0xC0 then { io with blueRed := io.blueRed.set (o - 0xB0) v (by omega) }
  else
    match o with
    | 0x44 => { io with attenEnable := v }
    | 0x50 => { io with stereo := v }
    | 0x80 => { io with pending := io.pending &&& ~~~v }
    | 0x81 => { io with pending := io.pending ||| v }
    | 0x8C => { io with serial := io.serial.writeCtl v }
    | 0x8D => { io with serial := io.serial.writeData v }
    | 0x94 => { io with dispadr := setLo io.dispadr v }
    | 0x95 => { io with dispadr := setHi io.dispadr v }
    | _ => io

/-- A CPU write of $FD00 + `o`, as far as it concerns the cartridge: a rising strobe in SYSCTL1 bit 0 shifts
`CART_ADDR_DATA` (IODAT bit 1) into the shift register and clears the counter (R444, R446). -/
def Cart.writeMikeyReg (o : Nat) (v : Byte) (c : Cart) : Cart :=
  match o with
  | 0x87 =>
    if bit v 0 && !(bit c.sysctl1 0) then
      { c with
        sysctl1 := v, counter := 0
        shiftReg := (c.shiftReg <<< 1) ||| (if bit c.iodat 1 then 1 else 0) }
    else { c with sysctl1 := v }
  | 0x8A => { c with iodir := v }
  | 0x8B => { c with iodat := v }
  | _ => c

end Sys2Proof.Machine
end

