-- ==== Sys2Proof/Machine/SuzyRegs.lean ====
section
/-! DEFINITION. Suzy's register file in page $FC, the input registers and the cartridge ports (62_suzy.md R382 to R384,
R417, R418; 63_comlynx_cart.md R443 to R445). The sprite engine is in Machine/Suzy.lean. -/

namespace Sys2Proof.Machine

/-! ### Fields of the control bytes, R382 -/

/-- Bits per pixel, 1 to 4: SPRCTL0 bits 7:6 plus 1. -/
def Suzy.bpp (z : Suzy) : Nat := (z.sprctl0.extractLsb' 6 2).toNat + 1

/-- SPRCTL0 bit 5. -/
def Suzy.hFlip (z : Suzy) : Bool := bit z.sprctl0 5

/-- SPRCTL0 bit 4. -/
def Suzy.vFlip (z : Suzy) : Bool := bit z.sprctl0 4

/-- Sprite type, SPRCTL0 bits 2:0. -/
def Suzy.kind (z : Suzy) : Nat := (z.sprctl0 &&& 7).toNat

/-- SPRCTL1 bit 7. -/
def Suzy.isLiteral (z : Suzy) : Bool := bit z.sprctl1 7

/-- Reload field, SPRCTL1 bits 5:4: 0 NONE, 1 HV, 2 HVS, 3 HVST. -/
def Suzy.reloadField (z : Suzy) : Nat := (z.sprctl1.extractLsb' 4 2).toNat

/-- SPRCTL1 bit 3: do not read a palette. -/
def Suzy.reusePalette (z : Suzy) : Bool := bit z.sprctl1 3

/-- SPRCTL1 bit 2. -/
def Suzy.skip (z : Suzy) : Bool := bit z.sprctl1 2

/-- SPRCTL1 bit 1: start drawing up. -/
def Suzy.startUp (z : Suzy) : Bool := bit z.sprctl1 1

/-- SPRCTL1 bit 0: start drawing left. -/
def Suzy.startLeft (z : Suzy) : Bool := bit z.sprctl1 0

/-- The collision number, SPRCOLL bits 3:0. -/
def Suzy.collNumber (z : Suzy) : Nibble := loNib z.sprcoll

/-- SPRSYS bit 5, global no-collide. -/
def Suzy.sysNoCollide (z : Suzy) : Bool := bit z.sprsys 5

/-- SPRSYS bit 4, vertical stretch. -/
def Suzy.vStretch (z : Suzy) : Bool := bit z.sprsys 4

/-- SPRSYS bit 1, the stop bit. -/
def Suzy.stopBit (z : Suzy) : Bool := bit z.sprsys 1

/-! ### The sixteen-bit registers $FC00 to $FC2F -/

/-- The 16-bit register at the even offset `o` below $30. -/
def Suzy.wordReg (z : Suzy) (o : Nat) : Word :=
  match o with
  | 0x00 => z.tmpadr
  | 0x02 => z.tiltacum
  | 0x04 => z.hoff
  | 0x06 => z.voff
  | 0x08 => z.vidbas
  | 0x0A => z.collbas
  | 0x0C => z.vidadr
  | 0x0E => z.colladr
  | 0x10 => z.scbnext
  | 0x12 => z.sprdline
  | 0x14 => z.hposstrt
  | 0x16 => z.vposstrt
  | 0x18 => z.sprhsiz
  | 0x1A => z.sprvsiz
  | 0x1C => z.stretch
  | 0x1E => z.tilt
  | 0x20 => z.sprdoff
  | 0x22 => z.sprvpos
  | 0x24 => z.colloff
  | 0x26 => z.vsizacum
  | 0x28 => z.hsizoff
  | 0x2A => z.vsizoff
  | 0x2C => z.scbadr
  | _ => z.procadr

/-- Write the 16-bit register at the even offset `o` below $30. -/
def Suzy.setWordReg (z : Suzy) (o : Nat) (w : Word) : Suzy :=
  match o with
  | 0x00 => { z with tmpadr := w }
  | 0x02 => { z with tiltacum := w }
  | 0x04 => { z with hoff := w }
  | 0x06 => { z with voff := w }
  | 0x08 => { z with vidbas := w }
  | 0x0A => { z with collbas := w }
  | 0x0C => { z with vidadr := w }
  | 0x0E => { z with colladr := w }
  | 0x10 => { z with scbnext := w }
  | 0x12 => { z with sprdline := w }
  | 0x14 => { z with hposstrt := w }
  | 0x16 => { z with vposstrt := w }
  | 0x18 => { z with sprhsiz := w }
  | 0x1A => { z with sprvsiz := w }
  | 0x1C => { z with stretch := w }
  | 0x1E => { z with tilt := w }
  | 0x20 => { z with sprdoff := w }
  | 0x22 => { z with sprvpos := w }
  | 0x24 => { z with colloff := w }
  | 0x26 => { z with vsizacum := w }
  | 0x28 => { z with hsizoff := w }
  | 0x2A => { z with vsizoff := w }
  | 0x2C => { z with scbadr := w }
  | _ => { z with procadr := w }

/-- A write of one byte of a 16-bit register. Whether writing the low byte clears the high one is a free value (log 19,
N20). -/
def Suzy.writeWordByte (z : Suzy) (o : Nat) (v : Byte) : Suzy :=
  if o % 2 = 1 then z.setWordReg (o - 1) (setHi (z.wordReg (o - 1)) v)
  else z.setWordReg o (join (if Config.lowWriteClearsHigh then 0 else hi (z.wordReg o)) v)

/-! ### Input registers, R418 -/

/-- JOYSTICK: up, down, left, right, opt1, opt2, B, A from bit 7 to bit 0. -/
def joystick (k : BitVec 9) : Byte :=
  (if k.getLsbD 1 then bitMask 7 else 0) ||| (if k.getLsbD 3 then bitMask 6 else 0) |||
  (if k.getLsbD 0 then bitMask 5 else 0) ||| (if k.getLsbD 2 then bitMask 4 else 0) |||
  (if k.getLsbD 4 then bitMask 3 else 0) ||| (if k.getLsbD 6 then bitMask 2 else 0) |||
  (if k.getLsbD 8 then bitMask 1 else 0) ||| (if k.getLsbD 7 then bitMask 0 else 0)

/-- SWITCHES: pause in bit 0; bits 7:1 are free (log 39). -/
def switches (k : BitVec 9) (tick : Nat) : Byte := Config.switchesHigh tick ++ (if k.getLsbD 5 then 1 else 0 : BitVec 1)

/-! ### Cartridge ports, R443, R445, R446 -/

/-- The address within a bank: 256 pages, the shift register selecting one (R443). -/
def Cart.current (c : Cart) (bank : List Byte) : Nat :=
  let pageSize := bank.length / 256
  (c.shiftReg.toNat <<< Nat.log2 pageSize) ||| (c.counter.toNat &&& (pageSize - 1))

/-- AUDIN as an output selects the "A" variant of a double-banked cartridge (R446). DESIGN CHOICE (log 27): while AUDIN is an
input the base bank is read, whatever the pin's level. -/
def Cart.selected (c : Cart) (base variant : List Byte) : List Byte :=
  if bit c.iodir 4 && bit c.iodat 4 && !variant.isEmpty then variant else base

/-- The byte at the current address of a bank, $FF beyond its size and for an absent bank (R445). -/
def Cart.byteOf (c : Cart) (bank : List Byte) : Byte := bank.getD (c.current bank) 0xFF

/-- RCART0. -/
def Cart.port0 (c : Cart) : Byte := c.byteOf (c.selected c.bank0 c.bank0A)

/-- RCART1. -/
def Cart.port1 (c : Cart) : Byte := c.byteOf (c.selected c.bank1 c.bank1A)

/-- What a CPU read of $FC00 + `o` changes: a cartridge port advances the counter (R445). -/
def Cart.readEffect (o : Nat) (c : Cart) : Cart :=
  { c with counter := if o = 0xB2 ∨ o = 0xB3 then c.counter + 1 else c.counter }

/-! ### The register file -/

/-- SPRSYS as read: bits 7:5 belong to the arithmetic unit and are free (R382, U5). -/
def Suzy.readSprsys (z : Suzy) (tick : Nat) : Byte :=
  Config.mathStatus tick ++
    ((z.sprsys &&& 0x1A) ||| (if z.badAccess then bitMask 2 else 0) ||| (if z.working then bitMask 0 else 0)).setWidth 5

/-- The byte a CPU read of $FC00 + `o` returns at tick `tick`; $FF in a hole (R62, R382, R417). -/
def Suzy.readReg (z : Suzy) (cart : Cart) (inp : Inputs) (tick o : Nat) : Byte :=
  if o < 0x30 then (if o % 2 = 0 then lo (z.wordReg o) else hi (z.wordReg (o - 1)))
  else if 0x52 ≤ o ∧ o < 0x70 then Config.mathByte o tick
  else
    match o with
    | 0x80 => z.sprctl0
    | 0x81 => z.sprctl1
    | 0x82 => z.sprcoll
    | 0x83 => z.sprinit
    | 0x88 => Config.suzyHrev
    | 0x90 => z.suzyBusEn
    | 0x91 => z.sprgo
    | 0x92 => z.readSprsys tick
    | 0xB0 => joystick inp.keypad
    | 0xB1 => switches inp.keypad tick
    | 0xB2 => cart.port0
    | 0xB3 => cart.port1
    | _ => 0xFF

/-- A write of SPRGO: with the GO bit the sprite engine starts and the CPU is halted (R384). -/
def Suzy.writeSprgo (v : Byte) (z : Suzy) : Suzy :=
  if bit v 0 then { z with sprgo := v, working := true, halted := true, everonEn := bit v 2, phase := .chain }
  else { z with sprgo := v }

/-- A CPU write of $FC00 + `o`; holes, read-only registers and the arithmetic unit ignore it (R382, R383, R417, R445). -/
def Suzy.writeReg (o : Nat) (v : Byte) (z : Suzy) : Suzy :=
  if o < 0x30 then z.writeWordByte o v
  else
    match o with
    | 0x80 => { z with sprctl0 := v }
    | 0x81 => { z with sprctl1 := v }
    | 0x82 => { z with sprcoll := v }
    | 0x83 => { z with sprinit := v }
    | 0x90 => { z with suzyBusEn := v }
    | 0x91 => z.writeSprgo v
    | 0x92 => { z with sprsys := v, badAccess := z.badAccess && !(bit v 2) }
    | _ => z

end Sys2Proof.Machine
end

