-- ==== Sys2Proof/Machine/Bus.lean ====
section
/-! DEFINITION. The bus: the memory map, the CPU's reads and writes, and the accesses of Suzy (20_memory.md R60 to R64,
R70 to R77; 64_bus_scheduler.md R460 to R466). An access charges its ticks and brings the timers up to date, then moves its
byte, then control is with the scheduler, which runs the device actions whose deadlines come before the master's
continuation (log 10). -/

namespace Sys2Proof.Machine

/-- The source that backs an address (R60). -/
inductive Backing
  | ram
  | suzy
  | mikey
  | rom
  | mapctl
  deriving DecidableEq, Repr

/-- The map of R61, first matching row, for the MAPCTL value `m`. -/
def backing (m : Byte) (a : Word) : Backing :=
  if a.toNat < 0xFC00 then .ram
  else if a.toNat < 0xFD00 then (if bit m 0 then .ram else .suzy)
  else if a.toNat < 0xFE00 then (if bit m 1 then .ram else .mikey)
  else if a.toNat < 0xFFF8 then (if bit m 2 then .ram else .rom)
  else if a = 0xFFF8 then .ram
  else if a = 0xFFF9 then .mapctl
  else (if bit m 3 then .ram else .rom)

/-- What backs `a` now. -/
def State.backingOf (s : State) (a : Word) : Backing := backing s.mapctl a

/-- The access is dispatched to a Suzy or Mikey register (R462). -/
def Backing.isReg : Backing → Bool
  | .suzy | .mikey => true
  | .ram | .rom | .mapctl => false

/-- The byte the CPU would read at `a` now, without any effect (R61, R62). -/
def State.peek (s : State) (a : Word) : Byte :=
  match s.backingOf a with
  | .ram => s.ramAt a
  | .suzy => s.suzy.readReg s.cart s.inputs s.io.tick (lo a).toNat
  | .mikey => s.io.readReg s.cart s.inputs.pins (lo a).toNat
  | .rom => romByte s.rom (a.toNat - 0xFE00)
  | .mapctl => s.mapctl

/-- The clock's part of an access by the CPU or Suzy, whose continuation is queued at its end (R462, R465, R475). -/
def Io.masterAccess (mapctl : Byte) (isReg : Bool) (a : Word) (io : Io) : Io :=
  { io.access mapctl isReg a with masterDue := (io.access mapctl isReg a).tick }

/-- The charge of an access, with the timers brought up to it (R462, R465). -/
def State.charge (s : State) (a : Word) : State :=
  { s with io := s.io.masterAccess s.mapctl (s.backingOf a).isReg a }

/-- What a read changes in a device (R72): SERDAT, RCART0, RCART1. -/
def State.readEffect (s : State) (a : Word) : State :=
  match s.backingOf a with
  | .mikey => { s with io := s.io.readEffect (lo a).toNat }
  | .suzy => { s with cart := s.cart.readEffect (lo a).toNat }
  | .ram | .rom | .mapctl => s

/-- One beat of the scheduler before the master's continuation; none when the master is next. -/
def State.beat (s : State) : Option State :=
  match s.io.beat s.mapctl s.ram s.inputs with
  | some io => some { s with io := io }
  | none => none

/-- Nothing comes before the master's continuation. -/
def State.settled (s : State) : Bool := (s.io.beat s.mapctl s.ram s.inputs).isNone

/-- Control is with the scheduler until the master is next (R464, R473). -/
def State.settle (s : State) : State := { s with io := s.io.settle s.mapctl s.ram s.inputs s.io.beats }

/-- `MemRead(a, 1)` by the CPU as one indivisible access (R12, R62, R71). -/
def State.rawRead (s : State) (a : Word) : Byte × State := ((s.charge a).peek a, (s.charge a).readEffect a)

/-- A read with what the scheduler runs before the master goes on. -/
def State.busRead (s : State) (a : Word) : Byte × State := ((s.rawRead a).1, (s.rawRead a).2.settle)

/-- The store of a write, by what backs the address (R63). -/
def State.store (s : State) (a : Word) (v : Byte) : State :=
  match s.backingOf a with
  | .ram => s.setRam a v
  | .suzy => { s with suzy := s.suzy.writeReg (lo a).toNat v }
  | .mikey => { s with io := s.io.writeReg (lo a).toNat v, cart := s.cart.writeMikeyReg (lo a).toNat v }
  | .rom => s
  | .mapctl => { s with mapctl := v }

/-- `MemWrite(a, 1, v)` by the CPU as one indivisible access (R12, R63, R71). -/
def State.rawWrite (s : State) (a : Word) (v : Byte) : State := (s.charge a).store a v

/-- A write with what the scheduler runs before the master goes on. -/
def State.busWrite (s : State) (a : Word) (v : Byte) : State := (s.rawWrite a v).settle

/-- A write that starts Suzy and so halts the CPU: of SPRGO with the GO bit (R384). -/
def State.startsSuzy (s : State) (a : Word) (v : Byte) : Bool :=
  s.backingOf a == .suzy && lo a == 0x91 && bit v 0

/-- The master's continuation is put off by `k` cycles in which the spec lists no access (R475, R522; log 8). -/
def State.delay (k : Nat) (s : State) : State :=
  { s with io := { s.io with masterDue := s.io.masterDue + Config.ticksIdle * k } }

/-- Cycles without an access, and what the scheduler runs before they end. -/
def State.idle (k : Nat) (s : State) : State := (s.delay k).settle

/-- A CPU that waits or is stopped looks again one cycle from now (log 33). -/
def State.postpone (s : State) : State := { s with io := { s.io with masterDue := s.io.tick + Config.ticksIdle } }

/-- The charge of a Suzy access, which reaches RAM only (R64, R414). -/
def State.suzyCharge (s : State) (a : Word) : State := { s with io := s.io.masterAccess s.mapctl false a }

/-- `SuzyRead(a)` (R380, R386). -/
def State.suzyRead (s : State) (a : Word) : Byte × State := (s.ramAt a, s.suzyCharge a)

/-- `SuzyWrite(a, v)` (R380, R411). -/
def State.suzyWrite (s : State) (a : Word) (v : Byte) : State := (s.suzyCharge a).setRam a v

end Sys2Proof.Machine
end

