-- ==== Sys2Proof/Machine/Prog.lean ====
section
/-! DEFINITION. The CPU's pseudocode as data: a program is the tree of its bus accesses, so that what is left of an
instruction after any access is a value (10_state.md R31; 64_bus_scheduler.md R464, R475). -/

namespace Sys2Proof.Machine

/-- A piece of the CPU's pseudocode that answers an `α`. Each access carries the registers as they stand when it is made. -/
inductive Prog (α : Type) where
  | done (a : α)
  | read (k : Cpu) (a : Word) (next : Byte → Prog α)
  | write (k : Cpu) (a : Word) (v : Byte) (next : Prog α)

/-- The end of an instruction or trap entry: the registers, and the cycles after its last access. -/
structure Finish where
  cpu : Cpu
  idle : Nat
  deriving DecidableEq, Repr

/-- One piece after another. -/
def Prog.bind {α β : Type} : Prog α → (α → Prog β) → Prog β
  | .done a, f => f a
  | .read k a next, f => .read k a fun b => (next b).bind f
  | .write k a v next, f => .write k a v (next.bind f)

/-- The continuation after accesses that moved the bytes `log` (R31). -/
def Prog.after {α : Type} : List Byte → Prog α → Prog α
  | b :: log, .read _ _ next => Prog.after log (next b)
  | _ :: log, .write _ _ _ next => Prog.after log next
  | _, p => p

/-- No access is left. -/
def Prog.isDone {α : Type} : Prog α → Bool
  | .done _ => true
  | .read _ _ _ | .write _ _ _ _ => false

/-- The registers that the outside sees while the CPU is inside a program (log 37). -/
def State.withCpu (s : State) (k : Cpu) : State := { s with cpu := k }

/-- Run a piece to its end, with the scheduler's turn after each access. -/
def Prog.eval {α : Type} : Prog α → State → α × State
  | .done a, s => (a, s)
  | .read k a next, s => (next ((s.withCpu k).busRead a).1).eval ((s.withCpu k).busRead a).2
  | .write k a v next, s => next.eval ((s.withCpu k).busWrite a v)

/-- An instruction or trap entry has made its last access: the CPU is at a fetch boundary, and the master's next step, Suzy's
if the access was the store that starts it (log 44), is queued behind the cycles without an access (R475). -/
def State.ended (f : Finish) (s : State) : State := ({ s with cpu := f.cpu, pipe := .atFetch }).delay f.idle

/-- The CPU is inside `w`, which started with the registers `start` and has moved the bytes `log`. -/
def State.suspend (w : Work) (start : Cpu) (log : List Byte) (s : State) : State := { s with pipe := .work w start log }

/-- Run the rest `p` of `w` to its end, or to the write that starts Suzy if an access follows it: Suzy then holds the CPU off
the bus (R384, R468). -/
def Prog.runFrom (w : Work) (start : Cpu) : List Byte → Prog Finish → State → State
  | _, .done f, s => (s.ended f).settle
  | log, .read k a next, s =>
    Prog.runFrom w start (log ++ [((s.withCpu k).busRead a).1]) (next ((s.withCpu k).busRead a).1)
      ((s.withCpu k).busRead a).2
  | log, .write k a v next, s =>
    if s.startsSuzy a v && !next.isDone then ((s.withCpu k).busWrite a v).suspend w start (log ++ [0])
    else Prog.runFrom w start (log ++ [0]) next ((s.withCpu k).busWrite a v)

/-- Carry out a whole program from a fetch boundary. -/
def perform (w : Work) (p : Cpu → Prog Finish) (s : State) : State := Prog.runFrom w s.cpu [] (p s.cpu) s

/-- After an access: the end, or the CPU suspended with what is left (R464). -/
def State.goOn (w : Work) (start : Cpu) (log : List Byte) (p : Prog Finish) (s : State) : State :=
  match p with
  | .done f => s.ended f
  | .read _ _ _ | .write _ _ _ _ => s.suspend w start log

/-- One access of the rest `p` of `w`, and no more (R464, R475). -/
def State.advance (w : Work) (start : Cpu) (log : List Byte) (p : Prog Finish) (s : State) : State :=
  match p with
  | .done f => s.ended f
  | .read k a next =>
    ((s.withCpu k).rawRead a).2.goOn w start (log ++ [((s.withCpu k).rawRead a).1]) (next ((s.withCpu k).rawRead a).1)
  | .write k a v next => ((s.withCpu k).rawWrite a v).goOn w start (log ++ [0]) next

end Sys2Proof.Machine
end

