-- ==== Sys2Proof/Machine/Ops.lean ====
section
/-! DEFINITION. The named operations over the CPU: register writes, fetch, stack, status byte, interrupt lines and poll,
taking a trap and returning from one (00_scope.md R11 to R13; 10_state.md R24 to R30; 60_exceptions.md R303 to R315). -/

namespace Sys2Proof.Machine

/-! ### Register writes, R11 -/

/-- `setNZ(v)`. -/
def Cpu.setNZ (k : Cpu) (v : Byte) : Cpu := { k with n := bit v 7, z := v == 0 }

/-- `A <- v; setNZ(v)`. -/
def Cpu.loadA (k : Cpu) (v : Byte) : Cpu := ({ k with a := v }).setNZ v

/-- `X <- v; setNZ(v)`. -/
def Cpu.loadX (k : Cpu) (v : Byte) : Cpu := ({ k with x := v }).setNZ v

/-- `Y <- v; setNZ(v)`. -/
def Cpu.loadY (k : Cpu) (v : Byte) : Cpu := ({ k with y := v }).setNZ v

/-! ### Accesses, fetch and stack, R12, R13 -/

/-- `MemRead(a, 1)`. -/
def memRead (a : Word) (k : Cpu) : Prog Byte := .read k a .done

/-- `MemWrite(a, 1, v)`. -/
def memWrite (a : Word) (v : Byte) (k : Cpu) : Prog Unit := .write k a v (.done ())

/-- A byte with the registers after it was read. -/
structure Got where
  byte : Byte
  cpu : Cpu

/-- A word with the registers after it was read. -/
structure GotWord where
  word : Word
  cpu : Cpu

/-- `Fetch()`. -/
def fetch (k : Cpu) : Prog Got := (memRead k.pc k).bind fun b => .done { byte := b, cpu := { k with pc := k.pc + 1 } }

/-- The stack address `{STACK_PAGE, SP}` (R24). -/
def stackAddr (sp : Byte) : Word := join Config.stackPage sp

/-- `Push(v)`. -/
def push (v : Byte) (k : Cpu) : Prog Cpu := (memWrite (stackAddr k.sp) v k).bind fun _ => .done { k with sp := k.sp - 1 }

/-- `Pull()`. -/
def pull (k : Cpu) : Prog Got :=
  let k' := { k with sp := k.sp + 1 }
  (memRead (stackAddr k'.sp) k').bind fun b => .done { byte := b, cpu := k' }

/-- Two pushes of a 16-bit value, the high byte first (R66). -/
def pushWord (w : Word) (k : Cpu) : Prog Cpu := (push (hi w) k).bind (push (lo w))

/-- Two pulls of a 16-bit value, the low byte first (R222, R240). -/
def pullWord (k : Cpu) : Prog GotWord :=
  (pull k).bind fun l => (pull l.cpu).bind fun h => .done { word := join h.byte l.byte, cpu := h.cpu }

/-- `Read16(a)`: the low byte first, then the high byte from `u16(a + 1)` (R12). -/
def read16 (a : Word) (k : Cpu) : Prog Word :=
  (memRead a k).bind fun l => (memRead (a + 1) k).bind fun h => .done (join h l)

/-- `Read16zp(z)`: both bytes inside page zero (R12). -/
def read16zp (z : Byte) (k : Cpu) : Prog Word :=
  (memRead (zext z) k).bind fun l => (memRead (zext (z + 1)) k).bind fun h => .done (join h l)

/-! ### Status byte, R27 -/

/-- `P(b)`: N V 1 b D I Z C from bit 7 to bit 0. -/
def Cpu.status (k : Cpu) (b : Bool) : Byte :=
  (if k.n then bitMask 7 else 0) ||| (if k.v then bitMask 6 else 0) ||| bitMask 5 ||| (if b then bitMask 4 else 0) |||
  (if k.d then bitMask 3 else 0) ||| (if k.i then bitMask 2 else 0) ||| (if k.z then bitMask 1 else 0) |||
  (if k.c then bitMask 0 else 0)

/-- `SetP(v)`: bits 5 and 4 are discarded. -/
def Cpu.setP (k : Cpu) (v : Byte) : Cpu :=
  { k with n := bit v 7, v := bit v 6, d := bit v 3, i := bit v 2, z := bit v 1, c := bit v 0 }

/-! ### Taking a trap and returning from one -/

/-- `TrapEntry(vec, b)` (R310): the return address and the status are pushed, I set, D cleared, and PC is read from the
vector through the mapped vector window; `n` internal cycles follow (R523). -/
def trapEntry (vec : Word) (b : Bool) (n : Nat) (k : Cpu) : Prog Finish :=
  (pushWord k.pc k).bind fun k1 => (push (k1.status b) k1).bind fun k2 =>
    let k3 := { k2 with i := true, d := false }
    (read16 vec k3).bind fun w => .done { cpu := { k3 with pc := w }, idle := n }

/-- `IrqEntry` (R311). -/
def irqEntry (k : Cpu) : Prog Finish := trapEntry Config.vecIrq false 2 k

/-- `NmiEntry` (R312). -/
def nmiEntry (k : Cpu) : Prog Finish := trapEntry Config.vecNmi false 2 k

/-- `BrkTrap` (R313, R239): the signature byte is skipped without a read. -/
def brkTrap (k : Cpu) : Prog Finish := trapEntry Config.vecIrq true 1 { k with pc := k.pc + 1 }

/-- The return from a trap (R240, R315), with its two internal cycles. -/
def returnFromTrap (k : Cpu) : Prog Finish :=
  (pull k).bind fun p => (pullWord (p.cpu.setP p.byte)).bind fun w =>
    .done { cpu := { w.cpu with pc := w.word }, idle := 2 }

/-! ### The interrupt lines and the poll -/

/-- `irq_line` (R303, R365). -/
def State.irqLine (s : State) : Bool := s.io.irqLine

/-- What the poll at a fetch boundary decides (R306, R307). -/
inductive PollResult
  | nmi
  | irq
  | run
  deriving DecidableEq, Repr

/-- An NMI is due: latched, or an edge since the previous poll (R305, R306). -/
def State.nmiDue (s : State) : Bool := s.cpu.nmiLatch || (s.inputs.nmiLine && !s.cpu.nmiPrev)

/-- An IRQ is due: the line is asserted and I is clear (R304, R306). -/
def State.irqDue (s : State) : Bool := !s.cpu.i && s.irqLine

/-- The poll of R306: NMI over IRQ; what is taken is consumed from its latch. -/
def State.poll (s : State) : PollResult :=
  if s.nmiDue then .nmi else if s.irqDue then .irq else .run

/-- The latches after the poll (R306): an NMI clears its latch and leaves the IRQ latched if that is due, an IRQ clears its
latch. -/
def State.afterPoll (s : State) : State :=
  { s with
    cpu := { s.cpu with nmiPrev := s.inputs.nmiLine, nmiLatch := false, irqLatch := s.nmiDue && s.irqDue } }

/-- The CPU waits no longer (R243; `cpu_waiting` is 0 already unless `P_WAI_STP` is `wdc`). -/
def State.wake (s : State) : State := { s with cpu := { s.cpu with waiting := false } }

/-- A waiting CPU goes on waiting while no interrupt line is asserted (R243). -/
def State.keepsWaiting (s : State) : Bool := s.cpu.waiting && !s.irqLine

end Sys2Proof.Machine
end

