-- ==== Sys2Proof/Machine/Flags.lean ====
section
/-! DEFINITION. Every flag computation of the arithmetic, compare and shift rules (42_arithmetic_compare.md R171 to R177;
44_shift_incdec.md R196 to R201), on unbounded integers as the spec writes them (R10). -/

namespace Sys2Proof.Machine

/-- A result with the four flags of an addition or subtraction. -/
structure AluResult where
  r : Byte
  n : Bool
  v : Bool
  z : Bool
  c : Bool
  deriving DecidableEq, Repr

/-- A carry as a number. -/
def carry (c : Bool) : Nat := if c then 1 else 0

/-- `(~(a ^ m) & (a ^ t) & $80) != 0`. -/
def addOverflow (a m t : Byte) : Bool := bit (~~~(a ^^^ m) &&& (a ^^^ t)) 7

/-- `((a ^ m) & (a ^ t) & $80) != 0`. -/
def subOverflow (a m t : Byte) : Bool := bit ((a ^^^ m) &&& (a ^^^ t)) 7

/-- N and Z of a result, with V and C as given. -/
def aluResult (r : Byte) (v c : Bool) : AluResult := { r := r, n := bit r 7, v := v, z := r == 0, c := c }

/-- `AddBin(a, m, c)`, R171. -/
def addBin (a m : Byte) (c : Bool) : AluResult :=
  let t := a.toNat + m.toNat + carry c
  let r := BitVec.ofNat 8 t
  aluResult r (addOverflow a m r) (decide (t > 255))

/-- The intermediate `t` of R172: high digits still binary, after the low-digit correction. -/
def addDecIntermediate (a m : Byte) (c : Bool) : Nat :=
  let al := a.toNat % 16 + m.toNat % 16 + carry c
  let al := if al ≥ 0x0A then (al + 0x06) % 16 + 0x10 else al
  a.toNat / 16 * 16 + m.toNat / 16 * 16 + al

/-- `AddDec(a, m, c)`, R172, under either reading of `P_DEC_V` (D7). -/
def addDecWith (rule : DecimalV) (a m : Byte) (c : Bool) : AluResult :=
  let t := addDecIntermediate a m c
  let v :=
    match rule with
    | .seq2 => addOverflow a m (BitVec.ofNat 8 t)
    | .binary => (addBin a m c).v
  let t := if t ≥ 0xA0 then t + 0x60 else t
  aluResult (BitVec.ofNat 8 t) v (decide (t ≥ 0x100))

/-- `AddDec` of this machine. -/
def addDec (a m : Byte) (c : Bool) : AluResult := addDecWith Config.decimalV a m c

/-- `SubBin(a, m, c)`, R174. -/
def subBin (a m : Byte) (c : Bool) : AluResult :=
  let t : Int := (a.toNat : Int) - m.toNat - (1 - carry c)
  let r := u8 t
  aluResult r (subOverflow a m r) (decide (t ≥ 0))

/-- `SubDec(a, m, c)`, R175: C and V as in binary mode. -/
def subDec (a m : Byte) (c : Bool) : AluResult :=
  let t : Int := (a.toNat : Int) - m.toNat - (1 - carry c)
  let al : Int := ((a.toNat % 16 : Nat) : Int) - (m.toNat % 16 : Nat) - (1 - carry c)
  let t1 := if t < 0 then t - 0x60 else t
  let t2 := if al < 0 then t1 - 0x06 else t1
  aluResult (u8 t2) (subBin a m c).v (subBin a m c).c

/-- The addition that D selects (R173). -/
def addResult (d : Bool) (a m : Byte) (c : Bool) : AluResult := if d then addDec a m c else addBin a m c

/-- The subtraction that D selects (R176). -/
def subResult (d : Bool) (a m : Byte) (c : Bool) : AluResult := if d then subDec a m c else subBin a m c

/-- `(A, N, V, Z, C) <- r`. -/
def Cpu.setAlu (k : Cpu) (r : AluResult) : Cpu := { k with a := r.r, n := r.n, v := r.v, z := r.z, c := r.c }

/-- `Compare(r, m)`, R177. -/
def Cpu.compare (k : Cpu) (r m : Byte) : Cpu :=
  { k with n := bit (r - m) 7, z := r == m, c := decide (m.toNat ≤ r.toNat) }

/-- The six functions `f` of R196 to R201. -/
inductive RmwOp
  | asl
  | lsr
  | rol
  | ror
  | inc
  | dec
  deriving DecidableEq, Repr

/-- The value `f(v)` with carry in `c`. -/
def RmwOp.value (f : RmwOp) (v : Byte) (c : Bool) : Byte :=
  match f with
  | .asl => v <<< 1
  | .lsr => v >>> 1
  | .rol => (v <<< 1) ||| (if c then bitMask 0 else 0)
  | .ror => (v >>> 1) ||| (if c then bitMask 7 else 0)
  | .inc => v + 1
  | .dec => v - 1

/-- The carry after `f(v)`: the bit shifted out; INC and DEC leave it. -/
def RmwOp.carryOut (f : RmwOp) (v : Byte) (c : Bool) : Bool :=
  match f with
  | .asl | .rol => bit v 7
  | .lsr | .ror => bit v 0
  | .inc | .dec => c

/-- The flags that `f(v)` sets. -/
def Cpu.rmwFlags (k : Cpu) (f : RmwOp) (v : Byte) : Cpu :=
  { k.setNZ (f.value v k.c) with c := f.carryOut v k.c }

end Sys2Proof.Machine
end

