-- ==== Sys2Proof/Machine/Operands.lean ====
section
/-! DEFINITION. The outcome type of a meaning, and every operand form: effective addresses with their pointer reads
(30_encoding.md R104 to R117), operand reads, the read-modify-write template (20_memory.md R73, 44_shift_incdec.md R195),
branches, and the cycles that are no accesses (70_reset_and_hazards.md R521, R522). The operand bytes have been fetched when
a meaning begins (log 9). -/

namespace Sys2Proof.Machine

/-- What a meaning answers. No rule gives an instruction a fault or a refusal (R301), so every one answers a next state. -/
abbrev Result := Host.Outcome State Fault Refusal

/-- An instruction that makes no access after its fetch: the registers it leaves and its idle cycles. -/
def implied (k : Cpu) (n : Nat) : Prog Finish := .done { cpu := k, idle := n }

/-- `EA(mode)` with the pointer reads of the form (R105 to R113). -/
def effAddr (m : Addr) (k : Cpu) : Prog Word :=
  match m with
  | .zp d8 => .done (zext d8)
  | .zpx d8 => .done (zext (d8 + k.x))
  | .zpy d8 => .done (zext (d8 + k.y))
  | .abs a16 => .done a16
  | .abx a16 => .done (a16 + zext k.x)
  | .aby a16 => .done (a16 + zext k.y)
  | .izx d8 => read16zp (d8 + k.x) k
  | .izy d8 => (read16zp d8 k).bind fun w => .done (w + zext k.y)
  | .izp d8 => read16zp d8 k

/-- The effective address in a state, with the state after the pointer reads. -/
def State.effAddr (s : State) (m : Addr) : Word × State := (Machine.effAddr m s.cpu).eval s

/-- A page is crossed between the base and the effective address `ea` (R109, R110, R112). -/
def crosses (m : Addr) (k : Cpu) (ea : Word) : Bool :=
  match m with
  | .abx a16 | .aby a16 => hi ea != hi a16
  | .izy _ => hi ea != hi (ea - zext k.y)
  | .zp _ | .zpx _ | .zpy _ | .abs _ | .izx _ | .izp _ => false

/-- Cycles of a reading instruction that are no accesses, `p` saying whether a page is crossed (R521). -/
def readIdle (m : Addr) (p : Bool) : Nat :=
  match m with
  | .zp _ | .abs _ | .izp _ => 0
  | .zpx _ | .zpy _ | .izx _ => 1
  | .abx _ | .aby _ | .izy _ => if p then 1 else 0

/-- Cycles of a store that are no accesses (R521). -/
def storeIdle (m : Addr) : Nat :=
  match m with
  | .zp _ | .abs _ | .izp _ => 0
  | .zpx _ | .zpy _ | .abx _ | .aby _ | .izx _ | .izy _ => 1

/-- An operand's value, and the cycles without an access that its form takes. -/
structure Operand where
  value : Byte
  idle : Nat
  deriving DecidableEq, Repr

/-- `Operand(mode)` (R140). -/
def operand (src : Src) (k : Cpu) : Prog Operand :=
  match src with
  | .imm d8 => .done { value := d8, idle := 0 }
  | .mem m =>
    (effAddr m k).bind fun ea => (memRead ea k).bind fun b => .done { value := b, idle := readIdle m (crosses m k ea) }

/-- The operand in a state, with the state after it is read. -/
def State.operand (s : State) (src : Src) : Operand × State := (Machine.operand src s.cpu).eval s

/-- Read the operand, then change the registers by its value; `n` idle cycles more than the operand form takes. -/
def withOperand (src : Src) (n : Nat) (f : Byte → Cpu → Cpu) (k : Cpu) : Prog Finish :=
  (operand src k).bind fun o => implied (f o.value k) (o.idle + n)

/-- `MemWrite(EA(mode), 1, v)` and the store's idle cycles (R144 to R147). -/
def storeTo (m : Addr) (v : Byte) (k : Cpu) : Prog Finish :=
  (effAddr m k).bind fun ea => (memWrite ea v k).bind fun _ => implied k (storeIdle m)

/-- The read-modify-write of R73: read, write back unmodified, write `f` of the byte. The byte read changes the registers by
`early` before the first write and by `late` before the second. -/
def modifyAt (f : Byte → Byte) (early late : Byte → Cpu → Cpu) (n : Nat) (ea : Word) (k : Cpu) : Prog Finish :=
  (memRead ea k).bind fun b => (memWrite ea b (early b k)).bind fun _ =>
    (memWrite ea (f b) (late b (early b k))).bind fun _ => implied (late b (early b k)) n

/-- A shift, rotation, increment or decrement: of the accumulator (2 cycles), or `RMW(mode, f)` in memory (R195), where `f`
also sets the flags. The indexed form has one idle cycle when a page is crossed, INC and DEC always (R521). -/
def rmw (f : RmwOp) (fixedIndexed : Bool) (dst : Rmw) (k : Cpu) : Prog Finish :=
  match dst with
  | .acc => implied { k.rmwFlags f k.a with a := f.value k.a k.c } 1
  | .mem m =>
    (effAddr m k).bind fun ea =>
      modifyAt (fun b => f.value b k.c) (fun _ q => q) (fun b q => q.rmwFlags f b)
        (readIdle m (fixedIndexed || crosses m k ea)) ea k

/-- TSB, TRB, RMB and SMB: a read-modify-write by a function of the byte, without idle cycles; `flags` sets, before the first
write, what flags the instruction sets from the byte read (R190, R191, R251, R252). -/
def modifyMem (f : Byte → Byte) (flags : Byte → Cpu → Cpu) (m : Addr) (k : Cpu) : Prog Finish :=
  (effAddr m k).bind fun ea => modifyAt f flags (fun _ q => q) 0 ea k

/-- `Branch(cond)` once the displacement is fetched: 1 more cycle when taken, 2 when taken across a page (R210), after `n`
idle cycles. -/
def branchTo (cond : Bool) (rel : Byte) (n : Nat) (k : Cpu) : Prog Finish :=
  let target := k.pc + sext rel
  if cond then implied { k with pc := target } (n + if hi target = hi k.pc then 1 else 2) else implied k n

end Sys2Proof.Machine
end

