-- ==== Sys2Proof/Machine/Arith.lean ====
section
/-! DEFINITION. Addition, subtraction and compare (42_arithmetic_compare.md R170 to R180). -/

namespace Sys2Proof.Machine

/-- The extra cycle of ADC and SBC in decimal mode (R521). -/
def decimalIdle (k : Cpu) : Nat := if k.d then 1 else 0

/-- `(A, N, V, Z, C) <- f D A m C`. -/
def aluWith (f : Bool → Byte → Byte → Bool → AluResult) (m : Byte) (k : Cpu) : Cpu := k.setAlu (f k.d k.a m k.c)

/-- The accesses and the effect of ADC, R173. -/
def progAdc (src : Src) (k : Cpu) : Prog Finish := withOperand src (decimalIdle k) (aluWith addResult) k

/-- ADC, R173. -/
def execAdc (src : Src) (s : State) : Result := .next (perform (.instr (.adc src)) (progAdc src) s)

/-- The accesses and the effect of SBC, R176. -/
def progSbc (src : Src) (k : Cpu) : Prog Finish := withOperand src (decimalIdle k) (aluWith subResult) k

/-- SBC, R176. -/
def execSbc (src : Src) (s : State) : Result := .next (perform (.instr (.sbc src)) (progSbc src) s)

/-- The accesses and the effect of CMP, R178. -/
def progCmp (src : Src) (k : Cpu) : Prog Finish := withOperand src 0 (fun m q => q.compare q.a m) k

/-- CMP, R178. -/
def execCmp (src : Src) (s : State) : Result := .next (perform (.instr (.cmp src)) (progCmp src) s)

/-- The accesses and the effect of CPX, R179. -/
def progCpx (src : Src) (k : Cpu) : Prog Finish := withOperand src 0 (fun m q => q.compare q.x m) k

/-- CPX, R179. -/
def execCpx (src : Src) (s : State) : Result := .next (perform (.instr (.cpx src)) (progCpx src) s)

/-- The accesses and the effect of CPY, R180. -/
def progCpy (src : Src) (k : Cpu) : Prog Finish := withOperand src 0 (fun m q => q.compare q.y m) k

/-- CPY, R180. -/
def execCpy (src : Src) (s : State) : Result := .next (perform (.instr (.cpy src)) (progCpy src) s)

end Sys2Proof.Machine
end

