-- ==== Sys2Proof/Machine/BitOps.lean ====
section
/-! DEFINITION. Bit modify and bit branch (47_bit_branch_modify.md R250 to R254). -/

namespace Sys2Proof.Machine

/-- RMBn (R251). -/
def resetBit (n : Nat) (zp : Byte) (k : Cpu) : Prog Finish :=
  modifyMem (fun m => m &&& ~~~(bitMask n)) (fun _ q => q) (.zp zp) k

/-- SMBn (R252). -/
def setBit (n : Nat) (zp : Byte) (k : Cpu) : Prog Finish := modifyMem (fun m => m ||| bitMask n) (fun _ q => q) (.zp zp) k

/-- BBRn and BBSn (R253, R254): the zero-page byte is read, then the displacement is fetched, then bit `n` is compared with
`want`; one idle cycle, and those of a taken branch (R521). -/
def branchOnBit (n : Nat) (want : Bool) (zp : Byte) (k : Cpu) : Prog Finish :=
  (memRead (zext zp) k).bind fun m => (fetch k).bind fun r => branchTo (bit m n == want) r.byte 1 r.cpu

/-- The accesses and the effect of RMB0, R251. -/
def progRmb0 (zp : Byte) (k : Cpu) : Prog Finish := resetBit 0 zp k

/-- RMB0, R251. -/
def execRmb0 (zp : Byte) (s : State) : Result := .next (perform (.instr (.rmb0 zp)) (progRmb0 zp) s)

/-- The accesses and the effect of RMB1, R251. -/
def progRmb1 (zp : Byte) (k : Cpu) : Prog Finish := resetBit 1 zp k

/-- RMB1, R251. -/
def execRmb1 (zp : Byte) (s : State) : Result := .next (perform (.instr (.rmb1 zp)) (progRmb1 zp) s)

/-- The accesses and the effect of RMB2, R251. -/
def progRmb2 (zp : Byte) (k : Cpu) : Prog Finish := resetBit 2 zp k

/-- RMB2, R251. -/
def execRmb2 (zp : Byte) (s : State) : Result := .next (perform (.instr (.rmb2 zp)) (progRmb2 zp) s)

/-- The accesses and the effect of RMB3, R251. -/
def progRmb3 (zp : Byte) (k : Cpu) : Prog Finish := resetBit 3 zp k

/-- RMB3, R251. -/
def execRmb3 (zp : Byte) (s : State) : Result := .next (perform (.instr (.rmb3 zp)) (progRmb3 zp) s)

/-- The accesses and the effect of RMB4, R251. -/
def progRmb4 (zp : Byte) (k : Cpu) : Prog Finish := resetBit 4 zp k

/-- RMB4, R251. -/
def execRmb4 (zp : Byte) (s : State) : Result := .next (perform (.instr (.rmb4 zp)) (progRmb4 zp) s)

/-- The accesses and the effect of RMB5, R251. -/
def progRmb5 (zp : Byte) (k : Cpu) : Prog Finish := resetBit 5 zp k

/-- RMB5, R251. -/
def execRmb5 (zp : Byte) (s : State) : Result := .next (perform (.instr (.rmb5 zp)) (progRmb5 zp) s)

/-- The accesses and the effect of RMB6, R251. -/
def progRmb6 (zp : Byte) (k : Cpu) : Prog Finish := resetBit 6 zp k

/-- RMB6, R251. -/
def execRmb6 (zp : Byte) (s : State) : Result := .next (perform (.instr (.rmb6 zp)) (progRmb6 zp) s)

/-- The accesses and the effect of RMB7, R251. -/
def progRmb7 (zp : Byte) (k : Cpu) : Prog Finish := resetBit 7 zp k

/-- RMB7, R251. -/
def execRmb7 (zp : Byte) (s : State) : Result := .next (perform (.instr (.rmb7 zp)) (progRmb7 zp) s)

/-- The accesses and the effect of SMB0, R252. -/
def progSmb0 (zp : Byte) (k : Cpu) : Prog Finish := setBit 0 zp k

/-- SMB0, R252. -/
def execSmb0 (zp : Byte) (s : State) : Result := .next (perform (.instr (.smb0 zp)) (progSmb0 zp) s)

/-- The accesses and the effect of SMB1, R252. -/
def progSmb1 (zp : Byte) (k : Cpu) : Prog Finish := setBit 1 zp k

/-- SMB1, R252. -/
def execSmb1 (zp : Byte) (s : State) : Result := .next (perform (.instr (.smb1 zp)) (progSmb1 zp) s)

/-- The accesses and the effect of SMB2, R252. -/
def progSmb2 (zp : Byte) (k : Cpu) : Prog Finish := setBit 2 zp k

/-- SMB2, R252. -/
def execSmb2 (zp : Byte) (s : State) : Result := .next (perform (.instr (.smb2 zp)) (progSmb2 zp) s)

/-- The accesses and the effect of SMB3, R252. -/
def progSmb3 (zp : Byte) (k : Cpu) : Prog Finish := setBit 3 zp k

/-- SMB3, R252. -/
def execSmb3 (zp : Byte) (s : State) : Result := .next (perform (.instr (.smb3 zp)) (progSmb3 zp) s)

/-- The accesses and the effect of SMB4, R252. -/
def progSmb4 (zp : Byte) (k : Cpu) : Prog Finish := setBit 4 zp k

/-- SMB4, R252. -/
def execSmb4 (zp : Byte) (s : State) : Result := .next (perform (.instr (.smb4 zp)) (progSmb4 zp) s)

/-- The accesses and the effect of SMB5, R252. -/
def progSmb5 (zp : Byte) (k : Cpu) : Prog Finish := setBit 5 zp k

/-- SMB5, R252. -/
def execSmb5 (zp : Byte) (s : State) : Result := .next (perform (.instr (.smb5 zp)) (progSmb5 zp) s)

/-- The accesses and the effect of SMB6, R252. -/
def progSmb6 (zp : Byte) (k : Cpu) : Prog Finish := setBit 6 zp k

/-- SMB6, R252. -/
def execSmb6 (zp : Byte) (s : State) : Result := .next (perform (.instr (.smb6 zp)) (progSmb6 zp) s)

/-- The accesses and the effect of SMB7, R252. -/
def progSmb7 (zp : Byte) (k : Cpu) : Prog Finish := setBit 7 zp k

/-- SMB7, R252. -/
def execSmb7 (zp : Byte) (s : State) : Result := .next (perform (.instr (.smb7 zp)) (progSmb7 zp) s)

/-- The accesses and the effect of BBR0, R253: the displacement is read from memory. -/
def progBbr0 (zp : Byte) (_rel : Byte) (k : Cpu) : Prog Finish := branchOnBit 0 false zp k

/-- BBR0, R253: the displacement is read from memory. -/
def execBbr0 (zp : Byte) (rel : Byte) (s : State) : Result := .next (perform (.instr (.bbr0 zp rel)) (progBbr0 zp rel) s)

/-- The accesses and the effect of BBR1, R253: the displacement is read from memory. -/
def progBbr1 (zp : Byte) (_rel : Byte) (k : Cpu) : Prog Finish := branchOnBit 1 false zp k

/-- BBR1, R253: the displacement is read from memory. -/
def execBbr1 (zp : Byte) (rel : Byte) (s : State) : Result := .next (perform (.instr (.bbr1 zp rel)) (progBbr1 zp rel) s)

/-- The accesses and the effect of BBR2, R253: the displacement is read from memory. -/
def progBbr2 (zp : Byte) (_rel : Byte) (k : Cpu) : Prog Finish := branchOnBit 2 false zp k

/-- BBR2, R253: the displacement is read from memory. -/
def execBbr2 (zp : Byte) (rel : Byte) (s : State) : Result := .next (perform (.instr (.bbr2 zp rel)) (progBbr2 zp rel) s)

/-- The accesses and the effect of BBR3, R253: the displacement is read from memory. -/
def progBbr3 (zp : Byte) (_rel : Byte) (k : Cpu) : Prog Finish := branchOnBit 3 false zp k

/-- BBR3, R253: the displacement is read from memory. -/
def execBbr3 (zp : Byte) (rel : Byte) (s : State) : Result := .next (perform (.instr (.bbr3 zp rel)) (progBbr3 zp rel) s)

/-- The accesses and the effect of BBR4, R253: the displacement is read from memory. -/
def progBbr4 (zp : Byte) (_rel : Byte) (k : Cpu) : Prog Finish := branchOnBit 4 false zp k

/-- BBR4, R253: the displacement is read from memory. -/
def execBbr4 (zp : Byte) (rel : Byte) (s : State) : Result := .next (perform (.instr (.bbr4 zp rel)) (progBbr4 zp rel) s)

/-- The accesses and the effect of BBR5, R253: the displacement is read from memory. -/
def progBbr5 (zp : Byte) (_rel : Byte) (k : Cpu) : Prog Finish := branchOnBit 5 false zp k

/-- BBR5, R253: the displacement is read from memory. -/
def execBbr5 (zp : Byte) (rel : Byte) (s : State) : Result := .next (perform (.instr (.bbr5 zp rel)) (progBbr5 zp rel) s)

/-- The accesses and the effect of BBR6, R253: the displacement is read from memory. -/
def progBbr6 (zp : Byte) (_rel : Byte) (k : Cpu) : Prog Finish := branchOnBit 6 false zp k

/-- BBR6, R253: the displacement is read from memory. -/
def execBbr6 (zp : Byte) (rel : Byte) (s : State) : Result := .next (perform (.instr (.bbr6 zp rel)) (progBbr6 zp rel) s)

/-- The accesses and the effect of BBR7, R253: the displacement is read from memory. -/
def progBbr7 (zp : Byte) (_rel : Byte) (k : Cpu) : Prog Finish := branchOnBit 7 false zp k

/-- BBR7, R253: the displacement is read from memory. -/
def execBbr7 (zp : Byte) (rel : Byte) (s : State) : Result := .next (perform (.instr (.bbr7 zp rel)) (progBbr7 zp rel) s)

/-- The accesses and the effect of BBS0, R254: the displacement is read from memory. -/
def progBbs0 (zp : Byte) (_rel : Byte) (k : Cpu) : Prog Finish := branchOnBit 0 true zp k

/-- BBS0, R254: the displacement is read from memory. -/
def execBbs0 (zp : Byte) (rel : Byte) (s : State) : Result := .next (perform (.instr (.bbs0 zp rel)) (progBbs0 zp rel) s)

/-- The accesses and the effect of BBS1, R254: the displacement is read from memory. -/
def progBbs1 (zp : Byte) (_rel : Byte) (k : Cpu) : Prog Finish := branchOnBit 1 true zp k

/-- BBS1, R254: the displacement is read from memory. -/
def execBbs1 (zp : Byte) (rel : Byte) (s : State) : Result := .next (perform (.instr (.bbs1 zp rel)) (progBbs1 zp rel) s)

/-- The accesses and the effect of BBS2, R254: the displacement is read from memory. -/
def progBbs2 (zp : Byte) (_rel : Byte) (k : Cpu) : Prog Finish := branchOnBit 2 true zp k

/-- BBS2, R254: the displacement is read from memory. -/
def execBbs2 (zp : Byte) (rel : Byte) (s : State) : Result := .next (perform (.instr (.bbs2 zp rel)) (progBbs2 zp rel) s)

/-- The accesses and the effect of BBS3, R254: the displacement is read from memory. -/
def progBbs3 (zp : Byte) (_rel : Byte) (k : Cpu) : Prog Finish := branchOnBit 3 true zp k

/-- BBS3, R254: the displacement is read from memory. -/
def execBbs3 (zp : Byte) (rel : Byte) (s : State) : Result := .next (perform (.instr (.bbs3 zp rel)) (progBbs3 zp rel) s)

/-- The accesses and the effect of BBS4, R254: the displacement is read from memory. -/
def progBbs4 (zp : Byte) (_rel : Byte) (k : Cpu) : Prog Finish := branchOnBit 4 true zp k

/-- BBS4, R254: the displacement is read from memory. -/
def execBbs4 (zp : Byte) (rel : Byte) (s : State) : Result := .next (perform (.instr (.bbs4 zp rel)) (progBbs4 zp rel) s)

/-- The accesses and the effect of BBS5, R254: the displacement is read from memory. -/
def progBbs5 (zp : Byte) (_rel : Byte) (k : Cpu) : Prog Finish := branchOnBit 5 true zp k

/-- BBS5, R254: the displacement is read from memory. -/
def execBbs5 (zp : Byte) (rel : Byte) (s : State) : Result := .next (perform (.instr (.bbs5 zp rel)) (progBbs5 zp rel) s)

/-- The accesses and the effect of BBS6, R254: the displacement is read from memory. -/
def progBbs6 (zp : Byte) (_rel : Byte) (k : Cpu) : Prog Finish := branchOnBit 6 true zp k

/-- BBS6, R254: the displacement is read from memory. -/
def execBbs6 (zp : Byte) (rel : Byte) (s : State) : Result := .next (perform (.instr (.bbs6 zp rel)) (progBbs6 zp rel) s)

/-- The accesses and the effect of BBS7, R254: the displacement is read from memory. -/
def progBbs7 (zp : Byte) (_rel : Byte) (k : Cpu) : Prog Finish := branchOnBit 7 true zp k

/-- BBS7, R254: the displacement is read from memory. -/
def execBbs7 (zp : Byte) (rel : Byte) (s : State) : Result := .next (perform (.instr (.bbs7 zp rel)) (progBbs7 zp rel) s)

end Sys2Proof.Machine
end

