-- ==== Sys2Proof/Machine/Branch.lean ====
section
/-! DEFINITION. Branches, jumps and subroutines (45_branch_jump.md R210 to R222). -/

namespace Sys2Proof.Machine

/-- The jump's target with the pointer reads (R108, R115, R116, R220). -/
def jumpTarget (t : JmpTarget) (k : Cpu) : Prog Word :=
  match t with
  | .abs a16 => .done a16
  | .ind a16 => read16 a16 k
  | .iax a16 => read16 (a16 + zext k.x) k

/-- Idle cycles of JMP (R521). -/
def jumpIdle (t : JmpTarget) : Nat :=
  match t with
  | .abs _ => 0
  | .ind _ | .iax _ => 1

/-- JSR after its low operand byte `l`: PC holds the address of the third byte, which is pushed and then read (R221). -/
def callWith (l : Byte) (k : Cpu) : Prog Finish :=
  (pushWord k.pc k).bind fun q => (memRead q.pc q).bind fun h => implied { q with pc := join h l } 1

/-- RTS: pull the address and add one (R222); three idle cycles. -/
def returnFromSub (k : Cpu) : Prog Finish := (pullWord k).bind fun r => implied { r.cpu with pc := r.word + 1 } 3

/-- The accesses and the effect of BCC, R211. -/
def progBcc (rel : Byte) (k : Cpu) : Prog Finish := branchTo (!k.c) rel 0 k

/-- BCC, R211. -/
def execBcc (rel : Byte) (s : State) : Result := .next (perform (.instr (.bcc rel)) (progBcc rel) s)

/-- The accesses and the effect of BCS, R212. -/
def progBcs (rel : Byte) (k : Cpu) : Prog Finish := branchTo k.c rel 0 k

/-- BCS, R212. -/
def execBcs (rel : Byte) (s : State) : Result := .next (perform (.instr (.bcs rel)) (progBcs rel) s)

/-- The accesses and the effect of BEQ, R213. -/
def progBeq (rel : Byte) (k : Cpu) : Prog Finish := branchTo k.z rel 0 k

/-- BEQ, R213. -/
def execBeq (rel : Byte) (s : State) : Result := .next (perform (.instr (.beq rel)) (progBeq rel) s)

/-- The accesses and the effect of BNE, R214. -/
def progBne (rel : Byte) (k : Cpu) : Prog Finish := branchTo (!k.z) rel 0 k

/-- BNE, R214. -/
def execBne (rel : Byte) (s : State) : Result := .next (perform (.instr (.bne rel)) (progBne rel) s)

/-- The accesses and the effect of BMI, R215. -/
def progBmi (rel : Byte) (k : Cpu) : Prog Finish := branchTo k.n rel 0 k

/-- BMI, R215. -/
def execBmi (rel : Byte) (s : State) : Result := .next (perform (.instr (.bmi rel)) (progBmi rel) s)

/-- The accesses and the effect of BPL, R216. -/
def progBpl (rel : Byte) (k : Cpu) : Prog Finish := branchTo (!k.n) rel 0 k

/-- BPL, R216. -/
def execBpl (rel : Byte) (s : State) : Result := .next (perform (.instr (.bpl rel)) (progBpl rel) s)

/-- The accesses and the effect of BVC, R217. -/
def progBvc (rel : Byte) (k : Cpu) : Prog Finish := branchTo (!k.v) rel 0 k

/-- BVC, R217. -/
def execBvc (rel : Byte) (s : State) : Result := .next (perform (.instr (.bvc rel)) (progBvc rel) s)

/-- The accesses and the effect of BVS, R218. -/
def progBvs (rel : Byte) (k : Cpu) : Prog Finish := branchTo k.v rel 0 k

/-- BVS, R218. -/
def execBvs (rel : Byte) (s : State) : Result := .next (perform (.instr (.bvs rel)) (progBvs rel) s)

/-- The accesses and the effect of BRA, R219. -/
def progBra (rel : Byte) (k : Cpu) : Prog Finish := branchTo true rel 0 k

/-- BRA, R219. -/
def execBra (rel : Byte) (s : State) : Result := .next (perform (.instr (.bra rel)) (progBra rel) s)

/-- The accesses and the effect of JMP, R220. -/
def progJmp (target : JmpTarget) (k : Cpu) : Prog Finish :=
  (jumpTarget target k).bind fun w => implied { k with pc := w } (jumpIdle target)

/-- JMP, R220. -/
def execJmp (target : JmpTarget) (s : State) : Result := .next (perform (.instr (.jmp target)) (progJmp target) s)

/-- The accesses and the effect of JSR, R221: the low byte of the target has been fetched, the high byte is read from memory. -/
def progJsr (target : Word) (k : Cpu) : Prog Finish := callWith (lo target) k

/-- JSR, R221: the low byte of the target has been fetched, the high byte is read from memory. -/
def execJsr (target : Word) (s : State) : Result := .next (perform (.instr (.jsr target)) (progJsr target) s)

/-- The accesses and the effect of RTS, R222. -/
def progRts (k : Cpu) : Prog Finish := returnFromSub k

/-- RTS, R222. -/
def execRts (s : State) : Result := .next (perform (.instr .rts) progRts s)

end Sys2Proof.Machine
end

