-- ==== Sys2Proof/Machine/LoadStore.lean ====
section
/-! DEFINITION. Load, store and register transfer (40_load_store_transfer.md R140 to R153). -/

namespace Sys2Proof.Machine

/-- The accesses and the effect of LDA, R141. -/
def progLda (src : Src) (k : Cpu) : Prog Finish := withOperand src 0 (fun v q => q.loadA v) k

/-- LDA, R141. -/
def execLda (src : Src) (s : State) : Result := .next (perform (.instr (.lda src)) (progLda src) s)

/-- The accesses and the effect of LDX, R142. -/
def progLdx (src : Src) (k : Cpu) : Prog Finish := withOperand src 0 (fun v q => q.loadX v) k

/-- LDX, R142. -/
def execLdx (src : Src) (s : State) : Result := .next (perform (.instr (.ldx src)) (progLdx src) s)

/-- The accesses and the effect of LDY, R143. -/
def progLdy (src : Src) (k : Cpu) : Prog Finish := withOperand src 0 (fun v q => q.loadY v) k

/-- LDY, R143. -/
def execLdy (src : Src) (s : State) : Result := .next (perform (.instr (.ldy src)) (progLdy src) s)

/-- The accesses and the effect of STA, R144. -/
def progSta (dst : Addr) (k : Cpu) : Prog Finish := storeTo dst k.a k

/-- STA, R144. -/
def execSta (dst : Addr) (s : State) : Result := .next (perform (.instr (.sta dst)) (progSta dst) s)

/-- The accesses and the effect of STX, R145. -/
def progStx (dst : Addr) (k : Cpu) : Prog Finish := storeTo dst k.x k

/-- STX, R145. -/
def execStx (dst : Addr) (s : State) : Result := .next (perform (.instr (.stx dst)) (progStx dst) s)

/-- The accesses and the effect of STY, R146. -/
def progSty (dst : Addr) (k : Cpu) : Prog Finish := storeTo dst k.y k

/-- STY, R146. -/
def execSty (dst : Addr) (s : State) : Result := .next (perform (.instr (.sty dst)) (progSty dst) s)

/-- The accesses and the effect of STZ, R147. -/
def progStz (dst : Addr) (k : Cpu) : Prog Finish := storeTo dst 0 k

/-- STZ, R147. -/
def execStz (dst : Addr) (s : State) : Result := .next (perform (.instr (.stz dst)) (progStz dst) s)

/-- The accesses and the effect of TAX, R148. -/
def progTax (k : Cpu) : Prog Finish := implied (k.loadX k.a) 1

/-- TAX, R148. -/
def execTax (s : State) : Result := .next (perform (.instr .tax) progTax s)

/-- The accesses and the effect of TAY, R149. -/
def progTay (k : Cpu) : Prog Finish := implied (k.loadY k.a) 1

/-- TAY, R149. -/
def execTay (s : State) : Result := .next (perform (.instr .tay) progTay s)

/-- The accesses and the effect of TXA, R150. -/
def progTxa (k : Cpu) : Prog Finish := implied (k.loadA k.x) 1

/-- TXA, R150. -/
def execTxa (s : State) : Result := .next (perform (.instr .txa) progTxa s)

/-- The accesses and the effect of TYA, R151. -/
def progTya (k : Cpu) : Prog Finish := implied (k.loadA k.y) 1

/-- TYA, R151. -/
def execTya (s : State) : Result := .next (perform (.instr .tya) progTya s)

/-- The accesses and the effect of TSX, R152. -/
def progTsx (k : Cpu) : Prog Finish := implied (k.loadX k.sp) 1

/-- TSX, R152. -/
def execTsx (s : State) : Result := .next (perform (.instr .tsx) progTsx s)

/-- The accesses and the effect of TXS, R153: the flags are left alone. -/
def progTxs (k : Cpu) : Prog Finish := implied { k with sp := k.x } 1

/-- TXS, R153: the flags are left alone. -/
def execTxs (s : State) : Result := .next (perform (.instr .txs) progTxs s)

end Sys2Proof.Machine
end

