-- ==== Sys2Proof/Machine/Logic.lean ====
section
/-! DEFINITION. Logic and bit test (43_logic_bit.md R185 to R191). -/

namespace Sys2Proof.Machine

/-- `Z <- ((A & m) == 0)`. -/
def testBits (m : Byte) (k : Cpu) : Cpu := { k with z := k.a &&& m == 0 }

/-- The flags of BIT: N and V from the operand in the memory modes only (R189). -/
def bitFlags (src : Src) (m : Byte) (k : Cpu) : Cpu :=
  match src with
  | .imm _ => testBits m k
  | .mem _ => { testBits m k with n := bit m 7, v := bit m 6 }

/-- The accesses and the effect of AND, R186. -/
def progAnd (src : Src) (k : Cpu) : Prog Finish := withOperand src 0 (fun m q => q.loadA (q.a &&& m)) k

/-- AND, R186. -/
def execAnd (src : Src) (s : State) : Result := .next (perform (.instr (.and src)) (progAnd src) s)

/-- The accesses and the effect of ORA, R187. -/
def progOra (src : Src) (k : Cpu) : Prog Finish := withOperand src 0 (fun m q => q.loadA (q.a ||| m)) k

/-- ORA, R187. -/
def execOra (src : Src) (s : State) : Result := .next (perform (.instr (.ora src)) (progOra src) s)

/-- The accesses and the effect of EOR, R188. -/
def progEor (src : Src) (k : Cpu) : Prog Finish := withOperand src 0 (fun m q => q.loadA (q.a ^^^ m)) k

/-- EOR, R188. -/
def execEor (src : Src) (s : State) : Result := .next (perform (.instr (.eor src)) (progEor src) s)

/-- The accesses and the effect of BIT, R189. -/
def progBit (src : Src) (k : Cpu) : Prog Finish := withOperand src 0 (bitFlags src) k

/-- BIT, R189. -/
def execBit (src : Src) (s : State) : Result := .next (perform (.instr (.bit src)) (progBit src) s)

/-- The accesses and the effect of TSB, R190. -/
def progTsb (dst : Addr) (k : Cpu) : Prog Finish := modifyMem (fun m => m ||| k.a) testBits dst k

/-- TSB, R190. -/
def execTsb (dst : Addr) (s : State) : Result := .next (perform (.instr (.tsb dst)) (progTsb dst) s)

/-- The accesses and the effect of TRB, R191. -/
def progTrb (dst : Addr) (k : Cpu) : Prog Finish := modifyMem (fun m => m &&& ~~~k.a) testBits dst k

/-- TRB, R191. -/
def execTrb (dst : Addr) (s : State) : Result := .next (perform (.instr (.trb dst)) (progTrb dst) s)

end Sys2Proof.Machine
end

