-- ==== Sys2Proof/Machine/Reserved.lean ====
section
/-! DEFINITION. Reserved opcodes (48_reserved_nop.md R260 to R268): their operand bytes have been fetched, the given
number of idle cycles passes, and nothing else happens. -/

namespace Sys2Proof.Machine

/-- The accesses and the effect of the reserved opcodes of R261: 1 cycle. -/
def progNopImp (_row : Nibble) (_colB : Bool) (k : Cpu) : Prog Finish := implied k 0

/-- The reserved opcodes of R261: 1 cycle. -/
def execNopImp (row : Nibble) (colB : Bool) (s : State) : Result :=
  .next (perform (.instr (.nopImp row colB)) (progNopImp row colB) s)

/-- The accesses and the effect of the reserved opcodes of R262: 2 cycles. -/
def progNopImm (_row : BitVec 3) (_d8 : Byte) (k : Cpu) : Prog Finish := implied k 0

/-- The reserved opcodes of R262: 2 cycles. -/
def execNopImm (row : BitVec 3) (d8 : Byte) (s : State) : Result :=
  .next (perform (.instr (.nopImm row d8)) (progNopImm row d8) s)

/-- The accesses and the effect of the reserved opcode of R263: 3 cycles, no data access. -/
def progNopZp (_d8 : Byte) (k : Cpu) : Prog Finish := implied k 1

/-- The reserved opcode of R263: 3 cycles, no data access. -/
def execNopZp (d8 : Byte) (s : State) : Result := .next (perform (.instr (.nopZp d8)) (progNopZp d8) s)

/-- The accesses and the effect of the reserved opcodes of R264: 4 cycles, no data access. -/
def progNopZpx (_row : Nibble) (_d8 : Byte) (k : Cpu) : Prog Finish := implied k 2

/-- The reserved opcodes of R264: 4 cycles, no data access. -/
def execNopZpx (row : Nibble) (d8 : Byte) (s : State) : Result :=
  .next (perform (.instr (.nopZpx row d8)) (progNopZpx row d8) s)

/-- The accesses and the effect of the reserved opcodes of R265: 4 cycles, no data access. -/
def progNopAbs (_row : Nibble) (_a16 : Word) (k : Cpu) : Prog Finish := implied k 1

/-- The reserved opcodes of R265: 4 cycles, no data access. -/
def execNopAbs (row : Nibble) (a16 : Word) (s : State) : Result :=
  .next (perform (.instr (.nopAbs row a16)) (progNopAbs row a16) s)

/-- The accesses and the effect of the reserved opcode of R266: 8 cycles, no data access. -/
def progNopLong (_a16 : Word) (k : Cpu) : Prog Finish := implied k 5

/-- The reserved opcode of R266: 8 cycles, no data access. -/
def execNopLong (a16 : Word) (s : State) : Result := .next (perform (.instr (.nopLong a16)) (progNopLong a16) s)

/-- The accesses and the effect of the reserved opcodes of R267: 1 cycle. -/
def progNopBit (_row : Nibble) (_colF : Bool) (k : Cpu) : Prog Finish := implied k 0

/-- The reserved opcodes of R267: 1 cycle. -/
def execNopBit (row : Nibble) (colF : Bool) (s : State) : Result :=
  .next (perform (.instr (.nopBit row colF)) (progNopBit row colF) s)

end Sys2Proof.Machine
end

