-- ==== Sys2Proof/Machine/Shift.lean ====
section
/-! DEFINITION. Shift, rotate, increment, decrement (44_shift_incdec.md R195 to R205). -/

namespace Sys2Proof.Machine

/-- The accesses and the effect of ASL, R196. -/
def progAsl (dst : Rmw) (k : Cpu) : Prog Finish := rmw .asl false dst k

/-- ASL, R196. -/
def execAsl (dst : Rmw) (s : State) : Result := .next (perform (.instr (.asl dst)) (progAsl dst) s)

/-- The accesses and the effect of LSR, R197. -/
def progLsr (dst : Rmw) (k : Cpu) : Prog Finish := rmw .lsr false dst k

/-- LSR, R197. -/
def execLsr (dst : Rmw) (s : State) : Result := .next (perform (.instr (.lsr dst)) (progLsr dst) s)

/-- The accesses and the effect of ROL, R198. -/
def progRol (dst : Rmw) (k : Cpu) : Prog Finish := rmw .rol false dst k

/-- ROL, R198. -/
def execRol (dst : Rmw) (s : State) : Result := .next (perform (.instr (.rol dst)) (progRol dst) s)

/-- The accesses and the effect of ROR, R199. -/
def progRor (dst : Rmw) (k : Cpu) : Prog Finish := rmw .ror false dst k

/-- ROR, R199. -/
def execRor (dst : Rmw) (s : State) : Result := .next (perform (.instr (.ror dst)) (progRor dst) s)

/-- The accesses and the effect of INC, R200. -/
def progInc (dst : Rmw) (k : Cpu) : Prog Finish := rmw .inc true dst k

/-- INC, R200. -/
def execInc (dst : Rmw) (s : State) : Result := .next (perform (.instr (.inc dst)) (progInc dst) s)

/-- The accesses and the effect of DEC, R201. -/
def progDec (dst : Rmw) (k : Cpu) : Prog Finish := rmw .dec true dst k

/-- DEC, R201. -/
def execDec (dst : Rmw) (s : State) : Result := .next (perform (.instr (.dec dst)) (progDec dst) s)

/-- The accesses and the effect of INX, R202. -/
def progInx (k : Cpu) : Prog Finish := implied (k.loadX (k.x + 1)) 1

/-- INX, R202. -/
def execInx (s : State) : Result := .next (perform (.instr .inx) progInx s)

/-- The accesses and the effect of INY, R203. -/
def progIny (k : Cpu) : Prog Finish := implied (k.loadY (k.y + 1)) 1

/-- INY, R203. -/
def execIny (s : State) : Result := .next (perform (.instr .iny) progIny s)

/-- The accesses and the effect of DEX, R204. -/
def progDex (k : Cpu) : Prog Finish := implied (k.loadX (k.x - 1)) 1

/-- DEX, R204. -/
def execDex (s : State) : Result := .next (perform (.instr .dex) progDex s)

/-- The accesses and the effect of DEY, R205. -/
def progDey (k : Cpu) : Prog Finish := implied (k.loadY (k.y - 1)) 1

/-- DEY, R205. -/
def execDey (s : State) : Result := .next (perform (.instr .dey) progDey s)

end Sys2Proof.Machine
end

