-- ==== Sys2Proof/Machine/Stack.lean ====
section
/-! DEFINITION. Stack instructions (41_stack.md R160 to R168). -/

namespace Sys2Proof.Machine

/-- A push instruction: 3 cycles, two of them accesses. -/
def pushReg (v : Byte) (k : Cpu) : Prog Finish := (push v k).bind fun q => implied q 1

/-- A pull instruction: 4 cycles, two of them accesses. -/
def pullReg (f : Byte → Cpu → Cpu) (k : Cpu) : Prog Finish := (pull k).bind fun r => implied (f r.byte r.cpu) 2

/-- The accesses and the effect of PHA, R161. -/
def progPha (k : Cpu) : Prog Finish := pushReg k.a k

/-- PHA, R161. -/
def execPha (s : State) : Result := .next (perform (.instr .pha) progPha s)

/-- The accesses and the effect of PLA, R162. -/
def progPla (k : Cpu) : Prog Finish := pullReg (fun v q => q.loadA v) k

/-- PLA, R162. -/
def execPla (s : State) : Result := .next (perform (.instr .pla) progPla s)

/-- The accesses and the effect of PHP, R163: the break bit is pushed as 1. -/
def progPhp (k : Cpu) : Prog Finish := pushReg (k.status true) k

/-- PHP, R163: the break bit is pushed as 1. -/
def execPhp (s : State) : Result := .next (perform (.instr .php) progPhp s)

/-- The accesses and the effect of PLP, R164. -/
def progPlp (k : Cpu) : Prog Finish := pullReg (fun v q => q.setP v) k

/-- PLP, R164. -/
def execPlp (s : State) : Result := .next (perform (.instr .plp) progPlp s)

/-- The accesses and the effect of PHX, R165. -/
def progPhx (k : Cpu) : Prog Finish := pushReg k.x k

/-- PHX, R165. -/
def execPhx (s : State) : Result := .next (perform (.instr .phx) progPhx s)

/-- The accesses and the effect of PLX, R166. -/
def progPlx (k : Cpu) : Prog Finish := pullReg (fun v q => q.loadX v) k

/-- PLX, R166. -/
def execPlx (s : State) : Result := .next (perform (.instr .plx) progPlx s)

/-- The accesses and the effect of PHY, R167. -/
def progPhy (k : Cpu) : Prog Finish := pushReg k.y k

/-- PHY, R167. -/
def execPhy (s : State) : Result := .next (perform (.instr .phy) progPhy s)

/-- The accesses and the effect of PLY, R168. -/
def progPly (k : Cpu) : Prog Finish := pullReg (fun v q => q.loadY v) k

/-- PLY, R168. -/
def execPly (s : State) : Result := .next (perform (.instr .ply) progPly s)

end Sys2Proof.Machine
end

