-- ==== Sys2Proof/Machine/System.lean ====
section
/-! DEFINITION. Flag and system instructions (46_flag_system.md R230 to R244). -/

namespace Sys2Proof.Machine

/-- WAI under either value of `P_WAI_STP` (R243, R268): a one-byte no-operation of one cycle, or waiting, 3 cycles. -/
def waitWith (p : WaiStp) (k : Cpu) : Prog Finish :=
  match p with
  | .nop => implied k 0
  | .wdc => implied { k with waiting := true } 2

/-- STP under either value of `P_WAI_STP` (R244, R268): a one-byte no-operation of one cycle, or stopping, 3 cycles. -/
def stopWith (p : WaiStp) (k : Cpu) : Prog Finish :=
  match p with
  | .nop => implied k 0
  | .wdc => implied { k with stopped := true } 2

/-- The accesses and the effect of CLC, R231. -/
def progClc (k : Cpu) : Prog Finish := implied { k with c := false } 1

/-- CLC, R231. -/
def execClc (s : State) : Result := .next (perform (.instr .clc) progClc s)

/-- The accesses and the effect of SEC, R232. -/
def progSec (k : Cpu) : Prog Finish := implied { k with c := true } 1

/-- SEC, R232. -/
def execSec (s : State) : Result := .next (perform (.instr .sec) progSec s)

/-- The accesses and the effect of CLI, R233. -/
def progCli (k : Cpu) : Prog Finish := implied { k with i := false } 1

/-- CLI, R233. -/
def execCli (s : State) : Result := .next (perform (.instr .cli) progCli s)

/-- The accesses and the effect of SEI, R234. -/
def progSei (k : Cpu) : Prog Finish := implied { k with i := true } 1

/-- SEI, R234. -/
def execSei (s : State) : Result := .next (perform (.instr .sei) progSei s)

/-- The accesses and the effect of CLD, R235. -/
def progCld (k : Cpu) : Prog Finish := implied { k with d := false } 1

/-- CLD, R235. -/
def execCld (s : State) : Result := .next (perform (.instr .cld) progCld s)

/-- The accesses and the effect of SED, R236. -/
def progSed (k : Cpu) : Prog Finish := implied { k with d := true } 1

/-- SED, R236. -/
def execSed (s : State) : Result := .next (perform (.instr .sed) progSed s)

/-- The accesses and the effect of CLV, R237. -/
def progClv (k : Cpu) : Prog Finish := implied { k with v := false } 1

/-- CLV, R237. -/
def execClv (s : State) : Result := .next (perform (.instr .clv) progClv s)

/-- The accesses and the effect of NOP, R238. -/
def progNop (k : Cpu) : Prog Finish := implied k 1

/-- NOP, R238. -/
def execNop (s : State) : Result := .next (perform (.instr .nop) progNop s)

/-- The accesses and the effect of BRK, R239, R313: the signature byte is never interpreted. -/
def progBrk (_sig : Byte) (k : Cpu) : Prog Finish := brkTrap k

/-- BRK, R239, R313: the signature byte is never interpreted. -/
def execBrk (sig : Byte) (s : State) : Result := .next (perform (.instr (.brk sig)) (progBrk sig) s)

/-- The accesses and the effect of RTI, R240, R315. -/
def progRti (k : Cpu) : Prog Finish := returnFromTrap k

/-- RTI, R240, R315. -/
def execRti (s : State) : Result := .next (perform (.instr .rti) progRti s)

/-- The accesses and the effect of WAI, R243, R268. -/
def progWai (k : Cpu) : Prog Finish := waitWith Config.waiStp k

/-- WAI, R243, R268. -/
def execWai (s : State) : Result := .next (perform (.instr .wai) progWai s)

/-- The accesses and the effect of STP, R244, R268. -/
def progStp (k : Cpu) : Prog Finish := stopWith Config.waiStp k

/-- STP, R244, R268. -/
def execStp (s : State) : Result := .next (perform (.instr .stp) progStp s)

end Sys2Proof.Machine
end

