-- ==== Sys2Proof/Machine/Dispatch.lean ====
section
/-! DEFINITION. One arm per instruction. `exec i s` is the effect of `i` from the moment its opcode and the operand bytes
that precede its first other access have been fetched (R13, log 9). -/

namespace Sys2Proof.Machine

/-- The meaning of an instruction. -/
def exec (i : Instr) (s : State) : Host.Outcome State Fault Refusal :=
  match i with
  | .lda src => Sys2Proof.Machine.execLda src s
  | .ldx src => Sys2Proof.Machine.execLdx src s
  | .ldy src => Sys2Proof.Machine.execLdy src s
  | .sta dst => Sys2Proof.Machine.execSta dst s
  | .stx dst => Sys2Proof.Machine.execStx dst s
  | .sty dst => Sys2Proof.Machine.execSty dst s
  | .stz dst => Sys2Proof.Machine.execStz dst s
  | .tax => Sys2Proof.Machine.execTax s
  | .tay => Sys2Proof.Machine.execTay s
  | .txa => Sys2Proof.Machine.execTxa s
  | .tya => Sys2Proof.Machine.execTya s
  | .tsx => Sys2Proof.Machine.execTsx s
  | .txs => Sys2Proof.Machine.execTxs s
  | .pha => Sys2Proof.Machine.execPha s
  | .pla => Sys2Proof.Machine.execPla s
  | .php => Sys2Proof.Machine.execPhp s
  | .plp => Sys2Proof.Machine.execPlp s
  | .phx => Sys2Proof.Machine.execPhx s
  | .plx => Sys2Proof.Machine.execPlx s
  | .phy => Sys2Proof.Machine.execPhy s
  | .ply => Sys2Proof.Machine.execPly s
  | .adc src => Sys2Proof.Machine.execAdc src s
  | .sbc src => Sys2Proof.Machine.execSbc src s
  | .cmp src => Sys2Proof.Machine.execCmp src s
  | .cpx src => Sys2Proof.Machine.execCpx src s
  | .cpy src => Sys2Proof.Machine.execCpy src s
  | .and src => Sys2Proof.Machine.execAnd src s
  | .ora src => Sys2Proof.Machine.execOra src s
  | .eor src => Sys2Proof.Machine.execEor src s
  | .bit src => Sys2Proof.Machine.execBit src s
  | .tsb dst => Sys2Proof.Machine.execTsb dst s
  | .trb dst => Sys2Proof.Machine.execTrb dst s
  | .asl dst => Sys2Proof.Machine.execAsl dst s
  | .lsr dst => Sys2Proof.Machine.execLsr dst s
  | .rol dst => Sys2Proof.Machine.execRol dst s
  | .ror dst => Sys2Proof.Machine.execRor dst s
  | .inc dst => Sys2Proof.Machine.execInc dst s
  | .dec dst => Sys2Proof.Machine.execDec dst s
  | .inx => Sys2Proof.Machine.execInx s
  | .iny => Sys2Proof.Machine.execIny s
  | .dex => Sys2Proof.Machine.execDex s
  | .dey => Sys2Proof.Machine.execDey s
  | .bcc rel => Sys2Proof.Machine.execBcc rel s
  | .bcs rel => Sys2Proof.Machine.execBcs rel s
  | .beq rel => Sys2Proof.Machine.execBeq rel s
  | .bne rel => Sys2Proof.Machine.execBne rel s
  | .bmi rel => Sys2Proof.Machine.execBmi rel s
  | .bpl rel => Sys2Proof.Machine.execBpl rel s
  | .bvc rel => Sys2Proof.Machine.execBvc rel s
  | .bvs rel => Sys2Proof.Machine.execBvs rel s
  | .bra rel => Sys2Proof.Machine.execBra rel s
  | .jmp target => Sys2Proof.Machine.execJmp target s
  | .jsr target => Sys2Proof.Machine.execJsr target s
  | .rts => Sys2Proof.Machine.execRts s
  | .clc => Sys2Proof.Machine.execClc s
  | .sec => Sys2Proof.Machine.execSec s
  | .cli => Sys2Proof.Machine.execCli s
  | .sei => Sys2Proof.Machine.execSei s
  | .cld => Sys2Proof.Machine.execCld s
  | .sed => Sys2Proof.Machine.execSed s
  | .clv => Sys2Proof.Machine.execClv s
  | .nop => Sys2Proof.Machine.execNop s
  | .brk sig => Sys2Proof.Machine.execBrk sig s
  | .rti => Sys2Proof.Machine.execRti s
  | .wai => Sys2Proof.Machine.execWai s
  | .stp => Sys2Proof.Machine.execStp s
  | .rmb0 zp => Sys2Proof.Machine.execRmb0 zp s
  | .rmb1 zp => Sys2Proof.Machine.execRmb1 zp s
  | .rmb2 zp => Sys2Proof.Machine.execRmb2 zp s
  | .rmb3 zp => Sys2Proof.Machine.execRmb3 zp s
  | .rmb4 zp => Sys2Proof.Machine.execRmb4 zp s
  | .rmb5 zp => Sys2Proof.Machine.execRmb5 zp s
  | .rmb6 zp => Sys2Proof.Machine.execRmb6 zp s
  | .rmb7 zp => Sys2Proof.Machine.execRmb7 zp s
  | .smb0 zp => Sys2Proof.Machine.execSmb0 zp s
  | .smb1 zp => Sys2Proof.Machine.execSmb1 zp s
  | .smb2 zp => Sys2Proof.Machine.execSmb2 zp s
  | .smb3 zp => Sys2Proof.Machine.execSmb3 zp s
  | .smb4 zp => Sys2Proof.Machine.execSmb4 zp s
  | .smb5 zp => Sys2Proof.Machine.execSmb5 zp s
  | .smb6 zp => Sys2Proof.Machine.execSmb6 zp s
  | .smb7 zp => Sys2Proof.Machine.execSmb7 zp s
  | .bbr0 zp rel => Sys2Proof.Machine.execBbr0 zp rel s
  | .bbr1 zp rel => Sys2Proof.Machine.execBbr1 zp rel s
  | .bbr2 zp rel => Sys2Proof.Machine.execBbr2 zp rel s
  | .bbr3 zp rel => Sys2Proof.Machine.execBbr3 zp rel s
  | .bbr4 zp rel => Sys2Proof.Machine.execBbr4 zp rel s
  | .bbr5 zp rel => Sys2Proof.Machine.execBbr5 zp rel s
  | .bbr6 zp rel => Sys2Proof.Machine.execBbr6 zp rel s
  | .bbr7 zp rel => Sys2Proof.Machine.execBbr7 zp rel s
  | .bbs0 zp rel => Sys2Proof.Machine.execBbs0 zp rel s
  | .bbs1 zp rel => Sys2Proof.Machine.execBbs1 zp rel s
  | .bbs2 zp rel => Sys2Proof.Machine.execBbs2 zp rel s
  | .bbs3 zp rel => Sys2Proof.Machine.execBbs3 zp rel s
  | .bbs4 zp rel => Sys2Proof.Machine.execBbs4 zp rel s
  | .bbs5 zp rel => Sys2Proof.Machine.execBbs5 zp rel s
  | .bbs6 zp rel => Sys2Proof.Machine.execBbs6 zp rel s
  | .bbs7 zp rel => Sys2Proof.Machine.execBbs7 zp rel s
  | .nopImp row colB => Sys2Proof.Machine.execNopImp row colB s
  | .nopImm row d8 => Sys2Proof.Machine.execNopImm row d8 s
  | .nopZp d8 => Sys2Proof.Machine.execNopZp d8 s
  | .nopZpx row d8 => Sys2Proof.Machine.execNopZpx row d8 s
  | .nopAbs row a16 => Sys2Proof.Machine.execNopAbs row a16 s
  | .nopLong a16 => Sys2Proof.Machine.execNopLong a16 s
  | .nopBit row colF => Sys2Proof.Machine.execNopBit row colF s

end Sys2Proof.Machine
end

