-- ==== Sys2Proof/Machine/Fetch.lean ====
section
/-! DEFINITION. Placing an instruction where the next fetch finds it, for the host's probe. -/

namespace Sys2Proof.Machine

/-- The MAPCTL bit that must be set for RAM to back `a` (R61); none for $FFF9. -/
def ramBit (a : Word) : Byte :=
  if a.toNat < 0xFC00 then 0
  else if a.toNat < 0xFD00 then bitMask 0
  else if a.toNat < 0xFE00 then bitMask 1
  else if a.toNat < 0xFFF8 then bitMask 2
  else if a.toNat < 0xFFFA then 0
  else bitMask 3

/-- Where the placed instruction goes: at PC, or at $0200 if its three bytes would take in $FFF9, which is never RAM. -/
def placeAt (pc : Word) : Word := if 0xFFF7 ≤ pc.toNat ∧ pc.toNat ≤ 0xFFF9 then 0x0200 else pc

/-- Three bytes placed in RAM from the next fetch address on, with RAM mapped there, the CPU at a fetch boundary, running,
nothing due at the poll, and no action queued before the CPU-step. -/
def State.place (s : State) (b0 b1 b2 : Byte) : State :=
  let p := placeAt s.cpu.pc
  { s with
    pipe := .atFetch
    ram := Ram.write (Ram.write (Ram.write s.ram p.toNat b0) (p + 1).toNat b1) (p + 2).toNat b2
    mapctl := s.mapctl ||| ramBit p ||| ramBit (p + 1) ||| ramBit (p + 2)
    suzy := { s.suzy with working := false, halted := false, phase := .idle }
    io :=
      { s.io with
        masterDue := s.io.tick, frameDue := none, lineDue := none, pixelDue := none
        pulseDue := max s.io.pulseDue (s.io.tick + 1) }
    cpu :=
      { s.cpu with
        pc := p, nmiLatch := false, nmiPrev := s.inputs.nmiLine, i := s.cpu.i || s.irqLine, waiting := false,
        stopped := false } }

end Sys2Proof.Machine
end

