-- ==== Sys2Proof/WellFormed.lean ====
section
/-! DEFINITION. Which instruction terms have an encoding: the operand forms that the "Encoding" line of each rule of
files 40 to 48 lists, and the rows of the reserved opcodes (R261 to R267). -/

namespace Sys2Proof

/-- The eight memory forms of the accumulator group (R141, R144, R173, R176, R178, R186 to R188). -/
def Addr.isAlu : Addr → Bool
  | .zp _ | .zpx _ | .abs _ | .abx _ | .aby _ | .izx _ | .izy _ | .izp _ => true
  | .zpy _ => false

/-- `zp` and `abs`: CPX, CPY, TSB, TRB (R179, R180, R190, R191). -/
def Addr.isPlain : Addr → Bool
  | .zp _ | .abs _ => true
  | .zpx _ | .zpy _ | .abx _ | .aby _ | .izx _ | .izy _ | .izp _ => false

/-- `zp`, `zpx`, `abs`, `abx`: LDY, BIT, STZ and the read-modify-write group (R143, R189, R147, R196 to R201). -/
def Addr.isByX : Addr → Bool
  | .zp _ | .zpx _ | .abs _ | .abx _ => true
  | .zpy _ | .aby _ | .izx _ | .izy _ | .izp _ => false

/-- `zp`, `zpy`, `abs`, `aby`: LDX (R142). -/
def Addr.isByY : Addr → Bool
  | .zp _ | .zpy _ | .abs _ | .aby _ => true
  | .zpx _ | .abx _ | .izx _ | .izy _ | .izp _ => false

/-- `zp`, `zpy`, `abs`: STX (R145). -/
def Addr.isStx : Addr → Bool
  | .zp _ | .zpy _ | .abs _ => true
  | .zpx _ | .abx _ | .aby _ | .izx _ | .izy _ | .izp _ => false

/-- `zp`, `zpx`, `abs`: STY (R146). -/
def Addr.isSty : Addr → Bool
  | .zp _ | .zpx _ | .abs _ => true
  | .zpy _ | .abx _ | .aby _ | .izx _ | .izy _ | .izp _ => false

/-- An immediate byte, or a memory form that `p` allows. -/
def Src.allowed (p : Addr → Bool) : Src → Bool
  | .imm _ => true
  | .mem a => p a

/-- The accumulator, or a memory form that `p` allows. -/
def Rmw.allowed (p : Addr → Bool) : Rmw → Bool
  | .acc => true
  | .mem a => p a

/-- The instruction has an encoding, given whether the bit instructions exist (`P_BITOPS`). -/
def Instr.wellFormedWith (bitOps : Bool) : Instr → Bool
  | .lda s | .adc s | .sbc s | .cmp s | .and s | .ora s | .eor s => s.allowed Addr.isAlu
  | .ldx s => s.allowed Addr.isByY
  | .ldy s | .bit s => s.allowed Addr.isByX
  | .cpx s | .cpy s => s.allowed Addr.isPlain
  | .sta a => a.isAlu
  | .stx a => a.isStx
  | .sty a => a.isSty
  | .stz a => a.isByX
  | .tsb a | .trb a => a.isPlain
  | .asl d | .lsr d | .rol d | .ror d | .inc d | .dec d => d.allowed Addr.isByX
  | .tax | .tay | .txa | .tya | .tsx | .txs => true
  | .pha | .pla | .php | .plp | .phx | .plx | .phy | .ply => true
  | .inx | .iny | .dex | .dey => true
  | .bcc _ | .bcs _ | .beq _ | .bne _ | .bmi _ | .bpl _ | .bvc _ | .bvs _ | .bra _ => true
  | .jmp _ | .jsr _ | .rts => true
  | .clc | .sec | .cli | .sei | .cld | .sed | .clv | .nop | .brk _ | .rti | .wai | .stp => true
  | .rmb0 _ | .rmb1 _ | .rmb2 _ | .rmb3 _ | .rmb4 _ | .rmb5 _ | .rmb6 _ | .rmb7 _ => bitOps
  | .smb0 _ | .smb1 _ | .smb2 _ | .smb3 _ | .smb4 _ | .smb5 _ | .smb6 _ | .smb7 _ => bitOps
  | .bbr0 _ _ | .bbr1 _ _ | .bbr2 _ _ | .bbr3 _ _ | .bbr4 _ _ | .bbr5 _ _ | .bbr6 _ _ | .bbr7 _ _ => bitOps
  | .bbs0 _ _ | .bbs1 _ _ | .bbs2 _ _ | .bbs3 _ _ | .bbs4 _ _ | .bbs5 _ _ | .bbs6 _ _ | .bbs7 _ _ => bitOps
  | .nopImp row colB => !(colB && (row == 0xC || row == 0xD))
  | .nopImm row _ => row != 5
  | .nopZp _ | .nopLong _ => true
  | .nopZpx row _ => row == 0x5 || row == 0xD || row == 0xF
  | .nopAbs row _ => row == 0xD || row == 0xF
  | .nopBit _ _ => !bitOps

/-- The instruction has an encoding on this machine. -/
def Instr.wellFormed (i : Instr) : Bool := i.wellFormedWith Config.bitOps

end Sys2Proof
end

