-- ==== Sys2Proof/Decode.lean ====
section
/-! DEFINITION. The decoder, from the opcode matrix of 30_encoding.md R120 and spec/opcode_table.json, total on any bytes,
and after it the encoder, from the "Encoding" lines of files 40 to 48. -/

namespace Sys2Proof

/-- Why a list of bytes is no instruction: the decoder refuses nothing else, no opcode being illegal (R121, R123). -/
inductive DecodeReject
  /-- There is no opcode byte. -/
  | noOpcode
  /-- The operand bytes of this opcode are not all there. -/
  | truncated (opcode : Byte)
  deriving DecidableEq, Repr

/-- Columns x7 and xF, R251 to R254: the instruction of opcode `op` with operand bytes `b1`, `b2`. -/
def decodeBitOp (op b1 b2 : Byte) : Instr :=
  match op.toNat with
  | 0x07 => .rmb0 b1
  | 0x0F => .bbr0 b1 b2
  | 0x17 => .rmb1 b1
  | 0x1F => .bbr1 b1 b2
  | 0x27 => .rmb2 b1
  | 0x2F => .bbr2 b1 b2
  | 0x37 => .rmb3 b1
  | 0x3F => .bbr3 b1 b2
  | 0x47 => .rmb4 b1
  | 0x4F => .bbr4 b1 b2
  | 0x57 => .rmb5 b1
  | 0x5F => .bbr5 b1 b2
  | 0x67 => .rmb6 b1
  | 0x6F => .bbr6 b1 b2
  | 0x77 => .rmb7 b1
  | 0x7F => .bbr7 b1 b2
  | 0x87 => .smb0 b1
  | 0x8F => .bbs0 b1 b2
  | 0x97 => .smb1 b1
  | 0x9F => .bbs1 b1 b2
  | 0xA7 => .smb2 b1
  | 0xAF => .bbs2 b1 b2
  | 0xB7 => .smb3 b1
  | 0xBF => .bbs3 b1 b2
  | 0xC7 => .smb4 b1
  | 0xCF => .bbs4 b1 b2
  | 0xD7 => .smb5 b1
  | 0xDF => .bbs5 b1 b2
  | 0xE7 => .smb6 b1
  | 0xEF => .bbs6 b1 b2
  | 0xF7 => .smb7 b1
  | _ => .bbs7 b1 b2

/-- Row $0x of the matrix without its columns x7 and xF, R120. -/
def decodeRow0 (col : Nat) (b1 b2 : Byte) : Instr :=
  match col with
  | 0x0 => .brk b1
  | 0x1 => .ora (.mem (.izx b1))
  | 0x2 => .nopImm 0 b1
  | 0x3 => .nopImp 0x0 false
  | 0x4 => .tsb (.zp b1)
  | 0x5 => .ora (.mem (.zp b1))
  | 0x6 => .asl (.mem (.zp b1))
  | 0x8 => .php
  | 0x9 => .ora (.imm b1)
  | 0xA => .asl .acc
  | 0xB => .nopImp 0x0 true
  | 0xC => .tsb (.abs (join b2 b1))
  | 0xD => .ora (.mem (.abs (join b2 b1)))
  | _ => .asl (.mem (.abs (join b2 b1)))

/-- Row $1x of the matrix without its columns x7 and xF, R120. -/
def decodeRow1 (col : Nat) (b1 b2 : Byte) : Instr :=
  match col with
  | 0x0 => .bpl b1
  | 0x1 => .ora (.mem (.izy b1))
  | 0x2 => .ora (.mem (.izp b1))
  | 0x3 => .nopImp 0x1 false
  | 0x4 => .trb (.zp b1)
  | 0x5 => .ora (.mem (.zpx b1))
  | 0x6 => .asl (.mem (.zpx b1))
  | 0x8 => .clc
  | 0x9 => .ora (.mem (.aby (join b2 b1)))
  | 0xA => .inc .acc
  | 0xB => .nopImp 0x1 true
  | 0xC => .trb (.abs (join b2 b1))
  | 0xD => .ora (.mem (.abx (join b2 b1)))
  | _ => .asl (.mem (.abx (join b2 b1)))

/-- Row $2x of the matrix without its columns x7 and xF, R120. -/
def decodeRow2 (col : Nat) (b1 b2 : Byte) : Instr :=
  match col with
  | 0x0 => .jsr (join b2 b1)
  | 0x1 => .and (.mem (.izx b1))
  | 0x2 => .nopImm 1 b1
  | 0x3 => .nopImp 0x2 false
  | 0x4 => .bit (.mem (.zp b1))
  | 0x5 => .and (.mem (.zp b1))
  | 0x6 => .rol (.mem (.zp b1))
  | 0x8 => .plp
  | 0x9 => .and (.imm b1)
  | 0xA => .rol .acc
  | 0xB => .nopImp 0x2 true
  | 0xC => .bit (.mem (.abs (join b2 b1)))
  | 0xD => .and (.mem (.abs (join b2 b1)))
  | _ => .rol (.mem (.abs (join b2 b1)))

/-- Row $3x of the matrix without its columns x7 and xF, R120. -/
def decodeRow3 (col : Nat) (b1 b2 : Byte) : Instr :=
  match col with
  | 0x0 => .bmi b1
  | 0x1 => .and (.mem (.izy b1))
  | 0x2 => .and (.mem (.izp b1))
  | 0x3 => .nopImp 0x3 false
  | 0x4 => .bit (.mem (.zpx b1))
  | 0x5 => .and (.mem (.zpx b1))
  | 0x6 => .rol (.mem (.zpx b1))
  | 0x8 => .sec
  | 0x9 => .and (.mem (.aby (join b2 b1)))
  | 0xA => .dec .acc
  | 0xB => .nopImp 0x3 true
  | 0xC => .bit (.mem (.abx (join b2 b1)))
  | 0xD => .and (.mem (.abx (join b2 b1)))
  | _ => .rol (.mem (.abx (join b2 b1)))

/-- Row $4x of the matrix without its columns x7 and xF, R120. -/
def decodeRow4 (col : Nat) (b1 b2 : Byte) : Instr :=
  match col with
  | 0x0 => .rti
  | 0x1 => .eor (.mem (.izx b1))
  | 0x2 => .nopImm 2 b1
  | 0x3 => .nopImp 0x4 false
  | 0x4 => .nopZp b1
  | 0x5 => .eor (.mem (.zp b1))
  | 0x6 => .lsr (.mem (.zp b1))
  | 0x8 => .pha
  | 0x9 => .eor (.imm b1)
  | 0xA => .lsr .acc
  | 0xB => .nopImp 0x4 true
  | 0xC => .jmp (.abs (join b2 b1))
  | 0xD => .eor (.mem (.abs (join b2 b1)))
  | _ => .lsr (.mem (.abs (join b2 b1)))

/-- Row $5x of the matrix without its columns x7 and xF, R120. -/
def decodeRow5 (col : Nat) (b1 b2 : Byte) : Instr :=
  match col with
  | 0x0 => .bvc b1
  | 0x1 => .eor (.mem (.izy b1))
  | 0x2 => .eor (.mem (.izp b1))
  | 0x3 => .nopImp 0x5 false
  | 0x4 => .nopZpx 0x5 b1
  | 0x5 => .eor (.mem (.zpx b1))
  | 0x6 => .lsr (.mem (.zpx b1))
  | 0x8 => .cli
  | 0x9 => .eor (.mem (.aby (join b2 b1)))
  | 0xA => .phy
  | 0xB => .nopImp 0x5 true
  | 0xC => .nopLong (join b2 b1)
  | 0xD => .eor (.mem (.abx (join b2 b1)))
  | _ => .lsr (.mem (.abx (join b2 b1)))

/-- Row $6x of the matrix without its columns x7 and xF, R120. -/
def decodeRow6 (col : Nat) (b1 b2 : Byte) : Instr :=
  match col with
  | 0x0 => .rts
  | 0x1 => .adc (.mem (.izx b1))
  | 0x2 => .nopImm 3 b1
  | 0x3 => .nopImp 0x6 false
  | 0x4 => .stz (.zp b1)
  | 0x5 => .adc (.mem (.zp b1))
  | 0x6 => .ror (.mem (.zp b1))
  | 0x8 => .pla
  | 0x9 => .adc (.imm b1)
  | 0xA => .ror .acc
  | 0xB => .nopImp 0x6 true
  | 0xC => .jmp (.ind (join b2 b1))
  | 0xD => .adc (.mem (.abs (join b2 b1)))
  | _ => .ror (.mem (.abs (join b2 b1)))

/-- Row $7x of the matrix without its columns x7 and xF, R120. -/
def decodeRow7 (col : Nat) (b1 b2 : Byte) : Instr :=
  match col with
  | 0x0 => .bvs b1
  | 0x1 => .adc (.mem (.izy b1))
  | 0x2 => .adc (.mem (.izp b1))
  | 0x3 => .nopImp 0x7 false
  | 0x4 => .stz (.zpx b1)
  | 0x5 => .adc (.mem (.zpx b1))
  | 0x6 => .ror (.mem (.zpx b1))
  | 0x8 => .sei
  | 0x9 => .adc (.mem (.aby (join b2 b1)))
  | 0xA => .ply
  | 0xB => .nopImp 0x7 true
  | 0xC => .jmp (.iax (join b2 b1))
  | 0xD => .adc (.mem (.abx (join b2 b1)))
  | _ => .ror (.mem (.abx (join b2 b1)))

/-- Row $8x of the matrix without its columns x7 and xF, R120. -/
def decodeRow8 (col : Nat) (b1 b2 : Byte) : Instr :=
  match col with
  | 0x0 => .bra b1
  | 0x1 => .sta (.izx b1)
  | 0x2 => .nopImm 4 b1
  | 0x3 => .nopImp 0x8 false
  | 0x4 => .sty (.zp b1)
  | 0x5 => .sta (.zp b1)
  | 0x6 => .stx (.zp b1)
  | 0x8 => .dey
  | 0x9 => .bit (.imm b1)
  | 0xA => .txa
  | 0xB => .nopImp 0x8 true
  | 0xC => .sty (.abs (join b2 b1))
  | 0xD => .sta (.abs (join b2 b1))
  | _ => .stx (.abs (join b2 b1))

/-- Row $9x of the matrix without its columns x7 and xF, R120. -/
def decodeRow9 (col : Nat) (b1 b2 : Byte) : Instr :=
  match col with
  | 0x0 => .bcc b1
  | 0x1 => .sta (.izy b1)
  | 0x2 => .sta (.izp b1)
  | 0x3 => .nopImp 0x9 false
  | 0x4 => .sty (.zpx b1)
  | 0x5 => .sta (.zpx b1)
  | 0x6 => .stx (.zpy b1)
  | 0x8 => .tya
  | 0x9 => .sta (.aby (join b2 b1))
  | 0xA => .txs
  | 0xB => .nopImp 0x9 true
  | 0xC => .stz (.abs (join b2 b1))
  | 0xD => .sta (.abx (join b2 b1))
  | _ => .stz (.abx (join b2 b1))

/-- Row $Ax of the matrix without its columns x7 and xF, R120. -/
def decodeRowA (col : Nat) (b1 b2 : Byte) : Instr :=
  match col with
  | 0x0 => .ldy (.imm b1)
  | 0x1 => .lda (.mem (.izx b1))
  | 0x2 => .ldx (.imm b1)
  | 0x3 => .nopImp 0xA false
  | 0x4 => .ldy (.mem (.zp b1))
  | 0x5 => .lda (.mem (.zp b1))
  | 0x6 => .ldx (.mem (.zp b1))
  | 0x8 => .tay
  | 0x9 => .lda (.imm b1)
  | 0xA => .tax
  | 0xB => .nopImp 0xA true
  | 0xC => .ldy (.mem (.abs (join b2 b1)))
  | 0xD => .lda (.mem (.abs (join b2 b1)))
  | _ => .ldx (.mem (.abs (join b2 b1)))

/-- Row $Bx of the matrix without its columns x7 and xF, R120. -/
def decodeRowB (col : Nat) (b1 b2 : Byte) : Instr :=
  match col with
  | 0x0 => .bcs b1
  | 0x1 => .lda (.mem (.izy b1))
  | 0x2 => .lda (.mem (.izp b1))
  | 0x3 => .nopImp 0xB false
  | 0x4 => .ldy (.mem (.zpx b1))
  | 0x5 => .lda (.mem (.zpx b1))
  | 0x6 => .ldx (.mem (.zpy b1))
  | 0x8 => .clv
  | 0x9 => .lda (.mem (.aby (join b2 b1)))
  | 0xA => .tsx
  | 0xB => .nopImp 0xB true
  | 0xC => .ldy (.mem (.abx (join b2 b1)))
  | 0xD => .lda (.mem (.abx (join b2 b1)))
  | _ => .ldx (.mem (.aby (join b2 b1)))

/-- Row $Cx of the matrix without its columns x7 and xF, R120. -/
def decodeRowC (col : Nat) (b1 b2 : Byte) : Instr :=
  match col with
  | 0x0 => .cpy (.imm b1)
  | 0x1 => .cmp (.mem (.izx b1))
  | 0x2 => .nopImm 6 b1
  | 0x3 => .nopImp 0xC false
  | 0x4 => .cpy (.mem (.zp b1))
  | 0x5 => .cmp (.mem (.zp b1))
  | 0x6 => .dec (.mem (.zp b1))
  | 0x8 => .iny
  | 0x9 => .cmp (.imm b1)
  | 0xA => .dex
  | 0xB => .wai
  | 0xC => .cpy (.mem (.abs (join b2 b1)))
  | 0xD => .cmp (.mem (.abs (join b2 b1)))
  | _ => .dec (.mem (.abs (join b2 b1)))

/-- Row $Dx of the matrix without its columns x7 and xF, R120. -/
def decodeRowD (col : Nat) (b1 b2 : Byte) : Instr :=
  match col with
  | 0x0 => .bne b1
  | 0x1 => .cmp (.mem (.izy b1))
  | 0x2 => .cmp (.mem (.izp b1))
  | 0x3 => .nopImp 0xD false
  | 0x4 => .nopZpx 0xD b1
  | 0x5 => .cmp (.mem (.zpx b1))
  | 0x6 => .dec (.mem (.zpx b1))
  | 0x8 => .cld
  | 0x9 => .cmp (.mem (.aby (join b2 b1)))
  | 0xA => .phx
  | 0xB => .stp
  | 0xC => .nopAbs 0xD (join b2 b1)
  | 0xD => .cmp (.mem (.abx (join b2 b1)))
  | _ => .dec (.mem (.abx (join b2 b1)))

/-- Row $Ex of the matrix without its columns x7 and xF, R120. -/
def decodeRowE (col : Nat) (b1 b2 : Byte) : Instr :=
  match col with
  | 0x0 => .cpx (.imm b1)
  | 0x1 => .sbc (.mem (.izx b1))
  | 0x2 => .nopImm 7 b1
  | 0x3 => .nopImp 0xE false
  | 0x4 => .cpx (.mem (.zp b1))
  | 0x5 => .sbc (.mem (.zp b1))
  | 0x6 => .inc (.mem (.zp b1))
  | 0x8 => .inx
  | 0x9 => .sbc (.imm b1)
  | 0xA => .nop
  | 0xB => .nopImp 0xE true
  | 0xC => .cpx (.mem (.abs (join b2 b1)))
  | 0xD => .sbc (.mem (.abs (join b2 b1)))
  | _ => .inc (.mem (.abs (join b2 b1)))

/-- Row $Fx of the matrix without its columns x7 and xF, R120. -/
def decodeRowF (col : Nat) (b1 b2 : Byte) : Instr :=
  match col with
  | 0x0 => .beq b1
  | 0x1 => .sbc (.mem (.izy b1))
  | 0x2 => .sbc (.mem (.izp b1))
  | 0x3 => .nopImp 0xF false
  | 0x4 => .nopZpx 0xF b1
  | 0x5 => .sbc (.mem (.zpx b1))
  | 0x6 => .inc (.mem (.zpx b1))
  | 0x8 => .sed
  | 0x9 => .sbc (.mem (.aby (join b2 b1)))
  | 0xA => .plx
  | 0xB => .nopImp 0xF true
  | 0xC => .nopAbs 0xF (join b2 b1)
  | 0xD => .sbc (.mem (.abx (join b2 b1)))
  | _ => .inc (.mem (.abx (join b2 b1)))

/-- The fourteen other columns, R120: row `op[7:4]`, column `op[3:0]`, the last row and column standing under `_`. -/
def decodeMain (op b1 b2 : Byte) : Instr :=
  match op.toNat / 16 with
  | 0x0 => decodeRow0 (op.toNat % 16) b1 b2
  | 0x1 => decodeRow1 (op.toNat % 16) b1 b2
  | 0x2 => decodeRow2 (op.toNat % 16) b1 b2
  | 0x3 => decodeRow3 (op.toNat % 16) b1 b2
  | 0x4 => decodeRow4 (op.toNat % 16) b1 b2
  | 0x5 => decodeRow5 (op.toNat % 16) b1 b2
  | 0x6 => decodeRow6 (op.toNat % 16) b1 b2
  | 0x7 => decodeRow7 (op.toNat % 16) b1 b2
  | 0x8 => decodeRow8 (op.toNat % 16) b1 b2
  | 0x9 => decodeRow9 (op.toNat % 16) b1 b2
  | 0xA => decodeRowA (op.toNat % 16) b1 b2
  | 0xB => decodeRowB (op.toNat % 16) b1 b2
  | 0xC => decodeRowC (op.toNat % 16) b1 b2
  | 0xD => decodeRowD (op.toNat % 16) b1 b2
  | 0xE => decodeRowE (op.toNat % 16) b1 b2
  | _ => decodeRowF (op.toNat % 16) b1 b2

/-- Whether the opcode lies in column x7 or xF. -/
def isBitColumn (op : Byte) : Bool := op &&& 0x07 == 0x07

/-- R121: the instruction that opcode `op` begins, its operand bytes being `b1` and `b2` as far as it has them. -/
def decodeOpWith (bitOps : Bool) (op b1 b2 : Byte) : Instr :=
  if isBitColumn op then
    if bitOps then decodeBitOp op b1 b2 else .nopBit (hiNib op) (loNib op == 0xF)
  else decodeMain op b1 b2

/-- The number of operand bytes of an operand form (R101 to R118). -/
def Addr.operandBytes : Addr → Nat
  | .abs _ | .abx _ | .aby _ => 2
  | .zp _ | .zpx _ | .zpy _ | .izx _ | .izy _ | .izp _ => 1

/-- R104 to R113. -/
def Src.operandBytes : Src → Nat
  | .imm _ => 1
  | .mem a => a.operandBytes

/-- R103, R105 to R109. -/
def Rmw.operandBytes : Rmw → Nat
  | .acc => 0
  | .mem a => a.operandBytes

/-- The length of an instruction less its opcode byte (R100). -/
def Instr.operandBytes : Instr → Nat
  | .lda s | .ldx s | .ldy s | .adc s | .sbc s | .cmp s | .cpx s | .cpy s | .and s | .ora s | .eor s | .bit s =>
    s.operandBytes
  | .sta a | .stx a | .sty a | .stz a | .tsb a | .trb a => a.operandBytes
  | .asl d | .lsr d | .rol d | .ror d | .inc d | .dec d => d.operandBytes
  | .tax | .tay | .txa | .tya | .tsx | .txs | .pha | .pla | .php | .plp | .phx | .plx | .phy | .ply => 0
  | .inx | .iny | .dex | .dey | .rts | .rti | .wai | .stp => 0
  | .clc | .sec | .cli | .sei | .cld | .sed | .clv | .nop => 0
  | .bcc _ | .bcs _ | .beq _ | .bne _ | .bmi _ | .bpl _ | .bvc _ | .bvs _ | .bra _ | .brk _ => 1
  | .jmp _ | .jsr _ => 2
  | .rmb0 _ | .rmb1 _ | .rmb2 _ | .rmb3 _ | .rmb4 _ | .rmb5 _ | .rmb6 _ | .rmb7 _ => 1
  | .smb0 _ | .smb1 _ | .smb2 _ | .smb3 _ | .smb4 _ | .smb5 _ | .smb6 _ | .smb7 _ => 1
  | .bbr0 _ _ | .bbr1 _ _ | .bbr2 _ _ | .bbr3 _ _ | .bbr4 _ _ | .bbr5 _ _ | .bbr6 _ _ | .bbr7 _ _ => 2
  | .bbs0 _ _ | .bbs1 _ _ | .bbs2 _ _ | .bbs3 _ _ | .bbs4 _ _ | .bbs5 _ _ | .bbs6 _ _ | .bbs7 _ _ => 2
  | .nopImp _ _ | .nopBit _ _ => 0
  | .nopImm _ _ | .nopZp _ | .nopZpx _ _ => 1
  | .nopAbs _ _ | .nopLong _ => 2

/-- The length in bytes, 1 to 3 (R100). -/
def Instr.length (i : Instr) : Nat := 1 + i.operandBytes

/-- Decode the instruction at the head of a list of bytes and give the bytes after it. -/
def decodeWith (bitOps : Bool) : List Byte → Except DecodeReject (Instr × List Byte)
  | [] => .error .noOpcode
  | op :: rest =>
    let i := decodeOpWith bitOps op (rest.getD 0 0) (rest.getD 1 0)
    if rest.length < i.operandBytes then .error (.truncated op) else .ok (i, rest.drop i.operandBytes)

/-- The decoder of this machine. -/
def decode (bytes : List Byte) : Except DecodeReject (Instr × List Byte) := decodeWith Config.bitOps bytes

/-- The opcodes of one mnemonic by operand form; a form without one has no encoding. -/
structure Codes where
  imm : Option Byte := none
  acc : Option Byte := none
  zp : Option Byte := none
  zpx : Option Byte := none
  zpy : Option Byte := none
  abs : Option Byte := none
  abx : Option Byte := none
  aby : Option Byte := none
  izx : Option Byte := none
  izy : Option Byte := none
  izp : Option Byte := none

/-- R141. -/
def Codes.lda : Codes :=
  { imm := some 0xA9, zp := some 0xA5, zpx := some 0xB5, abs := some 0xAD, abx := some 0xBD, aby := some 0xB9, izx := some 0xA1, izy := some 0xB1, izp := some 0xB2 }

/-- R142. -/
def Codes.ldx : Codes :=
  { imm := some 0xA2, zp := some 0xA6, zpy := some 0xB6, abs := some 0xAE, aby := some 0xBE }

/-- R143. -/
def Codes.ldy : Codes :=
  { imm := some 0xA0, zp := some 0xA4, zpx := some 0xB4, abs := some 0xAC, abx := some 0xBC }

/-- R173. -/
def Codes.adc : Codes :=
  { imm := some 0x69, zp := some 0x65, zpx := some 0x75, abs := some 0x6D, abx := some 0x7D, aby := some 0x79, izx := some 0x61, izy := some 0x71, izp := some 0x72 }

/-- R176. -/
def Codes.sbc : Codes :=
  { imm := some 0xE9, zp := some 0xE5, zpx := some 0xF5, abs := some 0xED, abx := some 0xFD, aby := some 0xF9, izx := some 0xE1, izy := some 0xF1, izp := some 0xF2 }

/-- R178. -/
def Codes.cmp : Codes :=
  { imm := some 0xC9, zp := some 0xC5, zpx := some 0xD5, abs := some 0xCD, abx := some 0xDD, aby := some 0xD9, izx := some 0xC1, izy := some 0xD1, izp := some 0xD2 }

/-- R179. -/
def Codes.cpx : Codes :=
  { imm := some 0xE0, zp := some 0xE4, abs := some 0xEC }

/-- R180. -/
def Codes.cpy : Codes :=
  { imm := some 0xC0, zp := some 0xC4, abs := some 0xCC }

/-- R186. -/
def Codes.and : Codes :=
  { imm := some 0x29, zp := some 0x25, zpx := some 0x35, abs := some 0x2D, abx := some 0x3D, aby := some 0x39, izx := some 0x21, izy := some 0x31, izp := some 0x32 }

/-- R187. -/
def Codes.ora : Codes :=
  { imm := some 0x09, zp := some 0x05, zpx := some 0x15, abs := some 0x0D, abx := some 0x1D, aby := some 0x19, izx := some 0x01, izy := some 0x11, izp := some 0x12 }

/-- R188. -/
def Codes.eor : Codes :=
  { imm := some 0x49, zp := some 0x45, zpx := some 0x55, abs := some 0x4D, abx := some 0x5D, aby := some 0x59, izx := some 0x41, izy := some 0x51, izp := some 0x52 }

/-- R189. -/
def Codes.bit : Codes :=
  { imm := some 0x89, zp := some 0x24, zpx := some 0x34, abs := some 0x2C, abx := some 0x3C }

/-- R144. -/
def Codes.sta : Codes :=
  { zp := some 0x85, zpx := some 0x95, abs := some 0x8D, abx := some 0x9D, aby := some 0x99, izx := some 0x81, izy := some 0x91, izp := some 0x92 }

/-- R145. -/
def Codes.stx : Codes :=
  { zp := some 0x86, zpy := some 0x96, abs := some 0x8E }

/-- R146. -/
def Codes.sty : Codes :=
  { zp := some 0x84, zpx := some 0x94, abs := some 0x8C }

/-- R147. -/
def Codes.stz : Codes :=
  { zp := some 0x64, zpx := some 0x74, abs := some 0x9C, abx := some 0x9E }

/-- R190. -/
def Codes.tsb : Codes :=
  { zp := some 0x04, abs := some 0x0C }

/-- R191. -/
def Codes.trb : Codes :=
  { zp := some 0x14, abs := some 0x1C }

/-- R196. -/
def Codes.asl : Codes :=
  { acc := some 0x0A, zp := some 0x06, zpx := some 0x16, abs := some 0x0E, abx := some 0x1E }

/-- R197. -/
def Codes.lsr : Codes :=
  { acc := some 0x4A, zp := some 0x46, zpx := some 0x56, abs := some 0x4E, abx := some 0x5E }

/-- R198. -/
def Codes.rol : Codes :=
  { acc := some 0x2A, zp := some 0x26, zpx := some 0x36, abs := some 0x2E, abx := some 0x3E }

/-- R199. -/
def Codes.ror : Codes :=
  { acc := some 0x6A, zp := some 0x66, zpx := some 0x76, abs := some 0x6E, abx := some 0x7E }

/-- R200. -/
def Codes.inc : Codes :=
  { acc := some 0x1A, zp := some 0xE6, zpx := some 0xF6, abs := some 0xEE, abx := some 0xFE }

/-- R201. -/
def Codes.dec : Codes :=
  { acc := some 0x3A, zp := some 0xC6, zpx := some 0xD6, abs := some 0xCE, abx := some 0xDE }

/-- An opcode before its operand bytes; no opcode, no encoding. -/
def withOpcode (op : Option Byte) (operands : List Byte) : List Byte :=
  match op with
  | some b => b :: operands
  | none => []

/-- Formats F2 and F3 (R101). -/
def Addr.encode (k : Codes) : Addr → List Byte
  | .zp b => withOpcode k.zp [b]
  | .zpx b => withOpcode k.zpx [b]
  | .zpy b => withOpcode k.zpy [b]
  | .abs w => withOpcode k.abs [lo w, hi w]
  | .abx w => withOpcode k.abx [lo w, hi w]
  | .aby w => withOpcode k.aby [lo w, hi w]
  | .izx b => withOpcode k.izx [b]
  | .izy b => withOpcode k.izy [b]
  | .izp b => withOpcode k.izp [b]

/-- R104, R101. -/
def Src.encode (k : Codes) : Src → List Byte
  | .imm b => withOpcode k.imm [b]
  | .mem a => a.encode k

/-- R103, R101. -/
def Rmw.encode (k : Codes) : Rmw → List Byte
  | .acc => withOpcode k.acc []
  | .mem a => a.encode k

/-- The bytes of a well-formed instruction, lowest address first (R101); of an ill-formed operand form, none. -/
def encode : Instr → List Byte
  | .lda s => s.encode Codes.lda
  | .ldx s => s.encode Codes.ldx
  | .ldy s => s.encode Codes.ldy
  | .adc s => s.encode Codes.adc
  | .sbc s => s.encode Codes.sbc
  | .cmp s => s.encode Codes.cmp
  | .cpx s => s.encode Codes.cpx
  | .cpy s => s.encode Codes.cpy
  | .and s => s.encode Codes.and
  | .ora s => s.encode Codes.ora
  | .eor s => s.encode Codes.eor
  | .bit s => s.encode Codes.bit
  | .sta a => a.encode Codes.sta
  | .stx a => a.encode Codes.stx
  | .sty a => a.encode Codes.sty
  | .stz a => a.encode Codes.stz
  | .tsb a => a.encode Codes.tsb
  | .trb a => a.encode Codes.trb
  | .asl d => d.encode Codes.asl
  | .lsr d => d.encode Codes.lsr
  | .rol d => d.encode Codes.rol
  | .ror d => d.encode Codes.ror
  | .inc d => d.encode Codes.inc
  | .dec d => d.encode Codes.dec
  | .brk sig => [0x00, sig]
  | .rmb0 zp => [0x07, zp]
  | .php => [0x08]
  | .bbr0 zp rel => [0x0F, zp, rel]
  | .bpl rel => [0x10, rel]
  | .rmb1 zp => [0x17, zp]
  | .clc => [0x18]
  | .bbr1 zp rel => [0x1F, zp, rel]
  | .jsr w => [0x20, lo w, hi w]
  | .rmb2 zp => [0x27, zp]
  | .plp => [0x28]
  | .bbr2 zp rel => [0x2F, zp, rel]
  | .bmi rel => [0x30, rel]
  | .rmb3 zp => [0x37, zp]
  | .sec => [0x38]
  | .bbr3 zp rel => [0x3F, zp, rel]
  | .rti => [0x40]
  | .rmb4 zp => [0x47, zp]
  | .pha => [0x48]
  | .jmp (.abs w) => [0x4C, lo w, hi w]
  | .bbr4 zp rel => [0x4F, zp, rel]
  | .bvc rel => [0x50, rel]
  | .rmb5 zp => [0x57, zp]
  | .cli => [0x58]
  | .phy => [0x5A]
  | .bbr5 zp rel => [0x5F, zp, rel]
  | .rts => [0x60]
  | .rmb6 zp => [0x67, zp]
  | .pla => [0x68]
  | .jmp (.ind w) => [0x6C, lo w, hi w]
  | .bbr6 zp rel => [0x6F, zp, rel]
  | .bvs rel => [0x70, rel]
  | .rmb7 zp => [0x77, zp]
  | .sei => [0x78]
  | .ply => [0x7A]
  | .jmp (.iax w) => [0x7C, lo w, hi w]
  | .bbr7 zp rel => [0x7F, zp, rel]
  | .bra rel => [0x80, rel]
  | .smb0 zp => [0x87, zp]
  | .dey => [0x88]
  | .txa => [0x8A]
  | .bbs0 zp rel => [0x8F, zp, rel]
  | .bcc rel => [0x90, rel]
  | .smb1 zp => [0x97, zp]
  | .tya => [0x98]
  | .txs => [0x9A]
  | .bbs1 zp rel => [0x9F, zp, rel]
  | .smb2 zp => [0xA7, zp]
  | .tay => [0xA8]
  | .tax => [0xAA]
  | .bbs2 zp rel => [0xAF, zp, rel]
  | .bcs rel => [0xB0, rel]
  | .smb3 zp => [0xB7, zp]
  | .clv => [0xB8]
  | .tsx => [0xBA]
  | .bbs3 zp rel => [0xBF, zp, rel]
  | .smb4 zp => [0xC7, zp]
  | .iny => [0xC8]
  | .dex => [0xCA]
  | .wai => [0xCB]
  | .bbs4 zp rel => [0xCF, zp, rel]
  | .bne rel => [0xD0, rel]
  | .smb5 zp => [0xD7, zp]
  | .cld => [0xD8]
  | .phx => [0xDA]
  | .stp => [0xDB]
  | .bbs5 zp rel => [0xDF, zp, rel]
  | .smb6 zp => [0xE7, zp]
  | .inx => [0xE8]
  | .nop => [0xEA]
  | .bbs6 zp rel => [0xEF, zp, rel]
  | .beq rel => [0xF0, rel]
  | .smb7 zp => [0xF7, zp]
  | .sed => [0xF8]
  | .plx => [0xFA]
  | .bbs7 zp rel => [0xFF, zp, rel]
  | .nopImp row colB => [joinNib row (if colB then 0xB else 0x3)]
  | .nopImm row d8 => [(row.setWidth 8 <<< 5) ||| 0x02, d8]
  | .nopZp d8 => [0x44, d8]
  | .nopZpx row d8 => [joinNib row 0x4, d8]
  | .nopAbs row w => [joinNib row 0xC, lo w, hi w]
  | .nopLong w => [0x5C, lo w, hi w]
  | .nopBit row colF => [joinNib row (if colF then 0xF else 0x7)]

/-- Byte `k` of the number `w` (bit 0 of `w` is the least significant bit of the first byte). -/
def byteOf (w k : Nat) : Byte := BitVec.ofNat 8 (w >>> (8 * k))

/-- The instruction the decoder reads from the bytes of `w`, of which only the low `nbits` bits count. -/
def decodeTableWord (nbits w : Nat) : Option Instr :=
  let w' := w % 2 ^ nbits
  match decode [byteOf w' 0, byteOf w' 1, byteOf w' 2] with
  | .ok (i, _) => some i
  | .error _ => none

end Sys2Proof
end

