-- ==== Sys2Proof/Machine/Program.lean ====
section
/-! DEFINITION. The program of every instruction and trap entry, fetching and decoding (00_scope.md R13; 30_encoding.md R100,
R121), and the CPU's continuation after a suspension (10_state.md R31; 64_bus_scheduler.md R464, R475). -/

namespace Sys2Proof.Machine

/-- The program of an instruction. -/
def instrProg (i : Instr) : Cpu → Prog Finish :=
  match i with
  | .lda src => progLda src
  | .ldx src => progLdx src
  | .ldy src => progLdy src
  | .sta dst => progSta dst
  | .stx dst => progStx dst
  | .sty dst => progSty dst
  | .stz dst => progStz dst
  | .tax => progTax
  | .tay => progTay
  | .txa => progTxa
  | .tya => progTya
  | .tsx => progTsx
  | .txs => progTxs
  | .pha => progPha
  | .pla => progPla
  | .php => progPhp
  | .plp => progPlp
  | .phx => progPhx
  | .plx => progPlx
  | .phy => progPhy
  | .ply => progPly
  | .adc src => progAdc src
  | .sbc src => progSbc src
  | .cmp src => progCmp src
  | .cpx src => progCpx src
  | .cpy src => progCpy src
  | .and src => progAnd src
  | .ora src => progOra src
  | .eor src => progEor src
  | .bit src => progBit src
  | .tsb dst => progTsb dst
  | .trb dst => progTrb dst
  | .asl dst => progAsl dst
  | .lsr dst => progLsr dst
  | .rol dst => progRol dst
  | .ror dst => progRor dst
  | .inc dst => progInc dst
  | .dec dst => progDec dst
  | .inx => progInx
  | .iny => progIny
  | .dex => progDex
  | .dey => progDey
  | .bcc rel => progBcc rel
  | .bcs rel => progBcs rel
  | .beq rel => progBeq rel
  | .bne rel => progBne rel
  | .bmi rel => progBmi rel
  | .bpl rel => progBpl rel
  | .bvc rel => progBvc rel
  | .bvs rel => progBvs rel
  | .bra rel => progBra rel
  | .jmp target => progJmp target
  | .jsr target => progJsr target
  | .rts => progRts
  | .clc => progClc
  | .sec => progSec
  | .cli => progCli
  | .sei => progSei
  | .cld => progCld
  | .sed => progSed
  | .clv => progClv
  | .nop => progNop
  | .brk sig => progBrk sig
  | .rti => progRti
  | .wai => progWai
  | .stp => progStp
  | .rmb0 zp => progRmb0 zp
  | .rmb1 zp => progRmb1 zp
  | .rmb2 zp => progRmb2 zp
  | .rmb3 zp => progRmb3 zp
  | .rmb4 zp => progRmb4 zp
  | .rmb5 zp => progRmb5 zp
  | .rmb6 zp => progRmb6 zp
  | .rmb7 zp => progRmb7 zp
  | .smb0 zp => progSmb0 zp
  | .smb1 zp => progSmb1 zp
  | .smb2 zp => progSmb2 zp
  | .smb3 zp => progSmb3 zp
  | .smb4 zp => progSmb4 zp
  | .smb5 zp => progSmb5 zp
  | .smb6 zp => progSmb6 zp
  | .smb7 zp => progSmb7 zp
  | .bbr0 zp rel => progBbr0 zp rel
  | .bbr1 zp rel => progBbr1 zp rel
  | .bbr2 zp rel => progBbr2 zp rel
  | .bbr3 zp rel => progBbr3 zp rel
  | .bbr4 zp rel => progBbr4 zp rel
  | .bbr5 zp rel => progBbr5 zp rel
  | .bbr6 zp rel => progBbr6 zp rel
  | .bbr7 zp rel => progBbr7 zp rel
  | .bbs0 zp rel => progBbs0 zp rel
  | .bbs1 zp rel => progBbs1 zp rel
  | .bbs2 zp rel => progBbs2 zp rel
  | .bbs3 zp rel => progBbs3 zp rel
  | .bbs4 zp rel => progBbs4 zp rel
  | .bbs5 zp rel => progBbs5 zp rel
  | .bbs6 zp rel => progBbs6 zp rel
  | .bbs7 zp rel => progBbs7 zp rel
  | .nopImp row colB => progNopImp row colB
  | .nopImm row d8 => progNopImm row d8
  | .nopZp d8 => progNopZp d8
  | .nopZpx row d8 => progNopZpx row d8
  | .nopAbs row a16 => progNopAbs row a16
  | .nopLong a16 => progNopLong a16
  | .nopBit row colF => progNopBit row colF

/-- The program of what the CPU does. -/
def program (w : Work) : Cpu → Prog Finish :=
  match w with
  | .instr i => instrProg i
  | .irq => irqEntry
  | .nmi => nmiEntry

/-! ### Fetching -/

/-- How many operand bytes are fetched before the instruction's first other access (log 9): all of them but the last of JSR
(R221), BBR and BBS (R253, R254), and but BRK's signature byte, which is never read (R239). -/
def Instr.prefetched (i : Instr) : Nat :=
  match i with
  | .brk _ => 0
  | .jsr _ => 1
  | .bbr0 _ _ | .bbr1 _ _ | .bbr2 _ _ | .bbr3 _ _ | .bbr4 _ _ | .bbr5 _ _ | .bbr6 _ _ | .bbr7 _ _ => 1
  | .bbs0 _ _ | .bbs1 _ _ | .bbs2 _ _ | .bbs3 _ _ | .bbs4 _ _ | .bbs5 _ _ | .bbs6 _ _ | .bbs7 _ _ => 1
  | _ => i.operandBytes

/-- A decoded instruction with the registers when its meaning begins. -/
structure Fetched where
  instr : Instr
  cpu : Cpu

/-- The instruction with opcode `op` and the operand bytes fetched so far. A byte that the meaning itself reads later, or that
is never read, stands as $00: no meaning looks at it in the term. -/
def decoded (op b1 b2 : Byte) (k : Cpu) : Fetched := { instr := decodeOpWith Config.bitOps op b1 b2, cpu := k }

/-- Fetch the next instruction: the opcode, then its prefetched operand bytes, each a bus access. -/
def fetchProg (k : Cpu) : Prog Fetched :=
  (fetch k).bind fun op =>
    match Instr.prefetched (decodeOpWith Config.bitOps op.byte 0 0) with
    | 0 => .done (decoded op.byte 0 0 op.cpu)
    | 1 => (fetch op.cpu).bind fun b1 => .done (decoded op.byte b1.byte 0 b1.cpu)
    | _ => (fetch op.cpu).bind fun b1 => (fetch b1.cpu).bind fun b2 => .done (decoded op.byte b1.byte b2.byte b2.cpu)

/-- Run the rest of a fetch: the instruction, and the state in which its meaning begins. -/
def fetchRest (p : Prog Fetched) (s : State) : Instr × State := ((p.eval s).1.instr, (p.eval s).2.withCpu (p.eval s).1.cpu)

/-- Fetch and decode the next instruction. -/
def fetchInstr (s : State) : Instr × State := fetchRest (fetchProg s.cpu) s

/-! ### One access at a time -/

/-- The fetch has decoded an instruction: what is left is its program. -/
def State.begin (f : Fetched) (s : State) : State :=
  (s.withCpu f.cpu).goOn (.instr f.instr) f.cpu [] (instrProg f.instr f.cpu)

/-- After an access of a fetch. -/
def State.goOnFetch (start : Cpu) (log : List Byte) (p : Prog Fetched) (s : State) : State :=
  match p with
  | .done f => s.begin f
  | .read _ _ _ | .write _ _ _ _ => { s with pipe := .fetch start log }

/-- One access of the rest of a fetch. -/
def State.advanceFetch (start : Cpu) (log : List Byte) (p : Prog Fetched) (s : State) : State :=
  match p with
  | .done f => s.begin f
  | .read k a next =>
    ((s.withCpu k).rawRead a).2.goOnFetch start (log ++ [((s.withCpu k).rawRead a).1]) (next ((s.withCpu k).rawRead a).1)
  | .write k a v next => ((s.withCpu k).rawWrite a v).goOnFetch start (log ++ [0]) next

/-- The CPU-step at a fetch boundary up to its first access (R306, R475): the poll, and then the first access of a trap entry
or of a fetch. -/
def State.beginStep (s : State) : State :=
  match s.poll with
  | .nmi => s.afterPoll.wake.advance .nmi s.afterPoll.wake.cpu [] (nmiEntry s.afterPoll.wake.cpu)
  | .irq => s.afterPoll.wake.advance .irq s.afterPoll.wake.cpu [] (irqEntry s.afterPoll.wake.cpu)
  | .run =>
    if s.keepsWaiting then s.afterPoll.postpone
    else s.afterPoll.wake.advanceFetch s.afterPoll.wake.cpu [] (fetchProg s.afterPoll.wake.cpu)

/-- The CPU's turn: its next access. -/
def State.cpuTurn (s : State) : State :=
  match s.pipe with
  | .work w start log => s.advance w start log (Prog.after log (program w start))
  | .fetch start log => s.advanceFetch start log (Prog.after log (fetchProg start))
  | .atFetch => if s.cpu.stopped then s.postpone else s.beginStep

/-! ### The rest of what was suspended, to its end -/

/-- The rest of an instruction or trap entry. -/
def resumeWork (w : Work) (start : Cpu) (log : List Byte) (s : State) : State :=
  Prog.runFrom w start log (Prog.after log (program w start)) s

/-- The rest of a fetch. -/
def resumeFetch (start : Cpu) (log : List Byte) (s : State) : Instr × State :=
  fetchRest (Prog.after log (fetchProg start)) s

end Sys2Proof.Machine
end

