-- ==== Sys2Proof/Machine/Suzy.lean ====
section
/-! DEFINITION. The sprite engine (62_suzy.md R385 to R414) as a resumable state machine (R416). A phase either wants one bus
access or moves on without any; one Suzy-step makes one access and then the moves up to the next one (R414, R470; log 21). -/

namespace Sys2Proof.Machine

/-- An access that the engine wants to make. -/
inductive Request
  | read (a : Word)
  | write (a : Word) (v : Byte)
  deriving DecidableEq, Repr

/-! ### Quadrants, R392 to R394 -/

/-- `startingQuadrant`. -/
def Suzy.startQuadrant (z : Suzy) : Nat :=
  if z.startLeft then (if z.startUp then 2 else 3) else (if z.startUp then 1 else 0)

/-- `hsign` of quadrant `q`: right for 0 and 1, negated by H flip (R393). -/
def Suzy.hsignOf (z : Suzy) (q : Nat) : Int := if (decide (q = 0 ∨ q = 1)) != z.hFlip then 1 else -1

/-- `vsign` of quadrant `q`: down for 0 and 3, negated by V flip (R393). -/
def Suzy.vsignOf (z : Suzy) (q : Nat) : Int := if (decide (q = 0 ∨ q = 3)) != z.vFlip then 1 else -1

/-- `hsign` of the current quadrant. -/
def Suzy.hsign (z : Suzy) : Int := z.hsignOf z.quadrant

/-- `vsign` of the current quadrant. -/
def Suzy.vsign (z : Suzy) : Int := z.vsignOf z.quadrant

/-- The row position at the start of a quadrant, with the seam offset (R394), in the 16 bits of `sprvpos` (R19; log 38). -/
def Suzy.firstRow (z : Suzy) : Word :=
  z.vposstrt - z.voff + (if z.vsign ≠ z.vsignOf z.startQuadrant then u16 z.vsign else 0)

/-- The column position at the start of a row, with the seam offset (R394), in the 16 bits of `sprhpos` (R19; log 38). -/
def Suzy.firstCol (z : Suzy) : Word :=
  z.hposstrt - z.hoff + (if z.hsign ≠ z.hsignOf z.startQuadrant then u16 z.hsign else 0)

/-! ### Lines and rows, R395 to R398 -/

/-- The address of the current row in a buffer at `base` (R396). -/
def Suzy.rowAddr (z : Suzy) (base : Word) : Word := base + z.sprvpos * BitVec.ofNat 16 Config.lineBytes

/-- A screen row's addresses are computed (R396), unless none is left of the source row (log 23); then the line start:
`procadr <- sprdline`, the shifter emptied, four bytes to be read (R397). -/
def Suzy.beginLine (z : Suzy) : Suzy :=
  { z with
    vidadr := if z.rowsLeft = 0 then z.vidadr else z.rowAddr z.vidbas
    colladr := if z.rowsLeft = 0 then z.colladr else z.rowAddr z.collbas
    procadr := z.sprdline, shifter := 0, shiftCount := 0, phase := .fill 0 }

/-- A source row starts: its height is the high byte of `vsizacum`, whose fraction is kept (R395). -/
def Suzy.beginSourceRow (z : Suzy) : Suzy :=
  let acc := z.vsizacum + z.sprvsiz
  ({ z with rowsLeft := (hi acc).toNat, vsizacum := zext (lo acc) }).beginLine

/-- A quadrant starts (R394). -/
def Suzy.beginQuadrant (z : Suzy) : Suzy :=
  ({ z with
      sprvpos := z.firstRow
      tiltacum := 0
      vsizacum := if z.vsign = 1 then z.vsizoff else 0 }).beginSourceRow

/-- The quadrant ends; after the fourth the sprite is done (R392, R398). -/
def Suzy.endQuadrant (z : Suzy) : Suzy :=
  if z.quadsDone + 1 = 4 then { z with quadsDone := 4, phase := .deposit }
  else ({ z with quadsDone := z.quadsDone + 1, quadrant := (z.quadrant + 1) % 4 }).beginQuadrant

/-- The source row ends: `sprdline += sprdoff` (R409). -/
def Suzy.endSourceRow (z : Suzy) : Suzy := ({ z with sprdline := z.sprdline + z.sprdoff }).beginSourceRow

/-- Types 1 and 5 take no part in collision (R390). -/
def Suzy.collides (z : Suzy) : Bool := z.kind != 1 && z.kind != 5

/-- `disableCollisions` (R390). -/
def Suzy.collisionsOff (z : Suzy) : Bool := bit z.sprcoll 5 || z.sysNoCollide || !z.collides

/-- The SCB has been read: the sprite starts (R390, R391, R392). -/
def Suzy.beginSprite (z : Suzy) : Suzy :=
  ({ z with
      noColl := z.collisionsOff
      hiColl := 0
      anyPixel := false
      videoAcc := none
      collAcc := none
      quadrant := z.startQuadrant
      quadsDone := 0 }).beginQuadrant

/-! ### The bit shifter, R396, R397, R401 -/

/-- A byte enters the shifter behind the bits it holds. -/
def Suzy.pushByte (b : Byte) (z : Suzy) : Suzy :=
  { z with
    shifter := z.shifter ||| ((b.setWidth 32 <<< 24) >>> z.shiftCount)
    shiftCount := z.shiftCount + 8
    procadr := z.procadr + 1 }

/-- The next `k` bits, most significant first, as a number. -/
def Suzy.look (z : Suzy) (k : Nat) : Nat := (z.shifter >>> (32 - k)).toNat

/-- `take(k)`: `k` bits leave the shifter and the budget. -/
def Suzy.drop (z : Suzy) (k : Nat) : Suzy :=
  { z with shifter := z.shifter <<< k, shiftCount := z.shiftCount - k, budget := z.budget - k }

/-! ### The walk and the SCB, R385 to R389 -/

/-- The walk ends: the CPU is released (R384, R412). -/
def Suzy.finish (z : Suzy) : Suzy := { z with working := false, halted := false, phase := .idle }

/-- Step 1 of the walk, or its end when the link's high byte is zero (R385). -/
def Suzy.chainStep (z : Suzy) : Suzy :=
  if hi z.scbnext = 0 then z.finish else { z with scbadr := z.scbnext, tmpadr := z.scbnext, phase := .scb 0 }

/-- How many bytes the reload field asks for (R388). -/
def Suzy.reloadBytes (z : Suzy) : Nat :=
  match z.reloadField with
  | 0 => 0
  | 1 => 4
  | 2 => 6
  | _ => 8

/-- Step 6 or, with the palette reused, the start of the sprite (R389). -/
def Suzy.afterReload (z : Suzy) : Suzy := if z.reusePalette then z.beginSprite else { z with phase := .palette 0 }

/-- Step 5 or what follows it (R388). -/
def Suzy.afterScb (z : Suzy) : Suzy := if z.reloadBytes = 0 then z.afterReload else { z with phase := .reload 0 }

/-- SCB byte `k` (R381, R385 steps 2 to 4); after the link a skipped sprite is passed over (R387). -/
def Suzy.scbByte (k : Nat) (b : Byte) (z : Suzy) : Suzy :=
  match k with
  | 0 => { z with sprctl0 := b, phase := .scb 1 }
  | 1 => { z with sprctl1 := b, phase := .scb 2 }
  | 2 => { z with sprcoll := b, phase := .scb 3 }
  | 3 => { z with scbnext := setLo z.scbnext b, phase := .scb 4 }
  | 4 => { z with scbnext := setHi z.scbnext b, phase := if z.skip then .chain else .scb 5 }
  | 5 => { z with sprdline := setLo z.sprdline b, phase := .scb 6 }
  | 6 => { z with sprdline := setHi z.sprdline b, phase := .scb 7 }
  | 7 => { z with hposstrt := setLo z.hposstrt b, phase := .scb 8 }
  | 8 => { z with hposstrt := setHi z.hposstrt b, phase := .scb 9 }
  | 9 => { z with vposstrt := setLo z.vposstrt b, phase := .scb 10 }
  | _ => ({ z with vposstrt := setHi z.vposstrt b }).afterScb

/-- The register byte that byte `k` of the reload fields sets: SPRHSIZ, SPRVSIZ, STRETCH, TILT in this order (R388). -/
def Suzy.reloadSet (k : Nat) (b : Byte) (z : Suzy) : Suzy :=
  match k with
  | 0 => { z with sprhsiz := setLo z.sprhsiz b }
  | 1 => { z with sprhsiz := setHi z.sprhsiz b }
  | 2 => { z with sprvsiz := setLo z.sprvsiz b }
  | 3 => { z with sprvsiz := setHi z.sprvsiz b }
  | 4 => { z with stretch := setLo z.stretch b }
  | 5 => { z with stretch := setHi z.stretch b }
  | 6 => { z with tilt := setLo z.tilt b }
  | _ => { z with tilt := setHi z.tilt b }

/-- Byte `k` of the reload fields, and what comes next (R388). -/
def Suzy.reloadByte (k : Nat) (b : Byte) (z : Suzy) : Suzy :=
  let z := z.reloadSet k b
  if k + 1 < z.reloadBytes then { z with phase := .reload (k + 1) } else z.afterReload

/-- Palette byte `k`: pens `2k` (high nibble) and `2k + 1` (R389). -/
def Suzy.paletteByte (k : Nat) (b : Byte) (z : Suzy) : Suzy :=
  let z : Suzy := { z with pens := (z.pens.setIfInBounds (2 * k) (hiNib b)).setIfInBounds (2 * k + 1) (loNib b) }
  if k + 1 < 8 then { z with phase := .palette (k + 1) } else z.beginSprite

/-- `tmpadr <- u16(tmpadr + 1)`, the second half of `Rd()` (R385). -/
def Suzy.bumpTmp (z : Suzy) : Suzy := { z with tmpadr := z.tmpadr + 1 }

/-! ### Line head and screen row, R396 to R398 -/

/-- A row position outside the screen. -/
def Suzy.rowOff (z : Suzy) : Bool := decide (z.sprvpos.toInt < 0 ∨ (Config.frameLines : Int) ≤ z.sprvpos.toInt)

/-- Outside on the side the quadrant is moving toward: the rest of the source row is dropped (R396). -/
def Suzy.rowGone (z : Suzy) : Bool :=
  if z.vsign = 1 then decide ((Config.frameLines : Int) ≤ z.sprvpos.toInt) else decide (z.sprvpos.toInt < 0)

/-- The pixels of a row on the screen start (R394, R396). -/
def Suzy.beginRow (z : Suzy) : Suzy :=
  { z with
    sprhpos := z.firstCol
    hsizacum := if z.hsign = 1 then z.hsizoff else 0
    colsLeft := 0
    parse := if z.isLiteral then .literal else .header
    phase := .parse }

/-- `sprdoff` is taken from the shifter and decides: 0 ends the sprite, 1 the quadrant, else a screen row follows (R397,
R398; log 23). -/
def Suzy.lineHead (z : Suzy) : Suzy :=
  let len := z.look 8
  let z : Suzy := { z.drop 8 with sprdoff := BitVec.ofNat 16 len, budget := (len - 1) * 8 }
  if len = 0 then { z with phase := .deposit }
  else if len = 1 then ({ z with sprdline := z.sprdline + 1 }).endQuadrant
  else if z.rowsLeft = 0 ∨ z.rowGone then z.endSourceRow
  else if z.rowOff then { z with phase := .rowEnd }
  else z.beginRow

/-! ### Collision and video operators, R405 to R408 -/

/-- Whether a pixel value is drawn (R407). -/
def drawnFor (kind : Nat) (p : Nibble) : Bool :=
  match kind with
  | 0 | 1 => true
  | 2 => p != 0 && p != 0xE && p != 0xF
  | 3 => p != 0 && p != 0xF
  | _ => p != 0

/-- Whether a pixel value collides (R407). -/
def collidesFor (kind : Nat) (p : Nibble) : Bool :=
  match kind with
  | 0 => p != 0xE
  | 1 | 5 => false
  | 3 | 4 => p != 0
  | _ => p != 0 && p != 0xE

/-- The byte that holds column `x` of the row at `base` (R406, R408). -/
def columnAddr (base x : Word) : Word := base + x >>> 1

/-- An even column is the high nibble (R408). -/
def columnHi (x : Word) : Bool := !(x.getLsbD 0)

/-- The nibble of a byte that holds column `x`. -/
def nibbleAt (x : Word) (b : Byte) : Nibble := if columnHi x then hiNib b else loNib b

/-- A nibble enters the byte under construction. -/
def Accum.put (c : Accum) (high : Bool) (p : Nibble) : Accum :=
  if high then { c with data := joinNib p (loNib c.data), hiSet := true }
  else { c with data := joinNib (hiNib c.data) p, loSet := true }

/-- A byte under construction with nothing gathered. -/
def Accum.empty (a : Word) : Accum := { addr := a, data := 0, hiSet := false, loSet := false, old := none }

/-- A byte under construction that holds what stands in memory. -/
def Accum.loaded (a : Word) (b : Byte) : Accum := { addr := a, data := b, hiSet := true, loSet := true, old := none }

/-- The byte that a flush writes over `old`: each gathered nibble replaces the old one. -/
def Accum.merge (c : Accum) (old : Byte) : Byte :=
  joinNib (if c.hiSet then hiNib c.data else hiNib old) (if c.loSet then loNib c.data else loNib old)

/-- The next access of a flush (R408): WRITE when both nibbles are gathered, MODIFY (read, then write) when one is, and XOR
(read, then write) for the exclusive-or type. -/
def Accum.flush (xor : Bool) (c : Accum) : Request :=
  if xor then
    match c.old with
    | none => .read c.addr
    | some b => .write c.addr (b ^^^ c.data)
  else if c.hiSet && c.loSet then .write c.addr c.data
  else
    match c.old with
    | none => .read c.addr
    | some b => .write c.addr (c.merge b)

/-- The pixel value of the current pen (R405). -/
def Suzy.pixel (z : Suzy) : Nibble := z.pens[z.curPen.toNat]'z.curPen.isLt

/-- The current pixel collides (R390, R407). -/
def Suzy.colliding (z : Suzy) : Bool := !z.noColl && collidesFor z.kind z.pixel

/-- The current pixel is drawn (R407). -/
def Suzy.drawn (z : Suzy) : Bool := drawnFor z.kind z.pixel

/-- The byte of the collision buffer that holds the current column. -/
def Suzy.collCell (z : Suzy) : Word := columnAddr z.colladr z.sprhpos

/-- The byte of the screen that holds the current column. -/
def Suzy.videoCell (z : Suzy) : Word := columnAddr z.vidadr z.sprhpos

/-- The current column is on the screen (R404). -/
def Suzy.colOn (z : Suzy) : Bool := decide (0 ≤ z.sprhpos.toInt ∧ z.sprhpos.toInt < (Config.linePixels : Int))

/-- The collision operator at the current column, once it has its byte (R406): the number met raises `hiColl`, except for type
0, which writes without reading. -/
def Suzy.collide (z : Suzy) : Suzy :=
  if z.kind = 0 then
    { z with collAcc := some ((z.collAcc.getD (.empty z.collCell)).put (columnHi z.sprhpos) z.collNumber) }
  else
    match z.collAcc with
    | some c =>
      let met : Byte := (nibbleAt z.sprhpos c.data).setWidth 8
      { z with
        hiColl := if z.hiColl.toNat < met.toNat then met else z.hiColl
        collAcc := some (c.put (columnHi z.sprhpos) z.collNumber) }
    | none => z

/-- The video operator gathers the current pixel (R407, R408). -/
def Suzy.gather (z : Suzy) : Suzy :=
  { z with videoAcc := some ((z.videoAcc.getD (.empty z.videoCell)).put (columnHi z.sprhpos) z.pixel) }

/-- To the next column. -/
def Suzy.moveColumn (z : Suzy) : Suzy := { z with sprhpos := z.sprhpos + u16 z.hsign, colsLeft := z.colsLeft - 1 }

/-- After a column that was on the screen: a row that leaves the screen is dropped at once (R404; log 38). -/
def Suzy.leaveColumn (z : Suzy) : Suzy :=
  if z.moveColumn.colOn then { z.moveColumn with phase := .parse } else { z.moveColumn with phase := .rowVideo }

/-! ### Pixel parser, R399 to R403 -/

/-- A pen is yielded: its width is the high byte of `hsizacum`, whose fraction is kept (R403). -/
def Suzy.emit (p : Nibble) (z : Suzy) : Suzy :=
  let acc := z.hsizacum + z.sprhsiz
  { z with curPen := p, colsLeft := (hi acc).toNat, hsizacum := zext (lo acc) }

/-- The bits of the parser's next field: a pen, a block header, or none (R399, R400). -/
def Suzy.needed (z : Suzy) : Nat :=
  match z.parse with
  | .literal | .block (_ + 1) | .runPen _ => z.bpp
  | .header => 5
  | .block 0 | .run _ _ => 0

/-- The parser is between two pens and its next field is within the line's budget. -/
def Suzy.parsing (z : Suzy) : Bool := z.colsLeft == 0 && decide (z.needed ≤ z.budget)

/-- Fewer than 24 bits are buffered and more are needed (R401; log 24). -/
def Suzy.refills (z : Suzy) : Bool :=
  z.parsing && z.needed != 0 && decide (z.shiftCount < 24) && decide (z.shiftCount < z.budget)

/-- Take a pen and go on at `next` of it. -/
def Suzy.takePen (next : Nibble → Parse) (z : Suzy) : Suzy :=
  let p := BitVec.ofNat 4 (z.look z.bpp)
  { (z.drop z.bpp).emit p with parse := next p }

/-- A block header: a flag and a 4-bit count; a repeat block of count 0 ends the line (R400). -/
def Suzy.takeHeader (z : Suzy) : Suzy :=
  let h := z.look 5
  if h / 16 = 1 then { z.drop 5 with parse := .block (h % 16 + 1) }
  else if h % 16 = 0 then { z.drop 5 with phase := .rowVideo }
  else { z.drop 5 with parse := .runPen (h % 16) }

/-- The parser's move, with the bits it needs in the shifter; beyond the budget the line ends (R399 to R401). -/
def Suzy.parseMove (z : Suzy) : Suzy :=
  if z.budget < z.needed then { z with phase := .rowVideo }
  else
    match z.parse with
    | .literal => z.takePen fun _ => .literal
    | .header => z.takeHeader
    | .block 0 => { z with parse := .header }
    | .block (k + 1) => z.takePen fun _ => .block k
    | .runPen n => z.takePen fun p => .run n p
    | .run 0 _ => { z with parse := .header }
    | .run (k + 1) p => { z.emit p with parse := .run k p }

/-- The move in a screen row: a pen, or a column of the pen at hand (R404). -/
def Suzy.rowMove (z : Suzy) : Suzy :=
  if z.colsLeft = 0 then z.parseMove
  else if z.colOn then { z with anyPixel := true, phase := .coll }
  else z.moveColumn

/-! ### After a row, R408 to R410 -/

/-- Stretch and tilt, by the reload field of this SCB (R410). -/
def Suzy.stretchAndTilt (z : Suzy) : Suzy :=
  { z with
    sprhsiz := if 2 ≤ z.reloadField then z.sprhsiz + z.stretch else z.sprhsiz
    sprvsiz := if 2 ≤ z.reloadField ∧ z.vStretch then z.sprvsiz + z.stretch else z.sprvsiz
    tiltacum := if z.reloadField = 3 then z.tiltacum + z.tilt else z.tiltacum }

/-- `hposstrt += tiltacum.h; tiltacum.h = 0` (R409). -/
def Suzy.applyTilt (z : Suzy) : Suzy :=
  { z with hposstrt := z.hposstrt + sext (hi z.tiltacum), tiltacum := zext (lo z.tiltacum) }

/-- The next screen row of the source row, or the next source row (R395, R396, R409). -/
def Suzy.nextRow (z : Suzy) : Suzy :=
  let z : Suzy := { z with sprvpos := z.sprvpos + u16 z.vsign, rowsLeft := z.rowsLeft - 1 }
  if z.rowsLeft = 0 then z.endSourceRow else z.beginLine

/-! ### The end of a sprite, R411, R412 -/

/-- The byte deposited in the SCB (R411). -/
def Suzy.depositByte (z : Suzy) : Byte := z.hiColl ||| (if z.everonEn && z.anyPixel then bitMask 7 else 0)

/-- The stop test after a sprite. -/
def Suzy.afterDeposit (z : Suzy) : Suzy := if z.stopBit then z.finish else { z with phase := .chain }

/-! ### The engine, R414, R416 -/

/-- The access that the engine makes next, if its phase wants one. -/
def Suzy.request (z : Suzy) : Option Request :=
  match z.phase with
  | .scb _ | .reload _ | .palette _ => some (.read z.tmpadr)
  | .fill _ => some (.read z.procadr)
  | .parse => if z.refills then some (.read z.procadr) else none
  | .coll =>
    if z.colliding then
      match z.collAcc with
      | some c => if c.addr = z.collCell then none else some (c.flush false)
      | none => if z.kind = 0 then none else some (.read z.collCell)
    else none
  | .video =>
    match z.videoAcc with
    | some c => if !z.drawn ∨ c.addr = z.videoCell then none else some (c.flush (z.kind == 6))
    | none => none
  | .rowVideo => z.videoAcc.map fun c => c.flush (z.kind == 6)
  | .rowColl => z.collAcc.map fun c => c.flush false
  | .deposit => if z.noColl then none else some (.write (z.scbadr + z.colloff) z.depositByte)
  | .idle | .chain | .lineHead | .rowEnd => none

/-- The move of a phase that wants no access. -/
def Suzy.move (z : Suzy) : Suzy :=
  match z.phase with
  | .chain => z.chainStep
  | .lineHead => z.lineHead
  | .parse => z.rowMove
  | .coll => { (if z.colliding then z.collide else z) with phase := .video }
  | .video => (if z.drawn then z.gather else z).leaveColumn
  | .rowVideo => { z with phase := .rowColl }
  | .rowColl => { z with phase := .rowEnd }
  | .rowEnd => z.stretchAndTilt.applyTilt.nextRow
  | .deposit => z.afterDeposit
  | .idle | .scb _ | .reload _ | .palette _ | .fill _ => z

/-- The byte `b` that the engine has asked for. -/
def Suzy.gotByte (b : Byte) (z : Suzy) : Suzy :=
  match z.phase with
  | .scb k => z.bumpTmp.scbByte k b
  | .reload k => z.bumpTmp.reloadByte k b
  | .palette k => z.bumpTmp.paletteByte k b
  | .fill k => { z.pushByte b with phase := if k < 3 then .fill (k + 1) else .lineHead }
  | .parse => z.pushByte b
  | .coll =>
    match z.collAcc with
    | some c => { z with collAcc := some { c with old := some b } }
    | none => { z with collAcc := some (.loaded z.collCell b) }
  | .video | .rowVideo => { z with videoAcc := z.videoAcc.map fun c => { c with old := some b } }
  | .rowColl => { z with collAcc := z.collAcc.map fun c => { c with old := some b } }
  | .idle | .chain | .lineHead | .rowEnd | .deposit => z

/-- The write that the engine has asked for is done. -/
def Suzy.wrote (z : Suzy) : Suzy :=
  match z.phase with
  | .coll | .rowColl => { z with collAcc := none }
  | .video | .rowVideo => { z with videoAcc := none }
  | .deposit => z.afterDeposit
  | .idle | .chain | .scb _ | .reload _ | .palette _ | .fill _ | .lineHead | .parse | .rowEnd => z

/-- The moves up to the next access or to the end of the walk, at most `n`. -/
def Suzy.proceed : Nat → Suzy → Suzy
  | 0, z => z
  | n + 1, z => if z.request.isSome || z.phase == .idle then z else Suzy.proceed n z.move

/-- A bound on the moves between two accesses, larger than what the pens in the shifter can ask for (log 21). -/
def Suzy.moves : Nat := 2 ^ 20

/-- Up to the next access. -/
def Suzy.toAccess (z : Suzy) : Suzy := z.proceed Suzy.moves

/-- Replace Suzy's part of the state. -/
def State.onSuzy (f : Suzy → Suzy) (s : State) : State := { s with suzy := f s.suzy }

/-- The access `r` and the engine's answer to it. -/
def State.serve (r : Request) (s : State) : State :=
  match r with
  | .read a => (s.suzyRead a).2.onSuzy (Suzy.gotByte (s.suzyRead a).1)
  | .write a v => (s.suzyWrite a v).onSuzy Suzy.wrote

/-- Suzy's turn (R470): one bus access, with the moves before the next; none only when the walk ends before its first. In phase
`idle` the engine has nothing to do and releases the CPU. -/
def State.suzyTurn (s : State) : State :=
  match s.suzy.toAccess.request with
  | some r => ((s.onSuzy Suzy.toAccess).serve r).onSuzy Suzy.toAccess
  | none => s.onSuzy fun z => if z.toAccess.phase = .idle then z.toAccess.finish else z.toAccess

/-- One Suzy-step with what the scheduler runs before the master goes on. -/
def suzyStep (s : State) : State := s.suzyTurn.settle

end Sys2Proof.Machine
end

