-- ==== Sys2Proof/Machine/Step.lean ====
section
/-! DEFINITION. The step of the machine: device actions that come before the master, else a Suzy-step while the CPU is halted,
else the rest of a suspended instruction, else one CPU-step, that is the poll and then one trap entry or one instruction
(60_exceptions.md R306; 64_bus_scheduler.md R468, R475); and the turn, the single scheduler action of which such a step is a
sequence (R473). -/

namespace Sys2Proof.Machine

/-- The CPU-step at a fetch boundary (R306). -/
def cpuStep (s : State) : Result :=
  match s.poll with
  | .nmi => .next (perform .nmi nmiEntry s.afterPoll.wake)
  | .irq => .next (perform .irq irqEntry s.afterPoll.wake)
  | .run =>
    if s.keepsWaiting then .next s.afterPoll.postpone.settle
    else exec (fetchInstr s.afterPoll.wake).1 (fetchInstr s.afterPoll.wake).2

/-- One step of the machine. -/
def step (s : State) : Host.Outcome State Fault Refusal :=
  if Config.tickLimit ≤ s.io.tick then .refused .tickCounterWrap
  else if !s.settled then .next s.settle
  else if s.suzy.halted then .next (suzyStep s)
  else
    match s.pipe with
    | .work w start log => .next (resumeWork w start log s)
    | .fetch start log => exec (resumeFetch start log s).1 (resumeFetch start log s).2
    | .atFetch => if s.cpu.stopped then .next s.postpone.settle else cpuStep s

/-- One iteration of the scheduler (R473): the next device action or tick of time, else the turn of the bus master, which is
Suzy while it halts the CPU (R468), with one access at most (R464). -/
def turn (s : State) : State :=
  match s.beat with
  | some t => t
  | none => if s.suzy.halted then s.suzyTurn else s.cpuTurn

/-- The instruction whose bits are `w` (of which the low `nbits` count), placed where the next step fetches. -/
def State.withFetchWord (s : State) (nbits w : Nat) : State :=
  s.place (byteOf (w % 2 ^ nbits) 0) (byteOf (w % 2 ^ nbits) 1) (byteOf (w % 2 ^ nbits) 2)

end Sys2Proof.Machine
end

