-- ==== Sys2Proof/Machine/Image.lean ====
section
/-! DEFINITION. What the host constructs a machine from: cartridge images and BS93 images (63_comlynx_cart.md R449, R450;
log 34). -/

namespace Sys2Proof.Machine

/-- `InvalidImage`, a result of construction (R449). -/
inductive ImageError
  | invalidImage
  deriving DecidableEq, Repr

/-- A cartridge with what its header says besides the banks (R449). -/
structure CartImage where
  cart : Cart
  version : Word
  title : List Byte
  manufacturer : List Byte
  rotation : Byte
  deriving DecidableEq, Repr

/-- The 16-bit field at offset `k`, little-endian (R449). -/
def imageWord (image : List Byte) (k : Nat) : Word := join (image.getD (k + 1) 0) (image.getD k 0)

/-- The header's magic "LYNX". -/
def lynxMagic : List Byte := [0x4C, 0x59, 0x4E, 0x58]

/-- The banks of an image with a header: its sizes count the bytes of each of the 256 pages of a bank; a double-banked image
has each bank followed by its "A" variant (R443, R449; log 34). -/
def headedCart (size0 size1 : Nat) (data : List Byte) : Except ImageError Cart :=
  if data.length = size0 + size1 then .ok { Cart.reset with bank0 := data.take size0, bank1 := data.drop size0 }
  else if data.length = 2 * (size0 + size1) then
    .ok
      { Cart.reset with
        bank0 := data.take size0
        bank0A := (data.drop size0).take size0
        bank1 := (data.drop (2 * size0)).take size1
        bank1A := (data.drop (2 * size0)).drop size1 }
  else .error .invalidImage

/-- A cartridge image: with the 64-byte header, or a raw dump whose size is a multiple of 256, which is bank 0 (R449). -/
def loadCart (image : List Byte) : Except ImageError CartImage :=
  if image.take 4 = lynxMagic then
    if image.length < 64 then .error .invalidImage
    else
      match headedCart (256 * (imageWord image 4).toNat) (256 * (imageWord image 6).toNat) (image.drop 64) with
      | .ok cart =>
        .ok
          { cart := cart
            version := imageWord image 8
            title := (image.drop 10).take 32
            manufacturer := (image.drop 42).take 16
            rotation := image.getD 58 0 }
      | .error e => .error e
  else if image.length % 256 = 0 ∧ image ≠ [] then
    .ok { cart := { Cart.reset with bank0 := image }, version := 0, title := [], manufacturer := [], rotation := 0 }
  else .error .invalidImage

/-- The magic "BS93". -/
def bs93Magic : List Byte := [0x42, 0x53, 0x39, 0x33]

/-- Bytes stored one after another from `a` on, modulo 65536. -/
def Ram.load (ram : List Host.Cell) (a : Word) : List Byte → List Host.Cell
  | [] => ram
  | b :: rest => Ram.load (Ram.write ram a.toNat b) (a + 1) rest

/-- The RAM contents a BS93 image establishes: the image stands at the address in its bytes 0 and 1, whose order is a free
value (R450, N26; log 34). DESIGN CHOICE (log 34): no length is a sizing mismatch, and an image that runs past $FFFF goes on at
$0000. -/
def loadBs93 (ram : List Host.Cell) (image : List Byte) : Except ImageError (List Host.Cell) :=
  if (image.drop 2).take 4 = bs93Magic then
    let a :=
      if Config.bs93LowFirst then join (image.getD 1 0) (image.getD 0 0) else join (image.getD 0 0) (image.getD 1 0)
    .ok (Ram.load ram a image)
  else .error .invalidImage

end Sys2Proof.Machine
end

