-- ==== Sys2Proof/Machine/HostOps.lean ====
section
/-! DEFINITION. What the outside can do between iterations of the scheduler, and the machine's outputs (64_bus_scheduler.md
R473, R480 to R484; 60_exceptions.md R321, R324; 61_mikey.md R361; 10_state.md R51). -/

namespace Sys2Proof.Machine

/-- `setInput(keypad_bits)` (R418, R481). -/
def State.setInput (k : BitVec 9) (s : State) : State := { s with inputs := { s.inputs with keypad := k } }

/-- The environment sets the NMI input (R30, R305). -/
def State.setNmi (level : Bool) (s : State) : State := { s with inputs := { s.inputs with nmiLine := level } }

/-- The serial peer pulls or releases the wire from tick `since` on (R430, R476). -/
def State.setPeer (since : Nat) (pulling : Bool) (s : State) : State :=
  { s with inputs := { s.inputs with peer := (since, pulling) :: s.inputs.peer } }

/-- Under the coarse back-end, the serial peer's byte with its parity bit reaches this party in the pulse at tick `stamp`
(R440). -/
def State.sendFrame (stamp : Nat) (byte : Byte) (parity : Bool) (s : State) : State :=
  { s with inputs := { s.inputs with peerFrames := (stamp, byte, parity) :: s.inputs.peerFrames } }

/-- The outside drives the parallel port's pins (R446). -/
def State.setPins (levels : Byte) (s : State) : State := { s with inputs := { s.inputs with pins := levels } }

/-- `stop_requested` (R324). -/
def State.requestStop (s : State) : State := { s with inputs := { s.inputs with stopRequested := true } }

/-- `reset()`: the same state as construction, the unspecified values drawn anew (R481, R500, R501). -/
def State.hostReset (draw : ResetDraw) (s : State) : State := State.resetWith s.rom s.cart s.inputs draw

/-- Construction from a cartridge image and an optional boot ROM (R449, R451, R481). -/
def construct (image rom : List Byte) (inputs : Inputs) (draw : ResetDraw) : Except ImageError State :=
  match loadCart image with
  | .ok c => .ok (State.resetWith rom c.cart inputs draw)
  | .error e => .error e

/-- Construction from a BS93 image, which establishes the contents of RAM (R450). -/
def constructBs93 (image rom : List Byte) (inputs : Inputs) (draw : ResetDraw) : Except ImageError State :=
  match loadBs93 draw.ram image with
  | .ok ram => .ok (State.resetWith rom Cart.reset inputs { draw with ram := ram })
  | .error e => .error e

/-! ### Reading and writing from outside, R321, R481 -/

/-- `CPURegs + Memory`. DESIGN CHOICE (log 45): the memory is the RAM beneath the overlays. -/
structure DebugSnapshot where
  cpu : Cpu
  memory : List Host.Cell
  deriving DecidableEq, Repr

/-- `getDebugSnapshot()`: the registers as they stand (log 37) and the RAM beneath the overlays (log 45). -/
def State.debugSnapshot (s : State) : DebugSnapshot := { cpu := s.cpu, memory := s.ram }

/-- `readMem` under each answer to the questions of N27: through the overlays or straight to RAM, with or without the side
effects of a register read. -/
def State.readMemWith (throughMap effects : Bool) (a : Word) (s : State) : Byte × State :=
  if throughMap then (s.peek a, if effects then s.readEffect a else s) else (s.ramAt a, s)

/-- `readMem(addr)` (log 41). -/
def State.readMem (a : Word) (s : State) : Byte × State :=
  s.readMemWith Config.hostMemThroughMap Config.hostMemEffects a

/-- `writeMem` under each answer to the questions of N27; a write that is to have no side effects leaves a device register
alone. DESIGN CHOICE (log 41): MAPCTL at $FFF9 is no device register here; a write through the overlays remaps in any case. -/
def State.writeMemWith (throughMap effects : Bool) (a : Word) (v : Byte) (s : State) : State :=
  if throughMap then (if effects || !(s.backingOf a).isReg then s.store a v else s) else s.setRam a v

/-- `writeMem(addr, byte)` (log 41). -/
def State.writeMem (a : Word) (v : Byte) (s : State) : State :=
  s.writeMemWith Config.hostMemThroughMap Config.hostMemEffects a v

/-! ### Runs, R473, R480, R484 -/

/-- Why a run ends (R321, R324, R473, R480). DESIGN CHOICE (log 46): no event of the machine gives the result `Break`, and a
run that has come to its target answers `reached`. -/
inductive RunEnd
  /-- The next deadline lies beyond the target. -/
  | reached
  /-- `BREAK_CANCELLED`. -/
  | cancelled
  /-- `NextFrame`: a frame was committed. -/
  | nextFrame
  /-- `DebugTrap`: a BRK was fetched in the break-on-BRK mode. -/
  | debugTrap
  /-- The tick budget of `runFor` is used up (R324; log 46). -/
  | timeout
  /-- `current_tick` has left its 64 bits (log 11). -/
  | tickCounterWrap
  /-- The bound on the number of iterations was reached. -/
  | unfinished
  deriving DecidableEq, Repr

/-- What a run looks out for besides its target. -/
structure RunOptions where
  stopAtFrame : Bool
  breakOnBrk : Bool
  traceHook : Bool
  deriving DecidableEq, Repr

/-- The options of this machine (R8). -/
def RunOptions.std (stopAtFrame : Bool) : RunOptions :=
  { stopAtFrame := stopAtFrame, breakOnBrk := Config.breakOnBrk, traceHook := Config.traceHook }

/-- A run's last state, why it ended, and how often the trace hook was called. -/
structure Ran where
  state : State
  why : RunEnd
  traced : Nat
  deriving DecidableEq, Repr

/-- Every queued deadline lies beyond the target (R473). -/
def State.beyond (target : Nat) (s : State) : Bool := s.io.deadlines.all fun d => decide (target < d)

/-- A BRK has been fetched and nothing of it done (log 32). -/
def State.atBrk (s : State) : Bool :=
  match s.pipe with
  | .work (.instr (.brk _)) _ [] => true
  | .work _ _ _ | .fetch _ _ | .atFetch => false

/-- The next turn begins an instruction, at which the trace hook is called (R321; log 32). -/
def State.beginsInstr (s : State) : Bool :=
  s.settled && !s.suzy.halted && s.pipe == .atFetch && !s.cpu.stopped && s.poll == .run && !s.keepsWaiting

/-- `runUntil(target)` with a bound on the number of iterations (R473). It returns between any two accesses of an instruction
or of a sprite (R464, R484). -/
def runWith (o : RunOptions) : Nat → Nat → Nat → State → Ran
  | 0, _, calls, s => { state := s, why := .unfinished, traced := calls }
  | k + 1, target, calls, s =>
    if s.inputs.stopRequested then { state := s, why := .cancelled, traced := calls }
    else if s.beyond target then { state := s, why := .reached, traced := calls }
    else if Config.tickLimit ≤ s.io.tick then { state := s, why := .tickCounterWrap, traced := calls }
    else
      let t := turn s
      let calls' := if o.traceHook && s.beginsInstr then calls + 1 else calls
      if o.breakOnBrk && t.atBrk && !s.atBrk then { state := t, why := .debugTrap, traced := calls' }
      else if o.stopAtFrame && t.io.video.frames != s.io.video.frames then
        { state := t, why := .nextFrame, traced := calls' }
      else runWith o k target calls' t

/-- `runUntil(target)`. -/
def runUntil (bound target : Nat) (s : State) : Ran := runWith (.std false) bound target 0 s

/-! ### Outputs, R361, R482 -/

/-- The stereo sample a sample request returns, in sixteenths (R360, R361; log 17). -/
def State.audioSample (s : State) : Int × Int := s.io.mixer

/-- The video sink's content: the last committed frame (R482). -/
def State.videoSink (s : State) : List Argb := s.io.video.sink

/-- What a request for samples gives: the samples in tick order, the tick of the next one, and why it ended. -/
structure Audio where
  state : State
  samples : List (Int × Int)
  due : Nat
  why : RunEnd
  deriving DecidableEq, Repr

/-- The tick of the sample after the one at `due`, at rate `rate`: later, and otherwise free (N17; log 42). -/
def nextSample (rate due : Nat) : Nat := due + 1 + Config.sampleGap rate due

/-- The tick up to which a run for a sample at `due` goes within a limit. -/
def within (limit : Option Nat) (due : Nat) : Nat :=
  match limit with
  | some last => min last due
  | none => due

/-- For each of `n` samples the scheduler runs to the sample's tick, then the mixer is read (R361), as long as the sample's tick
is within the limit, if there is one (R324). -/
def samplesWith (o : RunOptions) (bound rate : Nat) (limit : Option Nat) : Nat → Nat → State → Audio
  | 0, due, s => { state := s, samples := [], due := due, why := .reached }
  | n + 1, due, s =>
    let r := runWith o bound (within limit due) 0 s
    match r.why with
    | .reached =>
      if within limit due < due then { state := r.state, samples := [], due := due, why := .timeout }
      else
        let rest := samplesWith o bound rate limit n (nextSample rate due) r.state
        { rest with samples := r.state.audioSample :: rest.samples }
    | .cancelled | .nextFrame | .debugTrap | .timeout | .tickCounterWrap | .unfinished =>
      { state := r.state, samples := [], due := due, why := r.why }

/-- `advanceAudio(sampleRate, outBuffer)` for a buffer of `n` samples, the first at tick `due`: it returns early when a frame is
committed (R480, R484). DESIGN CHOICE (log 46): a buffer filled without a frame answers `reached`. -/
def advanceAudio (bound rate n due : Nat) (s : State) : Audio := samplesWith (.std true) bound rate none n due s

/-- `runFor(audioSamples)` (R480) with a budget of ticks from now (R324). DESIGN CHOICE (log 46): it goes on over the frames that
are committed meanwhile, and ends in `timeout` when the budget is used up. -/
def runFor (bound budget rate n due : Nat) (s : State) : Audio :=
  samplesWith (.std false) bound rate (some (s.io.tick + budget)) n due s

/-- `runFrame()`: run until a frame is committed; its pixels (R480, R482). -/
def runFrame (bound : Nat) (s : State) : List Argb × Ran :=
  let r := runWith (.std true) bound Config.tickLimit 0 s
  (r.state.videoSink, r)

end Sys2Proof.Machine
end

