-- ==== Sys2Proof/Safety.lean ====
section
/-! DEFINITION. The terms in which claims are stated: what the passing of time leaves alone, what a read and a store change
besides the CPU, the effective addresses as formulas, and the invariant that every step keeps. -/

namespace Sys2Proof.Machine

/-! ### What a step leaves alone -/

/-- From `a` to `b` only time has passed for Mikey and the serial port: the clock did not run backwards (R474), no pending
interrupt was lost (R303), and every register that only software writes reads as before. -/
structure Io.TimePassed (a b : Io) : Prop where
  tick : a.tick ≤ b.tick
  pending : a.pending &&& b.pending = a.pending
  atten : b.atten = a.atten
  attenEnable : b.attenEnable = a.attenEnable
  stereo : b.stereo = a.stereo
  dispadr : b.dispadr = a.dispadr
  green : b.green = a.green
  blueRed : b.blueRed = a.blueRed
  serialCtl : b.serial.ctl = a.serial.ctl
  timers : ∀ k : Fin 8, b.timers[k].backup = a.timers[k].backup ∧ b.timers[k].ctl = a.timers[k].ctl
  channels : ∀ k : Fin 4,
    b.channels[k].volume = a.channels[k].volume ∧ b.channels[k].feedback = a.channels[k].feedback ∧
    b.channels[k].timer.backup = a.channels[k].timer.backup ∧ b.channels[k].timer.ctl = a.channels[k].timer.ctl

/-- From `s` to `t` nothing outside the CPU has changed but for the passing of time, and the cartridge is now `cart`: no
byte of RAM, not MAPCTL, the ROM, Suzy or the host's inputs. -/
structure State.Kept (s : State) (cart : Cart) (t : State) : Prop where
  ram : ∀ a : Word, t.ramAt a = s.ramAt a
  mapctl : t.mapctl = s.mapctl
  rom : t.rom = s.rom
  suzy : t.suzy = s.suzy
  inputs : t.inputs = s.inputs
  cart : t.cart = cart
  io : s.io.TimePassed t.io

/-- The CPU has come to the end of an instruction or trap entry with the registers `k`, at a fetch boundary. -/
structure State.Ended (k : Cpu) (t : State) : Prop where
  cpu : t.cpu = k
  pipe : t.pipe = .atFetch

/-- Nothing outside the CPU has changed but for the passing of time. -/
abbrev State.Quiet (s t : State) : Prop := State.Kept s s.cart t

/-- The cartridge after a CPU read at `a`: reading RCART0 or RCART1 advances the counter (R445). -/
def State.cartAfterRead (s : State) (a : Word) : Cart :=
  if s.backingOf a = .suzy then s.cart.readEffect (lo a).toNat else s.cart

/-- From `s` to `t` the byte `v` has been stored at `a`, to what backs `a` in `s`, and time has passed; nothing else outside
the CPU has changed (R63). -/
structure State.Stored (s : State) (a : Word) (v : Byte) (t : State) : Prop where
  here : t.ramAt a = if s.backingOf a = .ram then v else s.ramAt a
  others : ∀ b : Word, b ≠ a → t.ramAt b = s.ramAt b
  canonical : Ram.wf t.ram = true
  mapctl : t.mapctl = if s.backingOf a = .mapctl then v else s.mapctl
  rom : t.rom = s.rom
  suzy : t.suzy = if s.backingOf a = .suzy then s.suzy.writeReg (lo a).toNat v else s.suzy
  inputs : t.inputs = s.inputs
  cart : t.cart = if s.backingOf a = .mikey then s.cart.writeMikeyReg (lo a).toNat v else s.cart
  io : ∃ u : Io, s.io.TimePassed u ∧
    (if s.backingOf a = .mikey then u.writeReg (lo a).toNat v else u).TimePassed t.io

/-! ### Effective addresses as formulas -/

/-- The little-endian word in page zero at `z`, both bytes inside the page (R12, R66, R69). -/
def State.pointer (s : State) (z : Byte) : Word := join (s.ramAt (zext (z + 1))) (s.ramAt (zext z))

/-- The effective address of a memory operand (R105 to R113). -/
def State.target (s : State) (m : Addr) : Word :=
  match m with
  | .zp d8 => zext d8
  | .zpx d8 => zext (d8 + s.cpu.x)
  | .zpy d8 => zext (d8 + s.cpu.y)
  | .abs a16 => a16
  | .abx a16 => a16 + zext s.cpu.x
  | .aby a16 => a16 + zext s.cpu.y
  | .izx d8 => s.pointer (d8 + s.cpu.x)
  | .izy d8 => s.pointer d8 + zext s.cpu.y
  | .izp d8 => s.pointer d8

/-- The cartridge after an operand has been read. -/
def State.cartAfterOperand (s : State) (src : Src) : Cart :=
  match src with
  | .imm _ => s.cart
  | .mem m => s.cartAfterRead (s.target m)

/-- What stands at `a` without any effect and independently of time: no device register backs it. -/
def State.plain (s : State) (a : Word) : Bool := !(s.backingOf a).isReg

/-! ### Composite effects -/

/-- The CPU is inside `w` with one access left: it writes `v` at `a` with the registers `k`, and `idle` cycles follow (R31). -/
def State.OwesWrite (w : Work) (k : Cpu) (a : Word) (v : Byte) (idle : Nat) (t : State) : Prop :=
  ∃ start log, t.pipe = .work w start log ∧
    Prog.after log (program w start) = .write k a v (.done { cpu := k, idle := idle })

/-- A read-modify-write at `a` by `i` (R73, R195): the byte `old` is read there, `old` is stored, then `new`; the CPU is then
`k`, and `idle` cycles pass. If the first store has started Suzy, the second is still owed (R384). -/
def State.Modified (s : State) (i : Instr) (a : Word) (old new : Byte) (k : Cpu) (idle : Nat) (t : State) : Prop :=
  ∃ r u : State, s.Quiet r ∧ old = (r.busRead a).1 ∧ (r.busRead a).2.Stored a old u ∧
    if s.startsSuzy a old then u.Quiet t ∧ t.OwesWrite (.instr i) k a new idle
    else u.Stored a new t ∧ t.Ended k

/-- A trap has been entered (R310): the return address and the status byte with break bit `b` are on the stack, I is set, D
cleared, and PC comes from the vector as mapped; `k` is the CPU before the entry. -/
structure State.Entered (s : State) (k : Cpu) (ret : Word) (b : Bool) (vec : Word) (t : State) : Prop where
  ended : t.Ended { k with sp := k.sp - 3, i := true, d := false, pc := join (s.peek (vec + 1)) (s.peek vec) }
  high : t.ramAt (stackAddr k.sp) = hi ret
  low : t.ramAt (stackAddr (k.sp - 1)) = lo ret
  status : t.ramAt (stackAddr (k.sp - 2)) = k.status b
  others : ∀ a : Word, a ≠ stackAddr k.sp → a ≠ stackAddr (k.sp - 1) → a ≠ stackAddr (k.sp - 2) → t.ramAt a = s.ramAt a
  mapctl : t.mapctl = s.mapctl
  rom : t.rom = s.rom
  suzy : t.suzy = s.suzy
  inputs : t.inputs = s.inputs
  cart : t.cart = s.cart
  io : s.io.TimePassed t.io

/-- RMB and SMB (R251, R252): the bit, whether it is set, and the instruction. -/
def bitModifies : List (Nat × Bool × (Byte → Instr)) :=
  [(0, false, .rmb0), (1, false, .rmb1), (2, false, .rmb2), (3, false, .rmb3), (4, false, .rmb4), (5, false, .rmb5),
   (6, false, .rmb6), (7, false, .rmb7), (0, true, .smb0), (1, true, .smb1), (2, true, .smb2), (3, true, .smb3),
   (4, true, .smb4), (5, true, .smb5), (6, true, .smb6), (7, true, .smb7)]

/-- BBR and BBS (R253, R254): the bit, the value branched on, and the instruction. -/
def bitBranches : List (Nat × Bool × (Byte → Byte → Instr)) :=
  [(0, false, .bbr0), (1, false, .bbr1), (2, false, .bbr2), (3, false, .bbr3), (4, false, .bbr4), (5, false, .bbr5),
   (6, false, .bbr6), (7, false, .bbr7), (0, true, .bbs0), (1, true, .bbs1), (2, true, .bbs2), (3, true, .bbs3),
   (4, true, .bbs4), (5, true, .bbs5), (6, true, .bbs6), (7, true, .bbs7)]

/-- At a fetch boundary, running, below the tick limit, with nothing queued before the CPU-step: the next step polls the
interrupts (R306, R468, R472, R474). -/
structure State.Ready (s : State) : Prop where
  tick : s.io.tick < Config.tickLimit
  settled : s.settled = true
  running : s.suzy.halted = false ∧ s.cpu.stopped = false
  pipe : s.pipe = .atFetch

/-- `b` holds two decimal digits. -/
def isBcd (b : Byte) : Prop := b.toNat / 16 ≤ 9 ∧ b.toNat % 16 ≤ 9

/-- The number that two decimal digits stand for. -/
def bcdValue (b : Byte) : Nat := b.toNat / 16 * 10 + b.toNat % 16

/-- `n` input edges of a timer, with the number of its firings (R345, R346). -/
def Timer.edges : Nat → Timer → Timer × Nat
  | 0, t => (t, 0)
  | n + 1, t =>
    let r := Timer.edges n t
    (r.1.count.1, r.2 + if r.1.count.2 then 1 else 0)

/-- `n` serial pulses of two parties on one wire, the second hearing what both pull (R430, R431). -/
def pulses : Nat → Serial × Serial → Serial × Serial
  | 0, p => p
  | n + 1, p =>
    let q := pulses n p
    let a := q.1.txPulse
    let b := q.2.txPulse
    (a.rxPulse n (wire a.pulling b.pulling), b.rxPulse n (wire b.pulling a.pulling))

/-! ### The invariant -/

/-- A clocked timer's next edge lies ahead (R347). -/
def Timer.Ok (tick : Nat) (t : Timer) : Prop := t.enabled = true → t.linked = false → tick < t.deadline

/-- The display's counters and buffers fit together (R47, R350 to R353): a line buffer of two pixels a byte, a frame of whole
lines, and a committed frame of 160 by 102 pixels. -/
structure Video.Ok (v : Video) : Prop where
  line : v.line ≤ 102
  fetched : v.fetched < 80
  lineBuf : v.lineBuf.length = 2 * v.fetched
  frame : v.frame.length = if v.line = 102 then 0 else 160 * v.line
  sink : v.sink.length = if v.frames = 0 then 0 else 160 * 102

/-- Everything that moves with time is where it should be. -/
structure Io.Ok (io : Io) : Prop where
  timers : ∀ k : Fin 8, io.timers[k].Ok io.tick
  channels : ∀ k : Fin 4, io.channels[k].timer.Ok io.tick
  video : io.video.Ok
  /-- No display byte is due in vertical blank. -/
  pixel : io.pixelDue ≠ none → io.video.line < 102
  /-- The serial pulse lags by less than a bit time. -/
  pulse : io.tick < io.pulseDue + 15
  /-- When it lags by more than two accesses, it comes before the next display read. -/
  lag : io.pulseDue + 10 ≤ io.tick → ∀ d, io.pixelDue = some d → io.pulseDue < d
  /-- The master lags by one display read at most. -/
  late : io.tick ≤ io.masterDue + 5
  /-- While it lags, the next display read is not due before now. -/
  once : io.masterDue < io.tick → ∀ d, io.pixelDue = some d → io.tick ≤ d

/-- `a` is one of the 80 * 102 bytes of a screen-sized buffer at `base`. -/
def inArea (base a : Word) : Prop := (a - base).toNat < 8160

/-- The phases in which the collision operator may hold a byte. -/
def Phase.inRow : Phase → Bool
  | .parse | .coll | .video | .rowVideo | .rowColl => true
  | .idle | .chain | .scb _ | .reload _ | .palette _ | .fill _ | .lineHead | .rowEnd | .deposit => false

/-- The phases of a line start. -/
def Phase.atLine : Phase → Bool
  | .fill _ | .lineHead => true
  | .idle | .chain | .scb _ | .reload _ | .palette _ | .parse | .coll | .video | .rowVideo | .rowColl | .rowEnd | .deposit => false

/-- If a screen row is left, VIDADR and COLLADR are those of the current row (R396). -/
def Suzy.Placed (z : Suzy) : Prop :=
  z.rowsLeft ≠ 0 → z.vidadr = z.rowAddr z.vidbas ∧ z.colladr = z.rowAddr z.collbas

/-- Suzy's registers fit together (R384, R394, R396, R404, R408). -/
structure Suzy.Ok (z : Suzy) : Prop where
  halted : z.halted = z.working
  idle : z.halted = false → z.phase = .idle
  video : ∀ c, z.videoAcc = some c → z.phase.inRow = true ∧ z.phase ≠ .rowColl ∧ inArea z.vidbas c.addr
  coll : ∀ c, z.collAcc = some c → z.phase.inRow = true ∧ inArea z.collbas c.addr
  row : z.phase = .parse ∨ z.phase = .coll ∨ z.phase = .video →
    ∃ y : Nat, y < 102 ∧ z.vidadr = z.vidbas + BitVec.ofNat 16 (80 * y) ∧
      z.colladr = z.collbas + BitVec.ofNat 16 (80 * y)
  column : z.phase = .coll ∨ z.phase = .video → z.sprhpos.toNat < 160
  line : z.phase.atLine = true → z.Placed

/-- The invariant of the machine. -/
structure State.Inv (s : State) : Prop where
  ram : Ram.wf s.ram = true
  io : s.io.Ok
  suzy : s.suzy.Ok

end Sys2Proof.Machine
end

