-- ==== Sys2Proof/Certificates/Slice0/Obligations.lean ====
section
/-! DEFINITION. The statements for the provers, in the order of OBLIGATIONS.json. Each docstring names the rules of spec/ it
formalises. -/

open Sys2Proof Sys2Proof.Machine

/-! ### Encoding -/

/-- A few instructions written out byte by byte from the encodings of the spec (R104, R105, R108, R111, R112, R114, R115, R117,
R118, R251, R266) decode to what they stand for. -/
def Obligations.DecodeSampleWords : Prop :=
  decode [0xA9, 0x80] = .ok (.lda (.imm 0x80), []) ∧
  decode [0x9D, 0x00, 0x20] = .ok (.sta (.abx 0x2000), []) ∧
  decode [0x61, 0x44] = .ok (.adc (.mem (.izx 0x44)), []) ∧
  decode [0xF1, 0x44] = .ok (.sbc (.mem (.izy 0x44)), []) ∧
  decode [0x37, 0x10] = .ok (.rmb3 0x10, []) ∧
  decode [0x8F, 0x10, 0x04] = .ok (.bbs0 0x10 0x04, []) ∧
  decode [0x6C, 0xFF, 0x12] = .ok (.jmp (.ind 0x12FF), []) ∧
  decode [0x00, 0x99, 0xEA] = .ok (.brk 0x99, [0xEA]) ∧
  decode [0x5C, 0x00, 0x20] = .ok (.nopLong 0x2000, []) ∧
  decode [0xD0, 0xFD] = .ok (.bne 0xFD, [])

/-- Decoding the encoding of a well-formed instruction gives it back with every operand, and the bytes after it, whether the
bit instructions exist or not (R101, R120, R267). -/
def Obligations.DecodeOfEncode : Prop :=
  ∀ (bitOps : Bool) (i : Instr) (rest : List Byte), i.wellFormedWith bitOps = true →
    decodeWith bitOps (encode i ++ rest) = .ok (i, rest)

/-- What decodes is a well-formed instruction whose encoding is the bytes it was decoded from (R101, R120). -/
def Obligations.EncodeOfDecode : Prop :=
  ∀ (bitOps : Bool) (bytes rest : List Byte) (i : Instr), decodeWith bitOps bytes = .ok (i, rest) →
    i.wellFormedWith bitOps = true ∧ encode i ++ rest = bytes

/-- Every opcode byte has a length from 1 to 3, and decoding succeeds on any bytes that hold that many (R100, R121, R123). -/
def Obligations.DecodeTotal : Prop :=
  ∀ (bitOps : Bool) (op : Byte), ∃ n : Nat, n ≤ 2 ∧
    ∀ rest : List Byte,
      (n ≤ rest.length → ∃ i : Instr, decodeWith bitOps (op :: rest) = .ok (i, rest.drop n) ∧ i.length = n + 1) ∧
      (rest.length < n → decodeWith bitOps (op :: rest) = .error (.truncated op))

/-! ### Reset -/

/-- The table of R503 for any boot ROM, cartridge, host inputs and draw of the unspecified values, and PC from the reset vector
through the map after reset (R502). What R503 states are the spec's decisions D5, D10, D13 and D14; the values it leaves
unspecified are drawn, none is chosen. -/
def Obligations.ResetState : Prop :=
  ∀ (rom : List Byte) (cart : Cart) (inputs : Inputs) (draw : ResetDraw),
    let s := State.resetWith rom cart inputs draw
    s.cpu.pc = join (s.peek 0xFFFD) (s.peek 0xFFFC) ∧
    s.cpu.pc = join (romByte rom 0x1FD) (romByte rom 0x1FC) ∧ (rom = [] → s.cpu.pc = 0xFFFF) ∧
    s.cpu.a = draw.a ∧ s.cpu.x = draw.x ∧ s.cpu.y = draw.y ∧ s.cpu.sp = draw.sp ∧
    s.cpu.n = draw.n ∧ s.cpu.v = draw.v ∧ s.cpu.z = draw.z ∧ s.cpu.c = draw.c ∧
    s.cpu.i = true ∧ s.cpu.d = false ∧
    s.cpu.irqLatch = false ∧ s.cpu.nmiLatch = false ∧ s.cpu.nmiPrev = false ∧
    s.mapctl = 0x00 ∧ s.ram = draw.ram ∧ s.rom = rom ∧
    (∀ (k : Fin 8) (r : Nat), s.io.timers[k].readReg r = 0x00) ∧
    (∀ (k : Fin 4) (r : Nat), s.io.channels[k].readReg r = 0x00) ∧
    s.io.pending = 0x00 ∧ s.irqLine = false ∧
    s.io.green = draw.green ∧ s.io.blueRed = draw.blueRed ∧ s.io.dispadr = draw.dispadr ∧
    s.suzy.working = false ∧ s.suzy = { draw.suzy with working := false, halted := false, phase := .idle } ∧
    s.io.serial.tx = .idle ∧ s.io.serial.rx = .idle ∧ s.io.serial.pulling = false ∧
    s.io.serial.parErr = false ∧ s.io.serial.overrun = false ∧ s.io.serial.framErr = false ∧ s.io.serial.rxBrk = false ∧
    s.cart.shiftReg = 0 ∧ s.cart.counter = 0 ∧ s.cart.iodir = 0 ∧ s.cart.iodat = 0 ∧
    s.io.tick = 0 ∧ s.pipe = .atFetch

/-! ### The step and the turn -/

/-- At a fetch boundary with no interrupt due, `step` fetches the instruction at PC and runs it (R13, R306, R475): in general
what `fetchInstr` answers; and where no device register answers for its bytes, the instruction those bytes decode to, from a
state in which PC has moved past the opcode and the operand bytes fetched so far, the latches are polled and time has passed.
That the operand bytes are fetched before the instruction's other accesses, all but those the rules place later, is the
model's choice (log 9). -/
def Obligations.StepRunsTheDecodedInstruction : Prop :=
  ∀ s : State, s.Ready → s.cpu.waiting = false → s.poll = .run →
    step s = exec (fetchInstr s.afterPoll.wake).1 (fetchInstr s.afterPoll.wake).2 ∧
    ∀ (i : Instr) (rest : List Byte),
      decode [s.peek s.cpu.pc, s.peek (s.cpu.pc + 1), s.peek (s.cpu.pc + 2)] = .ok (i, rest) →
      (∀ k : Nat, k < i.length → s.plain (s.cpu.pc + BitVec.ofNat 16 k) = true) →
      ∃ u : State, step s = exec i u ∧ s.Quiet u ∧
        u.cpu =
          { s.cpu with
            pc := s.cpu.pc + 1 + BitVec.ofNat 16 (Instr.prefetched i), nmiPrev := s.inputs.nmiLine, nmiLatch := false,
            irqLatch := false, waiting := false }

/-- A step is a sequence of turns of the scheduler, from every state that meets the invariant (R464, R473, R475): running an
instruction, a trap entry or a sprite access whole comes to the same state as the scheduler's loop does by single accesses,
with the device actions between them. The invariant and the two granularities are the model's own (log 10, log 21). -/
def Obligations.StepIsTurns : Prop :=
  ∀ s t : State, s.Inv → step s = .next t → ∃ n : Nat, 0 < n ∧ turn^[n] s = t

/-- A turn runs the earliest entry of the queue (R471 to R473): of equal deadlines the first in the order timer 2's frame end,
Mikey-line, Mikey-pixel, ComLynx-pulse, and after them the master, which is Suzy while it halts the CPU. If nothing is due, time
moves on by one tick. Each kind is queued once at most, and a turn charges one access at most (R464, R470). That the master's
continuation stands in a field of its own and that timer 2's frame end is an entry are the model's choices (log 10, log 14). -/
def Obligations.TurnOrder : Prop :=
  ∀ s : State,
    (∀ t, s.beat = some t → turn s = t ∧ ∃ io : Io, t = { s with io := io } ∧
      ((∃ (due : Nat) (d : Device) (before after : List (Nat × Device)),
          s.io.queue = before ++ (due, d) :: after ∧ (∀ e ∈ before, due < e.1) ∧ (∀ e ∈ after, due ≤ e.1) ∧
          due ≤ s.io.tick ∧ due ≤ s.io.masterDue ∧ io = s.io.run s.mapctl s.ram s.inputs d) ∨
        (∀ e ∈ s.io.queue, s.io.tick < e.1) ∧ s.io.tick < s.io.masterDue ∧ io = s.io.elapse 1)) ∧
    (s.beat = none → s.io.masterDue ≤ s.io.tick ∧ (∀ e ∈ s.io.queue, s.io.masterDue < e.1) ∧
      turn s = if s.suzy.halted then s.suzyTurn else s.cpuTurn) ∧
    (s.io.queue.map Prod.snd).Sublist [.frame, .line, .pixel, .pulse] ∧
    s.io.tick ≤ (turn s).io.tick ∧ (turn s).io.tick ≤ s.io.tick + 5

/-- `runUntil` (R324, R473, R480, R484): it makes turns as long as no stop is requested and some deadline is not beyond the
target, so that it may return between any two accesses. If asked for frames it ends with the first turn that commits one, and in
the break-on-BRK mode with the first that comes to a BRK. It answers `reached`, `cancelled`, `nextFrame` or `debugTrap` for these
reasons only, and `tickCounterWrap` only at the tick limit (log 11). The model's own are the bound on the number of turns, that a
BRK is reported when it has been fetched and nothing else of it done (N11), which goes before a frame committed in the same turn,
and that the trace hook is called once for each instruction begun (log 32). -/
def Obligations.RunUntil : Prop :=
  ∀ (o : RunOptions) (bound target calls : Nat) (s : State),
    let r := runWith o bound target calls s
    ∃ n : Nat, n ≤ bound ∧ r.state = turn^[n] s ∧
      (∀ m : Nat, m < n → (turn^[m] s).beyond target = false ∧ (turn^[m] s).inputs.stopRequested = false ∧
        (turn^[m] s).io.tick < Config.tickLimit) ∧
      (o.stopAtFrame = true → ∀ m : Nat, m < n → (turn^[m + 1] s).io.video.frames ≠ (turn^[m] s).io.video.frames →
        m + 1 = n ∧ (r.why = .nextFrame ∨ r.why = .debugTrap)) ∧
      (o.breakOnBrk = true → ∀ m : Nat, m < n → (turn^[m] s).atBrk = false → (turn^[m + 1] s).atBrk = true →
        m + 1 = n ∧ r.why = .debugTrap) ∧
      (match r.why with
        | .reached => ∀ d ∈ r.state.io.deadlines, target < d
        | .cancelled => r.state.inputs.stopRequested = true
        | .nextFrame => o.stopAtFrame = true ∧ 0 < n ∧ r.state.io.video.frames ≠ (turn^[n - 1] s).io.video.frames
        | .debugTrap => o.breakOnBrk = true ∧ 0 < n ∧ r.state.atBrk = true ∧ (turn^[n - 1] s).atBrk = false
        | .tickCounterWrap => Config.tickLimit ≤ r.state.io.tick
        | .unfinished => n = bound
        | .timeout => False) ∧
      r.traced = calls + if o.traceHook then (List.range n).countP fun m => (turn^[m] s).beginsInstr else 0

/-! ### The bus -/

/-- The map of R61, row by row, and the ROM image behind it. The positions of MAPCTL's bits 0 to 3 are the spec's decision D14, and
that offsets $1F8 and $1F9 are never visible is its own derivation from the rows. -/
def Obligations.MemoryMap : Prop :=
  ∀ (s : State) (a : Word),
    (a.toNat ≤ 0xFBFF → s.backingOf a = .ram) ∧
    (0xFC00 ≤ a.toNat ∧ a.toNat ≤ 0xFCFF → s.backingOf a = if bit s.mapctl 0 then .ram else .suzy) ∧
    (0xFD00 ≤ a.toNat ∧ a.toNat ≤ 0xFDFF → s.backingOf a = if bit s.mapctl 1 then .ram else .mikey) ∧
    (0xFE00 ≤ a.toNat ∧ a.toNat ≤ 0xFFF7 → s.backingOf a = if bit s.mapctl 2 then .ram else .rom) ∧
    (a.toNat = 0xFFF8 → s.backingOf a = .ram) ∧
    (a.toNat = 0xFFF9 → s.backingOf a = .mapctl) ∧
    (0xFFFA ≤ a.toNat → s.backingOf a = if bit s.mapctl 3 then .ram else .rom) ∧
    (s.backingOf a = .rom → s.peek a = romByte s.rom (a.toNat - 0xFE00) ∧
      a.toNat - 0xFE00 ≠ 0x1F8 ∧ a.toNat - 0xFE00 ≠ 0x1F9 ∧ a.toNat - 0xFE00 < 512)

/-- A CPU read gives what backs the address (R62): the RAM byte, the ROM byte or $FF without a ROM, MAPCTL, or the device's
register after the read's own ticks; $FF in the holes of the register files, the write-only registers among them. It changes
nothing but what time changes, except that a read of SERDAT empties the receive buffer (R432) and a read of RCART0 or RCART1
advances the cartridge's counter (R72, R445). What $FFF9, ROM and the holes read as is the spec's decision D15; which offsets
of the register lists are holes is the model's reading (log 29). -/
def Obligations.ReadGivesWhatBacks : Prop :=
  ∀ (s : State) (a : Word),
    (s.backingOf a = .ram → (s.busRead a).1 = s.ramAt a) ∧
    (s.backingOf a = .rom → (s.busRead a).1 = if s.rom = [] then 0xFF else romByte s.rom (a.toNat - 0xFE00)) ∧
    (s.backingOf a = .mapctl → (s.busRead a).1 = s.mapctl) ∧
    (s.backingOf a = .suzy →
      (s.busRead a).1 = s.suzy.readReg s.cart s.inputs (s.charge a).io.tick (lo a).toNat ∧
      (0x30 ≤ (lo a).toNat ∧ (lo a).toNat < 0x52 ∨ 0x70 ≤ (lo a).toNat ∧ (lo a).toNat < 0x80 ∨
          0x84 ≤ (lo a).toNat ∧ (lo a).toNat < 0x88 ∨ 0x89 ≤ (lo a).toNat ∧ (lo a).toNat < 0x90 ∨
          0x93 ≤ (lo a).toNat ∧ (lo a).toNat < 0xB0 ∨ 0xB4 ≤ (lo a).toNat →
        (s.busRead a).1 = 0xFF)) ∧
    (s.backingOf a = .mikey →
      (s.busRead a).1 = (s.charge a).io.readReg s.cart s.inputs.pins (lo a).toNat ∧
      (0x45 ≤ (lo a).toNat ∧ (lo a).toNat < 0x50 ∨ 0x51 ≤ (lo a).toNat ∧ (lo a).toNat < 0x80 ∨
          0x82 ≤ (lo a).toNat ∧ (lo a).toNat < 0x8A ∨ 0x8E ≤ (lo a).toNat ∧ (lo a).toNat < 0x94 ∨
          0x96 ≤ (lo a).toNat ∧ (lo a).toNat < 0xA0 ∨ 0xC0 ≤ (lo a).toNat →
        (s.busRead a).1 = 0xFF)) ∧
    (s.busRead a).2.cpu = s.cpu ∧ s.Kept (s.cartAfterRead a) (s.busRead a).2 ∧
    let c := s.charge a
    (s.busRead a).2 = State.settle
      (if s.backingOf a = .mikey ∧ (lo a).toNat = 0x8D then
        { c with io := { c.io with serial := { c.io.serial with rxFull := false } } }
      else if s.backingOf a = .suzy ∧ ((lo a).toNat = 0xB2 ∨ (lo a).toNat = 0xB3) then
        { c with cart := { c.cart with counter := c.cart.counter + 1 } }
      else c)

/-- A CPU write reaches what backs the address and nothing else (R63): the RAM byte, MAPCTL, the device's register; a write to
ROM changes neither ROM nor the RAM beneath. RAM keeps its canonical form. The rule for $FFF9, ROM and the devices is the
spec's decision D15. -/
def Obligations.WriteReachesWhatBacks : Prop :=
  ∀ (s : State) (a : Word) (v : Byte), Ram.wf s.ram = true →
    s.Stored a v (s.busWrite a v) ∧ (s.busWrite a v).cpu = s.cpu ∧
    (s.backingOf a = .rom → (∀ b : Word, (s.busWrite a v).ramAt b = s.ramAt b) ∧ (s.busWrite a v).rom = s.rom) ∧
    (s.backingOf a = .mapctl → ∀ b : Word, (s.busWrite a v).backingOf b = backing v b)

/-- Every access charges 4 ticks in the page of the previous access and 5 for a page change or a device register (R462), 5 always
with MAPCTL bit 7 set (R463): accesses of the CPU, of Suzy and of the video DMA; the first after reset costs 5. The two costs
are the spec's decision D17. -/
def Obligations.AccessTicks : Prop :=
  ∀ (s : State) (a : Word),
    let same := !(bit s.mapctl 7) && (s.io.lastAddr.map hi == some (hi a))
    ((s.charge a).io.tick = s.io.tick + if s.plain a && same then 4 else 5) ∧ (s.charge a).io.lastAddr = some a ∧
    ((s.suzyCharge a).io.tick = s.io.tick + if same then 4 else 5) ∧ (s.suzyCharge a).io.lastAddr = some a ∧
    ((s.io.pixelAction s.mapctl s.ram).tick = s.io.tick +
      if !(bit s.mapctl 7) && (s.io.lastAddr.map hi == some (hi s.io.video.address)) then 4 else 5) ∧
    (bit s.mapctl 7 = true → (s.charge a).io.tick = s.io.tick + 5) ∧
    ((State.reset.charge a).io.tick = 5)

/-! ### Operands -/

/-- The effective address of every memory operand form in natural numbers (R105 to R113, R69): zero-page indexing stays in
page zero, a zero-page pointer's high byte is taken inside page zero, indexing wraps modulo 65536; the pointer reads change
nothing but what time changes. The operand of a reading instruction (R140) is the immediate byte itself, or one bus read at
the effective address; where no device register answers there, the byte that stands there. -/
def Obligations.OperandForms : Prop :=
  ∀ (s : State) (d8 : Byte) (a16 : Word),
    let word := fun z : Nat =>
      (s.ramAt (BitVec.ofNat 16 (z % 256))).toNat + 256 * (s.ramAt (BitVec.ofNat 16 ((z + 1) % 256))).toNat
    (s.effAddr (.zp d8)).1.toNat = d8.toNat ∧
    (s.effAddr (.zpx d8)).1.toNat = (d8.toNat + s.cpu.x.toNat) % 256 ∧
    (s.effAddr (.zpy d8)).1.toNat = (d8.toNat + s.cpu.y.toNat) % 256 ∧
    (s.effAddr (.abs a16)).1 = a16 ∧
    (s.effAddr (.abx a16)).1.toNat = (a16.toNat + s.cpu.x.toNat) % 65536 ∧
    (s.effAddr (.aby a16)).1.toNat = (a16.toNat + s.cpu.y.toNat) % 65536 ∧
    (s.effAddr (.izx d8)).1.toNat = word (d8.toNat + s.cpu.x.toNat) ∧
    (s.effAddr (.izy d8)).1.toNat = (word d8.toNat + s.cpu.y.toNat) % 65536 ∧
    (s.effAddr (.izp d8)).1.toNat = word d8.toNat ∧
    (s.operand (.imm d8)).1.value = d8 ∧ (s.operand (.imm d8)).2 = s ∧
    ∀ m : Addr,
      (s.effAddr m).2.cpu = s.cpu ∧ s.Quiet (s.effAddr m).2 ∧
      (s.operand (.mem m)).1.value = ((s.effAddr m).2.busRead (s.effAddr m).1).1 ∧
      (s.plain (s.effAddr m).1 = true → (s.operand (.mem m)).1.value = s.peek (s.effAddr m).1) ∧
      (s.operand (.mem m)).2.cpu = s.cpu ∧ s.Kept (s.cartAfterRead (s.effAddr m).1) (s.operand (.mem m)).2

/-! ### Loads, stores, transfers, stack -/

/-- LDA, LDX and LDY write their register and N and Z, and nothing else but what the operand's read changes (R141 to R143). -/
def Obligations.Loads : Prop :=
  ∀ (src : Src) (s : State),
    let v := (s.operand src).1.value
    (∃ t, exec (.lda src) s = .next t ∧ t.Ended { s.cpu with a := v, n := bit v 7, z := v == 0 } ∧
      s.Kept (s.cartAfterOperand src) t) ∧
    (∃ t, exec (.ldx src) s = .next t ∧ t.Ended { s.cpu with x := v, n := bit v 7, z := v == 0 } ∧
      s.Kept (s.cartAfterOperand src) t) ∧
    (∃ t, exec (.ldy src) s = .next t ∧ t.Ended { s.cpu with y := v, n := bit v 7, z := v == 0 } ∧
      s.Kept (s.cartAfterOperand src) t)

/-- STA, STX, STY and STZ store one byte at the effective address and change nothing else (R144 to R147). -/
def Obligations.Stores : Prop :=
  ∀ (dst : Addr) (s : State), Ram.wf s.ram = true →
    (∃ t, exec (.sta dst) s = .next t ∧ t.Ended s.cpu ∧ s.Stored (s.effAddr dst).1 s.cpu.a t) ∧
    (∃ t, exec (.stx dst) s = .next t ∧ t.Ended s.cpu ∧ s.Stored (s.effAddr dst).1 s.cpu.x t) ∧
    (∃ t, exec (.sty dst) s = .next t ∧ t.Ended s.cpu ∧ s.Stored (s.effAddr dst).1 s.cpu.y t) ∧
    (∃ t, exec (.stz dst) s = .next t ∧ t.Ended s.cpu ∧ s.Stored (s.effAddr dst).1 0 t)

/-- The instructions without an operand: the transfers write one register, and N and Z from it except in TXS (R148 to R153); INX, INY,
DEX and DEY count modulo 256 and set N and Z only (R202 to R205); the seven flag instructions write their flag only, and NOP
nothing (R231 to R238). Nothing else changes but what time changes. -/
def Obligations.ImpliedInstructions : Prop :=
  ∀ s : State,
    (∃ t, exec .tax s = .next t ∧ s.Quiet t ∧
      t.Ended { s.cpu with x := s.cpu.a, n := bit s.cpu.a 7, z := s.cpu.a == 0 }) ∧
    (∃ t, exec .tay s = .next t ∧ s.Quiet t ∧
      t.Ended { s.cpu with y := s.cpu.a, n := bit s.cpu.a 7, z := s.cpu.a == 0 }) ∧
    (∃ t, exec .txa s = .next t ∧ s.Quiet t ∧
      t.Ended { s.cpu with a := s.cpu.x, n := bit s.cpu.x 7, z := s.cpu.x == 0 }) ∧
    (∃ t, exec .tya s = .next t ∧ s.Quiet t ∧
      t.Ended { s.cpu with a := s.cpu.y, n := bit s.cpu.y 7, z := s.cpu.y == 0 }) ∧
    (∃ t, exec .tsx s = .next t ∧ s.Quiet t ∧
      t.Ended { s.cpu with x := s.cpu.sp, n := bit s.cpu.sp 7, z := s.cpu.sp == 0 }) ∧
    (∃ t, exec .txs s = .next t ∧ s.Quiet t ∧ t.Ended { s.cpu with sp := s.cpu.x }) ∧
    (∃ (t : State) (r : Byte), exec .inx s = .next t ∧ s.Quiet t ∧ r.toNat = (s.cpu.x.toNat + 1) % 256 ∧
      t.Ended { s.cpu with x := r, n := bit r 7, z := r == 0 }) ∧
    (∃ (t : State) (r : Byte), exec .iny s = .next t ∧ s.Quiet t ∧ r.toNat = (s.cpu.y.toNat + 1) % 256 ∧
      t.Ended { s.cpu with y := r, n := bit r 7, z := r == 0 }) ∧
    (∃ (t : State) (r : Byte), exec .dex s = .next t ∧ s.Quiet t ∧ r.toNat = (s.cpu.x.toNat + 255) % 256 ∧
      t.Ended { s.cpu with x := r, n := bit r 7, z := r == 0 }) ∧
    (∃ (t : State) (r : Byte), exec .dey s = .next t ∧ s.Quiet t ∧ r.toNat = (s.cpu.y.toNat + 255) % 256 ∧
      t.Ended { s.cpu with y := r, n := bit r 7, z := r == 0 }) ∧
    (∃ t, exec .clc s = .next t ∧ s.Quiet t ∧ t.Ended { s.cpu with c := false }) ∧
    (∃ t, exec .sec s = .next t ∧ s.Quiet t ∧ t.Ended { s.cpu with c := true }) ∧
    (∃ t, exec .cli s = .next t ∧ s.Quiet t ∧ t.Ended { s.cpu with i := false }) ∧
    (∃ t, exec .sei s = .next t ∧ s.Quiet t ∧ t.Ended { s.cpu with i := true }) ∧
    (∃ t, exec .cld s = .next t ∧ s.Quiet t ∧ t.Ended { s.cpu with d := false }) ∧
    (∃ t, exec .sed s = .next t ∧ s.Quiet t ∧ t.Ended { s.cpu with d := true }) ∧
    (∃ t, exec .clv s = .next t ∧ s.Quiet t ∧ t.Ended { s.cpu with v := false }) ∧
    (∃ t, exec .nop s = .next t ∧ s.Quiet t ∧ t.Ended s.cpu)

/-- The status byte (R27): `P(b)` is N V 1 b D I Z C from bit 7 to bit 0, and `SetP` reads the six flags back and discards
bits 5 and 4. -/
def Obligations.StatusByte : Prop :=
  ∀ (k : Cpu) (b : Bool) (v : Byte),
    (bit (k.status b) 7 = k.n ∧ bit (k.status b) 6 = k.v ∧ bit (k.status b) 5 = true ∧ bit (k.status b) 4 = b ∧
      bit (k.status b) 3 = k.d ∧ bit (k.status b) 2 = k.i ∧ bit (k.status b) 1 = k.z ∧ bit (k.status b) 0 = k.c) ∧
    k.setP v = { k with n := bit v 7, v := bit v 6, d := bit v 3, i := bit v 2, z := bit v 1, c := bit v 0 } ∧
    (k.setP v).status b = (v &&& 0xCF) ||| 0x20 ||| (if b then 0x10 else 0x00)

/-- PHA, PHX, PHY and PHP (with the break bit 1) store at the stack address and decrement SP; PLA, PLX, PLY and PLP increment SP and
read the stack (R160 to R168). Nothing else changes. -/
def Obligations.PushesAndPulls : Prop :=
  ∀ s : State,
    let v := s.ramAt (stackAddr (s.cpu.sp + 1))
    (Ram.wf s.ram = true →
      (∃ t, exec .pha s = .next t ∧ t.Ended { s.cpu with sp := s.cpu.sp - 1 } ∧
        s.Stored (stackAddr s.cpu.sp) s.cpu.a t ∧ t.ramAt (stackAddr s.cpu.sp) = s.cpu.a) ∧
      (∃ t, exec .phx s = .next t ∧ t.Ended { s.cpu with sp := s.cpu.sp - 1 } ∧
        s.Stored (stackAddr s.cpu.sp) s.cpu.x t ∧ t.ramAt (stackAddr s.cpu.sp) = s.cpu.x) ∧
      (∃ t, exec .phy s = .next t ∧ t.Ended { s.cpu with sp := s.cpu.sp - 1 } ∧
        s.Stored (stackAddr s.cpu.sp) s.cpu.y t ∧ t.ramAt (stackAddr s.cpu.sp) = s.cpu.y) ∧
      (∃ t, exec .php s = .next t ∧ t.Ended { s.cpu with sp := s.cpu.sp - 1 } ∧
        s.Stored (stackAddr s.cpu.sp) (s.cpu.status true) t ∧ t.ramAt (stackAddr s.cpu.sp) = s.cpu.status true)) ∧
    (∃ t, exec .pla s = .next t ∧ s.Quiet t ∧
      t.Ended { s.cpu with sp := s.cpu.sp + 1, a := v, n := bit v 7, z := v == 0 }) ∧
    (∃ t, exec .plx s = .next t ∧ s.Quiet t ∧
      t.Ended { s.cpu with sp := s.cpu.sp + 1, x := v, n := bit v 7, z := v == 0 }) ∧
    (∃ t, exec .ply s = .next t ∧ s.Quiet t ∧
      t.Ended { s.cpu with sp := s.cpu.sp + 1, y := v, n := bit v 7, z := v == 0 }) ∧
    (∃ t, exec .plp s = .next t ∧ s.Quiet t ∧
      t.Ended
        { s.cpu with
          sp := s.cpu.sp + 1, n := bit v 7, v := bit v 6, d := bit v 3, i := bit v 2, z := bit v 1, c := bit v 0 })

/-! ### Arithmetic and logic -/

/-- `AddBin` (R171): the exact sum, the carry out of bit 7, and V exactly when the operands agree in bit 7 and the result does
not, that is when the signed sum leaves -128 to 127. `SubBin` (R174): the exact difference, C as no borrow, V exactly when the
operands differ in bit 7 and the result has the subtrahend's; and it is the addition of the complement. -/
def Obligations.BinaryArithmetic : Prop :=
  ∀ (a m : Byte) (c : Bool),
    (let r := addBin a m c
     r.r.toNat = (a.toNat + m.toNat + c.toNat) % 256 ∧
     r.c = decide (a.toNat + m.toNat + c.toNat > 255) ∧
     r.v = ((~~~(a ^^^ m) &&& (a ^^^ r.r) &&& 0x80) != 0) ∧
     (r.v = true ↔ bit a 7 = bit m 7 ∧ bit r.r 7 ≠ bit a 7) ∧
     (r.v = true ↔ a.toInt + m.toInt + c.toNat < -128 ∨ 127 < a.toInt + m.toInt + c.toNat) ∧
     r.n = bit r.r 7 ∧ r.z = (r.r == 0)) ∧
    (let r := subBin a m c
     let t : Int := (a.toNat : Int) - m.toNat - (1 - c.toNat)
     (r.r.toNat : Int) = t % 256 ∧ r.c = decide (t ≥ 0) ∧
     r.v = (((a ^^^ m) &&& (a ^^^ r.r) &&& 0x80) != 0) ∧
     (r.v = true ↔ bit a 7 ≠ bit m 7 ∧ bit r.r 7 = bit m 7) ∧
     r.n = bit r.r 7 ∧ r.z = (r.r == 0) ∧
     r = addBin a (m ^^^ 0xFF) c)

/-- Decimal addition (R170, R172) by the digits: the low digit corrected from 10 on, the sum with the high digits in binary as
the intermediate, the high digit corrected from $A0 on; N and Z from the corrected result; V from the intermediate, or under the
other reading of decision D7 from the binary sum, the machine taking the first. On two-digit decimal bytes it is addition modulo
100 with the decimal carry. Decimal subtraction (R170, R175) is subtraction modulo 100 on them, with the C and V of binary
subtraction. That the algorithms and these flags hold for digits above 9 too is the choice of log 7 and decision D8. -/
def Obligations.DecimalArithmetic : Prop :=
  ∀ (a m : Byte) (c : Bool),
    (let low := a.toNat % 16 + m.toNat % 16 + c.toNat
     let t := 16 * (a.toNat / 16) + 16 * (m.toNat / 16) + if 10 ≤ low then (low + 6) % 16 + 16 else low
     let t' := if 0xA0 ≤ t then t + 0x60 else t
     (∀ rule : DecimalV, (addDecWith rule a m c).r.toNat = t' % 256 ∧ (addDecWith rule a m c).c = decide (0x100 ≤ t')) ∧
     (addDecWith .seq2 a m c).v = ((~~~(a ^^^ m) &&& (a ^^^ BitVec.ofNat 8 t) &&& 0x80) != 0) ∧
     (addDecWith .binary a m c).v = (addBin a m c).v ∧ addDec a m c = addDecWith .seq2 a m c) ∧
    (let r := addDec a m c
     r.n = bit r.r 7 ∧ r.z = (r.r == 0) ∧
     (isBcd a → isBcd m →
       isBcd r.r ∧ bcdValue r.r = (bcdValue a + bcdValue m + c.toNat) % 100 ∧
       r.c = decide (bcdValue a + bcdValue m + c.toNat ≥ 100))) ∧
    (let r := subDec a m c
     r.c = (subBin a m c).c ∧ r.v = (subBin a m c).v ∧ r.n = bit r.r 7 ∧ r.z = (r.r == 0) ∧
     (isBcd a → isBcd m →
       isBcd r.r ∧ (bcdValue r.r : Int) = ((bcdValue a : Int) - bcdValue m - (1 - c.toNat)) % 100))

/-- ADC and SBC write A, N, V, Z and C from the addition or subtraction that D selects, and nothing else (R173, R176). -/
def Obligations.AddAndSubtract : Prop :=
  ∀ (src : Src) (s : State),
    let m := (s.operand src).1.value
    let p := if s.cpu.d then addDec s.cpu.a m s.cpu.c else addBin s.cpu.a m s.cpu.c
    let q := if s.cpu.d then subDec s.cpu.a m s.cpu.c else subBin s.cpu.a m s.cpu.c
    (∃ t, exec (.adc src) s = .next t ∧ s.Kept (s.cartAfterOperand src) t ∧
      t.Ended { s.cpu with a := p.r, n := p.n, v := p.v, z := p.z, c := p.c }) ∧
    (∃ t, exec (.sbc src) s = .next t ∧ s.Kept (s.cartAfterOperand src) t ∧
      t.Ended { s.cpu with a := q.r, n := q.n, v := q.v, z := q.z, c := q.c })

/-- CMP, CPX and CPY by R177: C when register >= operand, Z when equal, N bit 7 of the difference; V, D, the registers and
memory unchanged; C and D have no influence. -/
def Obligations.Compares : Prop :=
  ∀ (src : Src) (s : State),
    let m := (s.operand src).1.value
    (∃ t, exec (.cmp src) s = .next t ∧ s.Kept (s.cartAfterOperand src) t ∧
      t.Ended
        { s.cpu with c := decide (m.toNat ≤ s.cpu.a.toNat), z := decide (s.cpu.a = m), n := bit (s.cpu.a - m) 7 }) ∧
    (∃ t, exec (.cpx src) s = .next t ∧ s.Kept (s.cartAfterOperand src) t ∧
      t.Ended
        { s.cpu with c := decide (m.toNat ≤ s.cpu.x.toNat), z := decide (s.cpu.x = m), n := bit (s.cpu.x - m) 7 }) ∧
    (∃ t, exec (.cpy src) s = .next t ∧ s.Kept (s.cartAfterOperand src) t ∧
      t.Ended
        { s.cpu with c := decide (m.toNat ≤ s.cpu.y.toNat), z := decide (s.cpu.y = m), n := bit (s.cpu.y - m) 7 })

/-- AND, ORA and EOR write A, N and Z, and nothing else (R186 to R188). -/
def Obligations.Logic : Prop :=
  ∀ (src : Src) (s : State),
    let m := (s.operand src).1.value
    (∃ t, exec (.and src) s = .next t ∧ s.Kept (s.cartAfterOperand src) t ∧
      t.Ended { s.cpu with a := s.cpu.a &&& m, n := bit (s.cpu.a &&& m) 7, z := s.cpu.a &&& m == 0 }) ∧
    (∃ t, exec (.ora src) s = .next t ∧ s.Kept (s.cartAfterOperand src) t ∧
      t.Ended { s.cpu with a := s.cpu.a ||| m, n := bit (s.cpu.a ||| m) 7, z := s.cpu.a ||| m == 0 }) ∧
    (∃ t, exec (.eor src) s = .next t ∧ s.Kept (s.cartAfterOperand src) t ∧
      t.Ended { s.cpu with a := s.cpu.a ^^^ m, n := bit (s.cpu.a ^^^ m) 7, z := s.cpu.a ^^^ m == 0 })

/-- BIT (R189): Z from `A & m` in every mode; N and V from the operand's bits 7 and 6 in the memory modes only. -/
def Obligations.BitTest : Prop :=
  ∀ (d8 : Byte) (a : Addr) (s : State),
    let m := (s.operand (.mem a)).1.value
    (∃ t, exec (.bit (.imm d8)) s = .next t ∧ s.Quiet t ∧ t.Ended { s.cpu with z := s.cpu.a &&& d8 == 0 }) ∧
    (∃ t, exec (.bit (.mem a)) s = .next t ∧ s.Kept (s.cartAfterOperand (.mem a)) t ∧
      t.Ended { s.cpu with z := s.cpu.a &&& m == 0, n := bit m 7, v := bit m 6 })

/-- TSB and TRB (R190, R191): read, set Z from `A & m`, store the byte unmodified, store it with the bits of A set or reset;
nothing else. One that has started Suzy with its first store is suspended with Z set (log 31). -/
def Obligations.TestAndModify : Prop :=
  ∀ (dst : Addr) (s : State), Ram.wf s.ram = true →
    (∃ (t : State) (m : Byte), exec (.tsb dst) s = .next t ∧
      s.Modified (.tsb dst) (s.effAddr dst).1 m (m ||| s.cpu.a) { s.cpu with z := s.cpu.a &&& m == 0 } 0 t ∧
      (s.startsSuzy (s.effAddr dst).1 m = true → t.cpu = { s.cpu with z := s.cpu.a &&& m == 0 })) ∧
    (∃ (t : State) (m : Byte), exec (.trb dst) s = .next t ∧
      s.Modified (.trb dst) (s.effAddr dst).1 m (m &&& ~~~s.cpu.a) { s.cpu with z := s.cpu.a &&& m == 0 } 0 t ∧
      (s.startsSuzy (s.effAddr dst).1 m = true → t.cpu = { s.cpu with z := s.cpu.a &&& m == 0 }))

/-- The accumulator forms (R195 to R201): the shifts and rotations as multiplication and division by two with the carry as the
ninth bit, increment and decrement modulo 256 with C unchanged; N and Z from the result, nothing else. -/
def Obligations.ModifyAccumulator : Prop :=
  ∀ s : State,
    let c := s.cpu.c.toNat
    (∃ (t : State) (r : Byte), exec (.asl .acc) s = .next t ∧ s.Quiet t ∧ r.toNat = 2 * s.cpu.a.toNat % 256 ∧
      t.Ended { s.cpu with a := r, n := bit r 7, z := r == 0, c := decide (128 ≤ s.cpu.a.toNat) }) ∧
    (∃ (t : State) (r : Byte), exec (.lsr .acc) s = .next t ∧ s.Quiet t ∧ r.toNat = s.cpu.a.toNat / 2 ∧
      t.Ended { s.cpu with a := r, n := false, z := r == 0, c := decide (s.cpu.a.toNat % 2 = 1) }) ∧
    (∃ (t : State) (r : Byte), exec (.rol .acc) s = .next t ∧ s.Quiet t ∧ r.toNat = (2 * s.cpu.a.toNat + c) % 256 ∧
      t.Ended { s.cpu with a := r, n := bit r 7, z := r == 0, c := decide (128 ≤ s.cpu.a.toNat) }) ∧
    (∃ (t : State) (r : Byte), exec (.ror .acc) s = .next t ∧ s.Quiet t ∧ r.toNat = s.cpu.a.toNat / 2 + 128 * c ∧
      t.Ended { s.cpu with a := r, n := s.cpu.c, z := r == 0, c := decide (s.cpu.a.toNat % 2 = 1) }) ∧
    (∃ (t : State) (r : Byte), exec (.inc .acc) s = .next t ∧ s.Quiet t ∧ r.toNat = (s.cpu.a.toNat + 1) % 256 ∧
      t.Ended { s.cpu with a := r, n := bit r 7, z := r == 0 }) ∧
    (∃ (t : State) (r : Byte), exec (.dec .acc) s = .next t ∧ s.Quiet t ∧ r.toNat = (s.cpu.a.toNat + 255) % 256 ∧
      t.Ended { s.cpu with a := r, n := bit r 7, z := r == 0 })

/-- The memory forms (R195 to R201, R73): read, store the byte unmodified, store the result; N, Z and, but for INC and DEC, C
from the operation; nothing else. The last number is the cycles without an access (R521). The suspended case is log 31. -/
def Obligations.ModifyMemory : Prop :=
  ∀ (dst : Addr) (s : State), Ram.wf s.ram = true →
    let a := (s.effAddr dst).1
    let c := if s.cpu.c then 1#8 else 0#8
    (∃ (t : State) (m r : Byte) (k : Nat), exec (.asl (.mem dst)) s = .next t ∧ r = m <<< 1 ∧
      s.Modified (.asl (.mem dst)) a m r { s.cpu with n := bit r 7, z := r == 0, c := bit m 7 } k t) ∧
    (∃ (t : State) (m r : Byte) (k : Nat), exec (.lsr (.mem dst)) s = .next t ∧ r = m >>> 1 ∧
      s.Modified (.lsr (.mem dst)) a m r { s.cpu with n := bit r 7, z := r == 0, c := bit m 0 } k t) ∧
    (∃ (t : State) (m r : Byte) (k : Nat), exec (.rol (.mem dst)) s = .next t ∧ r = m <<< 1 ||| c ∧
      s.Modified (.rol (.mem dst)) a m r { s.cpu with n := bit r 7, z := r == 0, c := bit m 7 } k t) ∧
    (∃ (t : State) (m r : Byte) (k : Nat), exec (.ror (.mem dst)) s = .next t ∧ r = m >>> 1 ||| c <<< 7 ∧
      s.Modified (.ror (.mem dst)) a m r { s.cpu with n := bit r 7, z := r == 0, c := bit m 0 } k t) ∧
    (∃ (t : State) (m r : Byte) (k : Nat), exec (.inc (.mem dst)) s = .next t ∧ r = m + 1 ∧
      s.Modified (.inc (.mem dst)) a m r { s.cpu with n := bit r 7, z := r == 0 } k t) ∧
    (∃ (t : State) (m r : Byte) (k : Nat), exec (.dec (.mem dst)) s = .next t ∧ r = m - 1 ∧
      s.Modified (.dec (.mem dst)) a m r { s.cpu with n := bit r 7, z := r == 0 } k t)

/-- A read-modify-write of a RAM byte leaves the new value there and every other byte and device as it was; one that has started
Suzy with its first store is suspended, and makes its second store in the first step after the CPU is released (R73, R384,
R468). When it is suspended there is log 31. -/
def Obligations.ModifyEndsInMemory : Prop :=
  (∀ (s t : State) (i : Instr) (a : Word) (old new : Byte) (k : Cpu) (n : Nat), s.Modified i a old new k n t →
    (s.backingOf a = .ram →
      old = s.ramAt a ∧ t.ramAt a = new ∧ (∀ b : Word, b ≠ a → t.ramAt b = s.ramAt b) ∧ t.Ended k ∧
      t.mapctl = s.mapctl ∧ t.rom = s.rom ∧ t.suzy = s.suzy ∧ t.cart = s.cart ∧ t.inputs = s.inputs ∧
      s.io.TimePassed t.io) ∧
    (a = 0xFC91 → s.backingOf a = .suzy → bit old 0 = true →
      t.OwesWrite (.instr i) k a new n ∧ t.suzy.halted = true)) ∧
  ∀ (t : State) (w : Work) (a : Word) (new : Byte) (k : Cpu) (n : Nat), t.OwesWrite w k a new n →
    t.settled = true → t.suzy.halted = false → t.io.tick < Config.tickLimit → Ram.wf t.ram = true →
    ∃ u, step t = .next u ∧ t.Stored a new u ∧ u.Ended k

/-! ### Control flow -/

/-- The branches (R210 to R219): PC moves by the sign-extended displacement, modulo 65536, when the condition holds, and stays
otherwise; nothing else changes. -/
def Obligations.Branches : Prop :=
  ∀ (rel : Byte) (s : State),
    let dest := BitVec.ofInt 16 ((s.cpu.pc.toNat : Int) + rel.toInt)
    let go := fun cond : Bool => { s.cpu with pc := if cond then dest else s.cpu.pc }
    (∃ t, exec (.bcc rel) s = .next t ∧ s.Quiet t ∧ t.Ended (go (s.cpu.c == false))) ∧
    (∃ t, exec (.bcs rel) s = .next t ∧ s.Quiet t ∧ t.Ended (go (s.cpu.c == true))) ∧
    (∃ t, exec (.beq rel) s = .next t ∧ s.Quiet t ∧ t.Ended (go (s.cpu.z == true))) ∧
    (∃ t, exec (.bne rel) s = .next t ∧ s.Quiet t ∧ t.Ended (go (s.cpu.z == false))) ∧
    (∃ t, exec (.bmi rel) s = .next t ∧ s.Quiet t ∧ t.Ended (go (s.cpu.n == true))) ∧
    (∃ t, exec (.bpl rel) s = .next t ∧ s.Quiet t ∧ t.Ended (go (s.cpu.n == false))) ∧
    (∃ t, exec (.bvc rel) s = .next t ∧ s.Quiet t ∧ t.Ended (go (s.cpu.v == false))) ∧
    (∃ t, exec (.bvs rel) s = .next t ∧ s.Quiet t ∧ t.Ended (go (s.cpu.v == true))) ∧
    (∃ t, exec (.bra rel) s = .next t ∧ s.Quiet t ∧ t.Ended (go true))

/-- JMP (R220): to the operand; through a pointer to the word there, the low byte from `p` and the high byte from `p + 1`
modulo 65536, with `p` the operand or the operand plus X. Where no device register answers at `p` and `p + 1` the pointer is
what stands there. -/
def Obligations.Jumps : Prop :=
  ∀ (a16 : Word) (s : State),
    (∃ t, exec (.jmp (.abs a16)) s = .next t ∧ s.Quiet t ∧ t.Ended { s.cpu with pc := a16 }) ∧
    (∀ (p : Word) (target : JmpTarget),
      (p = a16 ∧ target = .ind a16 ∨ p = BitVec.ofNat 16 (a16.toNat + s.cpu.x.toNat) ∧ target = .iax a16) →
      ∃ w t, exec (.jmp target) s = .next t ∧ w = (s.busRead p).2 ∧
        t.Ended { s.cpu with pc := join (w.busRead (p + 1)).1 (s.busRead p).1 } ∧ w.Kept (w.cartAfterRead (p + 1)) t ∧
        (s.plain p = true → s.plain (p + 1) = true →
          s.Quiet t ∧ t.cpu = { s.cpu with pc := join (s.peek (p + 1)) (s.peek p) }))

/-- JSR (R221), PC being the address of its third byte: that address is pushed, high byte first, then the third byte is read
and is the high byte of the target; nothing else changes. RTS (R222): the two bytes above SP, low byte first, plus one modulo
65536; SP moves by two; nothing else changes. -/
def Obligations.CallAndReturn : Prop :=
  ∀ (target : Word) (s : State),
    (Ram.wf s.ram = true → ∃ p q t, exec (.jsr target) s = .next t ∧
      s.Stored (stackAddr s.cpu.sp) (hi s.cpu.pc) p ∧ p.Stored (stackAddr (s.cpu.sp - 1)) (lo s.cpu.pc) q ∧
      t.Ended { s.cpu with sp := s.cpu.sp - 2, pc := join (q.busRead s.cpu.pc).1 (lo target) } ∧
      q.Kept (q.cartAfterRead s.cpu.pc) t ∧
      (s.plain s.cpu.pc = true → t.cpu.pc = join (q.peek s.cpu.pc) (lo target))) ∧
    (∃ t, exec .rts s = .next t ∧ s.Quiet t ∧
      t.Ended
        { s.cpu with
          sp := s.cpu.sp + 2
          pc := join (s.ramAt (stackAddr (s.cpu.sp + 2))) (s.ramAt (stackAddr (s.cpu.sp + 1))) + 1 })

/-- RTS after JSR continues behind the JSR, whose third byte stands at PC when its meaning begins, with SP and every other
register as they were (R210, R221, R222); RTI after BRK restores every register and flag, I and D among them, and continues
behind the signature byte (R239, R240, R315). -/
def Obligations.ReturnsRestore : Prop :=
  ∀ (target : Word) (sig : Byte) (s : State), Ram.wf s.ram = true →
    (∃ t u, exec (.jsr target) s = .next t ∧ exec .rts t = .next u ∧ u.Ended { s.cpu with pc := s.cpu.pc + 1 }) ∧
    (∃ t u, exec (.brk sig) s = .next t ∧ exec .rti t = .next u ∧ u.Ended { s.cpu with pc := s.cpu.pc + 1 })

/-! ### System -/

/-- BRK (R239, R313): its signature byte is skipped unread, and the trap is entered through $FFFE with break bit 1; nothing but
SP, I, D, PC and the three stack bytes changes. That D is cleared is the spec's decision D10. -/
def Obligations.Break : Prop :=
  ∀ (sig : Byte) (s : State), Ram.wf s.ram = true →
    ∃ t, exec (.brk sig) s = .next t ∧ s.Entered s.cpu (s.cpu.pc + 1) true 0xFFFE t

/-- RTI (R240, R315): the six flags from the byte above SP, then PC from the next two, low byte first and not incremented;
nothing else is restored. -/
def Obligations.ReturnFromInterrupt : Prop :=
  ∀ s : State,
    let v := s.ramAt (stackAddr (s.cpu.sp + 1))
    ∃ t, exec .rti s = .next t ∧ s.Quiet t ∧
      t.Ended
        { s.cpu with
          sp := s.cpu.sp + 3
          pc := join (s.ramAt (stackAddr (s.cpu.sp + 3))) (s.ramAt (stackAddr (s.cpu.sp + 2)))
          n := bit v 7, v := bit v 6, d := bit v 3, i := bit v 2, z := bit v 1, c := bit v 0 }

/-- An IRQ is entered at a fetch boundary exactly when the line is asserted, I is clear and no NMI is due (R304, R306, R311): the
address of the instruction at the boundary and the status with break bit 0 are pushed, PC comes from $FFFE; with I set the
line has no effect. An NMI is entered once per rising edge between two polls or from its latch, whatever I is and before an
IRQ, which stays latched (R305, R307, R312): PC comes from $FFFA; after the entry the same level causes no further one. R311
and R312 are the spec's derivations from R306 and R310; D9 and D10 are its decisions. -/
def Obligations.InterruptEntry : Prop :=
  ∀ s : State,
    (s.poll = .irq ↔ s.irqLine = true ∧ s.cpu.i = false ∧ s.cpu.nmiLatch = false ∧
      (s.inputs.nmiLine = false ∨ s.cpu.nmiPrev = true)) ∧
    (s.cpu.i = true → s.poll ≠ .irq) ∧
    (s.poll = .nmi ↔ s.cpu.nmiLatch = true ∨ s.inputs.nmiLine = true ∧ s.cpu.nmiPrev = false) ∧
    (s.Ready → Ram.wf s.ram = true → s.poll = .irq →
      ∃ t, step s = .next t ∧
        s.Entered { s.cpu with nmiPrev := s.inputs.nmiLine, irqLatch := false, nmiLatch := false, waiting := false }
          s.cpu.pc false 0xFFFE t) ∧
    (s.Ready → Ram.wf s.ram = true → s.poll = .nmi →
      ∃ t, step s = .next t ∧ t.poll ≠ .nmi ∧
        s.Entered
          { s.cpu with
            nmiPrev := s.inputs.nmiLine, irqLatch := s.irqLine && !s.cpu.i, nmiLatch := false, waiting := false }
          s.cpu.pc false 0xFFFA t)

/-! ### Bit instructions and reserved opcodes -/

/-- RMBn and SMBn (R250 to R252): a read-modify-write of the zero-page byte with its bit n reset or set; no flag changes. BBRn and
BBSn (R253, R254): bit n of the zero-page byte decides; the displacement is read after it; nothing but PC changes. That these
instructions exist is the spec's decision D1. -/
def Obligations.BitInstructions : Prop :=
  (∀ x ∈ bitModifies, ∀ (zp : Byte) (s : State), Ram.wf s.ram = true →
    ∃ (t : State) (m r : Byte), exec (x.2.2 zp) s = .next t ∧ s.Modified (x.2.2 zp) (zext zp) m r s.cpu 0 t ∧
      ∀ k : Nat, k < 8 → bit r k = if k = x.1 then x.2.1 else bit m k) ∧
  (∀ x ∈ bitBranches, ∀ (zp rel : Byte) (s : State),
    ∃ w t, exec (x.2.2 zp rel) s = .next t ∧ s.Quiet w ∧ w.Kept (w.cartAfterRead s.cpu.pc) t ∧
      let r8 := (w.busRead s.cpu.pc).1
      let after := s.cpu.pc + 1
      (s.plain s.cpu.pc = true → r8 = s.peek s.cpu.pc) ∧
      t.Ended
        { s.cpu with
          pc := if bit (s.ramAt (zext zp)) x.1 = x.2.1 then BitVec.ofInt 16 ((after.toNat : Int) + r8.toInt) else after })

/-- The reserved opcodes change no register, no flag and no memory and make no data access (R260 to R268): what follows their fetch
is idle cycles only, as many as make up the cycle count of their rule. $CB and $DB are two of them on this machine. These are
the spec's decisions D1 to D3; that the operand bytes are their only accesses is log 6, the ticks of an idle cycle log 8. -/
def Obligations.ReservedOpcodes : Prop :=
  ∀ (row : Nibble) (row3 : BitVec 3) (col : Bool) (d8 : Byte) (a16 : Word) (s : State) (i : Instr) (k : Nat),
    (i, k) ∈ [(.nopImp row col, 0), (.nopImm row3 d8, 0), (.nopZp d8, 1), (.nopZpx row d8, 2), (.nopAbs row a16, 1),
      (.nopLong a16, 5), (.nopBit row col, 0), (.wai, 0), (.stp, 0)] →
    ∃ t, exec i s = .next t ∧ s.Quiet t ∧ t.Ended s.cpu ∧ t = ({ s with pipe := .atFetch } : State).idle k

/-- WAI and STP under `P_WAI_STP = wdc` (R33, R243, R244). WAI sets the waiting bit; a waiting CPU with no interrupt line
asserted only polls; an asserted line wakes it, with IRQ entry if I is clear and otherwise with the next instruction. STP
sets the stopped bit, and a stopped CPU makes no further step. The parameter's value here is `nop` (D2); that a step of a
waiting or stopped CPU is one idle cycle is the model's choice (log 33). -/
def Obligations.WaitAndStop : Prop :=
  ∀ s : State,
    (let t := perform (.instr .wai) (waitWith .wdc) s
     s.Quiet t ∧ t.Ended { s.cpu with waiting := true }) ∧
    (let t := perform (.instr .stp) (stopWith .wdc) s
     s.Quiet t ∧ t.Ended { s.cpu with stopped := true }) ∧
    (s.Ready → s.cpu.waiting = true → s.poll = .run → s.irqLine = false →
      ∃ t, step s = .next t ∧ s.Quiet t ∧ t.Ended s.afterPoll.cpu) ∧
    (s.Ready → s.cpu.waiting = true → s.poll = .run → s.irqLine = true →
      step s = exec (fetchInstr s.afterPoll.wake).1 (fetchInstr s.afterPoll.wake).2 ∧
      (fetchInstr s.afterPoll.wake).2.cpu.waiting = false) ∧
    (s.io.tick < Config.tickLimit → s.settled = true → s.suzy.halted = false → s.pipe = .atFetch → s.cpu.stopped = true →
      ∃ t, step s = .next t ∧ s.Quiet t ∧ t.Ended s.cpu)

/-! ### Devices -/

/-- Counting and the period law (R345, R346): an enabled reloading timer with backup value B counts B, B-1, ..., 0 and fires on
the edge after 0, so after `n * (B + 1)` edges it has fired n times and stands at B again; the done latch is set from the
first firing on. A non-reloading timer fires once and stops until its counter is rewritten. A disabled timer ignores edges.
R346 is the spec's derivation; that a timer without reload stops is its decision D20. -/
def Obligations.TimerPeriod : Prop :=
  ∀ t : Timer,
    (t.enabled = true → t.reloads = true → t.stopped = false → t.value = t.backup →
      ∀ n k : Nat, k ≤ t.backup.toNat →
        (Timer.edges (n * (t.backup.toNat + 1) + k) t).2 = n ∧
        (Timer.edges (n * (t.backup.toNat + 1) + k) t).1.value.toNat = t.backup.toNat - k ∧
        (0 < n → (Timer.edges (n * (t.backup.toNat + 1) + k) t).1.done = true)) ∧
    (t.enabled = true → t.reloads = false → t.stopped = false →
      ∀ n : Nat, (Timer.edges (t.value.toNat + 1 + n) t).2 = 1 ∧ (Timer.edges (t.value.toNat + 1 + n) t).1.value = 0) ∧
    (t.enabled = false → ∀ n : Nat, Timer.edges n t = (t, 0))

/-- The link topology (R344): with the linked selector timer 2 takes the firing of timer 0, 4 that of 2, 3 that of 1, 5 of 3, 7
of 5, channel 0 of timer 7 and each further channel that of the one before; 0, 1 and 6 have no upstream. The linked selector
(7) takes the upstream firing as its edge and nothing else; selectors 0 to 6 take an edge at the deadline of their clock, of
period 16 * 2^s ticks, when enabled (R343, R347), an edge being one count (R345). And bit k of the pending byte is set when timer
k fires with its interrupt enabled, and never cleared by time (R347, R364). The edges are the spec's decision D19. -/
def Obligations.TimerCascade : Prop :=
  (∀ (io : Io) (ticks : Nat),
    let now := io.tick + ticks
    let r := cascade now io.timers io.channels
    let ch := fun (k : Fin 4) (up : Bool) => io.channels[k].upTo k.val now up
    (io.elapse ticks).timers = r.timers ∧ (io.elapse ticks).channels = r.channels ∧
    (r.timers[0], r.fired[0]) = io.timers[0].upTo now false ∧
    (r.timers[1], r.fired[1]) = io.timers[1].upTo now false ∧
    (r.timers[2], r.fired[2]) = io.timers[2].upTo now r.fired[0] ∧
    (r.timers[3], r.fired[3]) = io.timers[3].upTo now r.fired[1] ∧
    (r.timers[4], r.fired[4]) = io.timers[4].upTo now r.fired[2] ∧
    (r.timers[5], r.fired[5]) = io.timers[5].upTo now r.fired[3] ∧
    (r.timers[6], r.fired[6]) = io.timers[6].upTo now false ∧
    (r.timers[7], r.fired[7]) = io.timers[7].upTo now r.fired[5] ∧
    r.channels[0] = (ch 0 r.fired[7]).1 ∧
    r.channels[1] = (ch 1 (ch 0 r.fired[7]).2).1 ∧
    r.channels[2] = (ch 2 (ch 1 (ch 0 r.fired[7]).2).2).1 ∧
    r.channels[3] = (ch 3 (ch 2 (ch 1 (ch 0 r.fired[7]).2).2).2).1 ∧
    ∀ k : Fin 8, bit (io.elapse ticks).pending k.val = (bit io.pending k.val || (r.fired[k] && io.timers[k].intEnabled))) ∧
  (∀ (t : Timer) (now : Nat) (up : Bool),
    (t.ctl.toNat % 8 = 7 → t.upTo now up = if up then t.count else (t, false)) ∧
    (t.ctl.toNat % 8 ≠ 7 → t.enabled = true → t.deadline ≤ now →
      t.upTo now up = ({ t.count.1 with deadline := t.deadline + 16 * 2 ^ (t.ctl.toNat % 8) }, t.count.2)) ∧
    (t.ctl.toNat % 8 ≠ 7 → t.enabled = false ∨ now < t.deadline → t.upTo now up = (t, false))) ∧
  (∀ (unit now : Nat) (up : Bool) (c : Channel),
    let r := c.timer.upTo now up
    c.upTo unit now up = (if r.2 then ({ c with timer := r.1 } : Channel).fire unit now else { c with timer := r.1 }, r.2))

/-- A timer's four registers as written by the CPU (R341, R342, R345): the backup byte alone; control A, whose bit 6 clears the done
latch; the counter, which sets the value and lets a stopped timer count again, to fire once after that many edges more;
control B. Each reads back, and no other timer changes. A newly enabled timer or a new selector has its first edge within one
period (log 12); that only the counter restarts a stopped timer is log 13. -/
def Obligations.TimerRegisters : Prop :=
  ∀ (io : Io) (k : Fin 8) (v pins : Byte) (cart : Cart),
    let w := fun r : Nat => io.writeReg (4 * k.val + r) v
    let t := io.timers[k]
    (w 0).timers[k] = { t with backup := v } ∧
    (∃ d : Nat, (w 1).timers[k] =
        { t with ctl := v, status := if bit v 6 then t.status &&& 0xF7 else t.status, deadline := d } ∧
      (t.enabled = true → t.sel = v.toNat % 8 → d = t.deadline) ∧
      (t.enabled = false ∨ t.sel ≠ v.toNat % 8 → io.tick < d ∧ d ≤ io.tick + 16 * 2 ^ (v.toNat % 8))) ∧
    (bit v 6 = true → (w 1).timers[k].done = false) ∧
    (w 2).timers[k] = { t with value := v, stopped := false } ∧
    (t.enabled = true → t.reloads = false →
      ∀ n : Nat, n ≤ v.toNat + 1 → (Timer.edges n (w 2).timers[k]).2 = if n = v.toNat + 1 then 1 else 0) ∧
    (w 3).timers[k] = { t with status := v } ∧
    (∀ r : Nat, r < 4 → (w r).readReg cart pins (4 * k.val + r) = v ∧
      ∀ j : Fin 8, j ≠ k → (w r).timers[j] = io.timers[j])

/-- An audio channel's firing (R358, R359): the shift register moves up by one with the inverted parity of the tapped bits as its
new bit 0; the output is added to or subtracted from, saturating, in integrate mode, and otherwise is the volume or its
negation. Which enable bit belongs to which tap, and the value of -(-128), are the model's choices (log 16). -/
def Obligations.AudioFiring : Prop :=
  ∀ (unit now : Nat) (c : Channel),
    let d := c.fire unit now
    let tap := fun (on : Bool) (k : Nat) => (on && c.shift.getLsbD k).toNat
    let taps :=
      tap (bit c.feedback 0) 0 + tap (bit c.feedback 1) 1 + tap (bit c.feedback 2) 2 + tap (bit c.feedback 3) 3 +
      tap (bit c.feedback 4) 4 + tap (bit c.feedback 5) 5 + tap (bit c.timer.ctl 7) 7 + tap (bit c.feedback 6) 10 +
      tap (bit c.feedback 7) 11
    let sign : Int := if taps % 2 = 0 then 1 else -1
    d.shift.toNat = (2 * c.shift.toNat + (taps + 1) % 2) % 4096 ∧
    (bit c.timer.ctl 5 = true → d.output.toInt = max (-128) (min 127 (c.output.toInt + sign * c.volume.toInt))) ∧
    (bit c.timer.ctl 5 = false → c.volume ≠ 0x80 ∨ taps % 2 = 0 → d.output.toInt = sign * c.volume.toInt) ∧
    d.timer = c.timer ∧ d.volume = c.volume ∧ d.feedback = c.feedback

/-- INTRST and INTSET (R364 to R366): both read the pending byte, with the serial request as a level in bit 4; writing 1 bits to
INTRST clears them, to INTSET sets them; `irq_line` is 1 exactly while the pending byte is not zero, so a serial request
keeps it asserted whatever is written to INTRST. The registers are the spec's decision D34; that the serial request is a
level shown in bit 4 is the model's reading of R366 (log 18). -/
def Obligations.InterruptRegisters : Prop :=
  ∀ (io : Io) (cart : Cart) (pins v : Byte),
    io.readReg cart pins 0x80 = io.pendingNow ∧ io.readReg cart pins 0x81 = io.pendingNow ∧
    (∀ k : Nat, k < 8 → bit io.pendingNow k = (bit io.pending k || (decide (k = 4) && io.serial.txIntEn && !io.serial.txFull))) ∧
    (∀ k : Nat, k < 8 → bit (io.writeReg 0x80 v).pending k = (bit io.pending k && !(bit v k))) ∧
    (∀ k : Nat, k < 8 → bit (io.writeReg 0x81 v).pending k = (bit io.pending k || bit v k)) ∧
    (io.irqLine = true ↔ io.pendingNow ≠ 0) ∧
    (io.serial.irq = true → (io.writeReg 0x80 v).irqLine = true)

/-- One party sends a byte and both receive it (R433, R434, R437, R442): for every byte, with even, odd or no parity, the
receivers hold it after 11 or 10 bit times with no framing, parity or overrun error. For $5A with even parity the wire shows
0, then 0 1 0 1 1 0 1 0, then 0, then 1. R442 is the spec's derivation from R433, R434 and R437. -/
def Obligations.SerialByte : Prop :=
  (∀ (v ctl : Byte), bit ctl 1 = false →
    let a : Serial := { Serial.reset with ctl := ctl, txBuf := v, txFull := true }
    let b : Serial := { Serial.reset with ctl := ctl }
    let q := pulses (if bit ctl 4 then 11 else 10) (a, b)
    q.1.txFull = false ∧
    q.2.rxBuf = v ∧ q.2.rxFull = true ∧ q.2.framErr = false ∧ q.2.parErr = false ∧ q.2.overrun = false ∧
    q.1.rxBuf = v ∧ q.1.rxFull = true ∧ q.1.framErr = false ∧ q.1.parErr = false ∧ q.1.overrun = false) ∧
  (let a : Serial := { Serial.reset with ctl := 0x11, txBuf := 0x5A, txFull := true }
   let b : Serial := { Serial.reset with ctl := 0x11 }
   (List.range 11).map (fun n => (pulses (n + 1) (a, b)).2.prevW) =
     [false, false, true, false, true, true, false, true, false, false, true])

/-- SERCTL and SERDAT (R432): what is written to SERCTL is its control byte, and bit 3 of it clears the four errors; SERCTL reads
TXRDY, RXRDY, TXEMPTY, PARERR, OVERRUN, FRAMERR, RXBRK and the received parity bit from bit 7 down; a write of SERDAT fills the
transmit buffer and clears TXRDY, a read gives the receive buffer and clears RXRDY. While TXBRK is 1 this party pulls the wire
low after every pulse, in every transmitter state and whatever the peer does; otherwise the transmitter alone decides (R435).
The registers are the spec's decision D35. -/
def Obligations.SerialRegisters : Prop :=
  ∀ (io : Io) (cart : Cart) (pins v : Byte) (peer : Bool),
    let p := io.serial
    let c := io.readReg cart pins 0x8C
    bit c 7 = !p.txFull ∧ bit c 6 = p.rxFull ∧ bit c 5 = (decide (p.tx = .idle) && !p.txFull) ∧ bit c 4 = p.parErr ∧
    bit c 3 = p.overrun ∧ bit c 2 = p.framErr ∧ bit c 1 = p.rxBrk ∧ bit c 0 = p.parBit ∧
    (io.writeReg 0x8C v).serial =
      { p with
        ctl := v, parErr := p.parErr && !(bit v 3), overrun := p.overrun && !(bit v 3),
        framErr := p.framErr && !(bit v 3), rxBrk := p.rxBrk && !(bit v 3) } ∧
    (io.writeReg 0x8D v).serial = { p with txBuf := v, txFull := true } ∧
    bit ((io.writeReg 0x8D v).readReg cart pins 0x8C) 7 = false ∧
    io.readReg cart pins 0x8D = p.rxBuf ∧ (io.readEffect 0x8D).serial = { p with rxFull := false } ∧
    bit ((io.readEffect 0x8D).readReg cart pins 0x8C) 6 = false ∧
    (bit p.ctl 1 = true → p.txPulse.pulling = true ∧ wire p.txPulse.pulling peer = false) ∧
    (bit p.ctl 1 = false → p.txPulse = p.txMove)

/-- Break detection (R439): the counter is 0 whenever the wire is high and is incremented at each low pulse; 24 low bit times
do not raise RXBRK, 25 do. -/
def Obligations.BreakDetected : Prop :=
  ∀ (p : Serial) (now : Nat),
    (p.rxPulse now true).lowRun = 0 ∧ (p.rxPulse now true).rxBrk = p.rxBrk ∧
    (p.rxPulse now false).lowRun = p.lowRun + 1 ∧
    (p.lowRun = 0 → p.rxBrk = false →
      (∀ n : Nat, n ≤ 24 → ((Serial.rxPulse now false)^[n] p).rxBrk = false) ∧
      ((Serial.rxPulse now false)^[25] p).rxBrk = true)

/-- The cartridge and the parallel port (R443 to R446): a rising strobe in SYSCTL1 bit 0 shifts IODAT bit 1 as written into the page
register and clears the counter; a read of RCART0 or RCART1 gives the byte of the bank at page and counter, $FF beyond its
size, and advances the counter. With AUDIN an output, IODAT bit 4 selects the "A" variant of a bank that has one. IODAT reads
the written level of an output pin and the external level of an input. Log 27 marks as the model's own: the base bank while AUDIN
is an input (DESIGN CHOICE), the base bank where there is no "A" variant, that the strobe shifts what was written to IODAT
whatever IODIR says, the number of page bits, and IODAT bits 7 to 5 (DEDUCED). -/
def Obligations.CartridgePort : Prop :=
  (∀ (c : Cart) (v : Byte),
    let d := c.writeMikeyReg 0x87 v
    d.sysctl1 = v ∧
    (bit v 0 = true → bit c.sysctl1 0 = false →
      d.counter = 0 ∧ d.shiftReg.toNat = (2 * c.shiftReg.toNat + (bit c.iodat 1).toNat) % 256) ∧
    (bit v 0 = false ∨ bit c.sysctl1 0 = true → d.counter = c.counter ∧ d.shiftReg = c.shiftReg)) ∧
  (∀ s : State, bit s.mapctl 0 = false →
    let pick := fun base variant : List Byte =>
      if bit s.cart.iodir 4 = true ∧ bit s.cart.iodat 4 = true ∧ variant ≠ [] then variant else base
    let bank0 := pick s.cart.bank0 s.cart.bank0A
    let bank1 := pick s.cart.bank1 s.cart.bank1A
    (s.busRead 0xFCB2).1 = bank0.getD (s.cart.current bank0) 0xFF ∧
    (s.busRead 0xFCB2).2.cart = { s.cart with counter := s.cart.counter + 1 } ∧
    (s.busRead 0xFCB3).1 = bank1.getD (s.cart.current bank1) 0xFF ∧
    (s.busRead 0xFCB3).2.cart = { s.cart with counter := s.cart.counter + 1 }) ∧
  (∀ (c : Cart) (bank : List Byte) (bits : Nat), bits ≤ 11 → bank.length = 256 * 2 ^ bits →
    c.current bank = c.shiftReg.toNat * 2 ^ bits + c.counter.toNat % 2 ^ bits) ∧
  (∀ (io : Io) (c : Cart) (pins v : Byte),
    (∀ k : Nat, k < 8 → bit (io.readReg c pins 0x8B) k = if bit c.iodir k then bit c.iodat k else bit pins k) ∧
    io.readReg (c.writeMikeyReg 0x8A v) pins 0x8A = v ∧ (c.writeMikeyReg 0x8B v).iodat = v)

/-- What comes in and what goes out: JOYSTICK reads up, down, left, right, opt1, opt2, B and A from bit 7 to bit 0 and SWITCHES pause
in bit 0, of the nine key bits in the order of decision D39 (R418); each serial pulse hears the peer's level of its own tick
and the next comes 16 ticks later (R430, R431), the level being that of the entry given last among those whose tick has passed, and
released before any (log 28); a sample is, for each ear, the sum of the channels' outputs times their gain, in
sixteenths: 0 where STEREO disables the channel, else the attenuation where it is enabled, else 1 (R360; log 16, log 17). -/
def Obligations.InputsAndMixer : Prop :=
  (∀ (s : State) (keys : BitVec 9) (tick : Nat),
    let t := s.setInput keys
    let j := t.suzy.readReg t.cart t.inputs tick 0xB0
    bit j 7 = keys.getLsbD 1 ∧ bit j 6 = keys.getLsbD 3 ∧ bit j 5 = keys.getLsbD 0 ∧ bit j 4 = keys.getLsbD 2 ∧
    bit j 3 = keys.getLsbD 4 ∧ bit j 2 = keys.getLsbD 6 ∧ bit j 1 = keys.getLsbD 8 ∧ bit j 0 = keys.getLsbD 7 ∧
    bit (t.suzy.readReg t.cart t.inputs tick 0xB1) 0 = keys.getLsbD 5) ∧
  (∀ (io : Io) (inputs : Inputs),
    (io.pulseAction inputs).serial = io.serial.pulse io.pulseDue (levelAt io.pulseDue inputs.peer) ∧
    (io.pulseAction inputs).pulseDue = io.pulseDue + 16) ∧
  (∀ (since now : Nat) (level : Bool) (rest : List (Nat × Bool)), levelAt now [] = false ∧
    levelAt now ((since, level) :: rest) = if since ≤ now then level else levelAt now rest) ∧
  (∀ s : State,
    let gain := fun (c : Fin 4) (k att : Nat) =>
      if bit s.io.stereo k then (0 : Int) else if bit s.io.attenEnable k then (att : Int) else 16
    s.audioSample =
      (∑ c : Fin 4, s.io.channels[c].output.toInt * gain c (4 + c.val) (s.io.atten[c].toNat / 16),
        ∑ c : Fin 4, s.io.channels[c].output.toInt * gain c c.val (s.io.atten[c].toNat % 16)))

/-- Palette writes (R356, R357): a write of $FDA0+n or of $FDB0+n reads back and leaves the other byte of the pair; after either one,
entry n is alpha $FF with each 4-bit component times 17: red from the low and blue from the high half of $FDB0+n, green from the
low half of $FDA0+n, as the two bytes now stand; no other entry changes. -/
def Obligations.Palette : Prop :=
  ∀ (io : Io) (n : Fin 16) (v pins : Byte) (cart : Cart),
    let pen : Nibble := BitVec.ofNat 4 n.val
    let argb := fun g br : Byte =>
      0xFF000000 + 0x10000 * (17 * (br.toNat % 16)) + 0x100 * (17 * (g.toNat % 16)) + 17 * (br.toNat / 16)
    let green := io.readReg cart pins (0xA0 + n.val)
    let blueRed := io.readReg cart pins (0xB0 + n.val)
    (let p := io.writeReg (0xA0 + n.val) v
     p.readReg cart pins (0xA0 + n.val) = v ∧ p.readReg cart pins (0xB0 + n.val) = blueRed ∧
     (p.paletteEntry pen).toNat = argb v blueRed ∧
     ∀ other : Nibble, other ≠ pen → p.paletteEntry other = io.paletteEntry other) ∧
    (let p := io.writeReg (0xB0 + n.val) v
     p.readReg cart pins (0xB0 + n.val) = v ∧ p.readReg cart pins (0xA0 + n.val) = green ∧
     (p.paletteEntry pen).toNat = argb green v ∧
     ∀ other : Nibble, other ≠ pen → p.paletteEntry other = io.paletteEntry other)

/-- The display (R351 to R353): Mikey-pixel reads RAM at the frame's base plus 80 bytes a line plus the byte's number, modulo 65536;
the byte gives two pixels through the palette as it stands, the high nibble's first; 80 bytes make a line, which is appended to
the frame, and after line 101 the frame is committed; the first line of a frame samples DISPADR. While the line's time allows
10 ticks for each read left, the gap before the next one leaves 10 ticks for each of them; how long it is within that bound is
free (log 15). A read that a frame end in its own ticks overtakes is dropped (log 14), and a line start queued with an earlier
deadline comes before that end. -/
def Obligations.DisplayFrame : Prop :=
  (∀ (io : Io) (m : Byte) (ram : List Host.Cell),
    let t := io.access m false io.video.address
    io.video.address.toNat = (io.video.base.toNat + 80 * io.video.line + io.video.fetched) % 65536 ∧
    (io.frameDue ≠ none ∨ t.frameDue = none →
      io.pixelAction m ram = t.takeByte (Ram.read ram io.video.address.toNat)) ∧
    ∀ f : Nat, io.frameDue = none → t.frameDue = some f →
      ((∃ l, t.lineDue = some l ∧ l < f) → io.pixelAction m ram = t.lineAction.frameAction) ∧
      ((∀ l, t.lineDue = some l → f ≤ l) → io.pixelAction m ram = t.frameAction)) ∧
  (∀ (io : Io) (bytes : List Byte), bytes.length = 80 → io.video.fetched = 0 → io.video.lineBuf = [] → io.video.line < 102 →
    let t := bytes.foldl (fun q b => q.takeByte b) io
    let pixels := bytes.flatMap fun b => [io.paletteEntry (hiNib b), io.paletteEntry (loNib b)]
    t.pixelDue = none ∧ t.video.line = io.video.line + 1 ∧ t.video.fetched = 0 ∧ t.video.lineBuf = [] ∧
    if io.video.line = 101 then
      t.video.sink = io.video.frame ++ pixels ∧ t.video.frames = io.video.frames + 1 ∧ t.video.frame = []
    else t.video.frame = io.video.frame ++ pixels ∧ t.video.sink = io.video.sink ∧ t.video.frames = io.video.frames) ∧
  (∀ io : Io,
    (io.video.line < 102 → io.lineAction.video =
        { io.video with fetched := 0, lineBuf := [], base := if io.video.line = 0 then io.dispadr else io.video.base } ∧
      ∃ d, io.lineAction.pixelDue = some d ∧ io.tick ≤ d) ∧
    (102 ≤ io.video.line → io.lineAction = { io with lineDue := none }) ∧
    io.frameAction.video = { io.video with line := 0, fetched := 0, lineBuf := [], frame := [] } ∧
    ∀ left avail : Nat, 0 < left → io.lineLeft = some avail → 10 * left ≤ avail → io.gap left + 10 * left ≤ avail)

/-! ### The sprite engine -/

/-- A CPU write of SPRGO with bit 0 set starts sprite processing and halts the CPU, the everon enable being bit 2; with bit 0
clear it starts nothing (R384). -/
def Obligations.SpriteGo : Prop :=
  ∀ (s : State) (v : Byte), Ram.wf s.ram = true → bit s.mapctl 0 = false →
    (bit v 0 = true →
      (s.busWrite 0xFC91 v).suzy =
        { s.suzy with sprgo := v, working := true, halted := true, everonEn := bit v 2, phase := .chain }) ∧
    (bit v 0 = false → (s.busWrite 0xFC91 v).suzy = { s.suzy with sprgo := v })

/-- What the walk loads from an SCB at the link (R385 to R389), one Suzy access for each byte: the three control bytes and the next
link; with the skip bit nothing more, and the walk is at the next link; else the data pointer and the position, then as the
reload field says size, stretch and tilt, then unless the palette is reused sixteen pens from eight bytes, the high nibble
first. `hiColl` and `anyPixel` are then cleared and collisions are off for a disabled sprite, by SPRSYS or for types 1 and 5
(R390, R391). RAM and the CPU are untouched. -/
def Obligations.SpriteWalk : Prop :=
  ∀ s : State, s.suzy.phase = .chain → hi s.suzy.scbnext ≠ 0 →
    let a := s.suzy.scbnext
    let m := fun k : Nat => s.ramAt (a + BitVec.ofNat 16 k)
    let w := fun k : Nat => join (m (k + 1)) (m k)
    (bit (m 1) 2 = true →
      let t := State.suzyTurn^[5] s
      t.ram = s.ram ∧ t.cpu = s.cpu ∧
      t.suzy =
        Suzy.toAccess
          { s.suzy with
            scbadr := a, tmpadr := a + 5, sprctl0 := m 0, sprctl1 := m 1, sprcoll := m 2, scbnext := w 3, phase := .chain }) ∧
    (bit (m 1) 2 = false →
      let n := [0, 4, 6, 8].getD ((m 1).toNat / 16 % 4) 0
      let p := if bit (m 1) 3 then 0 else 8
      let t := State.suzyTurn^[11 + n + p] s
      let z := t.suzy
      t.ram = s.ram ∧ t.cpu = s.cpu ∧ z.phase = .fill 0 ∧ z.scbadr = a ∧ z.tmpadr = a + BitVec.ofNat 16 (11 + n + p) ∧
      z.sprctl0 = m 0 ∧ z.sprctl1 = m 1 ∧ z.sprcoll = m 2 ∧ z.scbnext = w 3 ∧
      z.sprdline = w 5 ∧ z.procadr = w 5 ∧ z.hposstrt = w 7 ∧ z.vposstrt = w 9 ∧
      z.sprhsiz = (if 4 ≤ n then w 11 else s.suzy.sprhsiz) ∧ z.sprvsiz = (if 4 ≤ n then w 13 else s.suzy.sprvsiz) ∧
      z.stretch = (if 6 ≤ n then w 15 else s.suzy.stretch) ∧ z.tilt = (if 8 ≤ n then w 17 else s.suzy.tilt) ∧
      (∀ k : Fin 16, z.pens[k] =
        if p = 0 then s.suzy.pens[k]
        else if k.val % 2 = 0 then hiNib (m (11 + n + k.val / 2)) else loNib (m (11 + n + k.val / 2))) ∧
      z.hiColl = 0 ∧ z.anyPixel = false ∧
      z.noColl = (bit (m 2) 5 || bit s.suzy.sprsys 5 || decide ((m 0).toNat % 8 = 1 ∨ (m 0).toNat % 8 = 5)))

/-- What the parser yields (R399 to R401, R403): a literal sprite's pens of `bpp` bits; in a packed sprite a flag and a 4-bit count n,
then for flag 1 a block of n + 1 pens, for flag 0 one pen to be yielded n + 1 times, and for flag 0 with count 0 the line's end.
Fields are taken from the top of the shifter and off the line's budget, which ends the line when it is short. A pen's width is
the high byte of `hsizacum + sprhsiz`, the fraction kept. The shifter is refilled at `procadr` while it holds fewer than 24 bits
and more are needed, each byte behind the bits it holds. What "more are needed" means is the model's reading (log 24). -/
def Obligations.PixelParser : Prop :=
  ∀ (z : Suzy) (b : Byte),
    let top := fun k : Nat => z.shifter.toNat / 2 ^ (32 - k)
    let acc := z.hsizacum + z.sprhsiz
    let took := fun (k : Nat) (q : Suzy) =>
      q.shifter = z.shifter <<< k ∧ q.shiftCount = z.shiftCount - k ∧ q.budget = z.budget - k
    let yields := fun (pen : Nat) (q : Suzy) =>
      q.curPen.toNat = pen ∧ q.colsLeft = (hi acc).toNat ∧ q.hsizacum = zext (lo acc) ∧ q.phase = z.phase
    (z.bpp ≤ z.budget →
      (z.parse = .literal → z.parseMove.parse = .literal ∧ yields (top z.bpp) z.parseMove ∧ took z.bpp z.parseMove) ∧
      (∀ n, z.parse = .block (n + 1) →
        z.parseMove.parse = .block n ∧ yields (top z.bpp) z.parseMove ∧ took z.bpp z.parseMove) ∧
      (∀ n, z.parse = .runPen n → z.parseMove.parse = .run n (BitVec.ofNat 4 (top z.bpp)) ∧
        yields (top z.bpp) z.parseMove ∧ took z.bpp z.parseMove)) ∧
    (z.parse = .header → 5 ≤ z.budget → took 5 z.parseMove ∧
      (top 1 = 1 → z.parseMove.parse = .block (top 5 % 16 + 1) ∧ z.parseMove.phase = z.phase) ∧
      (top 1 = 0 → top 5 % 16 ≠ 0 → z.parseMove.parse = .runPen (top 5 % 16) ∧ z.parseMove.phase = z.phase) ∧
      (top 1 = 0 → top 5 % 16 = 0 → z.parseMove.phase = .rowVideo)) ∧
    (z.parse = .block 0 ∨ (∃ pen, z.parse = .run 0 pen) → z.parseMove = { z with parse := .header }) ∧
    (∀ n pen, z.parse = .run (n + 1) pen → z.parseMove.parse = .run n pen ∧ yields pen.toNat z.parseMove ∧
      took 0 z.parseMove) ∧
    (z.budget < z.needed → z.parseMove = { z with phase := .rowVideo }) ∧
    (z.phase = .parse →
      z.request = (if z.colsLeft = 0 ∧ z.needed ≤ z.budget ∧ z.needed ≠ 0 ∧ z.shiftCount < 24 ∧ z.shiftCount < z.budget then
        some (.read z.procadr) else none) ∧
      (z.colsLeft = 0 → z.move = z.parseMove) ∧
      (z.shiftCount ≤ 24 → z.shifter.toNat % 2 ^ (32 - z.shiftCount) = 0 →
        (z.gotByte b).shifter.toNat = z.shifter.toNat + b.toNat * 2 ^ (24 - z.shiftCount) ∧
        (z.gotByte b).shiftCount = z.shiftCount + 8 ∧ (z.gotByte b).procadr = z.procadr + 1))

/-- What a column stores (R404 to R408). A column on the screen counts as drawn-in and is processed, any other passed over. By the
sprite's type and the pixel, which is the pen's entry of the table, it is drawn and it collides or not. A drawn pixel enters
the nibble of its column, high for even columns, of the byte at half the column's number; a flushed byte is written with both
nibbles gathered, else read and written with the gathered one replaced, and for type 6 read and written exclusive-or. A
colliding pixel raises `hiColl` to the number met and leaves the sprite's number there, for type 0 without looking. At the end
`hiColl`, with bit 7 for everon and a pixel drawn, goes to the depository unless collisions are off (R411). When a gathered
byte is flushed is the model's choice (log 22). -/
def Obligations.SpriteDraws : Prop :=
  (∀ p : Nibble,
    (∀ k : Nat, drawnFor k p = if k < 2 then true else if k = 2 then p != 0 && p != 0xE && p != 0xF
      else if k = 3 then p != 0 && p != 0xF else p != 0) ∧
    (∀ k : Nat, k < 8 → collidesFor k p = if k = 0 then p != 0xE else if k = 1 ∨ k = 5 then false
      else if k = 3 ∨ k = 4 then p != 0 else p != 0 && p != 0xE)) ∧
  (∀ z : Suzy, z.phase = .parse → z.colsLeft ≠ 0 →
    z.move = if z.sprhpos.toNat < 160 then { z with anyPixel := true, phase := .coll }
      else { z with sprhpos := z.sprhpos + u16 z.hsign, colsLeft := z.colsLeft - 1 }) ∧
  (∀ z : Suzy, z.phase = .video → z.request = none →
    let pixel := z.pens[z.curPen.toNat]'z.curPen.isLt
    let even := decide (z.sprhpos.toNat % 2 = 0)
    z.move.sprhpos = z.sprhpos + u16 z.hsign ∧ z.move.colsLeft = z.colsLeft - 1 ∧
    (drawnFor z.kind pixel = false → z.move.videoAcc = z.videoAcc) ∧
    (drawnFor z.kind pixel = true → ∃ c : Accum, z.move.videoAcc = some c ∧
      c.addr.toNat = (z.vidadr.toNat + z.sprhpos.toNat / 2) % 65536 ∧
      (∀ old : Byte, (if even then hiNib (c.merge old) else loNib (c.merge old)) = pixel ∧
        (if even then loNib (c.merge old) else hiNib (c.merge old)) =
          let other := match z.videoAcc with
            | some d => d.merge old
            | none => old
          if even then loNib other else hiNib other))) ∧
  (∀ z : Suzy, z.phase = .coll → z.request = none →
    let even := decide (z.sprhpos.toNat % 2 = 0)
    z.move.phase = .video ∧
    (z.colliding = (!z.noColl && collidesFor z.kind (z.pens[z.curPen.toNat]'z.curPen.isLt))) ∧
    (z.colliding = false → z.move.collAcc = z.collAcc ∧ z.move.hiColl = z.hiColl) ∧
    (z.colliding = true → ∃ c : Accum, z.move.collAcc = some c ∧ c.addr = z.colladr + z.sprhpos >>> 1 ∧
      (∀ old : Byte, (if even then hiNib (c.merge old) else loNib (c.merge old)) = loNib z.sprcoll) ∧
      (z.kind = 0 → z.move.hiColl = z.hiColl) ∧
      (z.kind ≠ 0 → ∃ d : Accum, z.collAcc = some d ∧ d.addr = c.addr ∧
        z.move.hiColl.toNat =
          max z.hiColl.toNat (if even then hiNib d.data else loNib d.data).toNat))) ∧
  (∀ (c : Accum) (old : Byte),
    c.flush false = (if c.hiSet && c.loSet then .write c.addr c.data else match c.old with
      | none => .read c.addr
      | some b => .write c.addr (c.merge b)) ∧
    c.flush true = (match c.old with
      | none => .read c.addr
      | some b => .write c.addr (b ^^^ c.data)) ∧
    hiNib (c.merge old) = (if c.hiSet then hiNib c.data else hiNib old) ∧
    loNib (c.merge old) = (if c.loSet then loNib c.data else loNib old)) ∧
  (∀ z : Suzy, z.phase = .deposit →
    z.request = if z.noColl then none
      else some (.write (z.scbadr + z.colloff) (z.hiColl ||| (if z.everonEn && z.anyPixel then 0x80 else 0))))

/-- While Suzy holds the CPU off the bus, a step changes nothing of the CPU, not even where it is in its instruction, nor of MAPCTL,
the ROM, the cartridge or the inputs (R468): it makes one access of the engine at most (R414). Suzy releases the CPU exactly
when the walk is over: the link's high byte is zero, or the stop bit is set after a sprite (R384, R385, R412). Between which
accesses the engine's moves without one are made is the model's choice (log 21). -/
def Obligations.HaltedCpu : Prop :=
  (∀ s : State, s.suzy.halted = true → s.settled = true → s.io.tick < Config.tickLimit →
    ∃ t, step s = .next t ∧ t.cpu = s.cpu ∧ t.pipe = s.pipe ∧ t.mapctl = s.mapctl ∧ t.rom = s.rom ∧ t.cart = s.cart ∧
      t.inputs = s.inputs ∧ s.io.TimePassed t.io ∧ (s.Inv → t.suzy.halted = t.suzy.working) ∧
      t.suzy = match s.suzy.toAccess.request with
        | some (.read a) => (s.suzy.toAccess.gotByte (s.ramAt a)).toAccess
        | some (.write _ _) => s.suzy.toAccess.wrote.toAccess
        | none => if s.suzy.toAccess.phase = .idle then s.suzy.toAccess.finish else s.suzy.toAccess) ∧
  ∀ (z : Suzy) (b : Byte), z.working = true →
    (z.move.working = false ↔ z.phase = .chain ∧ hi z.scbnext = 0 ∨ z.phase = .deposit ∧ z.stopBit = true) ∧
    (z.wrote.working = false ↔ z.phase = .deposit ∧ z.stopBit = true) ∧ (z.gotByte b).working = true ∧
    (z.halted = true → z.move.halted = z.move.working ∧ z.wrote.halted = z.wrote.working ∧ (z.gotByte b).halted = true)

/-- From a state that meets the invariant, a step of Suzy changes one byte of RAM at most, that of the write it makes, and it lies
inside the screen of 102 lines of 80 bytes at VIDBAS, inside the collision buffer of that size at COLLBAS, or, at a sprite's end,
in the collision depository (R64, R404, R411). When a gathered byte is written is the model's choice (log 22). -/
def Obligations.SuzyWritesOnScreen : Prop :=
  ∀ s t : State, s.Inv → s.suzy.halted = true → step s = .next t →
    ∀ a : Word, t.ramAt a ≠ s.ramAt a →
      ∃ v : Byte, s.suzy.toAccess.request = some (.write a v) ∧ t.ramAt a = v ∧
        (inArea s.suzy.vidbas a ∨ inArea s.suzy.collbas a ∨
          s.suzy.toAccess.phase = .deposit ∧ s.suzy.toAccess.noColl = false ∧
            a = s.suzy.toAccess.scbadr + s.suzy.toAccess.colloff ∧ v = s.suzy.toAccess.depositByte)

/-! ### The machine -/

/-- Every step keeps the invariant, and after it the bus master is next; every turn of the scheduler keeps the invariant too. It says:
RAM in canonical form, every clocked timer's next edge ahead, the display's buffers of matching lengths and a committed frame of
160 by 102 pixels, the serial pulse never late by a whole bit time, the master late by one display read at most, and Suzy
halted exactly while working with its operators inside the screen. The invariant is the model's own. -/
def Obligations.StepKeepsInvariant : Prop :=
  (∀ s t : State, s.Inv → step s = .next t → t.Inv ∧ t.settled = true) ∧ ∀ s : State, s.Inv → (turn s).Inv

/-- The invariant holds right after reset, whatever canonical RAM contents and boot ROM are drawn. The invariant is the model's
own. -/
def Obligations.ResetInvariant : Prop :=
  ∀ (rom : List Byte) (cart : Cart) (inputs : Inputs) (draw : ResetDraw), Ram.wf draw.ram = true →
    draw.suzy.videoAcc = none → draw.suzy.collAcc = none → (State.resetWith rom cart inputs draw).Inv

/-- Nothing stops the machine (R301): every instruction in every state answers a next state, and every step below the tick
limit of log 11 does; it never moves time backwards, nor changes the boot ROM, the cartridge's banks or the host's inputs
(R474, R448, R51). -/
def Obligations.StepAnswersNext : Prop :=
  (∀ (i : Instr) (s : State), ∃ t, exec i s = .next t) ∧
  ∀ s : State, s.io.tick < Config.tickLimit →
    ∃ t, step s = .next t ∧ s.io.tick ≤ t.io.tick ∧ t.rom = s.rom ∧ t.inputs = s.inputs ∧
      t.cart.bank0 = s.cart.bank0 ∧ t.cart.bank1 = s.cart.bank1 ∧ t.cart.bank0A = s.cart.bank0A ∧
      t.cart.bank1A = s.cart.bank1A
end

