-- ==== Sys2Proof/Laws/Io.lean ====
section
/-! SUPPORT. What the passing of time does: it leaves every register that only software writes, it keeps the invariant of
timers, display and serial pulse, and the scheduler comes to the master's turn. -/

namespace Sys2Proof.Machine

/-! ### Time passed is a preorder -/

theorem Io.TimePassed.refl (a : Io) : a.TimePassed a where
  tick := Nat.le_refl _
  pending := BitVec.and_self
  atten := rfl
  attenEnable := rfl
  stereo := rfl
  dispadr := rfl
  green := rfl
  blueRed := rfl
  serialCtl := rfl
  timers := fun _ => ⟨rfl, rfl⟩
  channels := fun _ => ⟨rfl, rfl, rfl, rfl⟩

theorem Io.TimePassed.trans {a b c : Io} (h : a.TimePassed b) (g : b.TimePassed c) : a.TimePassed c where
  tick := Nat.le_trans h.tick g.tick
  pending := by rw [← h.pending, BitVec.and_assoc, g.pending]
  atten := g.atten.trans h.atten
  attenEnable := g.attenEnable.trans h.attenEnable
  stereo := g.stereo.trans h.stereo
  dispadr := g.dispadr.trans h.dispadr
  green := g.green.trans h.green
  blueRed := g.blueRed.trans h.blueRed
  serialCtl := g.serialCtl.trans h.serialCtl
  timers := fun k => ⟨(g.timers k).1.trans (h.timers k).1, (g.timers k).2.trans (h.timers k).2⟩
  channels := fun k =>
    ⟨(g.channels k).1.trans (h.channels k).1, (g.channels k).2.1.trans (h.channels k).2.1,
      (g.channels k).2.2.1.trans (h.channels k).2.2.1, (g.channels k).2.2.2.trans (h.channels k).2.2.2⟩

/-! ### Timers and channels -/

theorem Timer.count_keeps (t : Timer) :
    t.count.1.backup = t.backup ∧ t.count.1.ctl = t.ctl ∧ t.count.1.deadline = t.deadline := by
  unfold Timer.count; split <;> [split; skip] <;> exact ⟨rfl, rfl, rfl⟩

theorem Timer.upTo_keeps (now : Nat) (up : Bool) (t : Timer) :
    (t.upTo now up).1.backup = t.backup ∧ (t.upTo now up).1.ctl = t.ctl := by
  have h := t.count_keeps
  unfold Timer.upTo; split <;> [split; split] <;> exact ⟨by first | exact h.1 | rfl, by first | exact h.2.1 | rfl⟩

theorem clockPeriod_ge (k : Nat) : 16 ≤ clockPeriod k := by
  have := Nat.one_le_two_pow (n := k)
  unfold clockPeriod; omega

/-- A clocked timer that was ahead at `tick` is ahead at `now`, at most one shortest period later. -/
theorem Timer.upTo_ok {tick now : Nat} (up : Bool) {t : Timer} (h : t.Ok tick) (hn : now ≤ tick + 16) :
    (t.upTo now up).1.Ok now := by
  intro he hl
  have hk := t.upTo_keeps now up
  have he' : t.enabled = true := by simpa [Timer.enabled, hk.2] using he
  have hl' : t.linked = false := by simpa [Timer.linked, Timer.sel, hk.2] using hl
  have hd := h he' hl'
  have hc := clockPeriod_ge t.sel
  unfold Timer.upTo
  simp only [hl', he', Bool.true_and, decide_eq_true_eq, Bool.false_eq_true, if_false]
  split
  · show now < t.deadline + clockPeriod t.sel
    omega
  · show now < t.deadline
    omega

theorem Channel.fire_timer (unit now : Nat) (c : Channel) : (c.fire unit now).timer = c.timer := rfl

theorem Channel.upTo_timer (unit now : Nat) (up : Bool) (c : Channel) :
    (c.upTo unit now up).1.timer = (c.timer.upTo now up).1 := by
  unfold Channel.upTo; simp only; split <;> rfl

theorem Channel.upTo_keeps (unit now : Nat) (up : Bool) (c : Channel) :
    (c.upTo unit now up).1.volume = c.volume ∧ (c.upTo unit now up).1.feedback = c.feedback := by
  unfold Channel.upTo; simp only; split <;> exact ⟨rfl, rfl⟩

/-- Each timer after a cascade is the timer before it, brought up to date. -/
theorem cascade_timer (now : Nat) (t : Vector Timer 8) (ch : Vector Channel 4) (k : Fin 8) :
    ∃ up, (cascade now t ch).timers[k] = (t[k].upTo now up).1 := by
  fin_cases k <;> exact ⟨_, rfl⟩

theorem cascade_channel (now : Nat) (t : Vector Timer 8) (ch : Vector Channel 4) (k : Fin 4) :
    ∃ up, (cascade now t ch).channels[k] = (ch[k].upTo k.val now up).1 := by
  fin_cases k <;> exact ⟨_, rfl⟩

/-! ### Time passes -/

theorem and_or_self (a b : Byte) : a &&& (a ||| b) = a := by
  apply BitVec.eq_of_getLsbD_eq; intro i _; simp; intro h; simp [h]

theorem Io.runTimers_timePassed (io : Io) : io.TimePassed io.runTimers where
  tick := Nat.le_refl _
  pending := and_or_self _ _
  atten := rfl
  attenEnable := rfl
  stereo := rfl
  dispadr := rfl
  green := rfl
  blueRed := rfl
  serialCtl := rfl
  timers := fun k => by
    obtain ⟨up, h⟩ := cascade_timer io.tick io.timers io.channels k
    show (cascade io.tick io.timers io.channels).timers[k].backup = _ ∧
      (cascade io.tick io.timers io.channels).timers[k].ctl = _
    rw [h]; exact Timer.upTo_keeps _ _ _
  channels := fun k => by
    obtain ⟨up, h⟩ := cascade_channel io.tick io.timers io.channels k
    show (cascade io.tick io.timers io.channels).channels[k].volume = _ ∧
      (cascade io.tick io.timers io.channels).channels[k].feedback = _ ∧
      (cascade io.tick io.timers io.channels).channels[k].timer.backup = _ ∧
      (cascade io.tick io.timers io.channels).channels[k].timer.ctl = _
    rw [h]
    have h1 := Channel.upTo_keeps k.val io.tick up io.channels[k]
    have h2 := Timer.upTo_keeps io.tick up io.channels[k].timer
    rw [Channel.upTo_timer]
    exact ⟨h1.1, h1.2, h2.1, h2.2⟩

theorem Io.elapse_timePassed (n : Nat) (io : Io) : io.TimePassed (io.elapse n) :=
  Io.TimePassed.trans (b := { io with tick := io.tick + n })
    { Io.TimePassed.refl io with tick := Nat.le_add_right _ _ } (Io.runTimers_timePassed _)

theorem Io.access_timePassed (m : Byte) (r : Bool) (a : Word) (io : Io) : io.TimePassed (io.access m r a) :=
  { Io.elapse_timePassed (io.chargeOf m r a) io with }

theorem Io.frameAction_timePassed (io : Io) : io.TimePassed io.frameAction := { Io.TimePassed.refl io with }

theorem Io.lineAction_timePassed (io : Io) : io.TimePassed io.lineAction := by
  unfold Io.lineAction; split <;> exact { Io.TimePassed.refl io with }

theorem Io.takeByte_timePassed (b : Byte) (io : Io) : io.TimePassed (io.takeByte b) := { Io.TimePassed.refl io with }

theorem Io.endFrame_timePassed (io : Io) : io.TimePassed io.endFrame := by
  unfold Io.endFrame
  split
  · exact io.lineAction_timePassed.trans io.lineAction.frameAction_timePassed
  · exact io.frameAction_timePassed

theorem Io.pixelAction_timePassed (m : Byte) (ram : List Host.Cell) (io : Io) : io.TimePassed (io.pixelAction m ram) := by
  have h := Io.access_timePassed m false io.video.address io
  unfold Io.pixelAction
  extract_lets t
  split
  · exact h.trans t.endFrame_timePassed
  · exact h.trans (t.takeByte_timePassed _)

theorem Serial.txMove_ctl (p : Serial) : p.txMove.ctl = p.ctl := by
  unfold Serial.txMove Serial.txIdle
  cases p.tx <;> simp only
  all_goals repeat' split
  all_goals rfl

theorem Serial.rxMove_ctl (now : Nat) (w : Bool) (p : Serial) : (p.rxMove now w).ctl = p.ctl := by
  unfold Serial.rxMove Serial.deliver
  cases p.rx <;> simp only
  all_goals repeat' split
  all_goals rfl

theorem Serial.pulseWith_ctl (b : ComlynxBackend) (now : Nat) (peer : Bool) (frame : Option (Byte × Bool)) (p : Serial) :
    (p.pulseWith b now peer frame).ctl = p.ctl := by
  cases b with
  | perBit => exact (Serial.rxMove_ctl _ _ _).trans p.txMove_ctl
  | coarse =>
    have h : p.txMove.ctl = p.ctl := p.txMove_ctl
    show (Serial.coarsePulse now peer frame p).ctl = _
    unfold Serial.coarsePulse
    cases frame <;> simp only <;> split <;> exact h

theorem Io.pulseAction_timePassed (inputs : Inputs) (io : Io) : io.TimePassed (io.pulseAction inputs) :=
  { Io.TimePassed.refl io with serialCtl := Serial.pulseWith_ctl _ _ _ _ io.serial }

theorem Io.run_timePassed (m : Byte) (ram : List Host.Cell) (inputs : Inputs) (d : Device) (io : Io) :
    io.TimePassed (io.run m ram inputs d) := by
  cases d
  · exact io.frameAction_timePassed
  · exact io.lineAction_timePassed
  · exact io.pixelAction_timePassed m ram
  · exact io.pulseAction_timePassed inputs

/-! ### What a beat is -/

/-- The entry that is popped is in the queue and has the earliest deadline. -/
theorem earliest_spec {q : List (Nat × Device)} {e : Nat × Device} (h : earliest q = some e) :
    e ∈ q ∧ ∀ f ∈ q, e.1 ≤ f.1 := by
  induction q generalizing e with
  | nil => cases h
  | cons a rest ih =>
    unfold earliest at h
    split at h
    · rename_i f hf
      have := ih hf
      split at h <;> cases h
      · rename_i hle
        exact ⟨List.mem_cons_self, fun g hg => by
          rcases List.mem_cons.1 hg with rfl | hg
          · exact Nat.le_refl _
          · exact Nat.le_trans hle (this.2 g hg)⟩
      · rename_i hle
        exact ⟨List.mem_cons_of_mem _ this.1, fun g hg => by
          rcases List.mem_cons.1 hg with rfl | hg
          · omega
          · exact this.2 g hg⟩
    · rename_i hn
      cases h
      have : rest = [] := by
        cases rest with
        | nil => rfl
        | cons b r => unfold earliest at hn; split at hn <;> [split at hn <;> cases hn; cases hn]
      subst this
      exact ⟨List.mem_singleton.2 rfl, fun f hf => by rw [List.mem_singleton.1 hf]⟩

theorem mem_entry {due : Option Nat} {d : Device} {e : Nat × Device} : e ∈ entry due d ↔ due = some e.1 ∧ d = e.2 := by
  cases due with
  | none => simp [entry]
  | some n => simp only [entry, List.mem_singleton, Option.some.injEq]; constructor
              · rintro rfl; exact ⟨rfl, rfl⟩
              · rintro ⟨rfl, rfl⟩; rfl

/-- What the queue holds. -/
theorem Io.mem_queue {io : Io} {e : Nat × Device} :
    e ∈ io.queue ↔ io.frameDue = some e.1 ∧ .frame = e.2 ∨ io.lineDue = some e.1 ∧ .line = e.2 ∨
      io.pixelDue = some e.1 ∧ .pixel = e.2 ∨ io.pulseDue = e.1 ∧ .pulse = e.2 := by
  have h : e ∈ [(io.pulseDue, Device.pulse)] ↔ io.pulseDue = e.1 ∧ .pulse = e.2 := by
    rw [List.mem_singleton]; constructor
    · rintro rfl; exact ⟨rfl, rfl⟩
    · rintro ⟨h1, h2⟩; exact Prod.ext h1.symm h2.symm
  simp only [Io.queue, List.mem_append, mem_entry, h, or_assoc]

/-- A beat is the earliest device action, due now and not behind the master, or a tick before all of them and the master. -/
theorem Io.beat_cases {m : Byte} {ram : List Host.Cell} {inputs : Inputs} {io io' : Io}
    (h : io.beat m ram inputs = some io') :
    (∃ due d, (due, d) ∈ io.queue ∧ (∀ f ∈ io.queue, due ≤ f.1) ∧ due ≤ io.tick ∧ due ≤ io.masterDue ∧
      io' = io.run m ram inputs d) ∨
    (io.tick < io.masterDue ∧ (∀ f ∈ io.queue, io.tick < f.1) ∧ io' = io.elapse 1) := by
  unfold Io.beat at h
  split at h
  · rename_i due d he
    have hs := earliest_spec he
    split at h
    · rename_i hd
      cases h
      exact .inl ⟨due, d, hs.1, hs.2, hd.1, hd.2, rfl⟩
    · rename_i hd
      split at h
      · rename_i ht
        cases h
        refine .inr ⟨ht, fun f hf => ?_, rfl⟩
        have := hs.2 f hf
        simp only at this
        omega
      · cases h
  · cases h

/-- When no beat is left, the master is next: it is due, and every device action comes after it. -/
theorem Io.beat_none {m : Byte} {ram : List Host.Cell} {inputs : Inputs} {io : Io} (h : io.beat m ram inputs = none) :
    io.masterDue ≤ io.tick ∧ ∀ f ∈ io.queue, io.masterDue < f.1 := by
  unfold Io.beat at h
  split at h
  · rename_i due d he
    have hs := earliest_spec he
    split at h
    · cases h
    · rename_i hd
      split at h
      · cases h
      · rename_i ht
        refine ⟨by omega, fun f hf => ?_⟩
        have := hs.2 f hf
        simp only at this
        omega
  · rename_i hn
    exfalso
    have : io.queue ≠ [] := by simp [Io.queue]
    cases hq : io.queue with
    | nil => exact this hq
    | cons a r => rw [hq] at hn; unfold earliest at hn; split at hn <;> [split at hn <;> cases hn; cases hn]

theorem Io.beat_timePassed {m : Byte} {ram : List Host.Cell} {inputs : Inputs} {io io' : Io}
    (h : io.beat m ram inputs = some io') : io.TimePassed io' := by
  rcases Io.beat_cases h with ⟨_, d, _, _, _, _, rfl⟩ | ⟨_, _, rfl⟩
  · exact io.run_timePassed m ram inputs d
  · exact io.elapse_timePassed 1

theorem Io.settle_timePassed (m : Byte) (ram : List Host.Cell) (inputs : Inputs) (n : Nat) (io : Io) :
    io.TimePassed (io.settle m ram inputs n) := by
  induction n generalizing io with
  | zero => exact .refl _
  | succ n ih =>
    unfold Io.settle
    split
    · rename_i io' h
      exact (Io.beat_timePassed h).trans (ih io')
    · exact .refl _

theorem Io.readEffect_timePassed (o : Nat) (io : Io) : io.TimePassed (io.readEffect o) :=
  { Io.TimePassed.refl io with serialCtl := by unfold Io.readEffect; simp only; split <;> rfl }

/-! ### The invariant of time -/

/-- The part of `Io.Ok` that does not speak of the queue. -/
structure Io.OkClock (io : Io) : Prop where
  timers : ∀ k : Fin 8, io.timers[k].Ok io.tick
  channels : ∀ k : Fin 4, io.channels[k].timer.Ok io.tick
  video : io.video.Ok
  pixel : io.pixelDue ≠ none → io.video.line < 102

theorem Io.Ok.clock {io : Io} (h : io.Ok) : io.OkClock := ⟨h.timers, h.channels, h.video, h.pixel⟩

theorem Io.chargeOf_le (io : Io) (m : Byte) (r : Bool) (a : Word) : io.chargeOf m r a ≤ 5 := by
  unfold Io.chargeOf; split <;> decide

theorem Video.endPeriod_ok {v : Video} (h : v.Ok) : v.endPeriod.Ok where
  line := Nat.zero_le _
  fetched := Nat.zero_lt_succ 79
  lineBuf := rfl
  frame := rfl
  sink := h.sink

theorem Video.startLine_ok {v : Video} (d : Word) (h : v.Ok) : (v.startLine d).Ok where
  line := h.line
  fetched := Nat.zero_lt_succ 79
  lineBuf := rfl
  frame := h.frame
  sink := h.sink

theorem Video.take_ok {v : Video} {px : List Argb} (h : v.Ok) (hp : px.length = 2) (hl : v.line < 102) :
    (v.take px).Ok := by
  have hf := h.fetched
  have hb := h.lineBuf
  have hr := h.frame
  rw [if_neg (by omega)] at hr
  unfold Video.take
  by_cases h1 : v.fetched + 1 = Config.lineBytes
  · rw [if_pos h1]
    replace h1 : v.fetched + 1 = 80 := h1
    unfold Video.emitLine
    by_cases h2 : v.line + 1 = Config.frameLines
    · rw [if_pos h2]
      replace h2 : v.line + 1 = 102 := h2
      refine ⟨by simp; omega, by simp, rfl, by simp [h2], ?_⟩
      simp [hp, hb, hr]; omega
    · rw [if_neg h2]
      replace h2 : ¬v.line + 1 = 102 := h2
      refine ⟨by simp; omega, by simp, rfl, ?_, h.sink⟩
      simp [hp, hb, hr, h2]; omega
  · rw [if_neg h1]
    replace h1 : ¬v.fetched + 1 = 80 := h1
    exact ⟨h.line, by simp; omega, by simp [hp, hb]; omega, by simp [hr]; omega, h.sink⟩

theorem Io.elapse_tick (n : Nat) (io : Io) : (io.elapse n).tick = io.tick + n := rfl

theorem Io.elapse_ok {n : Nat} {io : Io} (h : io.OkClock) (hn : n ≤ 16) : (io.elapse n).OkClock where
  timers := fun k => by
    obtain ⟨up, hk⟩ := cascade_timer (io.tick + n) io.timers io.channels k
    show ((cascade (io.tick + n) io.timers io.channels).timers[k]).Ok (io.tick + n)
    rw [hk]; exact Timer.upTo_ok _ (h.timers k) (by omega)
  channels := fun k => by
    obtain ⟨up, hk⟩ := cascade_channel (io.tick + n) io.timers io.channels k
    show ((cascade (io.tick + n) io.timers io.channels).channels[k]).timer.Ok (io.tick + n)
    rw [hk, Channel.upTo_timer]; exact Timer.upTo_ok _ (h.channels k) (by omega)
  video := h.video
  pixel := h.pixel

theorem Io.access_ok {io : Io} (m : Byte) (r : Bool) (a : Word) (h : io.OkClock) : (io.access m r a).OkClock := by
  have := Io.elapse_ok h (n := io.chargeOf m r a) (by have := io.chargeOf_le m r a; omega)
  exact ⟨this.timers, this.channels, this.video, this.pixel⟩

theorem Io.access_tick (m : Byte) (r : Bool) (a : Word) (io : Io) :
    (io.access m r a).tick = io.tick + io.chargeOf m r a := rfl

theorem Io.chargeOf_ge (io : Io) (m : Byte) (r : Bool) (a : Word) : 4 ≤ io.chargeOf m r a := by
  unfold Io.chargeOf; split <;> decide

/-- The video's line stands still while a byte is taken that is not the last. -/
theorem Video.take_line {v : Video} (px : List Argb) (h : ¬v.fetched + 1 = Config.lineBytes) : (v.take px).line = v.line := by
  unfold Video.take; simp only; rw [if_neg h]

theorem Io.lineAction_queue (io : Io) :
    io.lineAction.tick = io.tick ∧ io.lineAction.masterDue = io.masterDue ∧ io.lineAction.pulseDue = io.pulseDue ∧
    io.lineAction.timers = io.timers ∧ io.lineAction.channels = io.channels := by
  unfold Io.lineAction; split <;> exact ⟨rfl, rfl, rfl, rfl, rfl⟩

/-- The end of a frame period leaves the clock, the master and the pulse as they are and no read queued. -/
theorem Io.endFrame_queue (io : Io) :
    io.endFrame.tick = io.tick ∧ io.endFrame.masterDue = io.masterDue ∧ io.endFrame.pulseDue = io.pulseDue ∧
    io.endFrame.timers = io.timers ∧ io.endFrame.channels = io.channels ∧ io.endFrame.frameDue = none ∧
    io.endFrame.pixelDue = none := by
  unfold Io.endFrame
  split
  · obtain ⟨h1, h2, h3, h4, h5⟩ := io.lineAction_queue
    exact ⟨h1, h2, h3, h4, h5, rfl, rfl⟩
  · exact ⟨rfl, rfl, rfl, rfl, rfl, rfl, rfl⟩

theorem Io.endFrame_video {io : Io} (h : io.video.Ok) : io.endFrame.video.Ok := by
  unfold Io.endFrame
  split
  · refine Video.endPeriod_ok (v := io.lineAction.video) ?_
    unfold Io.lineAction
    split
    · exact Video.startLine_ok _ h
    · exact h
  · exact Video.endPeriod_ok h

/-- Where a pixel action's next read is queued: not at all, or not before now. -/
theorem Io.pixelAction_queue (m : Byte) (ram : List Host.Cell) (io : Io) :
    (io.pixelAction m ram).tick = io.tick + io.chargeOf m false io.video.address ∧
    (io.pixelAction m ram).masterDue = io.masterDue ∧ (io.pixelAction m ram).pulseDue = io.pulseDue ∧
    ∀ d, (io.pixelAction m ram).pixelDue = some d → (io.pixelAction m ram).tick ≤ d := by
  unfold Io.pixelAction
  extract_lets t
  split
  · obtain ⟨h1, h2, h3, -, -, -, h4⟩ := t.endFrame_queue
    exact ⟨h1, h2, h3, fun d h => by rw [h4] at h; cases h⟩
  · refine ⟨rfl, rfl, rfl, fun d h => ?_⟩
    show t.tick ≤ d
    replace h : (if t.video.fetched + 1 = Config.lineBytes then none
      else some (t.tick + t.gap (Config.lineBytes - t.video.fetched - 1))) = some d := h
    split at h
    · cases h
    · injection h with h; omega

theorem Io.pixelAction_ok {io : Io} (m : Byte) (ram : List Host.Cell) (h : io.OkClock) (hp : io.pixelDue ≠ none) :
    (io.pixelAction m ram).OkClock := by
  have h1 := Io.access_ok m false io.video.address h
  have hl := h.pixel hp
  unfold Io.pixelAction
  extract_lets t
  split
  · obtain ⟨hn, -, -, ht, hc, -, hp⟩ := t.endFrame_queue
    refine ⟨?_, ?_, Io.endFrame_video h1.video, fun e => absurd hp e⟩
    · rw [hn, ht]; exact h1.timers
    · rw [hn, hc]; exact h1.channels
  · refine ⟨h1.timers, h1.channels, Video.take_ok h1.video rfl hl, ?_⟩
    show (if _ then none else _ : Option Nat) ≠ none → (t.video.take _).line < 102
    split
    · intro e; exact absurd rfl e
    · rename_i hf
      intro _
      rw [Video.take_line _ hf]; exact hl

theorem Io.run_ok {io : Io} (m : Byte) (ram : List Host.Cell) (inputs : Inputs) {due : Nat} {d : Device} (h : io.Ok)
    (hq : (due, d) ∈ io.queue) (hm : ∀ f ∈ io.queue, due ≤ f.1) (ht : due ≤ io.tick) (hd : due ≤ io.masterDue) :
    (io.run m ram inputs d).Ok := by
  have hpulse : due ≤ io.pulseDue := hm (io.pulseDue, .pulse) (Io.mem_queue.2 (.inr (.inr (.inr ⟨rfl, rfl⟩))))
  have h1 := h.pulse
  have h2 := h.late
  cases d with
  | frame =>
    exact ⟨h.timers, h.channels, Video.endPeriod_ok h.video, fun e => absurd rfl e, h1, fun _ d e => (by cases e), h2,
      fun _ d e => (by cases e)⟩
  | line =>
    show io.lineAction.Ok
    unfold Io.lineAction
    split
    · rename_i hl
      refine ⟨h.timers, h.channels, Video.startLine_ok _ h.video, fun _ => hl, h1, fun hp d e => ?_, h2, fun _ d e => ?_⟩
      · injection e with e
        replace hp : io.pulseDue + 10 ≤ io.tick := hp
        show io.pulseDue < d
        omega
      · injection e with e
        show io.tick ≤ d
        omega
    · exact ⟨h.timers, h.channels, h.video, h.pixel, h1, h.lag, h2, h.once⟩
  | pixel =>
    show (io.pixelAction m ram).Ok
    have hp : io.pixelDue = some due := by
      rcases Io.mem_queue.1 hq with ⟨_, e⟩ | ⟨_, e⟩ | ⟨e, _⟩ | ⟨_, e⟩ <;> first | cases e | exact e
    have hc := Io.pixelAction_ok m ram h.clock (by rw [hp]; intro e; cases e)
    obtain ⟨q1, q2, q3, q4⟩ := Io.pixelAction_queue m ram io
    have hle := io.chargeOf_le m false io.video.address
    have hge := io.chargeOf_ge m false io.video.address
    have a1 : io.tick ≤ io.masterDue := by
      by_contra hn
      have := h.once (by omega) due hp
      omega
    have a2 : io.tick < io.pulseDue + 10 := by
      by_contra hn
      have := h.lag (by omega) due hp
      omega
    refine ⟨hc.timers, hc.channels, hc.video, hc.pixel, by omega, fun hl d e => ?_, by omega, fun _ d e => q4 d e⟩
    have := q4 d e
    omega
  | pulse =>
    refine ⟨h.timers, h.channels, h.video, h.pixel, ?_, fun hl d e => ?_, h2, h.once⟩
    · show io.tick < io.pulseDue + 16 + 15
      omega
    · replace hl : io.pulseDue + 16 + 10 ≤ io.tick := hl
      omega

theorem Io.beat_ok {m : Byte} {ram : List Host.Cell} {inputs : Inputs} {io io' : Io} (h : io.Ok)
    (hb : io.beat m ram inputs = some io') : io'.Ok := by
  rcases Io.beat_cases hb with ⟨due, d, hq, hm, ht, hd, rfl⟩ | ⟨ht, hq, rfl⟩
  · exact Io.run_ok m ram inputs h hq hm ht hd
  · have hc := Io.elapse_ok h.clock (n := 1) (by omega)
    have hp : io.tick < io.pulseDue := hq (io.pulseDue, .pulse) (Io.mem_queue.2 (.inr (.inr (.inr ⟨rfl, rfl⟩))))
    refine ⟨hc.timers, hc.channels, hc.video, hc.pixel, ?_, fun hl d e => ?_, ?_, fun hl d e => ?_⟩
    · show io.tick + 1 < io.pulseDue + 15; omega
    · replace hl : io.pulseDue + 10 ≤ io.tick + 1 := hl; omega
    · show io.tick + 1 ≤ io.masterDue + 5; omega
    · replace hl : io.masterDue < io.tick + 1 := hl; omega

theorem Io.settle_ok {m : Byte} {ram : List Host.Cell} {inputs : Inputs} (n : Nat) {io : Io} (h : io.Ok) :
    (io.settle m ram inputs n).Ok := by
  induction n generalizing io with
  | zero => exact h
  | succ n ih =>
    unfold Io.settle
    split
    · rename_i io' hb
      exact ih (Io.beat_ok h hb)
    · exact h

/-! ### The master's turn comes -/

/-- How many beats can still come: six for each tick to go, and one for each action that is queued as due. -/
def Io.weight (io : Io) : Nat :=
  6 * (io.masterDue + 6 - io.tick) + io.frameDue.toList.length + io.lineDue.toList.length +
    if io.pulseDue ≤ io.tick then 1 else 0

theorem Option.length_toList_le {α : Type} (o : Option α) : o.toList.length ≤ 1 := by cases o <;> simp

theorem Io.weight_beat {m : Byte} {ram : List Host.Cell} {inputs : Inputs} {io io' : Io} (h : io.Ok)
    (hb : io.beat m ram inputs = some io') : io'.weight < io.weight := by
  have h' := Io.beat_ok h hb
  have l1 := h.late
  have l2 := h'.late
  have f1 := Option.length_toList_le io'.frameDue
  have f2 := Option.length_toList_le io'.lineDue
  unfold Io.weight
  rcases Io.beat_cases hb with ⟨due, d, hq, hm, ht, hd, rfl⟩ | ⟨ht, hq, rfl⟩
  · cases d with
    | frame =>
      have e : io.frameDue = some due := by
        rcases Io.mem_queue.1 hq with ⟨e, _⟩ | ⟨_, e⟩ | ⟨_, e⟩ | ⟨_, e⟩ <;> first | cases e | exact e
      show 6 * (io.masterDue + 6 - io.tick) + 0 + io.lineDue.toList.length + (if io.pulseDue ≤ io.tick then 1 else 0) < _
      rw [e]; simp only [Option.toList_some, List.length_singleton]; omega
    | line =>
      have e : io.lineDue = some due := by
        rcases Io.mem_queue.1 hq with ⟨_, e⟩ | ⟨e, _⟩ | ⟨_, e⟩ | ⟨_, e⟩ <;> first | cases e | exact e
      have hk : (io.run m ram inputs .line).lineDue = none ∧ (io.run m ram inputs .line).frameDue = io.frameDue ∧
          (io.run m ram inputs .line).tick = io.tick ∧ (io.run m ram inputs .line).masterDue = io.masterDue ∧
          (io.run m ram inputs .line).pulseDue = io.pulseDue := by
        show io.lineAction.lineDue = none ∧ io.lineAction.frameDue = io.frameDue ∧ io.lineAction.tick = io.tick ∧
          io.lineAction.masterDue = io.masterDue ∧ io.lineAction.pulseDue = io.pulseDue
        unfold Io.lineAction
        split <;> exact ⟨rfl, rfl, rfl, rfl, rfl⟩
      rw [hk.1, hk.2.1, hk.2.2.1, hk.2.2.2.1, hk.2.2.2.2, e]
      simp only [Option.toList_none, List.length_nil, Option.toList_some, List.length_singleton]
      omega
    | pixel =>
      obtain ⟨q1, q2, q3, _⟩ := Io.pixelAction_queue m ram io
      have hge := io.chargeOf_ge m false io.video.address
      replace f1 : (io.pixelAction m ram).frameDue.toList.length ≤ 1 := f1
      replace f2 : (io.pixelAction m ram).lineDue.toList.length ≤ 1 := f2
      replace l2 : (io.pixelAction m ram).tick ≤ (io.pixelAction m ram).masterDue + 5 := l2
      show 6 * ((io.pixelAction m ram).masterDue + 6 - (io.pixelAction m ram).tick) +
        (io.pixelAction m ram).frameDue.toList.length + (io.pixelAction m ram).lineDue.toList.length +
        (if (io.pixelAction m ram).pulseDue ≤ (io.pixelAction m ram).tick then 1 else 0) < _
      rw [q2] at l2 ⊢
      have : (if (io.pixelAction m ram).pulseDue ≤ (io.pixelAction m ram).tick then 1 else 0) ≤ 1 := by split <;> omega
      omega
    | pulse =>
      have hp := h.pulse
      have e : io.pulseDue = due := by
        rcases Io.mem_queue.1 hq with ⟨_, e⟩ | ⟨_, e⟩ | ⟨_, e⟩ | ⟨e, _⟩ <;> first | exact e | cases e
      show 6 * (io.masterDue + 6 - io.tick) + io.frameDue.toList.length + io.lineDue.toList.length +
        (if io.pulseDue + 16 ≤ io.tick then 1 else 0) < _
      rw [if_neg (by omega), if_pos (by omega)]
      omega
  · replace f1 : (io.elapse 1).frameDue.toList.length ≤ 1 := f1
    replace f2 : (io.elapse 1).lineDue.toList.length ≤ 1 := f2
    show 6 * (io.masterDue + 6 - (io.tick + 1)) + (io.elapse 1).frameDue.toList.length +
      (io.elapse 1).lineDue.toList.length + (if io.pulseDue ≤ io.tick + 1 then 1 else 0) < _
    have : (if io.pulseDue ≤ io.tick + 1 then 1 else 0) ≤ 1 := by split <;> omega
    omega

theorem Io.settle_done_of {m : Byte} {ram : List Host.Cell} {inputs : Inputs} (n : Nat) {io : Io} (h : io.Ok)
    (hw : io.weight ≤ n) : (io.settle m ram inputs n).beat m ram inputs = none := by
  induction n generalizing io with
  | zero =>
    exfalso
    have := h.late
    unfold Io.weight at hw
    omega
  | succ n ih =>
    unfold Io.settle
    split
    · rename_i io' hb
      have := Io.weight_beat h hb
      exact ih (Io.beat_ok h hb) (by omega)
    · assumption

/-- The scheduler comes to the master's turn. -/
theorem Io.settle_done (m : Byte) (ram : List Host.Cell) (inputs : Inputs) {io : Io} (h : io.Ok) :
    (io.settle m ram inputs io.beats).beat m ram inputs = none := by
  refine Io.settle_done_of _ h ?_
  have h1 := Option.length_toList_le io.frameDue
  have h2 := Option.length_toList_le io.lineDue
  have h3 : (if io.pulseDue ≤ io.tick then 1 else 0) ≤ 1 := by split <;> omega
  unfold Io.weight Io.beats
  omega

/-- When no beat is left, the scheduler does nothing before the master's turn. -/
theorem Io.settle_id {m : Byte} {ram : List Host.Cell} {inputs : Inputs} {io : Io} (n : Nat)
    (h : io.beat m ram inputs = none) : io.settle m ram inputs n = io := by
  cases n with
  | zero => rfl
  | succ n => unfold Io.settle; rw [h]

/-- An access by the master, when it is its turn. -/
theorem Io.masterAccess_ok {io : Io} (m : Byte) (ram : List Host.Cell) (inputs : Inputs) (r : Bool) (a : Word) (h : io.Ok)
    (hb : io.beat m ram inputs = none) : (io.masterAccess m r a).Ok := by
  have hc := Io.access_ok m r a h.clock
  have hn := Io.beat_none hb
  have hp : io.masterDue < io.pulseDue := hn.2 (io.pulseDue, .pulse) (Io.mem_queue.2 (.inr (.inr (.inr ⟨rfl, rfl⟩))))
  have hl := h.late
  have hle := io.chargeOf_le m r a
  have ht : (io.masterAccess m r a).tick = io.tick + io.chargeOf m r a := rfl
  have hm : (io.masterAccess m r a).masterDue = (io.masterAccess m r a).tick := rfl
  have hpd : (io.masterAccess m r a).pulseDue = io.pulseDue := rfl
  refine ⟨hc.timers, hc.channels, hc.video, hc.pixel, ?_, fun hl d e => ?_, ?_, fun hl d e => ?_⟩
  · omega
  · omega
  · omega
  · omega

end Sys2Proof.Machine
end

