-- ==== Sys2Proof/Laws/Memory.lean ====
section
/-! SUPPORT. The laws of RAM: a write changes its own byte and no other, and keeps the canonical form. -/

namespace Sys2Proof.Machine

theorem Ram.read_write_ne (m : List Host.Cell) {a b : Nat} (v : Byte) (h : b ≠ a) :
    Ram.read (Ram.write m a v) b = Ram.read m b := by
  induction m with
  | nil => unfold Ram.write; split <;> simp [Ram.read, Ne.symm h]
  | cons p rest ih =>
    obtain ⟨k, c⟩ := p
    unfold Ram.write
    by_cases h1 : a < k
    · by_cases h2 : v = ramDefault <;> simp [h1, h2, Ram.read, Ne.symm h]
    · by_cases h3 : a = k
      · subst h3; by_cases h2 : v = ramDefault <;> simp [h2, Ram.read, Ne.symm h]
      · simp [h1, h3, Ram.read, ih]

theorem Ram.read_below {m : List Host.Cell} {low a : Nat} (hm : Ram.wfFrom low m = true) (h : a < low) :
    Ram.read m a = ramDefault := by
  induction m generalizing low with
  | nil => rfl
  | cons p rest ih =>
    obtain ⟨k, c⟩ := p
    simp only [Ram.wfFrom, Bool.and_eq_true, decide_eq_true_eq] at hm
    have hk : k ≠ a := by omega
    simp only [Ram.read, hk, if_false]
    exact ih hm.2 (by omega)

theorem Ram.read_write_same_from {m : List Host.Cell} {low a : Nat} (hm : Ram.wfFrom low m = true) (v : Byte) :
    Ram.read (Ram.write m a v) a = v := by
  induction m generalizing low with
  | nil => unfold Ram.write; split <;> simp_all [Ram.read]
  | cons p rest ih =>
    obtain ⟨k, c⟩ := p
    simp only [Ram.wfFrom, Bool.and_eq_true, decide_eq_true_eq] at hm
    unfold Ram.write
    by_cases h1 : a < k
    · have hk : k ≠ a := by omega
      by_cases h2 : v = ramDefault
      · simp only [h1, h2, if_true, Ram.read, hk, if_false]
        exact Ram.read_below hm.2 (by omega)
      · simp [h1, h2, Ram.read]
    · by_cases h3 : a = k
      · subst h3
        by_cases h2 : v = ramDefault
        · simp only [Nat.lt_irrefl, h2, if_true, if_false]
          exact Ram.read_below hm.2 (by omega)
        · simp [h2, Ram.read]
      · simp only [h1, h3, if_false, Ram.read, Ne.symm h3]
        exact ih hm.2

theorem Ram.read_write_same {m : List Host.Cell} (hm : Ram.wf m = true) (a : Nat) (v : Byte) :
    Ram.read (Ram.write m a v) a = v := Ram.read_write_same_from hm v

theorem Ram.write_wfFrom {m : List Host.Cell} {low a : Nat} (hm : Ram.wfFrom low m = true) (hl : low ≤ a)
    (ha : a < Config.ramSize) (v : Byte) : Ram.wfFrom low (Ram.write m a v) = true := by
  induction m generalizing low with
  | nil => unfold Ram.write; split <;> simp_all [Ram.wfFrom]
  | cons p rest ih =>
    obtain ⟨k, c⟩ := p
    have hm' := hm
    simp only [Ram.wfFrom, Bool.and_eq_true, decide_eq_true_eq] at hm
    obtain ⟨⟨⟨h0, h1⟩, h2⟩, h3⟩ := hm
    unfold Ram.write
    by_cases h4 : a < k
    · by_cases h5 : v = ramDefault
      · simpa [h4, h5] using hm'
      · simp [h4, h5, Ram.wfFrom, hl, ha, h1, h3, bne_iff_ne.mp h2, Nat.succ_le_of_lt h4]
    · by_cases h6 : a = k
      · subst h6
        by_cases h5 : v = ramDefault
        · simp only [Nat.lt_irrefl, h5, if_true, if_false]
          clear ih hm'
          revert h3
          cases rest with
          | nil => simp [Ram.wfFrom]
          | cons q r =>
            simp only [Ram.wfFrom, Bool.and_eq_true, decide_eq_true_eq]
            rintro ⟨⟨⟨g0, g1⟩, g2⟩, g3⟩
            exact ⟨⟨⟨by omega, g1⟩, g2⟩, g3⟩
        · simp [h5, Ram.wfFrom, hl, ha, h3]
      · have h7 : k + 1 ≤ a := by omega
        simp [h4, h6, Ram.wfFrom, h0, h1, bne_iff_ne.mp h2, ih h3 h7]

/-- Every store to RAM keeps the canonical form. -/
theorem Ram.write_wf {m : List Host.Cell} (hm : Ram.wf m = true) (a : Word) (v : Byte) :
    Ram.wf (Ram.write m a.toNat v) = true := Ram.write_wfFrom hm (Nat.zero_le _) a.isLt v

@[simp] theorem State.ramAt_setRam_same {s : State} (h : Ram.wf s.ram = true) (a : Word) (v : Byte) :
    (s.setRam a v).ramAt a = v := Ram.read_write_same h _ _

theorem State.ramAt_setRam_ne (s : State) {a b : Word} (v : Byte) (h : b ≠ a) : (s.setRam a v).ramAt b = s.ramAt b :=
  Ram.read_write_ne _ _ (fun e => h (BitVec.eq_of_toNat_eq e))

/-- Loading an image keeps the canonical form. -/
theorem Ram.load_wf {m : List Host.Cell} (h : Ram.wf m = true) (a : Word) (bytes : List Byte) :
    Ram.wf (Ram.load m a bytes) = true := by
  induction bytes generalizing m a with
  | nil => exact h
  | cons b rest ih => exact ih (Ram.write_wf h a b) _

end Sys2Proof.Machine
end

