-- ==== Sys2Proof/Laws/State.lean ====
section
/-! SUPPORT. One lemma per component of State per update: what each update leaves and what it writes. -/

namespace Sys2Proof.Machine

/-! ### The registers -/

variable (k : Cpu)

@[simp] theorem Cpu.setNZ_eq (v : Byte) : k.setNZ v = { k with n := bit v 7, z := v == 0 } := rfl
@[simp] theorem Cpu.loadA_eq (v : Byte) : k.loadA v = { k with a := v, n := bit v 7, z := v == 0 } := rfl
@[simp] theorem Cpu.loadX_eq (v : Byte) : k.loadX v = { k with x := v, n := bit v 7, z := v == 0 } := rfl
@[simp] theorem Cpu.loadY_eq (v : Byte) : k.loadY v = { k with y := v, n := bit v 7, z := v == 0 } := rfl
@[simp] theorem Cpu.setP_eq (v : Byte) :
    k.setP v =
      { k with n := bit v 7, v := bit v 6, d := bit v 3, i := bit v 2, z := bit v 1, c := bit v 0 } := rfl
@[simp] theorem Cpu.setAlu_eq (r : AluResult) : k.setAlu r = { k with a := r.r, n := r.n, v := r.v, z := r.z, c := r.c } := rfl
@[simp] theorem Cpu.compare_eq (r m : Byte) :
    k.compare r m = { k with n := bit (r - m) 7, z := r == m, c := decide (m.toNat ≤ r.toNat) } := rfl
@[simp] theorem Cpu.rmwFlags_eq (f : RmwOp) (v : Byte) :
    k.rmwFlags f v =
      { k with n := bit (f.value v k.c) 7, z := f.value v k.c == 0, c := f.carryOut v k.c } := rfl
@[simp] theorem testBits_eq (m : Byte) : testBits m k = { k with z := k.a &&& m == 0 } := rfl

/-! ### The components of the state -/

variable (s : State)

@[simp] theorem State.withCpu_cpu (k : Cpu) : (s.withCpu k).cpu = k := rfl
@[simp] theorem State.withCpu_pipe (k : Cpu) : (s.withCpu k).pipe = s.pipe := rfl
@[simp] theorem State.withCpu_ram (k : Cpu) : (s.withCpu k).ram = s.ram := rfl
@[simp] theorem State.withCpu_mapctl (k : Cpu) : (s.withCpu k).mapctl = s.mapctl := rfl
@[simp] theorem State.withCpu_rom (k : Cpu) : (s.withCpu k).rom = s.rom := rfl
@[simp] theorem State.withCpu_io (k : Cpu) : (s.withCpu k).io = s.io := rfl
@[simp] theorem State.withCpu_cart (k : Cpu) : (s.withCpu k).cart = s.cart := rfl
@[simp] theorem State.withCpu_suzy (k : Cpu) : (s.withCpu k).suzy = s.suzy := rfl
@[simp] theorem State.withCpu_inputs (k : Cpu) : (s.withCpu k).inputs = s.inputs := rfl

@[simp] theorem State.suspend_cpu (w : Work) (k : Cpu) (l : List Byte) : (s.suspend w k l).cpu = s.cpu := rfl
@[simp] theorem State.suspend_pipe (w : Work) (k : Cpu) (l : List Byte) : (s.suspend w k l).pipe = .work w k l := rfl
@[simp] theorem State.suspend_ram (w : Work) (k : Cpu) (l : List Byte) : (s.suspend w k l).ram = s.ram := rfl
@[simp] theorem State.suspend_mapctl (w : Work) (k : Cpu) (l : List Byte) : (s.suspend w k l).mapctl = s.mapctl := rfl
@[simp] theorem State.suspend_rom (w : Work) (k : Cpu) (l : List Byte) : (s.suspend w k l).rom = s.rom := rfl
@[simp] theorem State.suspend_io (w : Work) (k : Cpu) (l : List Byte) : (s.suspend w k l).io = s.io := rfl
@[simp] theorem State.suspend_cart (w : Work) (k : Cpu) (l : List Byte) : (s.suspend w k l).cart = s.cart := rfl
@[simp] theorem State.suspend_suzy (w : Work) (k : Cpu) (l : List Byte) : (s.suspend w k l).suzy = s.suzy := rfl
@[simp] theorem State.suspend_inputs (w : Work) (k : Cpu) (l : List Byte) : (s.suspend w k l).inputs = s.inputs := rfl

@[simp] theorem State.afterPoll_cpu : (s.afterPoll).cpu =
      { s.cpu with nmiPrev := s.inputs.nmiLine, nmiLatch := false, irqLatch := s.nmiDue && s.irqDue } :=
  rfl
@[simp] theorem State.afterPoll_pipe : (s.afterPoll).pipe = s.pipe := rfl
@[simp] theorem State.afterPoll_ram : (s.afterPoll).ram = s.ram := rfl
@[simp] theorem State.afterPoll_mapctl : (s.afterPoll).mapctl = s.mapctl := rfl
@[simp] theorem State.afterPoll_rom : (s.afterPoll).rom = s.rom := rfl
@[simp] theorem State.afterPoll_io : (s.afterPoll).io = s.io := rfl
@[simp] theorem State.afterPoll_cart : (s.afterPoll).cart = s.cart := rfl
@[simp] theorem State.afterPoll_suzy : (s.afterPoll).suzy = s.suzy := rfl
@[simp] theorem State.afterPoll_inputs : (s.afterPoll).inputs = s.inputs := rfl

@[simp] theorem State.wake_cpu : (s.wake).cpu = { s.cpu with waiting := false } := rfl
@[simp] theorem State.wake_pipe : (s.wake).pipe = s.pipe := rfl
@[simp] theorem State.wake_ram : (s.wake).ram = s.ram := rfl
@[simp] theorem State.wake_mapctl : (s.wake).mapctl = s.mapctl := rfl
@[simp] theorem State.wake_rom : (s.wake).rom = s.rom := rfl
@[simp] theorem State.wake_io : (s.wake).io = s.io := rfl
@[simp] theorem State.wake_cart : (s.wake).cart = s.cart := rfl
@[simp] theorem State.wake_suzy : (s.wake).suzy = s.suzy := rfl
@[simp] theorem State.wake_inputs : (s.wake).inputs = s.inputs := rfl

@[simp] theorem State.setRam_cpu (a : Word) (v : Byte) : (s.setRam a v).cpu = s.cpu := rfl
@[simp] theorem State.setRam_pipe (a : Word) (v : Byte) : (s.setRam a v).pipe = s.pipe := rfl
@[simp] theorem State.setRam_ram (a : Word) (v : Byte) : (s.setRam a v).ram = Ram.write s.ram a.toNat v := rfl
@[simp] theorem State.setRam_mapctl (a : Word) (v : Byte) : (s.setRam a v).mapctl = s.mapctl := rfl
@[simp] theorem State.setRam_rom (a : Word) (v : Byte) : (s.setRam a v).rom = s.rom := rfl
@[simp] theorem State.setRam_io (a : Word) (v : Byte) : (s.setRam a v).io = s.io := rfl
@[simp] theorem State.setRam_cart (a : Word) (v : Byte) : (s.setRam a v).cart = s.cart := rfl
@[simp] theorem State.setRam_suzy (a : Word) (v : Byte) : (s.setRam a v).suzy = s.suzy := rfl
@[simp] theorem State.setRam_inputs (a : Word) (v : Byte) : (s.setRam a v).inputs = s.inputs := rfl

@[simp] theorem State.onSuzy_cpu (f : Suzy → Suzy) : (s.onSuzy f).cpu = s.cpu := rfl
@[simp] theorem State.onSuzy_pipe (f : Suzy → Suzy) : (s.onSuzy f).pipe = s.pipe := rfl
@[simp] theorem State.onSuzy_ram (f : Suzy → Suzy) : (s.onSuzy f).ram = s.ram := rfl
@[simp] theorem State.onSuzy_mapctl (f : Suzy → Suzy) : (s.onSuzy f).mapctl = s.mapctl := rfl
@[simp] theorem State.onSuzy_rom (f : Suzy → Suzy) : (s.onSuzy f).rom = s.rom := rfl
@[simp] theorem State.onSuzy_io (f : Suzy → Suzy) : (s.onSuzy f).io = s.io := rfl
@[simp] theorem State.onSuzy_cart (f : Suzy → Suzy) : (s.onSuzy f).cart = s.cart := rfl
@[simp] theorem State.onSuzy_suzy (f : Suzy → Suzy) : (s.onSuzy f).suzy = f s.suzy := rfl
@[simp] theorem State.onSuzy_inputs (f : Suzy → Suzy) : (s.onSuzy f).inputs = s.inputs := rfl

@[simp] theorem State.settle_cpu : (s.settle).cpu = s.cpu := rfl
@[simp] theorem State.settle_pipe : (s.settle).pipe = s.pipe := rfl
@[simp] theorem State.settle_ram : (s.settle).ram = s.ram := rfl
@[simp] theorem State.settle_mapctl : (s.settle).mapctl = s.mapctl := rfl
@[simp] theorem State.settle_rom : (s.settle).rom = s.rom := rfl
@[simp] theorem State.settle_io : (s.settle).io = s.io.settle s.mapctl s.ram s.inputs s.io.beats := rfl
@[simp] theorem State.settle_cart : (s.settle).cart = s.cart := rfl
@[simp] theorem State.settle_suzy : (s.settle).suzy = s.suzy := rfl
@[simp] theorem State.settle_inputs : (s.settle).inputs = s.inputs := rfl

@[simp] theorem State.delay_cpu (n : Nat) : (s.delay n).cpu = s.cpu := rfl
@[simp] theorem State.delay_pipe (n : Nat) : (s.delay n).pipe = s.pipe := rfl
@[simp] theorem State.delay_ram (n : Nat) : (s.delay n).ram = s.ram := rfl
@[simp] theorem State.delay_mapctl (n : Nat) : (s.delay n).mapctl = s.mapctl := rfl
@[simp] theorem State.delay_rom (n : Nat) : (s.delay n).rom = s.rom := rfl
@[simp] theorem State.delay_io (n : Nat) : (s.delay n).io =
      { s.io with masterDue := s.io.masterDue + Config.ticksIdle * n } :=
  rfl
@[simp] theorem State.delay_cart (n : Nat) : (s.delay n).cart = s.cart := rfl
@[simp] theorem State.delay_suzy (n : Nat) : (s.delay n).suzy = s.suzy := rfl
@[simp] theorem State.delay_inputs (n : Nat) : (s.delay n).inputs = s.inputs := rfl

@[simp] theorem State.postpone_cpu : (s.postpone).cpu = s.cpu := rfl
@[simp] theorem State.postpone_pipe : (s.postpone).pipe = s.pipe := rfl
@[simp] theorem State.postpone_ram : (s.postpone).ram = s.ram := rfl
@[simp] theorem State.postpone_mapctl : (s.postpone).mapctl = s.mapctl := rfl
@[simp] theorem State.postpone_rom : (s.postpone).rom = s.rom := rfl
@[simp] theorem State.postpone_io : (s.postpone).io = { s.io with masterDue := s.io.tick + Config.ticksIdle } := rfl
@[simp] theorem State.postpone_cart : (s.postpone).cart = s.cart := rfl
@[simp] theorem State.postpone_suzy : (s.postpone).suzy = s.suzy := rfl
@[simp] theorem State.postpone_inputs : (s.postpone).inputs = s.inputs := rfl

@[simp] theorem State.ended_cpu (f : Finish) : (s.ended f).cpu = f.cpu := rfl
@[simp] theorem State.ended_pipe (f : Finish) : (s.ended f).pipe = .atFetch := rfl
@[simp] theorem State.ended_ram (f : Finish) : (s.ended f).ram = s.ram := rfl
@[simp] theorem State.ended_mapctl (f : Finish) : (s.ended f).mapctl = s.mapctl := rfl
@[simp] theorem State.ended_rom (f : Finish) : (s.ended f).rom = s.rom := rfl
@[simp] theorem State.ended_io (f : Finish) : (s.ended f).io =
      { s.io with masterDue := s.io.masterDue + Config.ticksIdle * f.idle } :=
  rfl
@[simp] theorem State.ended_cart (f : Finish) : (s.ended f).cart = s.cart := rfl
@[simp] theorem State.ended_suzy (f : Finish) : (s.ended f).suzy = s.suzy := rfl
@[simp] theorem State.ended_inputs (f : Finish) : (s.ended f).inputs = s.inputs := rfl

@[simp] theorem State.charge_cpu (a : Word) : (s.charge a).cpu = s.cpu := rfl
@[simp] theorem State.charge_pipe (a : Word) : (s.charge a).pipe = s.pipe := rfl
@[simp] theorem State.charge_ram (a : Word) : (s.charge a).ram = s.ram := rfl
@[simp] theorem State.charge_mapctl (a : Word) : (s.charge a).mapctl = s.mapctl := rfl
@[simp] theorem State.charge_rom (a : Word) : (s.charge a).rom = s.rom := rfl
@[simp] theorem State.charge_io (a : Word) : (s.charge a).io = s.io.masterAccess s.mapctl (s.backingOf a).isReg a := rfl
@[simp] theorem State.charge_cart (a : Word) : (s.charge a).cart = s.cart := rfl
@[simp] theorem State.charge_suzy (a : Word) : (s.charge a).suzy = s.suzy := rfl
@[simp] theorem State.charge_inputs (a : Word) : (s.charge a).inputs = s.inputs := rfl

@[simp] theorem State.suzyCharge_cpu (a : Word) : (s.suzyCharge a).cpu = s.cpu := rfl
@[simp] theorem State.suzyCharge_pipe (a : Word) : (s.suzyCharge a).pipe = s.pipe := rfl
@[simp] theorem State.suzyCharge_ram (a : Word) : (s.suzyCharge a).ram = s.ram := rfl
@[simp] theorem State.suzyCharge_mapctl (a : Word) : (s.suzyCharge a).mapctl = s.mapctl := rfl
@[simp] theorem State.suzyCharge_rom (a : Word) : (s.suzyCharge a).rom = s.rom := rfl
@[simp] theorem State.suzyCharge_io (a : Word) : (s.suzyCharge a).io = s.io.masterAccess s.mapctl false a := rfl
@[simp] theorem State.suzyCharge_cart (a : Word) : (s.suzyCharge a).cart = s.cart := rfl
@[simp] theorem State.suzyCharge_suzy (a : Word) : (s.suzyCharge a).suzy = s.suzy := rfl
@[simp] theorem State.suzyCharge_inputs (a : Word) : (s.suzyCharge a).inputs = s.inputs := rfl

@[simp] theorem State.withCpu_self : s.withCpu s.cpu = s := rfl
@[simp] theorem State.withCpu_withCpu (k l : Cpu) : (s.withCpu k).withCpu l = s.withCpu l := rfl
@[simp] theorem State.backingOf_withCpu (k : Cpu) (a : Word) : (s.withCpu k).backingOf a = s.backingOf a := rfl
@[simp] theorem State.startsSuzy_withCpu (k : Cpu) (a : Word) (v : Byte) : (s.withCpu k).startsSuzy a v = s.startsSuzy a v :=
  rfl

end Sys2Proof.Machine
end

