-- ==== Sys2Proof/Laws/Bus.lean ====
section
/-! SUPPORT. What each bus operation can do, said once: what it leaves of the CPU, what it changes outside it, and the byte
it gives where no device register answers. -/

namespace Sys2Proof.Machine

/-! ### Kept and Stored compose -/

theorem State.Kept.refl (s : State) : s.Quiet s := ⟨fun _ => rfl, rfl, rfl, rfl, rfl, rfl, .refl _⟩

theorem State.Kept.trans {s t u : State} {c d : Cart} (h : s.Kept c t) (g : t.Kept d u) : s.Kept d u :=
  ⟨fun a => (g.ram a).trans (h.ram a), g.mapctl.trans h.mapctl, g.rom.trans h.rom, g.suzy.trans h.suzy,
    g.inputs.trans h.inputs, g.cart, h.io.trans g.io⟩

/-- Two quiet stretches are one. -/
theorem State.Kept.thenQuiet {s t u : State} {c : Cart} (h : s.Kept c t) (g : t.Quiet u) : s.Kept c u :=
  h.cart ▸ h.trans g

theorem State.Quiet.trans {s t u : State} (h : s.Quiet t) (g : t.Quiet u) : s.Quiet u := State.Kept.thenQuiet h g

/-- A change of the CPU alone is quiet. -/
theorem State.quiet_cpu (s : State) (k : Cpu) : s.Quiet { s with cpu := k } :=
  ⟨fun _ => rfl, rfl, rfl, rfl, rfl, rfl, .refl _⟩

theorem State.Kept.backingOf {s t : State} {c : Cart} (h : s.Kept c t) (a : Word) : t.backingOf a = s.backingOf a := by
  unfold State.backingOf; rw [h.mapctl]

theorem State.Kept.cartAfterRead {s t : State} (h : s.Quiet t) (a : Word) : t.cartAfterRead a = s.cartAfterRead a := by
  unfold State.cartAfterRead; rw [State.Kept.backingOf h, h.cart]

theorem State.Kept.pointer {s t : State} {c : Cart} (h : s.Kept c t) (z : Byte) : t.pointer z = s.pointer z := by
  unfold State.pointer; rw [h.ram, h.ram]

theorem State.Stored.thenQuiet {s t u : State} {a : Word} {v : Byte} (h : s.Stored a v t) (g : t.Quiet u)
    (hw : Ram.wf u.ram = true) : s.Stored a v u where
  here := (g.ram a).trans h.here
  others := fun b hb => (g.ram b).trans (h.others b hb)
  canonical := hw
  mapctl := g.mapctl.trans h.mapctl
  rom := g.rom.trans h.rom
  suzy := g.suzy.trans h.suzy
  inputs := g.inputs.trans h.inputs
  cart := g.cart.trans h.cart
  io := by obtain ⟨w, h1, h2⟩ := h.io; exact ⟨w, h1, h2.trans g.io⟩

theorem State.Stored.afterQuiet {s t u : State} {a : Word} {v : Byte} (g : s.Quiet t) (h : t.Stored a v u) :
    s.Stored a v u where
  here := by rw [h.here, State.Kept.backingOf g, g.ram]
  others := fun b hb => (h.others b hb).trans (g.ram b)
  canonical := h.canonical
  mapctl := by rw [h.mapctl, State.Kept.backingOf g, g.mapctl]
  rom := h.rom.trans g.rom
  suzy := by rw [h.suzy, State.Kept.backingOf g, g.suzy]
  inputs := h.inputs.trans g.inputs
  cart := by rw [h.cart, State.Kept.backingOf g, g.cart]
  io := by
    obtain ⟨w, h1, h2⟩ := h.io
    exact ⟨w, g.io.trans h1, by rw [← State.Kept.backingOf g]; exact h2⟩

/-! ### The scheduler's turn -/

theorem State.settle_quiet (s : State) : s.Quiet s.settle :=
  ⟨fun _ => rfl, rfl, rfl, rfl, rfl, rfl, Io.settle_timePassed _ _ _ _ _⟩

theorem State.settled_iff (s : State) : s.settled = true ↔ s.io.beat s.mapctl s.ram s.inputs = none := by
  unfold State.settled; rw [Option.isNone_iff_eq_none]

theorem State.settled_beat {s : State} (h : s.settled = true) : s.beat = none := by
  unfold State.beat; rw [s.settled_iff.1 h]

theorem State.unsettled_beat {s : State} (h : s.settled = false) : ∃ t, s.beat = some t := by
  unfold State.settled at h
  unfold State.beat
  cases hb : s.io.beat s.mapctl s.ram s.inputs with
  | none => rw [hb] at h; cases h
  | some io => exact ⟨_, rfl⟩

theorem State.settle_settled {s : State} (h : s.io.Ok) : s.settle.settled = true :=
  (State.settled_iff _).2 (Io.settle_done _ _ _ h)

theorem State.settle_id {s : State} (h : s.settled = true) : s.settle = s := by
  unfold State.settle; rw [Io.settle_id _ (s.settled_iff.1 h)]

theorem Io.masterAccess_timePassed (m : Byte) (r : Bool) (a : Word) (io : Io) : io.TimePassed (io.masterAccess m r a) :=
  { Io.access_timePassed m r a io with }

theorem State.charge_timePassed (s : State) (a : Word) : s.io.TimePassed (s.charge a).io :=
  Io.masterAccess_timePassed _ _ _ _

theorem State.charge_quiet (s : State) (a : Word) : s.Quiet (s.charge a) :=
  ⟨fun _ => rfl, rfl, rfl, rfl, rfl, rfl, s.charge_timePassed a⟩

/-! ### Idle cycles -/

theorem State.delay_quiet (k : Nat) (s : State) : s.Quiet (s.delay k) :=
  ⟨fun _ => rfl, rfl, rfl, rfl, rfl, rfl, { Io.TimePassed.refl s.io with }⟩

theorem State.postpone_quiet (s : State) : s.Quiet s.postpone :=
  ⟨fun _ => rfl, rfl, rfl, rfl, rfl, rfl, { Io.TimePassed.refl s.io with }⟩

/-- Cycles without an access only let time pass. -/
theorem State.idle_quiet (k : Nat) (s : State) : s.Quiet (s.idle k) := (s.delay_quiet k).trans (s.delay k).settle_quiet

theorem State.ended_quiet (f : Finish) (s : State) : s.Quiet (s.ended f).settle :=
  State.Quiet.trans (t := s.ended f) ⟨fun _ => rfl, rfl, rfl, rfl, rfl, rfl, { Io.TimePassed.refl s.io with }⟩
    (State.settle_quiet _)

/-! ### Reads -/

@[simp] theorem State.readEffect_cpu (s : State) (a : Word) : (s.readEffect a).cpu = s.cpu := by
  unfold State.readEffect; split <;> rfl

@[simp] theorem State.readEffect_pipe (s : State) (a : Word) : (s.readEffect a).pipe = s.pipe := by
  unfold State.readEffect; split <;> rfl

@[simp] theorem State.readEffect_ram (s : State) (a : Word) : (s.readEffect a).ram = s.ram := by
  unfold State.readEffect; split <;> rfl

@[simp] theorem State.readEffect_mapctl (s : State) (a : Word) : (s.readEffect a).mapctl = s.mapctl := by
  unfold State.readEffect; split <;> rfl

@[simp] theorem State.readEffect_rom (s : State) (a : Word) : (s.readEffect a).rom = s.rom := by
  unfold State.readEffect; split <;> rfl

@[simp] theorem State.readEffect_suzy (s : State) (a : Word) : (s.readEffect a).suzy = s.suzy := by
  unfold State.readEffect; split <;> rfl

@[simp] theorem State.readEffect_inputs (s : State) (a : Word) : (s.readEffect a).inputs = s.inputs := by
  unfold State.readEffect; split <;> rfl

theorem State.readEffect_withCpu (s : State) (k : Cpu) (a : Word) :
    (s.withCpu k).readEffect a = (s.readEffect a).withCpu k := by
  unfold State.readEffect; simp only [State.backingOf_withCpu]; split <;> rfl

@[simp] theorem State.busRead_cpu (s : State) (a : Word) : (s.busRead a).2.cpu = s.cpu := (s.charge a).readEffect_cpu a

@[simp] theorem State.busRead_pipe (s : State) (a : Word) : (s.busRead a).2.pipe = s.pipe := (s.charge a).readEffect_pipe a

@[simp] theorem State.busRead_ram (s : State) (a : Word) : (s.busRead a).2.ram = s.ram := (s.charge a).readEffect_ram a

@[simp] theorem State.busRead_mapctl (s : State) (a : Word) : (s.busRead a).2.mapctl = s.mapctl :=
  (s.charge a).readEffect_mapctl a

@[simp] theorem State.busRead_rom (s : State) (a : Word) : (s.busRead a).2.rom = s.rom := (s.charge a).readEffect_rom a

@[simp] theorem State.busRead_suzy (s : State) (a : Word) : (s.busRead a).2.suzy = s.suzy := (s.charge a).readEffect_suzy a

@[simp] theorem State.busRead_inputs (s : State) (a : Word) : (s.busRead a).2.inputs = s.inputs :=
  (s.charge a).readEffect_inputs a

/-- What the outside sees of the registers has no part in a read. -/
@[simp] theorem State.busRead_withCpu (s : State) (k : Cpu) (a : Word) :
    (s.withCpu k).busRead a = ((s.busRead a).1, (s.busRead a).2.withCpu k) := by
  have h : ((s.withCpu k).charge a).readEffect a = ((s.charge a).readEffect a).withCpu k := State.readEffect_withCpu (s.charge a) k a
  unfold State.busRead State.rawRead
  rw [h]
  rfl

/-- A read changes nothing but what time changes and a cartridge port's counter. -/
theorem State.busRead_kept (s : State) (a : Word) : s.Kept (s.cartAfterRead a) (s.busRead a).2 where
  ram := fun b => by show Ram.read (s.busRead a).2.ram _ = _; rw [State.busRead_ram]; rfl
  mapctl := s.busRead_mapctl a
  rom := s.busRead_rom a
  suzy := s.busRead_suzy a
  inputs := s.busRead_inputs a
  cart := by
    show ((s.charge a).readEffect a).cart = _
    have hb : (s.charge a).backingOf a = s.backingOf a := rfl
    unfold State.readEffect State.cartAfterRead
    rw [hb]
    cases h : s.backingOf a <;> rfl
  io := by
    refine (s.charge_timePassed a).trans (.trans (b := ((s.charge a).readEffect a).io) ?_ (State.settle_quiet _).io)
    unfold State.readEffect
    split
    · exact Io.readEffect_timePassed _ _
    all_goals exact .refl _

theorem State.cartAfterRead_plain {s : State} {a : Word} (h : s.plain a = true) : s.cartAfterRead a = s.cart := by
  unfold State.cartAfterRead; split
  · rename_i e; simp [State.plain, e, Backing.isReg] at h
  · rfl

/-- A read where no device register answers is quiet. -/
theorem State.busRead_quiet {s : State} {a : Word} (h : s.plain a = true) : s.Quiet (s.busRead a).2 := by
  have := s.busRead_kept a; rwa [State.cartAfterRead_plain h] at this

/-- The byte read where no device register answers is the one that stands there. -/
theorem State.busRead_plain {s : State} {a : Word} (h : s.plain a = true) : (s.busRead a).1 = s.peek a := by
  show (s.charge a).peek a = _
  have hb : (s.charge a).backingOf a = s.backingOf a := rfl
  unfold State.peek
  rw [hb]
  unfold State.plain at h
  cases e : s.backingOf a <;> simp_all [Backing.isReg] <;> rfl

/-- A quiet stretch leaves what stands where no device register answers. -/
theorem State.Kept.peek {s t : State} {c : Cart} (g : s.Kept c t) {a : Word} (h : s.plain a = true) :
    t.peek a = s.peek a := by
  unfold State.peek
  rw [State.Kept.backingOf g, g.rom, g.mapctl, g.ram]
  unfold State.plain at h
  cases e : s.backingOf a <;> simp_all [Backing.isReg]

theorem State.Kept.plain {s t : State} {c : Cart} (g : s.Kept c t) (a : Word) : t.plain a = s.plain a := by
  unfold State.plain; rw [State.Kept.backingOf g]

/-! ### The lower pages are RAM -/

theorem backing_low (m : Byte) {a : Word} (h : a.toNat < 0xFC00) : backing m a = .ram := by simp [backing, h]

theorem State.backingOf_low (s : State) {a : Word} (h : a.toNat < 0xFC00) : s.backingOf a = .ram := backing_low _ h

theorem State.plain_low (s : State) {a : Word} (h : a.toNat < 0xFC00) : s.plain a = true := by
  unfold State.plain; rw [s.backingOf_low h]; rfl

theorem State.peek_low (s : State) {a : Word} (h : a.toNat < 0xFC00) : s.peek a = s.ramAt a := by
  unfold State.peek; rw [s.backingOf_low h]

theorem zext_toNat (b : Byte) : (zext b).toNat = b.toNat := by
  have := b.isLt
  simp only [zext, BitVec.toNat_setWidth]; omega

theorem zext_low (b : Byte) : (zext b).toNat < 0xFC00 := by rw [zext_toNat]; have := b.isLt; omega

theorem stackAddr_toNat (b : Byte) : (stackAddr b).toNat = 256 + b.toNat := by
  have := b.isLt
  simp only [stackAddr, join, Config.stackPage, BitVec.toNat_append]
  rw [← Nat.shiftLeft_add_eq_or_of_lt b.isLt]; rfl

theorem stackAddr_low (b : Byte) : (stackAddr b).toNat < 0xFC00 := by rw [stackAddr_toNat]; have := b.isLt; omega

theorem stackAddr_ne {a b : Byte} (h : a ≠ b) : stackAddr a ≠ stackAddr b := fun e => h <| by
  have := congrArg BitVec.toNat e
  rw [stackAddr_toNat, stackAddr_toNat] at this
  exact BitVec.eq_of_toNat_eq (by omega)

/-- A read below $FC00 gives the RAM byte. -/
theorem State.busRead_low (s : State) {a : Word} (h : a.toNat < 0xFC00) : (s.busRead a).1 = s.ramAt a :=
  (State.busRead_plain (s.plain_low h)).trans (s.peek_low h)

theorem State.busRead_low_quiet (s : State) {a : Word} (h : a.toNat < 0xFC00) : s.Quiet (s.busRead a).2 :=
  State.busRead_quiet (s.plain_low h)

/-! ### Writes -/

@[simp] theorem State.store_cpu (s : State) (a : Word) (v : Byte) : (s.store a v).cpu = s.cpu := by
  unfold State.store; split <;> rfl

@[simp] theorem State.store_pipe (s : State) (a : Word) (v : Byte) : (s.store a v).pipe = s.pipe := by
  unfold State.store; split <;> rfl

theorem State.store_withCpu (s : State) (k : Cpu) (a : Word) (v : Byte) :
    (s.withCpu k).store a v = (s.store a v).withCpu k := by
  unfold State.store; simp only [State.backingOf_withCpu]; split <;> rfl

@[simp] theorem State.busWrite_cpu (s : State) (a : Word) (v : Byte) : (s.busWrite a v).cpu = s.cpu :=
  (s.charge a).store_cpu a v

@[simp] theorem State.busWrite_pipe (s : State) (a : Word) (v : Byte) : (s.busWrite a v).pipe = s.pipe :=
  (s.charge a).store_pipe a v

/-- What the outside sees of the registers has no part in a write. -/
@[simp] theorem State.busWrite_withCpu (s : State) (k : Cpu) (a : Word) (v : Byte) :
    (s.withCpu k).busWrite a v = (s.busWrite a v).withCpu k := by
  have h : ((s.withCpu k).charge a).store a v = ((s.charge a).store a v).withCpu k := State.store_withCpu (s.charge a) k a v
  unfold State.busWrite State.rawWrite
  rw [h]
  rfl

/-- The store itself. -/
theorem State.store_stored {s : State} (hw : Ram.wf s.ram = true) (a : Word) (v : Byte) : s.Stored a v (s.store a v) where
  here := by
    unfold State.store
    split <;> rename_i e <;> rw [e] <;> [exact State.ramAt_setRam_same hw a v; rfl; rfl; rfl; rfl]
  others := fun b hn => by
    unfold State.store
    split <;> [exact State.ramAt_setRam_ne s v hn; rfl; rfl; rfl; rfl]
  canonical := by
    unfold State.store
    split <;> [exact Ram.write_wf hw a v; exact hw; exact hw; exact hw; exact hw]
  mapctl := by unfold State.store; split <;> rename_i e <;> rw [e] <;> rfl
  rom := by unfold State.store; split <;> rfl
  suzy := by unfold State.store; split <;> rename_i e <;> rw [e] <;> rfl
  inputs := by unfold State.store; split <;> rfl
  cart := by unfold State.store; split <;> rename_i e <;> rw [e] <;> rfl
  io := ⟨s.io, .refl _, by
    unfold State.store
    cases e : s.backingOf a <;> exact .refl _⟩

/-- A write stores at its address and changes nothing else but what time changes. -/
theorem State.busWrite_stored {s : State} (hw : Ram.wf s.ram = true) (a : Word) (v : Byte) :
    s.Stored a v (s.busWrite a v) := by
  have h : (s.charge a).Stored a v ((s.charge a).store a v) := State.store_stored (s := s.charge a) hw a v
  exact (State.Stored.afterQuiet (s.charge_quiet a) h).thenQuiet (State.settle_quiet _) h.canonical

/-- A write below $FC00 does not start Suzy. -/
theorem State.startsSuzy_low (s : State) {a : Word} (v : Byte) (h : a.toNat < 0xFC00) : s.startsSuzy a v = false := by
  unfold State.startsSuzy; rw [s.backingOf_low h]; rfl

/-- A write below $FC00 stores its byte in RAM. -/
theorem State.Stored.low {s t : State} {a : Word} {v : Byte} (h : s.Stored a v t) (ha : a.toNat < 0xFC00) :
    t.ramAt a = v ∧ t.mapctl = s.mapctl ∧ t.rom = s.rom ∧ t.suzy = s.suzy ∧ t.inputs = s.inputs ∧ t.cart = s.cart ∧
      s.io.TimePassed t.io := by
  have hb := s.backingOf_low ha
  have h1 := h.here
  have h2 := h.mapctl
  have h3 := h.suzy
  have h4 := h.cart
  rw [hb] at h1 h2 h3 h4
  obtain ⟨u, h5, h6⟩ := h.io
  rw [hb] at h6
  exact ⟨h1, h2, h.rom, h3, h.inputs, h4, h5.trans h6⟩

end Sys2Proof.Machine
end

