-- ==== Sys2Proof/Laws/Decode.lean ====
section
/-! SUPPORT. Halves and concatenation of words, and what the decoder makes of an opcode's operand bytes. -/

namespace Sys2Proof

/-! ### Words and their halves -/

theorem join_toNat (h l : Byte) : (join h l).toNat = l.toNat + 256 * h.toNat := by
  unfold join
  rw [BitVec.toNat_append, ← Nat.shiftLeft_add_eq_or_of_lt l.isLt, Nat.shiftLeft_eq]; omega

theorem lo_toNat (w : Word) : (lo w).toNat = w.toNat % 256 := by simp [lo]

theorem hi_toNat (w : Word) : (hi w).toNat = w.toNat / 256 := by
  have := w.isLt
  simp [hi, BitVec.extractLsb'_toNat, Nat.shiftRight_eq_div_pow]; omega

@[simp] theorem lo_join (h l : Byte) : lo (join h l) = l := by
  apply BitVec.eq_of_toNat_eq; rw [lo_toNat, join_toNat]; have := l.isLt; omega

@[simp] theorem hi_join (h l : Byte) : hi (join h l) = h := by
  apply BitVec.eq_of_toNat_eq; rw [hi_toNat, join_toNat]; have := l.isLt; omega

@[simp] theorem join_hi_lo (w : Word) : join (hi w) (lo w) = w := by
  apply BitVec.eq_of_toNat_eq; rw [join_toNat, hi_toNat, lo_toNat]; omega

/-! ### Operand bytes -/

/-- The operand form with its operand bytes replaced. -/
def Addr.fill (b1 b2 : Byte) : Addr → Addr
  | .zp _ => .zp b1
  | .zpx _ => .zpx b1
  | .zpy _ => .zpy b1
  | .abs _ => .abs (join b2 b1)
  | .abx _ => .abx (join b2 b1)
  | .aby _ => .aby (join b2 b1)
  | .izx _ => .izx b1
  | .izy _ => .izy b1
  | .izp _ => .izp b1

/-- As `Addr.fill`. -/
def Src.fill (b1 b2 : Byte) : Src → Src
  | .imm _ => .imm b1
  | .mem a => .mem (a.fill b1 b2)

/-- As `Addr.fill`. -/
def Rmw.fill (b1 b2 : Byte) : Rmw → Rmw
  | .acc => .acc
  | .mem a => .mem (a.fill b1 b2)

/-- As `Addr.fill`. -/
def JmpTarget.fill (b1 b2 : Byte) : JmpTarget → JmpTarget
  | .abs _ => .abs (join b2 b1)
  | .ind _ => .ind (join b2 b1)
  | .iax _ => .iax (join b2 b1)

/-- The instruction with its operand bytes replaced. -/
def Instr.fill (b1 b2 : Byte) : Instr → Instr
  | .lda s => .lda (s.fill b1 b2)
  | .ldx s => .ldx (s.fill b1 b2)
  | .ldy s => .ldy (s.fill b1 b2)
  | .sta a => .sta (a.fill b1 b2)
  | .stx a => .stx (a.fill b1 b2)
  | .sty a => .sty (a.fill b1 b2)
  | .stz a => .stz (a.fill b1 b2)
  | .tax => .tax
  | .tay => .tay
  | .txa => .txa
  | .tya => .tya
  | .tsx => .tsx
  | .txs => .txs
  | .pha => .pha
  | .pla => .pla
  | .php => .php
  | .plp => .plp
  | .phx => .phx
  | .plx => .plx
  | .phy => .phy
  | .ply => .ply
  | .adc s => .adc (s.fill b1 b2)
  | .sbc s => .sbc (s.fill b1 b2)
  | .cmp s => .cmp (s.fill b1 b2)
  | .cpx s => .cpx (s.fill b1 b2)
  | .cpy s => .cpy (s.fill b1 b2)
  | .and s => .and (s.fill b1 b2)
  | .ora s => .ora (s.fill b1 b2)
  | .eor s => .eor (s.fill b1 b2)
  | .bit s => .bit (s.fill b1 b2)
  | .tsb a => .tsb (a.fill b1 b2)
  | .trb a => .trb (a.fill b1 b2)
  | .asl d => .asl (d.fill b1 b2)
  | .lsr d => .lsr (d.fill b1 b2)
  | .rol d => .rol (d.fill b1 b2)
  | .ror d => .ror (d.fill b1 b2)
  | .inc d => .inc (d.fill b1 b2)
  | .dec d => .dec (d.fill b1 b2)
  | .inx => .inx
  | .iny => .iny
  | .dex => .dex
  | .dey => .dey
  | .bcc _ => .bcc b1
  | .bcs _ => .bcs b1
  | .beq _ => .beq b1
  | .bne _ => .bne b1
  | .bmi _ => .bmi b1
  | .bpl _ => .bpl b1
  | .bvc _ => .bvc b1
  | .bvs _ => .bvs b1
  | .bra _ => .bra b1
  | .jmp t => .jmp (t.fill b1 b2)
  | .jsr _ => .jsr (join b2 b1)
  | .rts => .rts
  | .clc => .clc
  | .sec => .sec
  | .cli => .cli
  | .sei => .sei
  | .cld => .cld
  | .sed => .sed
  | .clv => .clv
  | .nop => .nop
  | .brk _ => .brk b1
  | .rti => .rti
  | .wai => .wai
  | .stp => .stp
  | .rmb0 _ => .rmb0 b1
  | .rmb1 _ => .rmb1 b1
  | .rmb2 _ => .rmb2 b1
  | .rmb3 _ => .rmb3 b1
  | .rmb4 _ => .rmb4 b1
  | .rmb5 _ => .rmb5 b1
  | .rmb6 _ => .rmb6 b1
  | .rmb7 _ => .rmb7 b1
  | .smb0 _ => .smb0 b1
  | .smb1 _ => .smb1 b1
  | .smb2 _ => .smb2 b1
  | .smb3 _ => .smb3 b1
  | .smb4 _ => .smb4 b1
  | .smb5 _ => .smb5 b1
  | .smb6 _ => .smb6 b1
  | .smb7 _ => .smb7 b1
  | .bbr0 _ _ => .bbr0 b1 b2
  | .bbr1 _ _ => .bbr1 b1 b2
  | .bbr2 _ _ => .bbr2 b1 b2
  | .bbr3 _ _ => .bbr3 b1 b2
  | .bbr4 _ _ => .bbr4 b1 b2
  | .bbr5 _ _ => .bbr5 b1 b2
  | .bbr6 _ _ => .bbr6 b1 b2
  | .bbr7 _ _ => .bbr7 b1 b2
  | .bbs0 _ _ => .bbs0 b1 b2
  | .bbs1 _ _ => .bbs1 b1 b2
  | .bbs2 _ _ => .bbs2 b1 b2
  | .bbs3 _ _ => .bbs3 b1 b2
  | .bbs4 _ _ => .bbs4 b1 b2
  | .bbs5 _ _ => .bbs5 b1 b2
  | .bbs6 _ _ => .bbs6 b1 b2
  | .bbs7 _ _ => .bbs7 b1 b2
  | .nopImp row col => .nopImp row col
  | .nopImm row _ => .nopImm row b1
  | .nopZp _ => .nopZp b1
  | .nopZpx row _ => .nopZpx row b1
  | .nopAbs row _ => .nopAbs row (join b2 b1)
  | .nopLong _ => .nopLong (join b2 b1)
  | .nopBit row col => .nopBit row col

/-- The opcode alone decides the instruction and its operand form; the operand bytes only fill them in. -/
theorem decodeOp_fill (bitOps : Bool) (op b1 b2 : Byte) :
    decodeOpWith bitOps op b1 b2 = (decodeOpWith bitOps op 0 0).fill b1 b2 := by
  obtain ⟨n⟩ := op
  cases bitOps <;> fin_cases n <;> rfl

theorem Instr.fill_operandBytes (b1 b2 : Byte) (i : Instr) : (i.fill b1 b2).operandBytes = i.operandBytes := by
  cases i <;> first | rfl | (rename_i s; cases s <;> first | rfl | (rename_i a; cases a <;> rfl))

theorem Instr.fill_wellFormed (bitOps : Bool) (b1 b2 : Byte) (i : Instr) :
    (i.fill b1 b2).wellFormedWith bitOps = i.wellFormedWith bitOps := by
  cases i <;> first | rfl | (rename_i s; cases s <;> first | rfl | (rename_i a; cases a <;> rfl))

/-- An instruction of two bytes has no second operand byte. -/
theorem Instr.fill_one (b1 b2 : Byte) {i : Instr} (h : i.operandBytes ≤ 1) : i.fill b1 b2 = i.fill b1 0 := by
  cases i
  all_goals first
    | rfl
    | exact absurd h (by show ¬2 ≤ 1; decide)
    | (rename_i s
       cases s <;> first
         | rfl
         | exact absurd h (by show ¬2 ≤ 1; decide)
         | (rename_i a; cases a <;> first | rfl | exact absurd h (by show ¬2 ≤ 1; decide)))

/-- An instruction of one byte has no operand byte. -/
theorem Instr.fill_none (b1 b2 : Byte) {i : Instr} (h : i.operandBytes = 0) : i.fill b1 b2 = i := by
  cases i
  all_goals first
    | rfl
    | cases h
    | (rename_i s; cases s <;> first | rfl | cases h | (rename_i a; cases a <;> first | rfl | cases h))

end Sys2Proof
end

