-- ==== Sys2Proof/Laws/Prog.lean ====
section
/-! SUPPORT. Running programs: pieces after one another, continuations after accesses, and the pieces whose writes cannot start
Suzy, which run to their end without a suspension. -/

namespace Sys2Proof.Machine

/-! ### Composition -/

@[simp] theorem Prog.done_bind {α β : Type} (a : α) (f : α → Prog β) : (Prog.done a).bind f = f a := rfl

@[simp] theorem Prog.read_bind {α β : Type} (k : Cpu) (a : Word) (next : Byte → Prog α) (f : α → Prog β) :
    (Prog.read k a next).bind f = .read k a fun b => (next b).bind f := rfl

@[simp] theorem Prog.write_bind {α β : Type} (k : Cpu) (a : Word) (v : Byte) (next : Prog α) (f : α → Prog β) :
    (Prog.write k a v next).bind f = .write k a v (next.bind f) := rfl

@[simp] theorem Prog.eval_done {α : Type} (a : α) (s : State) : (Prog.done a).eval s = (a, s) := rfl

@[simp] theorem Prog.eval_read {α : Type} (k : Cpu) (a : Word) (next : Byte → Prog α) (s : State) :
    (Prog.read k a next).eval s = (next (s.busRead a).1).eval ((s.busRead a).2.withCpu k) := by
  show (next ((s.withCpu k).busRead a).1).eval ((s.withCpu k).busRead a).2 = _
  rw [State.busRead_withCpu]

@[simp] theorem Prog.eval_write {α : Type} (k : Cpu) (a : Word) (v : Byte) (next : Prog α) (s : State) :
    (Prog.write k a v next).eval s = next.eval ((s.busWrite a v).withCpu k) := by
  show next.eval ((s.withCpu k).busWrite a v) = _
  rw [State.busWrite_withCpu]

theorem Prog.eval_bind {α β : Type} (p : Prog α) (f : α → Prog β) (s : State) :
    (p.bind f).eval s = (f (p.eval s).1).eval (p.eval s).2 := by
  induction p generalizing s with
  | done a => rfl
  | read k a next ih => exact ih _ _
  | write k a v next ih => exact ih _

theorem Prog.bind_assoc {α β γ : Type} (p : Prog α) (f : α → Prog β) (g : β → Prog γ) :
    (p.bind f).bind g = p.bind fun a => (f a).bind g := by
  induction p with
  | done a => rfl
  | read k a next ih => simp only [Prog.read_bind, ih]
  | write k a v next ih => simp only [Prog.write_bind, ih]

/-! ### Continuations -/

@[simp] theorem Prog.after_nil {α : Type} (p : Prog α) : Prog.after [] p = p := by cases p <;> rfl

@[simp] theorem Prog.after_done {α : Type} (l : List Byte) (a : α) : Prog.after l (.done a) = .done a := by cases l <;> rfl

/-- The continuation after more accesses is the continuation of the continuation. -/
theorem Prog.after_append {α : Type} (l m : List Byte) (p : Prog α) :
    Prog.after (l ++ m) p = Prog.after m (Prog.after l p) := by
  induction l generalizing p with
  | nil => simp
  | cons b l ih =>
    cases p with
    | done a => simp
    | read k a next => exact ih (next b)
    | write k a v next => exact ih next

theorem Prog.after_read {α : Type} {l : List Byte} {p : Prog α} {k : Cpu} {a : Word} {next : Byte → Prog α}
    (h : Prog.after l p = .read k a next) (b : Byte) : Prog.after (l ++ [b]) p = next b := by
  rw [Prog.after_append, h]; exact Prog.after_nil _

theorem Prog.after_write {α : Type} {l : List Byte} {p : Prog α} {k : Cpu} {a : Word} {v : Byte} {next : Prog α}
    (h : Prog.after l p = .write k a v next) (b : Byte) : Prog.after (l ++ [b]) p = next := by
  rw [Prog.after_append, h]; exact Prog.after_nil _

/-! ### Running from a point -/

@[simp] theorem Prog.runFrom_done (w : Work) (start : Cpu) (log : List Byte) (f : Finish) (s : State) :
    Prog.runFrom w start log (.done f) s = (s.ended f).settle := rfl

@[simp] theorem Prog.runFrom_read (w : Work) (start : Cpu) (log : List Byte) (k : Cpu) (a : Word) (next : Byte → Prog Finish)
    (s : State) : Prog.runFrom w start log (.read k a next) s =
      Prog.runFrom w start (log ++ [(s.busRead a).1]) (next (s.busRead a).1) ((s.busRead a).2.withCpu k) := by
  conv_lhs => unfold Prog.runFrom
  rw [State.busRead_withCpu]

@[simp] theorem Prog.runFrom_write (w : Work) (start : Cpu) (log : List Byte) (k : Cpu) (a : Word) (v : Byte)
    (next : Prog Finish) (s : State) : Prog.runFrom w start log (.write k a v next) s =
      if s.startsSuzy a v && !next.isDone then ((s.busWrite a v).withCpu k).suspend w start (log ++ [0])
      else Prog.runFrom w start (log ++ [0]) next ((s.busWrite a v).withCpu k) := by
  conv_lhs => unfold Prog.runFrom
  rw [State.busWrite_withCpu]

/-! ### Calm pieces -/

/-- Every write of the piece goes below $FC00, where it cannot start Suzy. -/
def Prog.Calm {α : Type} : Prog α → Prop
  | .done _ => True
  | .read _ _ next => ∀ b, (next b).Calm
  | .write _ a _ next => a.toNat < 0xFC00 ∧ next.Calm

theorem Prog.Calm.bind {α β : Type} {p : Prog α} {f : α → Prog β} (h : p.Calm) (g : ∀ a, (f a).Calm) : (p.bind f).Calm := by
  induction p with
  | done a => exact g a
  | read k a next ih => exact fun b => ih b (h b)
  | write k a v next ih => exact ⟨h.1, ih h.2⟩

/-- A calm piece runs through, and the continuation after it is what follows it. -/
theorem Prog.Calm.runFrom {α : Type} {p : Prog α} (h : p.Calm) (w : Work) (start : Cpu) (log : List Byte)
    (f : α → Prog Finish) (s : State) (P : Prog Finish) (hP : Prog.after log P = p.bind f) :
    ∃ log', Prog.after log' P = f (p.eval s).1 ∧
      Prog.runFrom w start log (p.bind f) s = Prog.runFrom w start log' (f (p.eval s).1) (p.eval s).2 := by
  induction p generalizing s log with
  | done a => exact ⟨log, hP, rfl⟩
  | read k a next ih => exact ih _ (h _) _ _ (Prog.after_read hP _)
  | write k a v next ih =>
    obtain ⟨log', h1, h2⟩ := ih h.2 (log ++ [0]) ((s.withCpu k).busWrite a v) (Prog.after_write hP _)
    refine ⟨log', h1, Eq.trans ?_ h2⟩
    show (if s.startsSuzy a v && _ then _ else _) = _
    rw [s.startsSuzy_low v h.1]
    rfl

theorem Prog.bind_done {α : Type} (p : Prog α) : p.bind .done = p := by
  induction p with
  | done a => rfl
  | read k a next ih => simp only [Prog.read_bind, ih]
  | write k a v next ih => simp only [Prog.write_bind, ih]

/-- A calm program runs to its end. -/
theorem Prog.Calm.perform {p : Cpu → Prog Finish} {s : State} (h : (p s.cpu).Calm) (w : Work) :
    perform w p s = (((p s.cpu).eval s).2.ended ((p s.cpu).eval s).1).settle := by
  obtain ⟨log', -, h2⟩ := h.runFrom w s.cpu [] .done s (p s.cpu) (by rw [Prog.bind_done]; exact Prog.after_nil _)
  rw [Prog.bind_done] at h2
  exact h2

/-- The registers, the RAM and all else but the clock are those of the end. -/
theorem State.ended_settle_ended (f : Finish) (s : State) : (s.ended f).settle.Ended f.cpu := ⟨rfl, rfl⟩

/-! ### The named operations -/

theorem memRead_calm (a : Word) (k : Cpu) : (memRead a k).Calm := fun _ => trivial

theorem read16_calm (a : Word) (k : Cpu) : (read16 a k).Calm := fun _ _ => trivial

theorem read16zp_calm (z : Byte) (k : Cpu) : (read16zp z k).Calm := fun _ _ => trivial

theorem fetch_calm (k : Cpu) : (fetch k).Calm := fun _ => trivial

theorem push_calm (v : Byte) (k : Cpu) : (push v k).Calm := ⟨stackAddr_low _, trivial⟩

theorem pushWord_calm (w : Word) (k : Cpu) : (pushWord w k).Calm := (push_calm _ _).bind fun _ => push_calm _ _

theorem pull_calm (k : Cpu) : (pull k).Calm := fun _ => trivial

theorem pullWord_calm (k : Cpu) : (pullWord k).Calm := fun _ _ => trivial

theorem implied_calm (k : Cpu) (n : Nat) : (implied k n).Calm := trivial

theorem effAddr_calm (m : Addr) (k : Cpu) : (effAddr m k).Calm := by
  cases m <;> first | trivial | exact fun _ _ => trivial

theorem operand_calm (src : Src) (k : Cpu) : (operand src k).Calm := by
  cases src with
  | imm d8 => trivial
  | mem m => exact (effAddr_calm m k).bind fun _ _ => trivial

theorem jumpTarget_calm (t : JmpTarget) (k : Cpu) : (jumpTarget t k).Calm := by
  cases t <;> first | trivial | exact fun _ _ => trivial

theorem branchTo_calm (c : Bool) (rel : Byte) (n : Nat) (k : Cpu) : (branchTo c rel n k).Calm := by
  unfold branchTo; simp only; split <;> trivial

theorem trapEntry_calm (vec : Word) (b : Bool) (n : Nat) (k : Cpu) : (trapEntry vec b n k).Calm :=
  (pushWord_calm _ _).bind fun _ => (push_calm _ _).bind fun _ => (read16_calm _ _).bind fun _ => trivial

theorem callWith_calm (l : Byte) (k : Cpu) : (callWith l k).Calm :=
  (pushWord_calm _ _).bind fun _ => (memRead_calm _ _).bind fun _ => implied_calm _ _

theorem branchOnBit_calm (n : Nat) (want : Bool) (zp : Byte) (k : Cpu) : (branchOnBit n want zp k).Calm :=
  (memRead_calm _ _).bind fun _ => (fetch_calm _).bind fun _ => branchTo_calm _ _ _ _

theorem fetchProg_calm (k : Cpu) : (fetchProg k).Calm := by
  refine (fetch_calm k).bind fun op => ?_
  split
  · trivial
  · exact (fetch_calm _).bind fun _ => trivial
  · exact (fetch_calm _).bind fun _ => (fetch_calm _).bind fun _ => trivial

end Sys2Proof.Machine
end

