-- ==== Sys2Proof/Laws/Exec.lean ====
section
/-! SUPPORT. What each shared operation of the meanings can do, said once: the registers at its end and what it changes outside
the CPU. -/

namespace Sys2Proof.Machine

/-! ### Pieces that read -/

/-- A pointer in page zero is read from RAM. -/
theorem read16zp_spec (z : Byte) (k : Cpu) (s : State) :
    ((read16zp z k).eval s).1 = s.pointer z ∧ s.Quiet ((read16zp z k).eval s).2 ∧ ((read16zp z k).eval s).2.cpu = k := by
  have h1 := State.busRead_low_quiet s (zext_low z)
  have e : (read16zp z k).eval s =
      (join ((s.busRead (zext z)).2.busRead (zext (z + 1))).1 (s.busRead (zext z)).1,
        ((s.busRead (zext z)).2.busRead (zext (z + 1))).2.withCpu k) := by simp [read16zp, memRead]
  rw [e]
  refine ⟨?_, ?_, rfl⟩
  · show join _ _ = join _ _
    rw [State.busRead_low _ (zext_low _), State.busRead_low _ (zext_low _), h1.ram]
  · exact (h1.trans (State.busRead_low_quiet _ (zext_low _))).trans (State.quiet_cpu _ _)

/-- A pointer read where no device register answers gives what stands there. -/
theorem read16_spec {s : State} {a : Word} (k : Cpu) (h : s.plain a = true) (g : s.plain (a + 1) = true) :
    ((read16 a k).eval s).1 = join (s.peek (a + 1)) (s.peek a) ∧ s.Quiet ((read16 a k).eval s).2 := by
  have h1 := State.busRead_quiet h
  have g' : (s.busRead a).2.plain (a + 1) = true := by rw [State.Kept.plain h1]; exact g
  have e : (read16 a k).eval s = (join ((s.busRead a).2.busRead (a + 1)).1 (s.busRead a).1,
      ((s.busRead a).2.busRead (a + 1)).2.withCpu k) := by simp [read16, memRead]
  rw [e]
  refine ⟨?_, (h1.trans (State.busRead_quiet g')).trans (State.quiet_cpu _ _)⟩
  show join _ _ = join _ _
  rw [State.busRead_plain h, State.busRead_plain g', h1.peek g]

/-- The effective address is the formula's, and the pointer reads of an operand form only let time pass. -/
theorem effAddr_spec (m : Addr) (s : State) :
    (s.effAddr m).1 = s.target m ∧ s.Quiet (s.effAddr m).2 ∧ (s.effAddr m).2.cpu = s.cpu := by
  unfold State.effAddr
  cases m
  case izx d8 => exact read16zp_spec _ _ _
  case izp d8 => exact read16zp_spec _ _ _
  case izy d8 =>
    have h := read16zp_spec d8 s.cpu s
    have e : (effAddr (.izy d8) s.cpu).eval s =
        (((read16zp d8 s.cpu).eval s).1 + zext s.cpu.y, ((read16zp d8 s.cpu).eval s).2) := by
      unfold effAddr; rw [Prog.eval_bind]; rfl
    rw [e]
    exact ⟨by rw [h.1]; rfl, h.2⟩
  all_goals exact ⟨rfl, State.Kept.refl s, rfl⟩

/-- The operand of a memory form is one read at the effective address. -/
theorem operand_mem (m : Addr) (s : State) :
    (s.operand (.mem m)).1.value = ((s.effAddr m).2.busRead (s.effAddr m).1).1 ∧
    (s.operand (.mem m)).2 = ((s.effAddr m).2.busRead (s.effAddr m).1).2 := by
  have hc := (effAddr_spec m s).2.2
  have e : (operand (.mem m) s.cpu).eval s =
      ({ value := ((s.effAddr m).2.busRead (s.effAddr m).1).1, idle := readIdle m (crosses m s.cpu (s.effAddr m).1) },
        ((s.effAddr m).2.busRead (s.effAddr m).1).2.withCpu s.cpu) := by
    unfold operand
    simp only [Prog.eval_bind]
    simp [memRead, State.effAddr]
  unfold State.operand
  rw [e]
  refine ⟨rfl, ?_⟩
  rw [← hc]
  show State.withCpu _ _ = _
  rw [← State.busRead_cpu (s.effAddr m).2 (s.effAddr m).1]
  rfl

theorem operand_cpu (src : Src) (s : State) : (s.operand src).2.cpu = s.cpu := by
  cases src with
  | imm d8 => rfl
  | mem m => rw [(operand_mem m s).2, State.busRead_cpu]; exact (effAddr_spec m s).2.2

/-- Reading an operand changes nothing but what time changes and a cartridge port's counter. -/
theorem operand_kept (src : Src) (s : State) : s.Kept (s.cartAfterOperand src) (s.operand src).2 := by
  cases src with
  | imm d8 => exact State.Kept.refl s
  | mem m =>
    have h := (effAddr_spec m s).2.1
    have g := (s.effAddr m).2.busRead_kept (s.effAddr m).1
    rw [State.Kept.cartAfterRead h] at g
    have e : s.cartAfterOperand (.mem m) = s.cartAfterRead (s.effAddr m).1 := by rw [(effAddr_spec m s).1]; rfl
    rw [e, (operand_mem m s).2]
    exact State.Kept.trans h g

/-! ### Whole programs -/

/-- An instruction without an access of its own. -/
theorem implied_spec (w : Work) {p : Cpu → Prog Finish} (s : State) {k : Cpu} {n : Nat} (hp : p s.cpu = implied k n) :
    (perform w p s).Ended k ∧ s.Quiet (perform w p s) ∧ perform w p s = ({ s with cpu := k, pipe := .atFetch } : State).idle n := by
  have h : (p s.cpu).Calm := by rw [hp]; trivial
  rw [h.perform w, hp]
  exact ⟨⟨rfl, rfl⟩, State.ended_quiet { cpu := k, idle := n } s, rfl⟩

/-- Whatever is done, a program whose writes cannot start Suzy does the same. -/
theorem perform_work {p : Cpu → Prog Finish} {s : State} (h : (p s.cpu).Calm) (w v : Work) : perform w p s = perform v p s := by
  rw [h.perform w, h.perform v]

/-- Read an operand and change the registers by it. -/
theorem withOperand_spec (w : Work) {p : Cpu → Prog Finish} (s : State) {src : Src} {n : Nat} {f : Byte → Cpu → Cpu}
    (hp : p s.cpu = withOperand src n f s.cpu) :
    (perform w p s).Ended (f (s.operand src).1.value s.cpu) ∧ s.Kept (s.cartAfterOperand src) (perform w p s) := by
  have h : (p s.cpu).Calm := by rw [hp]; exact (operand_calm _ _).bind fun _ => trivial
  rw [h.perform w, hp]
  unfold withOperand
  rw [Prog.eval_bind]
  exact ⟨⟨rfl, rfl⟩, (operand_kept src s).thenQuiet (State.ended_quiet _ _)⟩

/-- A store: the byte goes to the effective address. -/
theorem storeTo_spec (w : Work) {p : Cpu → Prog Finish} {s : State} (hw : Ram.wf s.ram = true) {m : Addr} {v : Byte}
    (hp : p s.cpu = storeTo m v s.cpu) :
    (perform w p s).Ended s.cpu ∧ s.Stored (s.effAddr m).1 v (perform w p s) := by
  obtain ⟨log, -, h2⟩ := (effAddr_calm m s.cpu).runFrom w s.cpu []
    (fun ea => (memWrite ea v s.cpu).bind fun _ => implied s.cpu (storeIdle m)) s (storeTo m v s.cpu) (Prog.after_nil _)
  have hq := (effAddr_spec m s).2.1
  have hw' : Ram.wf (s.effAddr m).2.ram = true := by
    have : (s.effAddr m).2.ram = s.ram := by
      unfold State.effAddr
      cases m <;> simp [Machine.effAddr, read16zp, memRead]
    rw [this]; exact hw
  have e : perform w p s = (((s.effAddr m).2.busWrite (s.effAddr m).1 v).withCpu s.cpu |>.ended
      { cpu := s.cpu, idle := storeIdle m }).settle := by
    unfold perform
    rw [hp]
    refine h2.trans ?_
    show (if _ then _ else Prog.runFrom _ _ _ _ _) = _
    have : (!(Prog.bind (.done ()) fun _ => implied s.cpu (storeIdle m) : Prog Finish).isDone) = false := rfl
    simp only [this, Bool.and_false, Bool.false_eq_true, if_false]
    show (State.ended _ (State.busWrite (State.withCpu _ _) _ _)).settle = _
    rw [State.busWrite_withCpu]
    rfl
  rw [e]
  have hs := State.busWrite_stored hw' (s.effAddr m).1 v
  exact ⟨⟨rfl, rfl⟩, (State.Stored.afterQuiet hq hs).thenQuiet
    ((State.quiet_cpu _ _).trans (State.ended_quiet _ _)) hs.canonical⟩

@[simp] theorem effAddr_ram (m : Addr) (s : State) : (s.effAddr m).2.ram = s.ram := by
  unfold State.effAddr
  cases m <;> simp [Machine.effAddr, read16zp, memRead]

/-- A read-modify-write from a point: whole, or suspended between its writes. -/
theorem modifyAt_runFrom (w : Work) (start : Cpu) (log : List Byte) (f : Byte → Byte)
    (early late : Byte → Cpu → Cpu) (n : Nat) (ea : Word) (k : Cpu) (s : State) :
    Prog.runFrom w start log (modifyAt f early late n ea k) s =
      if (s.busRead ea).2.startsSuzy ea (s.busRead ea).1 then
        (((s.busRead ea).2.busWrite ea (s.busRead ea).1).withCpu
          (early (s.busRead ea).1 k)).suspend w start (log ++ [(s.busRead ea).1] ++ [0])
      else (((((s.busRead ea).2.busWrite ea (s.busRead ea).1).busWrite ea (f (s.busRead ea).1)).withCpu
        (late (s.busRead ea).1 (early (s.busRead ea).1 k))).ended
          { cpu := late (s.busRead ea).1 (early (s.busRead ea).1 k), idle := n }).settle := by
  simp only [modifyAt, memRead, memWrite, implied, Prog.read_bind, Prog.done_bind, Prog.write_bind, Prog.runFrom_read,
    Prog.runFrom_write, Prog.runFrom_done, State.startsSuzy_withCpu, State.busWrite_withCpu, State.withCpu_withCpu,
    Prog.isDone, Bool.not_false, Bool.not_true, Bool.and_true, Bool.and_false, Bool.false_eq_true, if_false]

/-- A read-modify-write at an effective address: whole, or suspended between its writes with the early flags set. -/
theorem modifyAt_spec (i : Instr) {s : State} (hw : Ram.wf s.ram = true) {m : Addr} {f : Byte → Byte}
    {early late : Byte → Cpu → Cpu} {n : Word → Nat}
    (hp : instrProg i s.cpu = (effAddr m s.cpu).bind fun ea => modifyAt f early late (n ea) ea s.cpu) :
    ∃ old, s.Modified i (s.effAddr m).1 old (f old) (late old (early old s.cpu)) (n (s.effAddr m).1)
        (perform (.instr i) (instrProg i) s) ∧
      (s.startsSuzy (s.effAddr m).1 old = true → (perform (.instr i) (instrProg i) s).cpu = early old s.cpu) := by
  obtain ⟨log, h1, h2⟩ := (effAddr_calm m s.cpu).runFrom (.instr i) s.cpu []
    (fun ea => modifyAt f early late (n ea) ea s.cpu) s (instrProg i s.cpu) (by rw [hp]; exact Prog.after_nil _)
  obtain ⟨-, hq, -⟩ := effAddr_spec m s
  have hr : Ram.wf (s.effAddr m).2.ram = true := by rw [effAddr_ram]; exact hw
  change Prog.after log _ = (fun ea => modifyAt f early late (n ea) ea s.cpu) (s.effAddr m).1 at h1
  change _ = Prog.runFrom _ _ _ ((fun ea => modifyAt f early late (n ea) ea s.cpu) (s.effAddr m).1) (s.effAddr m).2 at h2
  generalize s.effAddr m = E at *
  have hb : Ram.wf (E.2.busRead E.1).2.ram = true := by rw [State.busRead_ram]; exact hr
  have hs := State.busWrite_stored hb E.1 (E.2.busRead E.1).1
  have hmap : (E.2.busRead E.1).2.mapctl = s.mapctl := by rw [State.busRead_mapctl]; exact hq.mapctl
  have hst : (E.2.busRead E.1).2.startsSuzy E.1 (E.2.busRead E.1).1 = s.startsSuzy E.1 (E.2.busRead E.1).1 := by
    unfold State.startsSuzy State.backingOf; rw [hmap]
  have e0 : perform (.instr i) (instrProg i) s = Prog.runFrom (.instr i) s.cpu log
      (modifyAt f early late (n E.1) E.1 s.cpu) E.2 := by
    unfold perform
    rw [hp]
    exact h2
  refine ⟨(E.2.busRead E.1).1, ⟨E.2, (E.2.busRead E.1).2.busWrite E.1 (E.2.busRead E.1).1, hq, rfl, hs, ?_⟩, fun h => ?_⟩
  case refine_2 => rw [e0, modifyAt_runFrom, hst, if_pos h]; rfl
  rw [e0, modifyAt_runFrom, hst]
  split
  · refine ⟨⟨fun _ => rfl, rfl, rfl, rfl, rfl, rfl, .refl _⟩, s.cpu, log ++ [(E.2.busRead E.1).1] ++ [0], rfl, ?_⟩
    refine Prog.after_write (k := early (E.2.busRead E.1).1 s.cpu) (a := E.1) (v := (E.2.busRead E.1).1) ?_ 0
    exact Prog.after_read (k := s.cpu) (a := E.1) h1 (E.2.busRead E.1).1
  · have hs2 := State.busWrite_stored hs.canonical E.1 (f (E.2.busRead E.1).1)
    exact ⟨hs2.thenQuiet ((State.quiet_cpu _ _).trans (State.ended_quiet _ _)) hs2.canonical, rfl, rfl⟩

/-! ### Branches -/

theorem u16_sext (p : Word) (r : Byte) : p + sext r = BitVec.ofInt 16 ((p.toNat : Int) + r.toInt) := by
  rw [BitVec.ofInt_add]
  congr 1
  · simp

/-- The registers at the end of a branch. -/
theorem branchTo_eval (c : Bool) (r : Byte) (n : Nat) (k : Cpu) (s : State) :
    ∃ m, (branchTo c r n k).eval s =
      ({ cpu := { k with pc := if c then BitVec.ofInt 16 ((k.pc.toNat : Int) + r.toInt) else k.pc }, idle := m }, s) := by
  unfold branchTo
  cases c
  · exact ⟨_, rfl⟩
  · refine ⟨n + if hi (k.pc + sext r) = hi k.pc then 1 else 2, ?_⟩
    simp only [if_true, ← u16_sext]
    rfl

/-- A branch changes PC only. -/
theorem branchTo_spec (w : Work) {p : Cpu → Prog Finish} (s : State) {c : Bool} {r : Byte} {n : Nat}
    (hp : p s.cpu = branchTo c r n s.cpu) :
    (perform w p s).Ended { s.cpu with pc := if c then BitVec.ofInt 16 ((s.cpu.pc.toNat : Int) + r.toInt) else s.cpu.pc } ∧
    s.Quiet (perform w p s) := by
  have h : (p s.cpu).Calm := by rw [hp]; exact branchTo_calm _ _ _ _
  obtain ⟨m, e⟩ := branchTo_eval c r n s.cpu s
  rw [h.perform w, hp, e]
  exact ⟨⟨rfl, rfl⟩, State.ended_quiet _ _⟩

theorem bit_mask (n k : Nat) (hk : k < 8) : bit (bitMask n) k = decide (k = n) := by
  unfold bit bitMask
  have : (1 : Byte) <<< n = BitVec.twoPow 8 n := by simp [BitVec.twoPow]
  rw [this, BitVec.getLsbD_twoPow]
  by_cases h : k = n
  · subst h; simp [hk]
  · simp [h, Ne.symm h]

/-- A bit branch: the zero-page byte, the displacement, then PC. -/
theorem branchOnBit_spec (w : Work) {p : Cpu → Prog Finish} (s : State) {n : Nat} {want : Bool} {zp : Byte}
    (hp : p s.cpu = branchOnBit n want zp s.cpu) :
    ∃ u, s.Quiet u ∧ u.Kept (u.cartAfterRead s.cpu.pc) (perform w p s) ∧
      let r8 := (u.busRead s.cpu.pc).1
      let after := s.cpu.pc + 1
      (s.plain s.cpu.pc = true → r8 = s.peek s.cpu.pc) ∧
      (perform w p s).Ended
        { s.cpu with
          pc := if bit (s.ramAt (zext zp)) n = want then BitVec.ofInt 16 ((after.toNat : Int) + r8.toInt) else after } := by
  have h : (p s.cpu).Calm := by
    rw [hp]; exact (memRead_calm _ _).bind fun _ => (fetch_calm _).bind fun _ => branchTo_calm _ _ _ _
  have q := State.busRead_low_quiet s (zext_low zp)
  have hv := State.busRead_low s (zext_low zp)
  obtain ⟨m, e⟩ := branchTo_eval (bit (s.busRead (zext zp)).1 n == want) ((s.busRead (zext zp)).2.busRead s.cpu.pc).1 1
    { s.cpu with pc := s.cpu.pc + 1 } (((s.busRead (zext zp)).2.busRead s.cpu.pc).2.withCpu s.cpu)
  have e' := e
  rw [show (branchTo (bit (s.busRead (zext zp)).1 n == want) ((s.busRead (zext zp)).2.busRead s.cpu.pc).1 1
    { s.cpu with pc := s.cpu.pc + 1 }).eval (((s.busRead (zext zp)).2.busRead s.cpu.pc).2.withCpu s.cpu) = (p s.cpu).eval s by
      rw [hp]; simp [branchOnBit, memRead, fetch]] at e'
  rw [h.perform w, e']
  refine ⟨(s.busRead (zext zp)).2, q, ?_, ?_, ?_⟩
  · exact (State.Kept.thenQuiet (State.busRead_kept _ s.cpu.pc) (State.quiet_cpu _ _)).thenQuiet (State.ended_quiet _ _)
  · intro h'; rw [State.busRead_plain (by rw [State.Kept.plain q]; exact h'), q.peek h']
  · refine ⟨?_, rfl⟩
    rw [hv]
    simp only [beq_iff_eq]
    rfl

/-! ### Stack and traps -/

/-- Two pulls. -/
theorem pullWord_eval (k : Cpu) (s : State) :
    ∃ t, (pullWord k).eval s =
      ({ word := join (s.ramAt (stackAddr (k.sp + 2))) (s.ramAt (stackAddr (k.sp + 1))), cpu := { k with sp := k.sp + 2 } }, t) ∧
      s.Quiet t := by
  have q1 := State.busRead_low_quiet s (stackAddr_low (k.sp + 1))
  have q2 := State.busRead_low_quiet (s.busRead (stackAddr (k.sp + 1))).2 (stackAddr_low (k.sp + 1 + 1))
  have e2 : k.sp + 1 + 1 = k.sp + 2 := by rw [BitVec.add_assoc]; rfl
  refine ⟨((s.busRead (stackAddr (k.sp + 1))).2.busRead (stackAddr (k.sp + 1 + 1))).2.withCpu { k with sp := k.sp + 1 + 1 },
    ?_, (q1.trans q2).trans (State.quiet_cpu _ _)⟩
  have : (pullWord k).eval s =
      ({ word := join ((s.busRead (stackAddr (k.sp + 1))).2.busRead (stackAddr (k.sp + 1 + 1))).1
                  (s.busRead (stackAddr (k.sp + 1))).1, cpu := { k with sp := k.sp + 1 + 1 } },
        ((s.busRead (stackAddr (k.sp + 1))).2.busRead (stackAddr (k.sp + 1 + 1))).2.withCpu
          { k with sp := k.sp + 1 + 1 }) := by
    simp [pullWord, pull, memRead]
  rw [this, State.busRead_low _ (stackAddr_low _), State.busRead_low _ (stackAddr_low _), q1.ram, e2]

/-- One pull. -/
theorem pull_eval (k : Cpu) (s : State) :
    ∃ t, (pull k).eval s = ({ byte := s.ramAt (stackAddr (k.sp + 1)), cpu := { k with sp := k.sp + 1 } }, t) ∧ s.Quiet t := by
  have q1 := State.busRead_low_quiet s (stackAddr_low (k.sp + 1))
  refine ⟨(s.busRead (stackAddr (k.sp + 1))).2.withCpu { k with sp := k.sp + 1 }, ?_, q1.trans (State.quiet_cpu _ _)⟩
  have : (pull k).eval s = ({ byte := (s.busRead (stackAddr (k.sp + 1))).1, cpu := { k with sp := k.sp + 1 } },
      (s.busRead (stackAddr (k.sp + 1))).2.withCpu { k with sp := k.sp + 1 }) := by
    simp [pull, memRead]
  rw [this, State.busRead_low _ (stackAddr_low _)]

/-- A push instruction. -/
theorem pushReg_spec (w : Work) {p : Cpu → Prog Finish} {s : State} (hw : Ram.wf s.ram = true) {v : Byte}
    (hp : p s.cpu = pushReg v s.cpu) :
    (perform w p s).Ended { s.cpu with sp := s.cpu.sp - 1 } ∧ s.Stored (stackAddr s.cpu.sp) v (perform w p s) := by
  have h : (p s.cpu).Calm := by rw [hp]; exact (push_calm _ _).bind fun _ => trivial
  have e : (p s.cpu).eval s = ({ cpu := { s.cpu with sp := s.cpu.sp - 1 }, idle := 1 },
      (s.busWrite (stackAddr s.cpu.sp) v).withCpu s.cpu) := by
    rw [hp]; simp [pushReg, push, memWrite, implied]
  rw [h.perform w, e]
  have hs := State.busWrite_stored hw (stackAddr s.cpu.sp) v
  exact ⟨⟨rfl, rfl⟩, hs.thenQuiet ((State.quiet_cpu _ _).trans (State.ended_quiet _ _)) hs.canonical⟩

/-- A pull instruction. -/
theorem pullReg_spec (w : Work) {p : Cpu → Prog Finish} (s : State) {f : Byte → Cpu → Cpu}
    (hp : p s.cpu = pullReg f s.cpu) :
    (perform w p s).Ended (f (s.ramAt (stackAddr (s.cpu.sp + 1))) { s.cpu with sp := s.cpu.sp + 1 }) ∧
    s.Quiet (perform w p s) := by
  have h : (p s.cpu).Calm := by rw [hp]; exact (pull_calm _).bind fun _ => trivial
  obtain ⟨t, e, q⟩ := pull_eval s.cpu s
  rw [h.perform w, hp]
  unfold pullReg
  rw [Prog.eval_bind, e]
  exact ⟨⟨rfl, rfl⟩, q.trans (State.ended_quiet _ _)⟩

theorem sp_ne1 (a : Byte) : a ≠ a - 1 := by revert a; decide
theorem sp_ne2 (a : Byte) : a ≠ a - 2 := by revert a; decide
theorem sp_ne3 (a : Byte) : a - 1 ≠ a - 2 := by revert a; decide
theorem sp_sub (a : Byte) : a - 1 - 1 = a - 2 := by rw [BitVec.sub_sub]; rfl
theorem sp_sub3 (a : Byte) : a - 2 - 1 = a - 3 := by rw [BitVec.sub_sub]; rfl

/-- The trap entry, through a vector of the vector window. -/
theorem trapEntry_spec (w : Work) {p : Cpu → Prog Finish} {s : State} (hw : Ram.wf s.ram = true) {vec : Word}
    (hv : 0xFFFA ≤ vec.toNat) (hv2 : vec.toNat < 0xFFFF) {b : Bool} {n : Nat} {k : Cpu}
    (hp : p s.cpu = trapEntry vec b n k) :
    s.Entered k k.pc b vec (perform w p s) ∧ Ram.wf (perform w p s).ram = true := by
  have h : (p s.cpu).Calm := by rw [hp]; exact trapEntry_calm _ _ _ _
  -- the three pushes
  generalize h1e : s.busWrite (stackAddr k.sp) (hi k.pc) = s1
  generalize h2e : s1.busWrite (stackAddr (k.sp - 1)) (lo k.pc) = s2
  generalize h3e : s2.busWrite (stackAddr (k.sp - 2)) (k.status b) = u
  have h1 := State.busWrite_stored hw (stackAddr k.sp) (hi k.pc)
  rw [h1e] at h1
  have h2 := State.busWrite_stored h1.canonical (stackAddr (k.sp - 1)) (lo k.pc)
  rw [h2e] at h2
  have h3 := State.busWrite_stored h2.canonical (stackAddr (k.sp - 2)) (k.status b)
  rw [h3e] at h3
  obtain ⟨a1, b1, c1, d1, e1, f1, g1⟩ := h1.low (stackAddr_low _)
  obtain ⟨a2, b2, c2, d2, e2, f2, g2⟩ := h2.low (stackAddr_low _)
  obtain ⟨a3, b3, c3, d3, e3, f3, g3⟩ := h3.low (stackAddr_low _)
  have n1 : stackAddr k.sp ≠ stackAddr (k.sp - 1) := stackAddr_ne (sp_ne1 _)
  have n2 : stackAddr k.sp ≠ stackAddr (k.sp - 2) := stackAddr_ne (sp_ne2 _)
  have n3 : stackAddr (k.sp - 1) ≠ stackAddr (k.sp - 2) := stackAddr_ne (sp_ne3 _)
  have hmap : u.mapctl = s.mapctl := b3.trans (b2.trans b1)
  have hrom : u.rom = s.rom := c3.trans (c2.trans c1)
  have hothers : ∀ x : Word, x ≠ stackAddr k.sp → x ≠ stackAddr (k.sp - 1) → x ≠ stackAddr (k.sp - 2) →
      u.ramAt x = s.ramAt x := fun x y1 y2 y3 => (h3.others x y3).trans ((h2.others x y2).trans (h1.others x y1))
  -- the vector
  have hb : ∀ x : Word, 0xFFFA ≤ x.toNat → s.backingOf x = if bit s.mapctl 3 then .ram else .rom := fun x hx => by
    unfold State.backingOf backing
    rw [if_neg (by omega), if_neg (by omega), if_neg (by omega), if_neg (by omega), if_neg, if_neg]
    · intro e; rw [e] at hx; exact absurd hx (by decide)
    · intro e; rw [e] at hx; exact absurd hx (by decide)
  have hub : ∀ x : Word, u.backingOf x = s.backingOf x := fun x => by unfold State.backingOf; rw [hmap]
  have hvn : (vec + 1).toNat = vec.toNat + 1 := by
    rw [BitVec.toNat_add]; show (vec.toNat + 1) % 65536 = _; omega
  have hpl : ∀ x : Word, 0xFFFA ≤ x.toNat → u.plain x = true := fun x hx => by
    unfold State.plain; rw [hub, hb x hx]; split <;> rfl
  have hpk : ∀ x : Word, 0xFFFA ≤ x.toNat → u.peek x = s.peek x := fun x hx => by
    have ne : ∀ y : Byte, x ≠ stackAddr y := fun y e => by
      rw [e, stackAddr_toNat] at hx; have := y.isLt; omega
    unfold State.peek
    rw [hub, hb x hx]
    cases bit s.mapctl 3
    · show romByte u.rom _ = romByte s.rom _
      rw [hrom]
    · exact hothers x (ne _) (ne _) (ne _)
  obtain ⟨v1, v2⟩ := read16_spec (s := u) (a := vec) { k with sp := k.sp - 3, i := true, d := false } (hpl vec hv)
    (hpl (vec + 1) (by omega))
  generalize hr : (read16 vec { k with sp := k.sp - 3, i := true, d := false }).eval u = r at *
  have hr' : ∀ q : Cpu, (read16 vec { k with sp := k.sp - 3, i := true, d := false }).eval (u.withCpu q) =
      (r.1, r.2) := fun q => by
    rw [← hr]; simp [read16, memRead]
  have e : (p s.cpu).eval s = ({ cpu := { k with sp := k.sp - 3, i := true, d := false, pc := r.1 }, idle := n }, r.2) := by
    rw [hp]
    have x1 : k.sp - 1 - 1 = k.sp - 2 := sp_sub _
    have x2 : k.sp - 2 - 1 = k.sp - 3 := sp_sub3 _
    simp only [trapEntry, pushWord, push, memWrite, Prog.done_bind, Prog.write_bind, Prog.eval_write,
      State.busWrite_withCpu, State.withCpu_withCpu, h1e, h2e, x1, x2]
    have hst : Cpu.status { k with sp := k.sp - 2 } b = k.status b := rfl
    rw [hst, h3e, Prog.eval_bind, hr']
    rfl
  rw [h.perform w, e]
  have hw' : Ram.wf u.ram = true := h3.canonical
  have hrr : r.2.ram = u.ram := by rw [← hr]; simp [read16, memRead]
  refine ⟨⟨⟨?_, rfl⟩, ?_, ?_, ?_, ?_, ?_, ?_, ?_, ?_, ?_, ?_⟩, ?_⟩
  · show { k with sp := k.sp - 3, i := true, d := false, pc := r.1 } = _
    rw [v1, hpk vec hv, hpk (vec + 1) (by omega)]
  · exact (v2.ram _).trans ((h3.others _ n2).trans ((h2.others _ n1).trans a1))
  · exact (v2.ram _).trans ((h3.others _ n3).trans a2)
  · exact (v2.ram _).trans a3
  · exact fun x y1 y2 y3 => (v2.ram _).trans (hothers x y1 y2 y3)
  · exact v2.mapctl.trans hmap
  · exact v2.rom.trans hrom
  · exact v2.suzy.trans (d3.trans (d2.trans d1))
  · exact v2.inputs.trans (e3.trans (e2.trans e1))
  · exact v2.cart.trans (f3.trans (f2.trans f1))
  · exact (((g1.trans g2).trans g3).trans v2.io).trans (State.ended_quiet _ _).io
  · show Ram.wf r.2.ram = true
    rw [hrr]; exact hw'

theorem poll_nmi (s : State) : s.poll = .nmi ↔ s.nmiDue = true := by
  unfold State.poll; split
  · simp [*]
  · split <;> simp [*]

theorem poll_irq (s : State) : s.poll = .irq ↔ s.nmiDue = false ∧ s.irqDue = true := by
  unfold State.poll; split
  · simp [*]
  · split <;> simp_all

/-! ### Fetching an instruction -/

/-- How many of its operand bytes an instruction prefetches depends on its opcode only. -/
theorem Instr.fill_prefetched (b1 b2 : Byte) (i : Instr) : Instr.prefetched (i.fill b1 b2) = Instr.prefetched i := by
  cases i <;> first | rfl | (rename_i s; cases s <;> first | rfl | (rename_i a; cases a <;> rfl))

/-- Of two operand bytes at least one is prefetched. -/
theorem Instr.prefetched_cases (i : Instr) :
    i.operandBytes = 2 ∧ (Instr.prefetched i = 2 ∨ Instr.prefetched i = 1) ∨
    i.operandBytes = 1 ∧ (Instr.prefetched i = 1 ∨ Instr.prefetched i = 0) ∨
    i.operandBytes = 0 ∧ Instr.prefetched i = 0 := by
  have src : ∀ s : Src, s.operandBytes = 2 ∨ s.operandBytes = 1 := by
    intro s; cases s <;> first | exact .inr rfl | (rename_i a; cases a <;> first | exact .inl rfl | exact .inr rfl)
  have addr : ∀ a : Addr, a.operandBytes = 2 ∨ a.operandBytes = 1 := by
    intro a; cases a <;> first | exact .inl rfl | exact .inr rfl
  have same : ∀ n : Nat, n = 2 ∨ n = 1 ∨ n = 0 →
      n = 2 ∧ (n = 2 ∨ n = 1) ∨ n = 1 ∧ (n = 1 ∨ n = 0) ∨ n = 0 ∧ n = 0 := by omega
  cases i
  case asl d | lsr d | rol d | ror d | inc d | dec d =>
    refine same d.operandBytes ?_
    cases d with
    | acc => exact .inr (.inr rfl)
    | mem a => rcases addr a with h | h <;> [exact .inl h; exact .inr (.inl h)]
  all_goals first
    | exact .inr (.inr ⟨rfl, rfl⟩)
    | exact .inr (.inl ⟨rfl, .inl rfl⟩)
    | exact .inr (.inl ⟨rfl, .inr rfl⟩)
    | exact .inl ⟨rfl, .inl rfl⟩
    | exact .inl ⟨rfl, .inr rfl⟩
    | (rename_i x; exact same x.operandBytes (by rcases src x with h | h <;> [exact .inl h; exact .inr (.inl h)]))
    | (rename_i x; exact same x.operandBytes (by rcases addr x with h | h <;> [exact .inl h; exact .inr (.inl h)]))

/-- The bytes that a meaning reads itself have no part in the term. -/
theorem exec_late (j : Instr) (b1 b2 c1 c2 : Byte) (s : State)
    (h : Instr.prefetched j = 2 → b1 = c1 ∧ b2 = c2) (g : Instr.prefetched j = 1 → b1 = c1) :
    exec (j.fill b1 b2) s = exec (j.fill c1 c2) s := by
  cases j
  case brk x =>
    show Host.Outcome.next (perform _ brkTrap s) = .next (perform _ brkTrap s)
    rw [perform_work (p := brkTrap) (trapEntry_calm _ _ _ _)]
  case jsr x =>
    obtain rfl := g rfl
    have e : ∀ y, progJsr (join y b1) = callWith b1 := fun y => by funext k; unfold progJsr; rw [lo_join]
    show Host.Outcome.next (perform _ (progJsr (join b2 b1)) s) = .next (perform _ (progJsr (join c2 b1)) s)
    rw [e, e, perform_work (callWith_calm _ _)]
  case bbr0 x y | bbr1 x y | bbr2 x y | bbr3 x y | bbr4 x y | bbr5 x y | bbr6 x y | bbr7 x y | bbs0 x y | bbs1 x y
      | bbs2 x y | bbs3 x y | bbs4 x y | bbs5 x y | bbs6 x y | bbs7 x y =>
    obtain rfl := g rfl
    exact congrArg Host.Outcome.next (perform_work (p := branchOnBit _ _ _) (branchOnBit_calm _ _ _ _) _ _)
  all_goals
    refine congrArg (exec · s) ?_
    first
      | rfl
      | (obtain rfl := g rfl; rfl)
      | (obtain ⟨rfl, rfl⟩ := h rfl; rfl)
      | (rename_i x; cases x <;> first | rfl | (obtain rfl := g rfl; rfl) | (obtain ⟨rfl, rfl⟩ := h rfl; rfl) |
          (rename_i a; cases a <;> first | rfl | (obtain rfl := g rfl; rfl) | (obtain ⟨rfl, rfl⟩ := h rfl; rfl)))

/-- One byte fetched where no device register answers. -/
theorem fetch_eval {s : State} {k : Cpu} (h : s.plain k.pc = true) :
    ∃ t, (fetch k).eval s = ({ byte := s.peek k.pc, cpu := { k with pc := k.pc + 1 } }, t) ∧ s.Quiet t := by
  refine ⟨(s.busRead k.pc).2.withCpu k, ?_, (State.busRead_quiet h).trans (State.quiet_cpu _ _)⟩
  have : (fetch k).eval s = ({ byte := (s.busRead k.pc).1, cpu := { k with pc := k.pc + 1 } },
      (s.busRead k.pc).2.withCpu k) := by simp [fetch, memRead]
  rw [this, State.busRead_plain h]

/-- Fetching where no device register answers: an instruction that does what the decoded one does, PC behind the prefetched
bytes, and nothing else but what time changes. -/
theorem fetchInstr_spec {s : State} {i : Instr} {rest : List Byte}
    (hd : decode [s.peek s.cpu.pc, s.peek (s.cpu.pc + 1), s.peek (s.cpu.pc + 2)] = .ok (i, rest))
    (hp : ∀ k : Nat, k < i.length → s.plain (s.cpu.pc + BitVec.ofNat 16 k) = true) :
    (∀ u, exec (fetchInstr s).1 u = exec i u) ∧ s.Quiet (fetchInstr s).2 ∧
    (fetchInstr s).2.cpu = { s.cpu with pc := s.cpu.pc + 1 + BitVec.ofNat 16 (Instr.prefetched i) } := by
  generalize hj : decodeOpWith true (s.peek s.cpu.pc) 0 0 = j
  have hf : ∀ b1 b2, decodeOpWith true (s.peek s.cpu.pc) b1 b2 = j.fill b1 b2 := fun b1 b2 => by
    rw [decodeOp_fill, hj]
  have hi : j.fill (s.peek (s.cpu.pc + 1)) (s.peek (s.cpu.pc + 2)) = i := by
    simp only [decode, decodeWith, Config.bitOps, List.getD_cons_zero, List.getD_cons_succ, hf] at hd
    split at hd
    · cases hd
    · injection hd with hd; injection hd
  have hn : j.operandBytes = i.operandBytes := by rw [← hi, Instr.fill_operandBytes]
  have hk : Instr.prefetched j = Instr.prefetched i := by rw [← hi, Instr.fill_prefetched]
  have hle : Instr.prefetched i ≤ i.operandBytes := by rcases Instr.prefetched_cases i with h | h | h <;> omega
  have h0 : s.plain s.cpu.pc = true := by simpa using hp 0 (by unfold Instr.length; omega)
  have h1 : 1 ≤ i.operandBytes → s.plain (s.cpu.pc + 1) = true := fun h => hp 1 (by unfold Instr.length; omega)
  have h2 : 2 ≤ i.operandBytes → s.plain (s.cpu.pc + 1 + 1) = true := fun h => by
    have := hp 2 (by unfold Instr.length; omega)
    rw [BitVec.add_assoc]; exact this
  have e2 : s.cpu.pc + 1 + 1 = s.cpu.pc + 2 := by rw [BitVec.add_assoc]; rfl
  obtain ⟨t0, f0, q0⟩ := fetch_eval h0
  have key : ∃ b1 b2 t, (fetchProg s.cpu).eval s =
      ({ instr := j.fill b1 b2, cpu := { s.cpu with pc := s.cpu.pc + 1 + BitVec.ofNat 16 (Instr.prefetched j) } }, t) ∧
      s.Quiet t ∧ (Instr.prefetched j = 2 → b1 = s.peek (s.cpu.pc + 1) ∧ b2 = s.peek (s.cpu.pc + 2)) ∧
      (Instr.prefetched j = 1 → b1 = s.peek (s.cpu.pc + 1)) := by
    have e : (fetchProg s.cpu).eval s =
        (match Instr.prefetched j with
          | 0 => Prog.done (decoded (s.peek s.cpu.pc) 0 0 { s.cpu with pc := s.cpu.pc + 1 })
          | 1 => (fetch { s.cpu with pc := s.cpu.pc + 1 }).bind fun b1 => .done (decoded (s.peek s.cpu.pc) b1.byte 0 b1.cpu)
          | _ => (fetch { s.cpu with pc := s.cpu.pc + 1 }).bind fun b1 => (fetch b1.cpu).bind fun b2 =>
              .done (decoded (s.peek s.cpu.pc) b1.byte b2.byte b2.cpu)).eval t0 := by
      unfold fetchProg
      rw [Prog.eval_bind, f0]
      simp only [Config.bitOps, hj]
      all_goals rfl
    rw [e]
    have one : 1 ≤ Instr.prefetched j → ∃ t1, (fetch { s.cpu with pc := s.cpu.pc + 1 }).eval t0 =
        ({ byte := s.peek (s.cpu.pc + 1), cpu := { s.cpu with pc := s.cpu.pc + 1 + 1 } }, t1) ∧ s.Quiet t1 := fun hh => by
      have g := h1 (by omega)
      obtain ⟨t1, f1, q1⟩ := fetch_eval (s := t0) (k := { s.cpu with pc := s.cpu.pc + 1 })
        (by rw [State.Kept.plain q0]; exact g)
      exact ⟨t1, by rw [f1, q0.peek g], State.Quiet.trans q0 q1⟩
    rcases Instr.prefetched_cases i with ⟨ho, k | k⟩ | ⟨ho, k | k⟩ | ⟨ho, k⟩ <;> rw [← hk] at k <;> simp only [k]
    · obtain ⟨t1, f1, q1⟩ := one (by omega)
      obtain ⟨t2, f2, q2⟩ := fetch_eval (s := t1) (k := { s.cpu with pc := s.cpu.pc + 1 + 1 })
        (by rw [State.Kept.plain q1]; exact h2 (by omega))
      refine ⟨s.peek (s.cpu.pc + 1), s.peek (s.cpu.pc + 2), t2, ?_, State.Quiet.trans q1 q2, fun _ => ⟨rfl, rfl⟩, fun _ => rfl⟩
      rw [Prog.eval_bind, f1]
      simp only
      rw [Prog.eval_bind, f2, q1.peek (h2 (by omega)), e2]
      simp only [decoded, Config.bitOps, hf, Prog.eval_done, BitVec.add_assoc]
      rfl
    all_goals try
      (obtain ⟨t1, f1, q1⟩ := one (by omega)
       refine ⟨s.peek (s.cpu.pc + 1), 0, t1, ?_, q1, fun h => by omega, fun _ => rfl⟩
       rw [Prog.eval_bind, f1]
       simp only [decoded, Config.bitOps, hf, Prog.eval_done, BitVec.add_assoc]
       rfl)
    all_goals
      refine ⟨0, 0, t0, ?_, q0, fun h => by omega, fun h => by omega⟩
      simp only [decoded, Config.bitOps, hf, Prog.eval_done]
      simp
  obtain ⟨b1, b2, t, e, q, g2, g1⟩ := key
  have e1 : (fetchInstr s).1 = j.fill b1 b2 := by
    show ((fetchProg s.cpu).eval s).1.instr = _
    rw [e]
  refine ⟨fun u => ?_, ?_, ?_⟩
  · rw [e1, ← hi]
    exact exec_late j _ _ _ _ u g2 g1
  · show s.Quiet (((fetchProg s.cpu).eval s).2.withCpu ((fetchProg s.cpu).eval s).1.cpu)
    rw [e]
    exact State.Quiet.trans q (State.quiet_cpu _ _)
  · show ((fetchProg s.cpu).eval s).1.cpu = _
    rw [e, hk]

end Sys2Proof.Machine
end

