-- ==== Sys2Proof/Laws/Suzy.lean ====
section
/-! SUPPORT. What the sprite engine can do: each move and each answer to an access keeps the registers fitting together, the
addresses written lie in the screen, the collision buffer or the depository, and a Suzy-step changes nothing else outside the
engine but what time changes. -/

namespace Sys2Proof.Machine

/-! ### The walk: everything but drawing -/

/-- The engine goes on outside the drawing phases: it stays at work, both operators stay empty, and a line start has the row's
addresses. -/
structure Suzy.Walks (z z' : Suzy) : Prop where
  halted : z'.halted = z.halted
  working : z'.working = z.working
  vidbas : z'.vidbas = z.vidbas
  collbas : z'.collbas = z.collbas
  video : z.videoAcc = none → z'.videoAcc = none
  coll : z.collAcc = none → z'.collAcc = none
  phase : z'.phase.inRow = false ∧ z'.phase ≠ .idle
  line : z'.phase.atLine = true → z'.Placed

theorem Suzy.beginSourceRow_walks (z : Suzy) : z.Walks z.beginSourceRow :=
  ⟨rfl, rfl, rfl, rfl, id, id, ⟨rfl, nofun⟩, fun _ h => ⟨if_neg h, if_neg h⟩⟩

theorem Suzy.beginQuadrant_walks (z : Suzy) : z.Walks z.beginQuadrant :=
  ⟨rfl, rfl, rfl, rfl, id, id, ⟨rfl, nofun⟩, fun _ h => ⟨if_neg h, if_neg h⟩⟩

theorem Suzy.endSourceRow_walks (z : Suzy) : z.Walks z.endSourceRow :=
  ⟨rfl, rfl, rfl, rfl, id, id, ⟨rfl, nofun⟩, fun _ h => ⟨if_neg h, if_neg h⟩⟩

theorem Suzy.beginSprite_walks (z : Suzy) : z.Walks z.beginSprite :=
  ⟨rfl, rfl, rfl, rfl, fun _ => rfl, fun _ => rfl, ⟨rfl, nofun⟩, fun _ h => ⟨if_neg h, if_neg h⟩⟩

theorem Suzy.endQuadrant_walks (z : Suzy) : z.Walks z.endQuadrant := by
  unfold Suzy.endQuadrant
  split <;> [exact ⟨rfl, rfl, rfl, rfl, id, id, ⟨rfl, nofun⟩, nofun⟩; exact ⟨rfl, rfl, rfl, rfl, id, id, ⟨rfl, nofun⟩, fun _ h => ⟨if_neg h, if_neg h⟩⟩]

theorem Suzy.afterReload_walks (z : Suzy) : z.Walks z.afterReload := by
  unfold Suzy.afterReload
  split <;> [exact z.beginSprite_walks; exact ⟨rfl, rfl, rfl, rfl, id, id, ⟨rfl, nofun⟩, nofun⟩]

theorem Suzy.afterScb_walks (z : Suzy) : z.Walks z.afterScb := by
  unfold Suzy.afterScb
  split <;> [exact z.afterReload_walks; exact ⟨rfl, rfl, rfl, rfl, id, id, ⟨rfl, nofun⟩, nofun⟩]

theorem Suzy.scbByte_walks (k : Nat) (b : Byte) (z : Suzy) : z.Walks (z.scbByte k b) := by
  unfold Suzy.scbByte
  split
  case h_5 =>
    refine ⟨rfl, rfl, rfl, rfl, id, id, ?_, ?_⟩ <;> simp only <;> split <;> first | exact ⟨rfl, nofun⟩ | exact nofun
  case h_11 =>
    have h := Suzy.afterScb_walks { z with vposstrt := setHi z.vposstrt b }
    exact ⟨h.halted, h.working, h.vidbas, h.collbas, h.video, h.coll, h.phase, h.line⟩
  all_goals exact ⟨rfl, rfl, rfl, rfl, id, id, ⟨rfl, nofun⟩, nofun⟩

theorem Suzy.reloadSet_fields (k : Nat) (b : Byte) (z : Suzy) :
    (z.reloadSet k b).halted = z.halted ∧ (z.reloadSet k b).working = z.working ∧
    (z.reloadSet k b).vidbas = z.vidbas ∧ (z.reloadSet k b).collbas = z.collbas ∧
    (z.reloadSet k b).videoAcc = z.videoAcc ∧ (z.reloadSet k b).collAcc = z.collAcc := by
  unfold Suzy.reloadSet; split <;> exact ⟨rfl, rfl, rfl, rfl, rfl, rfl⟩

theorem Suzy.reloadByte_walks (k : Nat) (b : Byte) (z : Suzy) : z.Walks (z.reloadByte k b) := by
  obtain ⟨h1, h2, h3, h4, h5, h6⟩ := z.reloadSet_fields k b
  have g := (z.reloadSet k b).afterReload_walks
  unfold Suzy.reloadByte
  simp only
  split
  · exact ⟨h1, h2, h3, h4, fun h => h5.trans h, fun h => h6.trans h, ⟨rfl, nofun⟩, nofun⟩
  · exact ⟨g.halted.trans h1, g.working.trans h2, g.vidbas.trans h3, g.collbas.trans h4, fun h => g.video (h5.trans h),
      fun h => g.coll (h6.trans h), g.phase, g.line⟩

theorem Suzy.paletteByte_walks (k : Nat) (b : Byte) (z : Suzy) : z.Walks (z.paletteByte k b) := by
  unfold Suzy.paletteByte; simp only
  split <;> [exact ⟨rfl, rfl, rfl, rfl, id, id, ⟨rfl, nofun⟩, nofun⟩;
    exact ⟨rfl, rfl, rfl, rfl, fun _ => rfl, fun _ => rfl, ⟨rfl, nofun⟩, fun _ h => ⟨if_neg h, if_neg h⟩⟩]

theorem Suzy.nextRow_walks (z : Suzy) : z.Walks z.nextRow := by
  unfold Suzy.nextRow; simp only; split <;> exact ⟨rfl, rfl, rfl, rfl, id, id, ⟨rfl, nofun⟩, fun _ h => ⟨if_neg h, if_neg h⟩⟩

/-! ### One move of the engine -/

/-- The engine goes from `z` to `z'`: its registers keep fitting together, and the screen and the collision buffer stay where
they are. -/
structure Suzy.Goes (z z' : Suzy) : Prop where
  ok : z'.Ok
  vidbas : z'.vidbas = z.vidbas
  collbas : z'.collbas = z.collbas

theorem Suzy.Ok.refl {z : Suzy} (h : z.Ok) : z.Goes z := ⟨h, rfl, rfl⟩

theorem Suzy.Goes.trans {z y x : Suzy} (h : z.Goes y) (g : y.Goes x) : z.Goes x :=
  ⟨g.ok, g.vidbas.trans h.vidbas, g.collbas.trans h.collbas⟩

/-- An engine that has an operator's byte is in a row. -/
theorem Suzy.Ok.empty {z : Suzy} (h : z.Ok) (hp : z.phase.inRow = false) : z.videoAcc = none ∧ z.collAcc = none := by
  constructor
  · cases e : z.videoAcc with
    | none => rfl
    | some c => have := (h.video c e).1; rw [hp] at this; cases this
  · cases e : z.collAcc with
    | none => rfl
    | some c => have := (h.coll c e).1; rw [hp] at this; cases this

theorem Suzy.Ok.atWork {z : Suzy} (h : z.Ok) (hp : z.phase ≠ .idle) : z.halted = true := by
  cases e : z.halted with
  | true => rfl
  | false => exact absurd (h.idle e) hp

/-- With both operators empty and outside a row, being at work is all that is asked. -/
theorem Suzy.ok_of_walk {z z' : Suzy} (g : z.Walks z') (hh : z.halted = true) (hw : z.halted = z.working)
    (hv : z.videoAcc = none) (hc : z.collAcc = none) : z.Goes z' := by
  have v := g.video hv
  have c := g.coll hc
  have p := g.phase.1
  refine ⟨⟨?_, fun e => ?_, fun x e => ?_, fun x e => ?_, fun e => ?_, fun e => ?_, g.line⟩, g.vidbas, g.collbas⟩
  · rw [g.halted, g.working, hw]
  · rw [g.halted, hh] at e; cases e
  · rw [v] at e; cases e
  · rw [c] at e; cases e
  · rcases e with e | e | e <;> rw [e] at p <;> cases p
  · rcases e with e | e <;> rw [e] at p <;> cases p

theorem Suzy.Ok.walk {z z' : Suzy} (h : z.Ok) (hp : z.phase.inRow = false) (hi : z.phase ≠ .idle) (g : z.Walks z') :
    z.Goes z' := Suzy.ok_of_walk g (h.atWork hi) h.halted (h.empty hp).1 (h.empty hp).2

/-- The walk ends. -/
theorem Suzy.Ok.finish {z : Suzy} (h : z.Ok) (hp : z.phase.inRow = false) : z.Goes z.finish :=
  ⟨⟨rfl, fun _ => rfl, fun _ e => (nomatch (h.empty hp).1.symm.trans e), fun _ e => (nomatch (h.empty hp).2.symm.trans e),
    nofun, nofun, nofun⟩, rfl, rfl⟩

/-! ### Where the row lies -/

/-- The byte of an on-screen column of an on-screen row lies in the buffer. -/
theorem columnAddr_inArea (base : Word) {y : Nat} (hy : y < 102) {x : Word} (hx : x.toNat < 160) :
    inArea base (columnAddr (base + BitVec.ofNat 16 (80 * y)) x) := by
  unfold inArea columnAddr
  rw [BitVec.add_assoc, BitVec.add_comm, BitVec.add_sub_cancel]
  rw [BitVec.toNat_add, BitVec.toNat_ofNat, BitVec.toNat_ushiftRight, Nat.shiftRight_eq_div_pow]
  rw [Nat.mod_eq_of_lt (a := 80 * y) (by omega), Nat.mod_eq_of_lt (by omega)]
  omega

/-- The cells of the current column. -/
theorem Suzy.Ok.cells {z : Suzy} (h : z.Ok) (hp : z.phase = .coll ∨ z.phase = .video) :
    inArea z.vidbas z.videoCell ∧ inArea z.collbas z.collCell := by
  obtain ⟨y, hy, h1, h2⟩ := h.row (.inr hp)
  have hx := h.column hp
  unfold Suzy.videoCell Suzy.collCell
  rw [h1, h2]
  exact ⟨columnAddr_inArea _ hy hx, columnAddr_inArea _ hy hx⟩

theorem Suzy.colOn_lt {z : Suzy} (h : z.colOn = true) : z.sprhpos.toNat < 160 := by
  unfold Suzy.colOn Config.linePixels at h
  have h := of_decide_eq_true h
  have := z.sprhpos.isLt
  rw [BitVec.toInt_eq_toNat_cond] at h
  split at h <;> omega

/-- A row on the screen that is left lies inside the buffers. -/
theorem Suzy.Placed.row {z : Suzy} (h : z.Placed) (hl : z.rowsLeft ≠ 0) (ho : z.rowOff = false) :
    ∃ y : Nat, y < 102 ∧ z.vidadr = z.vidbas + BitVec.ofNat 16 (80 * y) ∧ z.colladr = z.collbas + BitVec.ofNat 16 (80 * y) := by
  unfold Suzy.rowOff Config.frameLines at ho
  have ho := of_decide_eq_false ho
  have hl' := z.sprvpos.isLt
  rw [BitVec.toInt_eq_toNat_cond] at ho
  refine ⟨z.sprvpos.toNat, ?_, ?_⟩
  · split at ho <;> omega
  · have e : z.sprvpos * BitVec.ofNat 16 Config.lineBytes = BitVec.ofNat 16 (80 * z.sprvpos.toNat) := by
      apply BitVec.eq_of_toNat_eq
      rw [BitVec.toNat_mul, BitVec.toNat_ofNat, Nat.mul_comm]; rfl
    obtain ⟨h1, h2⟩ := h hl
    exact ⟨h1.trans (congrArg (z.vidbas + ·) e), h2.trans (congrArg (z.collbas + ·) e)⟩

/-! ### Row phases -/

/-- What a move inside a row leaves as it is. -/
structure Suzy.Stays (z z' : Suzy) : Prop where
  halted : z'.halted = z.halted
  working : z'.working = z.working
  vidbas : z'.vidbas = z.vidbas
  collbas : z'.collbas = z.collbas
  vidadr : z'.vidadr = z.vidadr
  colladr : z'.colladr = z.colladr
  video : z'.videoAcc = z.videoAcc
  coll : z'.collAcc = z.collAcc

theorem Suzy.Stays.refl (z : Suzy) : z.Stays z := ⟨rfl, rfl, rfl, rfl, rfl, rfl, rfl, rfl⟩

/-- A move from one row phase to another that leaves the operators. -/
theorem Suzy.Ok.stay {z z' : Suzy} (h : z.Ok) (g : z.Stays z') (hp : z.phase = .parse ∨ z.phase = .coll ∨ z.phase = .video)
    (hq : z'.phase = .parse ∨ z'.phase = .rowVideo ∨ z'.phase = .coll ∧ z'.sprhpos.toNat < 160) : z.Goes z' := by
  have hw : z.halted = true := h.atWork (by rcases hp with e | e | e <;> rw [e] <;> exact nofun)
  have hr : z'.phase.inRow = true ∧ z'.phase ≠ .rowColl := by
    rcases hq with e | e | ⟨e, -⟩ <;> rw [e] <;> exact ⟨rfl, nofun⟩
  refine ⟨⟨?_, fun e => ?_, fun x e => ?_, fun x e => ?_, fun _ => ?_, fun e => ?_, fun e => ?_⟩, g.vidbas, g.collbas⟩
  · rw [g.halted, g.working, h.halted]
  · rw [g.halted, hw] at e; cases e
  · rw [g.video] at e; rw [g.vidbas]; exact ⟨hr.1, hr.2, (h.video x e).2.2⟩
  · rw [g.coll] at e; rw [g.collbas]; exact ⟨hr.1, (h.coll x e).2⟩
  · rw [g.vidadr, g.colladr, g.vidbas, g.collbas]; exact h.row hp
  · rcases hq with q | q | ⟨-, q⟩
    · rw [q] at e; rcases e with e | e <;> cases e
    · rw [q] at e; rcases e with e | e <;> cases e
    · exact q
  · rcases hq with q | q | ⟨q, -⟩ <;> rw [q] at e <;> cases e

theorem Suzy.takePen_stays (f : Nibble → Parse) (z : Suzy) : z.Stays (z.takePen f) ∧ (z.takePen f).phase = z.phase :=
  ⟨⟨rfl, rfl, rfl, rfl, rfl, rfl, rfl, rfl⟩, rfl⟩

theorem Suzy.takeHeader_stays (z : Suzy) :
    z.Stays z.takeHeader ∧ (z.takeHeader.phase = z.phase ∨ z.takeHeader.phase = .rowVideo) := by
  unfold Suzy.takeHeader
  extract_lets h
  split
  · exact ⟨⟨rfl, rfl, rfl, rfl, rfl, rfl, rfl, rfl⟩, .inl rfl⟩
  · split
    · exact ⟨⟨rfl, rfl, rfl, rfl, rfl, rfl, rfl, rfl⟩, .inr rfl⟩
    · exact ⟨⟨rfl, rfl, rfl, rfl, rfl, rfl, rfl, rfl⟩, .inl rfl⟩

theorem Suzy.parseMove_stays (z : Suzy) (hp : z.phase = .parse) :
    z.Stays z.parseMove ∧ (z.parseMove.phase = .parse ∨ z.parseMove.phase = .rowVideo) := by
  unfold Suzy.parseMove
  split
  · exact ⟨⟨rfl, rfl, rfl, rfl, rfl, rfl, rfl, rfl⟩, .inr rfl⟩
  · cases z.parse with
    | literal => exact ⟨(z.takePen_stays _).1, .inl hp⟩
    | header => exact ⟨z.takeHeader_stays.1, z.takeHeader_stays.2.imp (·.trans hp) id⟩
    | block n => cases n with
      | zero => exact ⟨⟨rfl, rfl, rfl, rfl, rfl, rfl, rfl, rfl⟩, .inl hp⟩
      | succ n => exact ⟨(z.takePen_stays _).1, .inl hp⟩
    | runPen n => exact ⟨(z.takePen_stays _).1, .inl hp⟩
    | run n p => cases n with
      | zero => exact ⟨⟨rfl, rfl, rfl, rfl, rfl, rfl, rfl, rfl⟩, .inl hp⟩
      | succ n => exact ⟨⟨rfl, rfl, rfl, rfl, rfl, rfl, rfl, rfl⟩, .inl hp⟩

/-- The operators' bytes after a column. -/
theorem Accum.put_addr (c : Accum) (high : Bool) (p : Nibble) : (c.put high p).addr = c.addr := by
  unfold Accum.put; split <;> rfl

theorem Suzy.collide_goes {z : Suzy} (h : z.Ok) (hp : z.phase = .coll) : z.Goes { z.collide with phase := .video } := by
  have hw := h.atWork (by rw [hp]; exact nofun)
  have hc := (h.cells (.inl hp)).2
  have key : ∀ (n : Byte) (c : Accum), inArea z.collbas c.addr →
      z.Goes { z with hiColl := n, collAcc := some c, phase := .video } := fun n c g =>
    ⟨⟨h.halted, fun e => (nomatch e.symm.trans hw), fun x e => ⟨rfl, nofun, (h.video x e).2.2⟩,
      fun x e => ⟨rfl, by cases e; exact g⟩, fun _ => h.row (.inr (.inl hp)), fun _ => h.column (.inl hp), nofun⟩, rfl, rfl⟩
  unfold Suzy.collide
  split
  · refine key z.hiColl _ ?_
    rw [Accum.put_addr]
    cases e : z.collAcc with
    | none => exact hc
    | some c => exact (h.coll c e).2
  · cases e : z.collAcc with
    | none =>
      exact ⟨⟨h.halted, fun e => (nomatch e.symm.trans hw), fun x e => ⟨rfl, nofun, (h.video x e).2.2⟩,
        fun x g => (nomatch e.symm.trans g), fun _ => h.row (.inr (.inl hp)), fun _ => h.column (.inl hp), nofun⟩, rfl, rfl⟩
    | some c => refine key _ _ ?_; rw [Accum.put_addr]; exact (h.coll c e).2

theorem Suzy.leaveColumn_goes {z : Suzy} (h : z.Ok) (hp : z.phase = .video) : z.Goes z.leaveColumn := by
  unfold Suzy.leaveColumn
  split
  · exact h.stay ⟨rfl, rfl, rfl, rfl, rfl, rfl, rfl, rfl⟩ (.inr (.inr hp)) (.inl rfl)
  · exact h.stay ⟨rfl, rfl, rfl, rfl, rfl, rfl, rfl, rfl⟩ (.inr (.inr hp)) (.inr (.inl rfl))

theorem Suzy.gather_goes {z : Suzy} (h : z.Ok) (hp : z.phase = .video) : z.Goes z.gather := by
  have hw := h.atWork (by rw [hp]; exact nofun)
  have hq : z.gather.phase = .video := hp
  refine ⟨⟨h.halted, fun e => (nomatch e.symm.trans hw), fun x e => ⟨by rw [hq]; rfl, by rw [hq]; exact nofun, ?_⟩, h.coll,
    h.row, h.column, fun e => by rw [hq] at e; cases e⟩, rfl, rfl⟩
  have e : some ((z.videoAcc.getD (.empty z.videoCell)).put (columnHi z.sprhpos) z.pixel) = some x := e
  injection e with e
  rw [← e, Accum.put_addr]
  show inArea z.vidbas _
  cases g : z.videoAcc with
  | none => exact (h.cells (.inr hp)).1
  | some c => exact (h.video c g).2.2

/-! ### Moves, answers, writes -/

/-- The pixels of a row start. -/
theorem Suzy.beginRow_goes {z : Suzy} (h : z.halted = z.working) (hw : z.halted = true) (hv : z.videoAcc = none)
    (hc : z.collAcc = none)
    (hr : ∃ y : Nat, y < 102 ∧ z.vidadr = z.vidbas + BitVec.ofNat 16 (80 * y) ∧ z.colladr = z.collbas + BitVec.ofNat 16 (80 * y)) :
    z.Goes z.beginRow := by
  have hp : z.beginRow.phase = .parse := rfl
  refine ⟨⟨h, fun e => ?_, fun _ e => ?_, fun _ e => ?_, fun _ => hr, fun e => ?_, fun e => ?_⟩, rfl, rfl⟩
  · exact nomatch e.symm.trans hw
  · exact nomatch hv.symm.trans e
  · exact nomatch hc.symm.trans e
  · rw [hp] at e; rcases e with e | e <;> cases e
  · rw [hp] at e; cases e

/-- A line's length has been taken. -/
theorem Suzy.Ok.lineHead {z : Suzy} (h : z.Ok) (hp : z.phase = .lineHead) : z.Goes z.lineHead := by
  have w : ∀ {y}, z.Walks y → z.Goes y := fun g => h.walk (by rw [hp]; rfl) (by rw [hp]; exact nofun) g
  unfold Suzy.lineHead
  simp only
  split
  · exact w ⟨rfl, rfl, rfl, rfl, id, id, ⟨rfl, nofun⟩, nofun⟩
  · split
    · have g := Suzy.endQuadrant_walks
        { z.drop 8 with sprdoff := BitVec.ofNat 16 (z.look 8), budget := (z.look 8 - 1) * 8, sprdline := z.sprdline + 1 }
      exact w ⟨g.halted, g.working, g.vidbas, g.collbas, g.video, g.coll, g.phase, g.line⟩
    · split
      · exact w ⟨rfl, rfl, rfl, rfl, id, id, ⟨rfl, nofun⟩, fun _ h => ⟨if_neg h, if_neg h⟩⟩
      · rename_i hl
        split
        · exact w ⟨rfl, rfl, rfl, rfl, id, id, ⟨rfl, nofun⟩, nofun⟩
        · rename_i ho
          have ho : z.rowOff = false := by
            unfold Suzy.rowOff at ho ⊢
            exact decide_eq_false fun e => ho (decide_eq_true e)
          have hl : z.rowsLeft ≠ 0 := fun e => hl (.inl e)
          obtain ⟨e1, e2⟩ := h.empty (by rw [hp]; rfl)
          have hw := h.atWork (by rw [hp]; exact nofun)
          have row := (h.line (by rw [hp]; rfl)).row hl ho
          have g := Suzy.beginRow_goes
            (z := { z.drop 8 with sprdoff := BitVec.ofNat 16 (z.look 8), budget := (z.look 8 - 1) * 8 }) h.halted hw e1 e2 row
          exact ⟨g.ok, g.vidbas, g.collbas⟩

/-- A phase that wants no access moves on fittingly. -/
theorem Suzy.Ok.move {z : Suzy} (h : z.Ok) (hr : z.request = none) : z.Goes z.move := by
  have hempty : z.phase.inRow = false → z.videoAcc = none ∧ z.collAcc = none := h.empty
  unfold Suzy.move
  split <;> rename_i hp
  · -- chain
    unfold Suzy.chainStep
    split
    · exact h.finish (by rw [hp]; rfl)
    · exact h.walk (by rw [hp]; rfl) (by rw [hp]; exact nofun) ⟨rfl, rfl, rfl, rfl, id, id, ⟨rfl, nofun⟩, nofun⟩
  · -- line head
    exact h.lineHead hp
  · -- parse
    unfold Suzy.rowMove
    split
    · obtain ⟨s, e⟩ := z.parseMove_stays hp
      exact h.stay s (.inl hp) (e.imp id .inl)
    · split
      · rename_i hc
        exact h.stay ⟨rfl, rfl, rfl, rfl, rfl, rfl, rfl, rfl⟩ (.inl hp) (.inr (.inr ⟨rfl, Suzy.colOn_lt hc⟩))
      · exact h.stay ⟨rfl, rfl, rfl, rfl, rfl, rfl, rfl, rfl⟩ (.inl hp) (.inl hp)
  · -- collision operator
    split
    · exact Suzy.collide_goes h hp
    · have hw := h.atWork (by rw [hp]; exact nofun)
      exact ⟨⟨h.halted, fun e => (nomatch e.symm.trans hw), fun x e => ⟨rfl, nofun, (h.video x e).2.2⟩,
        fun x e => ⟨rfl, (h.coll x e).2⟩, fun _ => h.row (.inr (.inl hp)), fun _ => h.column (.inl hp), nofun⟩, rfl, rfl⟩
  · -- video operator
    split
    · have g := Suzy.gather_goes h hp
      exact g.trans (Suzy.leaveColumn_goes g.ok hp)
    · exact Suzy.leaveColumn_goes h hp
  · -- row video
    have e1 : z.videoAcc = none := by
      unfold Suzy.request at hr; rw [hp] at hr
      cases e : z.videoAcc with
      | none => rfl
      | some c => rw [e] at hr; cases hr
    have hw := h.atWork (by rw [hp]; exact nofun)
    exact ⟨⟨h.halted, fun e => (nomatch e.symm.trans hw), fun x e => (nomatch e1.symm.trans e),
      fun x e => ⟨rfl, (h.coll x e).2⟩, fun e => (by rcases e with e | e | e <;> cases e),
      fun e => (by rcases e with e | e <;> cases e), nofun⟩, rfl, rfl⟩
  · -- row collision
    have e2 : z.collAcc = none := by
      unfold Suzy.request at hr; rw [hp] at hr
      cases e : z.collAcc with
      | none => rfl
      | some c => rw [e] at hr; cases hr
    have e1 : z.videoAcc = none := by
      cases e : z.videoAcc with
      | none => rfl
      | some c => exact absurd hp (h.video c e).2.1
    have hw := h.atWork (by rw [hp]; exact nofun)
    exact ⟨⟨h.halted, fun e => (nomatch e.symm.trans hw), fun x e => (nomatch e1.symm.trans e),
      fun x e => (nomatch e2.symm.trans e), fun e => (by rcases e with e | e | e <;> cases e),
      fun e => (by rcases e with e | e <;> cases e), nofun⟩, rfl, rfl⟩
  · -- row end
    have g := (z.stretchAndTilt.applyTilt).nextRow_walks
    exact h.walk (by rw [hp]; rfl) (by rw [hp]; exact nofun)
      ⟨g.halted, g.working, g.vidbas, g.collbas, g.video, g.coll, g.phase, g.line⟩
  · -- deposit
    unfold Suzy.afterDeposit
    split
    · exact h.finish (by rw [hp]; rfl)
    · exact h.walk (by rw [hp]; rfl) (by rw [hp]; exact nofun) ⟨rfl, rfl, rfl, rfl, id, id, ⟨rfl, nofun⟩, nofun⟩
  all_goals exact h.refl

/-- The byte asked for is taken fittingly. -/
theorem Suzy.Ok.gotByte {z : Suzy} (h : z.Ok) (b : Byte) : z.Goes (z.gotByte b) := by
  have same : ∀ {c : Accum}, ({ c with old := some b } : Accum).addr = c.addr := rfl
  unfold Suzy.gotByte
  split <;> rename_i hp
  · have g := z.bumpTmp.scbByte_walks (k := by assumption) b
    exact h.walk (by rw [hp]; rfl) (by rw [hp]; exact nofun)
      ⟨g.halted, g.working, g.vidbas, g.collbas, g.video, g.coll, g.phase, g.line⟩
  · have g := z.bumpTmp.reloadByte_walks (k := by assumption) b
    exact h.walk (by rw [hp]; rfl) (by rw [hp]; exact nofun)
      ⟨g.halted, g.working, g.vidbas, g.collbas, g.video, g.coll, g.phase, g.line⟩
  · have g := z.bumpTmp.paletteByte_walks (k := by assumption) b
    exact h.walk (by rw [hp]; rfl) (by rw [hp]; exact nofun)
      ⟨g.halted, g.working, g.vidbas, g.collbas, g.video, g.coll, g.phase, g.line⟩
  · refine h.walk (by rw [hp]; rfl) (by rw [hp]; exact nofun) ⟨rfl, rfl, rfl, rfl, id, id, ?_, fun _ => h.line (by rw [hp]; rfl)⟩
    simp only
    split <;> exact ⟨rfl, nofun⟩
  · exact h.stay ⟨rfl, rfl, rfl, rfl, rfl, rfl, rfl, rfl⟩ (.inl hp) (.inl hp)
  · have hw := h.atWork (by rw [hp]; exact nofun)
    cases e : z.collAcc with
    | none =>
      refine ⟨⟨h.halted, fun e => (nomatch e.symm.trans hw), h.video, fun x e => ?_, h.row, h.column, h.line⟩, rfl, rfl⟩
      cases e
      exact ⟨by show z.phase.inRow = true; rw [hp]; rfl, (h.cells (.inl hp)).2⟩
    | some c =>
      refine ⟨⟨h.halted, fun e => (nomatch e.symm.trans hw), h.video, fun x g => ?_, h.row, h.column, h.line⟩, rfl, rfl⟩
      cases g
      exact h.coll c e
  · have hw := h.atWork (by rw [hp]; exact nofun)
    refine ⟨⟨h.halted, fun e => (nomatch e.symm.trans hw), fun x e => ?_, h.coll, h.row, h.column, h.line⟩, rfl, rfl⟩
    obtain ⟨c, e1, e2⟩ := Option.map_eq_some_iff.1 e
    rw [← e2]
    exact h.video c e1
  · have hw := h.atWork (by rw [hp]; exact nofun)
    refine ⟨⟨h.halted, fun e => (nomatch e.symm.trans hw), fun x e => ?_, h.coll, h.row, h.column, h.line⟩, rfl, rfl⟩
    obtain ⟨c, e1, e2⟩ := Option.map_eq_some_iff.1 e
    rw [← e2]
    exact h.video c e1
  · have hw := h.atWork (by rw [hp]; exact nofun)
    refine ⟨⟨h.halted, fun e => (nomatch e.symm.trans hw), h.video, fun x e => ?_, h.row, h.column, h.line⟩, rfl, rfl⟩
    obtain ⟨c, e1, e2⟩ := Option.map_eq_some_iff.1 e
    rw [← e2]
    exact h.coll c e1
  all_goals exact h.refl

/-- A write leaves the registers fitting. -/
theorem Suzy.Ok.wrote {z : Suzy} (h : z.Ok) : z.Goes z.wrote := by
  have coll : z.phase ≠ .idle → z.Goes { z with collAcc := none } := fun hp =>
    ⟨⟨h.halted, fun e => (nomatch e.symm.trans (h.atWork hp)), h.video, nofun, h.row, h.column, h.line⟩, rfl, rfl⟩
  have video : z.phase ≠ .idle → z.Goes { z with videoAcc := none } := fun hp =>
    ⟨⟨h.halted, fun e => (nomatch e.symm.trans (h.atWork hp)), nofun, h.coll, h.row, h.column, h.line⟩, rfl, rfl⟩
  unfold Suzy.wrote
  split <;> rename_i hp
  · exact coll (by rw [hp]; exact nofun)
  · exact coll (by rw [hp]; exact nofun)
  · exact video (by rw [hp]; exact nofun)
  · exact video (by rw [hp]; exact nofun)
  · unfold Suzy.afterDeposit
    split
    · exact h.finish (by rw [hp]; rfl)
    · exact h.walk (by rw [hp]; rfl) (by rw [hp]; exact nofun) ⟨rfl, rfl, rfl, rfl, id, id, ⟨rfl, nofun⟩, nofun⟩
  all_goals exact h.refl

/-- Any number of moves. -/
theorem Suzy.Ok.proceed (n : Nat) {z : Suzy} (h : z.Ok) : z.Goes (z.proceed n) := by
  induction n generalizing z with
  | zero => exact h.refl
  | succ n ih =>
    unfold Suzy.proceed
    split
    · exact h.refl
    · rename_i hr
      have hr : z.request = none := by
        cases e : z.request with
        | none => rfl
        | some r => rw [e] at hr; exact absurd rfl hr
      exact (h.move hr).trans (ih (h.move hr).ok)

theorem Suzy.Ok.toAccess {z : Suzy} (h : z.Ok) : z.Goes z.toAccess := h.proceed _

/-! ### Where the engine writes -/

theorem Accum.flush_write {xor : Bool} {c : Accum} {a : Word} {v : Byte} (h : c.flush xor = .write a v) : a = c.addr := by
  unfold Accum.flush at h
  repeat' split at h
  all_goals first
    | (injection h with h1; exact h1.symm)
    | cases h

/-- A write goes to the screen, to the collision buffer, or to the depository. -/
theorem Suzy.Ok.written {z : Suzy} (h : z.Ok) {a : Word} {v : Byte} (hr : z.request = some (.write a v)) :
    inArea z.vidbas a ∨ inArea z.collbas a ∨
      z.phase = .deposit ∧ z.noColl = false ∧ a = z.scbadr + z.colloff ∧ v = z.depositByte := by
  have video : ∀ {c : Accum} {x : Bool}, z.videoAcc = some c → some (c.flush x) = some (.write a v) → inArea z.vidbas a :=
    fun {c} {x} e g => by injection g with g; rw [Accum.flush_write g]; exact (h.video c e).2.2
  have coll : ∀ {c : Accum} {x : Bool}, z.collAcc = some c → some (c.flush x) = some (.write a v) → inArea z.collbas a :=
    fun {c} {x} e g => by injection g with g; rw [Accum.flush_write g]; exact (h.coll c e).2
  unfold Suzy.request at hr
  split at hr
  · cases hr
  · cases hr
  · cases hr
  · cases hr
  · split at hr <;> cases hr
  · split at hr
    · split at hr
      · split at hr
        · cases hr
        · rename_i e _; exact .inr (.inl (coll e hr))
      · split at hr <;> cases hr
    · cases hr
  · split at hr
    · split at hr
      · cases hr
      · rename_i e _; exact .inl (video e hr)
    · cases hr
  · obtain ⟨c, e, g⟩ := Option.map_eq_some_iff.1 hr; exact .inl (video e (congrArg some g))
  · obtain ⟨c, e, g⟩ := Option.map_eq_some_iff.1 hr; exact .inr (.inl (coll e (congrArg some g)))
  · rename_i hp
    split at hr
    · cases hr
    · rename_i hn
      injection hr with hr
      injection hr with h1 h2
      exact .inr (.inr ⟨hp, by simpa using hn, h1.symm, h2.symm⟩)
  all_goals cases hr

/-! ### When the walk ends -/

/-- A move stays at work but for the end of the chain, or the stop bit after a sprite without a deposit. -/
theorem Suzy.move_working (z : Suzy) (hw : z.working = true) :
    z.move.working = false ↔
      z.phase = .chain ∧ hi z.scbnext = 0 ∨ z.phase = .deposit ∧ z.stopBit = true := by
  have stay : ∀ {y : Suzy}, y.working = z.working → ¬(y.working = false) := fun e g => by rw [e, hw] at g; cases g
  unfold Suzy.move
  split <;> rename_i hp <;> simp only [hp, reduceCtorEq, false_and, true_and, or_false, false_or, iff_false]
  · unfold Suzy.chainStep
    split
    · rename_i h; exact ⟨fun _ => h, fun _ => rfl⟩
    · rename_i h; exact ⟨fun g => absurd g (stay rfl), fun g => absurd g h⟩
  · unfold Suzy.lineHead; simp only
    split <;> [exact stay rfl; skip]
    split <;> [exact stay (Suzy.endQuadrant_walks _).working; skip]
    split <;> [exact stay rfl; skip]
    split <;> exact stay rfl
  · unfold Suzy.rowMove
    split
    · exact stay (z.parseMove_stays hp).1.working
    · split <;> exact stay rfl
  · split
    · exact stay (by unfold Suzy.collide; split <;> [rfl; (split <;> rfl)])
    · exact stay rfl
  · split <;> (unfold Suzy.leaveColumn; split <;> exact stay rfl)
  · exact stay rfl
  · exact stay rfl
  · exact stay (Suzy.nextRow_walks _).working
  · unfold Suzy.afterDeposit
    split
    · simp [Suzy.finish, *]
    · simp [*]
  all_goals exact stay rfl

theorem Suzy.wrote_working (z : Suzy) (hw : z.working = true) :
    z.wrote.working = false ↔ z.phase = .deposit ∧ z.stopBit = true := by
  unfold Suzy.wrote
  split <;> rename_i hp <;> simp only [hp, reduceCtorEq, false_and, true_and, iff_false]
  case h_5 =>
    unfold Suzy.afterDeposit
    split
    · simp [Suzy.finish, *]
    · simp [*]
  all_goals (intro g; rw [show z.working = false from g] at hw; cases hw)

theorem Suzy.gotByte_working (z : Suzy) (b : Byte) : (z.gotByte b).working = z.working := by
  unfold Suzy.gotByte
  split
  · exact (Suzy.scbByte_walks _ _ _).working
  · exact (Suzy.reloadByte_walks _ _ _).working
  · exact (Suzy.paletteByte_walks _ _ _).working
  · rfl
  · rfl
  · split <;> rfl
  all_goals rfl

/-! ### A Suzy-step -/

/-- What a turn of Suzy leaves alone outside the engine: all but the byte it writes, and what time changes. -/
structure State.Drew (s t : State) : Prop where
  cpu : t.cpu = s.cpu
  pipe : t.pipe = s.pipe
  mapctl : t.mapctl = s.mapctl
  rom : t.rom = s.rom
  cart : t.cart = s.cart
  inputs : t.inputs = s.inputs
  io : s.io.TimePassed t.io
  canonical : Ram.wf s.ram = true → Ram.wf t.ram = true
  ram : ∀ a, t.ramAt a ≠ s.ramAt a → ∃ v, s.suzy.toAccess.request = some (.write a v) ∧ t.ramAt a = v

/-- Suzy's turn by its next access. -/
theorem suzyTurn_drew {s : State} (hw : Ram.wf s.ram = true) : s.Drew s.suzyTurn := by
  unfold State.suzyTurn
  split
  · rename_i r e
    cases r with
    | read a =>
      exact ⟨rfl, rfl, rfl, rfl, rfl, rfl, Io.masterAccess_timePassed _ _ _ _, id, fun _ n => absurd rfl n⟩
    | write a v =>
      refine ⟨rfl, rfl, rfl, rfl, rfl, rfl, Io.masterAccess_timePassed _ _ _ _, fun k => Ram.write_wf k a v, fun b n => ?_⟩
      have hw : Ram.wf (s.suzyCharge a).ram = true := hw
      by_cases hb : b = a
      · subst hb
        exact ⟨v, e, State.ramAt_setRam_same hw b v⟩
      · exact absurd (State.ramAt_setRam_ne (s.suzyCharge a) v hb) n
  · exact ⟨rfl, rfl, rfl, rfl, rfl, rfl, .refl _, id, fun _ n => absurd rfl n⟩

/-- The engine after Suzy's turn. -/
theorem suzyTurn_suzy (s : State) : s.suzyTurn.suzy =
    match s.suzy.toAccess.request with
    | some (.read a) => (s.suzy.toAccess.gotByte (s.ramAt a)).toAccess
    | some (.write _ _) => s.suzy.toAccess.wrote.toAccess
    | none => if s.suzy.toAccess.phase = .idle then s.suzy.toAccess.finish else s.suzy.toAccess := by
  unfold State.suzyTurn
  cases e : s.suzy.toAccess.request with
  | none => rfl
  | some r => cases r <;> rfl

/-- Suzy's turn keeps the registers fitting. -/
theorem suzyTurn_ok {s : State} (h : s.suzy.Ok) : s.suzyTurn.suzy.Ok := by
  have g := h.toAccess
  rw [suzyTurn_suzy]
  split
  · exact (Suzy.Ok.toAccess (g.ok.gotByte _).ok).ok
  · exact (Suzy.Ok.toAccess g.ok.wrote.ok).ok
  · split
    · rename_i hp; exact (g.ok.finish (by rw [hp]; rfl)).ok
    · exact g.ok

end Sys2Proof.Machine
end

