-- ==== Sys2Proof/Laws/Inv.lean ====
section
/-! SUPPORT. The invariant of the machine under each bus operation, each program, each step and each turn. -/

namespace Sys2Proof.Machine

/-! ### Device registers -/

theorem Timer.writeReg_ok {now : Nat} (unit r : Nat) (v : Byte) {t : Timer} (h : t.Ok now) :
    (t.writeReg unit now r v).Ok now := by
  unfold Timer.writeReg
  split
  · exact h
  · intro he hl
    show now < if t.enabled && t.sel == (v &&& 7).toNat then t.deadline else now + 1 + _
    split
    · rename_i e
      simp only [Bool.and_eq_true, beq_iff_eq] at e
      refine h e.1 ?_
      have : (t.writeCtl unit now v).sel = t.sel := by show (v &&& 7).toNat = t.sel; exact e.2.symm
      unfold Timer.linked at hl ⊢
      rw [← this]; exact hl
    · omega
  · exact h
  · exact h

theorem Channel.writeReg_ok {now : Nat} (unit r : Nat) (v : Byte) {c : Channel} (h : c.timer.Ok now) :
    (c.writeReg unit now r v).timer.Ok now := by
  unfold Channel.writeReg
  split <;> first | exact h | exact Timer.writeReg_ok (8 + unit) 1 v h

/-- A register write keeps the invariant of time. -/
theorem Io.writeReg_clock {io : Io} (o : Nat) (v : Byte) (h : io.OkClock) : (io.writeReg o v).OkClock := by
  unfold Io.writeReg
  split
  · rename_i ho
    refine ⟨fun k => ?_, h.channels, h.video, h.pixel⟩
    show ((io.timers.set (o / 4) _ (by omega))[k]).Ok io.tick
    rw [Fin.getElem_fin, Vector.getElem_set]
    split
    · exact Timer.writeReg_ok _ _ _ (h.timers ⟨o / 4, by omega⟩)
    · exact h.timers k
  · split
    · rename_i ho
      refine ⟨h.timers, fun k => ?_, h.video, h.pixel⟩
      show ((io.channels.set ((o - 0x20) / 8) _ (by omega))[k]).timer.Ok io.tick
      rw [Fin.getElem_fin, Vector.getElem_set]
      split
      · exact Channel.writeReg_ok _ _ _ (h.channels ⟨(o - 0x20) / 8, by omega⟩)
      · exact h.channels k
    · split <;> [skip; split <;> [skip; split <;> [skip; split]]]
      all_goals exact ⟨h.timers, h.channels, h.video, h.pixel⟩

/-- A register write leaves the queue. -/
theorem Io.writeReg_queue (o : Nat) (v : Byte) (io : Io) :
    (io.writeReg o v).tick = io.tick ∧ (io.writeReg o v).pulseDue = io.pulseDue ∧
    (io.writeReg o v).pixelDue = io.pixelDue ∧ (io.writeReg o v).masterDue = io.masterDue := by
  unfold Io.writeReg
  repeat' split
  all_goals exact ⟨rfl, rfl, rfl, rfl⟩

theorem Io.writeReg_ok {io : Io} (o : Nat) (v : Byte) (h : io.Ok) : (io.writeReg o v).Ok := by
  have c := Io.writeReg_clock o v h.clock
  obtain ⟨e1, e2, e3, e4⟩ := io.writeReg_queue o v
  refine ⟨c.timers, c.channels, c.video, c.pixel, ?_, ?_, ?_, ?_⟩
  · rw [e1, e2]; exact h.pulse
  · rw [e1, e2, e3]; exact h.lag
  · rw [e1, e4]; exact h.late
  · rw [e1, e3, e4]; exact h.once

theorem Io.readEffect_ok {io : Io} (o : Nat) (h : io.Ok) : (io.readEffect o).Ok :=
  ⟨h.timers, h.channels, h.video, h.pixel, h.pulse, h.lag, h.late, h.once⟩

/-- The master's continuation may be put off. -/
theorem Io.Ok.later {io : Io} (h : io.Ok) {due : Nat} (hd : io.masterDue ≤ due ∨ io.tick ≤ due) :
    ({ io with masterDue := due } : Io).Ok := by
  have h1 := h.late
  refine ⟨h.timers, h.channels, h.video, h.pixel, h.pulse, h.lag, ?_, fun hl d e => ?_⟩
  · show io.tick ≤ due + 5; omega
  · rcases hd with hd | hd
    · exact h.once (Nat.lt_of_le_of_lt hd hl) d e
    · exact absurd hl (Nat.not_lt.2 hd)

/-- A register write by a CPU that Suzy does not hold finds the engine idle, and leaves its registers fitting. -/
theorem Suzy.writeReg_ok {z : Suzy} (o : Nat) (v : Byte) (h : z.Ok) (hh : z.halted = false) : (z.writeReg o v).Ok := by
  have hp := h.idle hh
  obtain ⟨hv, hc⟩ := h.empty (by rw [hp]; rfl)
  have key : ∀ y : Suzy, y.halted = y.working → (y.halted = false → y.phase = .idle) → y.videoAcc = none →
      y.collAcc = none → (y.phase.inRow = false ∧ y.phase.atLine = false) → y.Ok := fun y a b c d e =>
    ⟨a, b, fun x g => (nomatch c.symm.trans g), fun x g => (nomatch d.symm.trans g),
      fun g => (by rcases g with g | g | g <;> rw [g] at e <;> cases e.1),
      fun g => (by rcases g with g | g <;> rw [g] at e <;> cases e.1), fun g => (nomatch e.2.symm.trans g)⟩
  have np : z.phase.inRow = false ∧ z.phase.atLine = false := by rw [hp]; exact ⟨rfl, rfl⟩
  unfold Suzy.writeReg
  split
  · have same : ∀ k w, (z.setWordReg k w).halted = z.halted ∧ (z.setWordReg k w).working = z.working ∧
        (z.setWordReg k w).videoAcc = z.videoAcc ∧ (z.setWordReg k w).collAcc = z.collAcc ∧
        (z.setWordReg k w).phase = z.phase := by
      intro k w; unfold Suzy.setWordReg; split <;> exact ⟨rfl, rfl, rfl, rfl, rfl⟩
    unfold Suzy.writeWordByte
    split
    all_goals
      obtain ⟨a, b, c, d, e⟩ := same _ _
      exact key _ (by rw [a, b]; exact h.halted) (fun _ => e.trans hp) (c.trans hv) (d.trans hc) (by rw [e]; exact np)
  · split
    case h_6 =>
      unfold Suzy.writeSprgo
      split
      · exact key _ rfl (fun g => nomatch g) hv hc ⟨rfl, rfl⟩
      · exact key _ h.halted (fun _ => hp) hv hc np
    all_goals exact key _ h.halted (fun _ => hp) hv hc np

/-- Only the GO bit halts the CPU. -/
theorem Suzy.writeReg_halted (z : Suzy) (o : Nat) (v : Byte) (h : o = 0x91 → bit v 0 = false) :
    (z.writeReg o v).halted = z.halted := by
  unfold Suzy.writeReg
  split
  · unfold Suzy.writeWordByte Suzy.setWordReg
    repeat' split
    all_goals rfl
  · split
    case h_6 => unfold Suzy.writeSprgo; rw [h rfl]; rfl
    all_goals rfl

/-! ### Accesses -/

/-- The invariant holds and nothing is queued before the master. -/
structure State.Fit (s : State) : Prop where
  inv : s.Inv
  settled : s.settled = true

theorem State.Inv.settle {s : State} (h : s.Inv) : s.settle.Fit :=
  ⟨⟨h.ram, Io.settle_ok _ h.io, h.suzy⟩, State.settle_settled h.io⟩

/-- A change of the CPU alone. -/
theorem State.Inv.cpu {s : State} (h : s.Inv) (k : Cpu) : ({ s with cpu := k } : State).Inv := ⟨h.ram, h.io, h.suzy⟩

theorem State.Fit.cpu {s : State} (h : s.Fit) (k : Cpu) : ({ s with cpu := k } : State).Fit := ⟨h.inv.cpu k, h.settled⟩

theorem State.Fit.withCpu {s : State} (h : s.Fit) (k : Cpu) : (s.withCpu k).Fit := h.cpu k

theorem State.Inv.pipe {s : State} (h : s.Inv) (p : Pipeline) : ({ s with pipe := p } : State).Inv := ⟨h.ram, h.io, h.suzy⟩

theorem State.Inv.delay {s : State} (h : s.Inv) (n : Nat) : (s.delay n).Inv :=
  ⟨h.ram, h.io.later (.inl (Nat.le_add_right _ _)), h.suzy⟩

theorem State.Inv.postpone {s : State} (h : s.Inv) : s.postpone.Inv :=
  ⟨h.ram, h.io.later (.inr (Nat.le_add_right _ _)), h.suzy⟩

theorem State.Inv.ended {s : State} (h : s.Inv) (f : Finish) : (s.ended f).Inv := ((h.cpu f.cpu).pipe .atFetch).delay f.idle

theorem State.Fit.charge {s : State} (h : s.Fit) (a : Word) : (s.charge a).Inv :=
  ⟨h.inv.ram, Io.masterAccess_ok s.mapctl s.ram s.inputs _ a h.inv.io (s.settled_iff.1 h.settled), h.inv.suzy⟩

theorem State.Fit.rawRead {s : State} (h : s.Fit) (a : Word) : (s.rawRead a).2.Inv := by
  have c := h.charge a
  show ((s.charge a).readEffect a).Inv
  unfold State.readEffect
  split
  · exact ⟨c.ram, Io.readEffect_ok _ c.io, c.suzy⟩
  · exact ⟨c.ram, c.io, c.suzy⟩
  all_goals exact c

theorem State.Fit.rawWrite {s : State} (h : s.Fit) (hh : s.suzy.halted = false) (a : Word) (v : Byte) :
    (s.rawWrite a v).Inv := by
  have c := h.charge a
  show ((s.charge a).store a v).Inv
  unfold State.store
  split
  · exact ⟨Ram.write_wf c.ram a v, c.io, c.suzy⟩
  · exact ⟨c.ram, c.io, Suzy.writeReg_ok _ v c.suzy hh⟩
  · exact ⟨c.ram, Io.writeReg_ok _ v c.io, c.suzy⟩
  · exact c
  · exact ⟨c.ram, c.io, c.suzy⟩

theorem State.Fit.busRead {s : State} (h : s.Fit) (a : Word) : (s.busRead a).2.Fit := (h.rawRead a).settle

theorem State.Fit.busWrite {s : State} (h : s.Fit) (hh : s.suzy.halted = false) (a : Word) (v : Byte) :
    (s.busWrite a v).Fit := (h.rawWrite hh a v).settle

theorem State.busWrite_halted {s : State} {a : Word} {v : Byte} (h : s.startsSuzy a v = false) :
    (s.busWrite a v).suzy.halted = s.suzy.halted := by
  show ((s.charge a).store a v).suzy.halted = _
  unfold State.store
  split
  case h_2 hb =>
    refine Suzy.writeReg_halted _ _ _ fun e => ?_
    have hb : s.backingOf a = .suzy := hb
    have e : lo a = 0x91 := BitVec.eq_of_toNat_eq e
    unfold State.startsSuzy at h
    rw [hb, e] at h
    simpa using h
  all_goals rfl

/-! ### Programs -/

/-- A piece whose writes cannot start Suzy. -/
theorem Prog.Calm.eval_fit {α : Type} {p : Prog α} (hp : p.Calm) {s : State} (h : s.Fit) (hh : s.suzy.halted = false) :
    (p.eval s).2.Fit ∧ (p.eval s).2.suzy.halted = false := by
  induction p generalizing s with
  | done a => exact ⟨h, hh⟩
  | read k a next ih =>
    exact ih _ (hp _) ((h.withCpu k).busRead a) (by rw [State.busRead_suzy]; exact hh)
  | write k a v next ih =>
    exact ih hp.2 ((h.withCpu k).busWrite hh a v)
      ((State.busWrite_halted (State.startsSuzy_low _ v hp.1)).trans hh)

/-- The rest of an instruction or trap entry, from when Suzy does not hold the CPU. -/
theorem Prog.runFrom_fit (w : Work) (start : Cpu) (log : List Byte) (p : Prog Finish) {s : State} (h : s.Fit)
    (hh : s.suzy.halted = false) : (Prog.runFrom w start log p s).Fit := by
  induction p generalizing s log with
  | done f => exact (h.inv.ended f).settle
  | read k a next ih =>
    exact ih _ _ ((h.withCpu k).busRead a) (by rw [State.busRead_suzy]; exact hh)
  | write k a v next ih =>
    have g := (h.withCpu k).busWrite hh a v
    unfold Prog.runFrom
    split
    · exact ⟨g.inv.pipe _, g.settled⟩
    · rename_i hs
      cases next with
      | done f => exact (g.inv.ended f).settle
      | read _ _ _ =>
        refine ih _ g ((State.busWrite_halted ?_).trans hh)
        simpa [Prog.isDone] using hs
      | write _ _ _ _ =>
        refine ih _ g ((State.busWrite_halted ?_).trans hh)
        simpa [Prog.isDone] using hs

theorem perform_fit (w : Work) (p : Cpu → Prog Finish) {s : State} (h : s.Fit) (hh : s.suzy.halted = false) :
    (perform w p s).Fit := Prog.runFrom_fit w _ _ _ h hh

/-- What every instruction answers. -/
theorem exec_eq (i : Instr) (s : State) : exec i s = .next (perform (.instr i) (instrProg i) s) := by
  cases i <;> rfl

theorem fetchRest_fit {p : Prog Fetched} (hp : p.Calm) {s : State} (h : s.Fit) (hh : s.suzy.halted = false) :
    (fetchRest p s).2.Fit ∧ (fetchRest p s).2.suzy.halted = false := by
  have g := hp.eval_fit h hh
  exact ⟨g.1.withCpu _, g.2⟩

/-! ### Steps and turns -/

theorem Prog.Calm.after {α : Type} {p : Prog α} (h : p.Calm) (log : List Byte) : (Prog.after log p).Calm := by
  induction log generalizing p with
  | nil => rw [Prog.after_nil]; exact h
  | cons b log ih =>
    cases p with
    | done a => trivial
    | read k a next => exact ih (h b)
    | write k a v next => exact ih h.2

/-- Suzy's turn keeps the invariant. -/
theorem State.Fit.suzyTurn {s : State} (h : s.Fit) : s.suzyTurn.Inv := by
  refine ⟨(suzyTurn_drew h.inv.ram).canonical h.inv.ram, ?_, suzyTurn_ok h.inv.suzy⟩
  unfold State.suzyTurn
  split
  · rename_i r _
    cases r
    all_goals exact Io.masterAccess_ok s.mapctl s.ram s.inputs _ _ h.inv.io (s.settled_iff.1 h.settled)
  · exact h.inv.io

/-- Every step keeps the invariant, and is followed by the master's. -/
theorem step_fit {s t : State} (h : s.Inv) (e : step s = .next t) : t.Fit := by
  unfold step at e
  split at e
  · cases e
  · split at e
    · injection e with e; rw [← e]; exact h.settle
    · rename_i hs
      have f : s.Fit := ⟨h, by simpa using hs⟩
      split at e
      · injection e with e
        rw [← e]
        exact f.suzyTurn.settle
      · rename_i hh
        have hh : s.suzy.halted = false := by simpa using hh
        have ran : ∀ {i : Instr} {u : State}, u.Fit → u.suzy.halted = false → exec i u = .next t → t.Fit := by
          intro i u fu hu g
          rw [exec_eq] at g
          injection g with g
          rw [← g]
          exact perform_fit _ _ fu hu
        split at e
        · injection e with e; rw [← e]; exact Prog.runFrom_fit _ _ _ _ f hh
        · rename_i start log _
          have g := fetchRest_fit ((fetchProg_calm start).after log) f hh
          exact ran g.1 g.2 e
        · split at e
          · injection e with e; rw [← e]; exact f.inv.postpone.settle
          · have fw : s.afterPoll.wake.Fit := (f.cpu _).cpu _
            unfold cpuStep at e
            split at e
            · injection e with e; rw [← e]; exact perform_fit _ _ fw hh
            · injection e with e; rw [← e]; exact perform_fit _ _ fw hh
            · split at e
              · injection e with e; rw [← e]; exact (f.inv.cpu _).postpone.settle
              · have g := fetchRest_fit (fetchProg_calm s.afterPoll.wake.cpu) fw hh
                exact ran g.1 g.2 e

theorem State.Inv.goOn {s : State} (h : s.Inv) (w : Work) (start : Cpu) (log : List Byte) (p : Prog Finish) :
    (s.goOn w start log p).Inv := by
  unfold State.goOn; split <;> [exact h.ended _; exact h.pipe _; exact h.pipe _]

theorem State.Fit.advance {s : State} (h : s.Fit) (hh : s.suzy.halted = false) (w : Work) (start : Cpu) (log : List Byte)
    (p : Prog Finish) : (s.advance w start log p).Inv := by
  unfold State.advance
  split
  · exact h.inv.ended _
  · exact ((h.withCpu _).rawRead _).goOn _ _ _ _
  · rename_i k a v _
    exact State.Inv.goOn (State.Fit.rawWrite (h.withCpu k) hh a v) _ _ _ _

theorem State.Fit.advanceFetch {s : State} (h : s.Fit) (hh : s.suzy.halted = false) (start : Cpu) (log : List Byte)
    (p : Prog Fetched) : (s.advanceFetch start log p).Inv := by
  have go : ∀ {u : State} (l : List Byte) (q : Prog Fetched), u.Inv → (u.goOnFetch start l q).Inv := by
    intro u l q g
    unfold State.goOnFetch
    split <;> [exact (g.cpu _).goOn _ _ _ _; exact g.pipe _; exact g.pipe _]
  unfold State.advanceFetch
  split
  · exact (h.inv.cpu _).goOn _ _ _ _
  · exact go _ _ ((h.withCpu _).rawRead _)
  · rename_i k a v _
    exact go _ _ (State.Fit.rawWrite (h.withCpu k) hh a v)

/-- The CPU's turn keeps the invariant. -/
theorem State.Fit.cpuTurn {s : State} (h : s.Fit) (hh : s.suzy.halted = false) : s.cpuTurn.Inv := by
  have fw : s.afterPoll.wake.Fit := (h.cpu _).cpu _
  unfold State.cpuTurn
  split
  · exact h.advance hh _ _ _ _
  · exact h.advanceFetch hh _ _ _
  · split
    · exact h.inv.postpone
    · unfold State.beginStep
      split
      · exact fw.advance hh _ _ _ _
      · exact fw.advance hh _ _ _ _
      · split
        · exact (h.inv.cpu _).postpone
        · exact fw.advanceFetch hh _ _ _

/-- Every turn keeps the invariant. -/
theorem State.Inv.turn {s : State} (h : s.Inv) : (turn s).Inv := by
  unfold Machine.turn
  split
  · rename_i t e
    unfold State.beat at e
    split at e
    · rename_i io' e'
      injection e with e
      rw [← e]
      exact ⟨h.ram, Io.beat_ok h.io e', h.suzy⟩
    · cases e
  · rename_i e
    have f : s.Fit := ⟨h, by
      rw [State.settled_iff]
      unfold State.beat at e
      split at e
      · cases e
      · assumption⟩
    split
    · exact f.suzyTurn
    · rename_i hh; exact f.cpuTurn (by simpa using hh)

end Sys2Proof.Machine
end

