-- ==== Sys2Proof/Laws/PerInstr.lean ====
section
/-! SUPPORT. Per-instruction laws: how long an encoding is (R100, R101). -/

namespace Sys2Proof.Laws.EncodeLength

/-- A well-formed instruction is encoded in as many bytes as its operand form says, from 1 to 3 (R100, R101). -/
def Statement (i : Instr) : Prop :=
  i.wellFormed = true → (encode i).length = i.length ∧ 1 ≤ i.length ∧ i.length ≤ 3

theorem one {i : Instr} (h : (encode i).length = 1) (g : i.operandBytes = 0) : Statement i := fun _ => by
  unfold Instr.length; omega

theorem two {i : Instr} (h : (encode i).length = 2) (g : i.operandBytes = 1) : Statement i := fun _ => by
  unfold Instr.length; omega

theorem three {i : Instr} (h : (encode i).length = 3) (g : i.operandBytes = 2) : Statement i := fun _ => by
  unfold Instr.length; omega

theorem lda (src : Src) : Statement (.lda src) := by
  cases src with
  | imm d8 => exact two rfl rfl
  | mem ea => cases ea <;> first | exact two rfl rfl | exact three rfl rfl | exact fun h => nomatch h

theorem ldx (src : Src) : Statement (.ldx src) := by
  cases src with
  | imm d8 => exact two rfl rfl
  | mem ea => cases ea <;> first | exact two rfl rfl | exact three rfl rfl | exact fun h => nomatch h

theorem ldy (src : Src) : Statement (.ldy src) := by
  cases src with
  | imm d8 => exact two rfl rfl
  | mem ea => cases ea <;> first | exact two rfl rfl | exact three rfl rfl | exact fun h => nomatch h

theorem sta (dst : Addr) : Statement (.sta dst) := by
  cases dst <;> first | exact two rfl rfl | exact three rfl rfl | exact fun h => nomatch h

theorem stx (dst : Addr) : Statement (.stx dst) := by
  cases dst <;> first | exact two rfl rfl | exact three rfl rfl | exact fun h => nomatch h

theorem sty (dst : Addr) : Statement (.sty dst) := by
  cases dst <;> first | exact two rfl rfl | exact three rfl rfl | exact fun h => nomatch h

theorem stz (dst : Addr) : Statement (.stz dst) := by
  cases dst <;> first | exact two rfl rfl | exact three rfl rfl | exact fun h => nomatch h

theorem tax : Statement (.tax) := one rfl rfl

theorem tay : Statement (.tay) := one rfl rfl

theorem txa : Statement (.txa) := one rfl rfl

theorem tya : Statement (.tya) := one rfl rfl

theorem tsx : Statement (.tsx) := one rfl rfl

theorem txs : Statement (.txs) := one rfl rfl

theorem pha : Statement (.pha) := one rfl rfl

theorem pla : Statement (.pla) := one rfl rfl

theorem php : Statement (.php) := one rfl rfl

theorem plp : Statement (.plp) := one rfl rfl

theorem phx : Statement (.phx) := one rfl rfl

theorem plx : Statement (.plx) := one rfl rfl

theorem phy : Statement (.phy) := one rfl rfl

theorem ply : Statement (.ply) := one rfl rfl

theorem adc (src : Src) : Statement (.adc src) := by
  cases src with
  | imm d8 => exact two rfl rfl
  | mem ea => cases ea <;> first | exact two rfl rfl | exact three rfl rfl | exact fun h => nomatch h

theorem sbc (src : Src) : Statement (.sbc src) := by
  cases src with
  | imm d8 => exact two rfl rfl
  | mem ea => cases ea <;> first | exact two rfl rfl | exact three rfl rfl | exact fun h => nomatch h

theorem cmp (src : Src) : Statement (.cmp src) := by
  cases src with
  | imm d8 => exact two rfl rfl
  | mem ea => cases ea <;> first | exact two rfl rfl | exact three rfl rfl | exact fun h => nomatch h

theorem cpx (src : Src) : Statement (.cpx src) := by
  cases src with
  | imm d8 => exact two rfl rfl
  | mem ea => cases ea <;> first | exact two rfl rfl | exact three rfl rfl | exact fun h => nomatch h

theorem cpy (src : Src) : Statement (.cpy src) := by
  cases src with
  | imm d8 => exact two rfl rfl
  | mem ea => cases ea <;> first | exact two rfl rfl | exact three rfl rfl | exact fun h => nomatch h

theorem and (src : Src) : Statement (.and src) := by
  cases src with
  | imm d8 => exact two rfl rfl
  | mem ea => cases ea <;> first | exact two rfl rfl | exact three rfl rfl | exact fun h => nomatch h

theorem ora (src : Src) : Statement (.ora src) := by
  cases src with
  | imm d8 => exact two rfl rfl
  | mem ea => cases ea <;> first | exact two rfl rfl | exact three rfl rfl | exact fun h => nomatch h

theorem eor (src : Src) : Statement (.eor src) := by
  cases src with
  | imm d8 => exact two rfl rfl
  | mem ea => cases ea <;> first | exact two rfl rfl | exact three rfl rfl | exact fun h => nomatch h

theorem bit (src : Src) : Statement (.bit src) := by
  cases src with
  | imm d8 => exact two rfl rfl
  | mem ea => cases ea <;> first | exact two rfl rfl | exact three rfl rfl | exact fun h => nomatch h

theorem tsb (dst : Addr) : Statement (.tsb dst) := by
  cases dst <;> first | exact two rfl rfl | exact three rfl rfl | exact fun h => nomatch h

theorem trb (dst : Addr) : Statement (.trb dst) := by
  cases dst <;> first | exact two rfl rfl | exact three rfl rfl | exact fun h => nomatch h

theorem asl (dst : Rmw) : Statement (.asl dst) := by
  cases dst with
  | acc => exact one rfl rfl
  | mem ea => cases ea <;> first | exact two rfl rfl | exact three rfl rfl | exact fun h => nomatch h

theorem lsr (dst : Rmw) : Statement (.lsr dst) := by
  cases dst with
  | acc => exact one rfl rfl
  | mem ea => cases ea <;> first | exact two rfl rfl | exact three rfl rfl | exact fun h => nomatch h

theorem rol (dst : Rmw) : Statement (.rol dst) := by
  cases dst with
  | acc => exact one rfl rfl
  | mem ea => cases ea <;> first | exact two rfl rfl | exact three rfl rfl | exact fun h => nomatch h

theorem ror (dst : Rmw) : Statement (.ror dst) := by
  cases dst with
  | acc => exact one rfl rfl
  | mem ea => cases ea <;> first | exact two rfl rfl | exact three rfl rfl | exact fun h => nomatch h

theorem inc (dst : Rmw) : Statement (.inc dst) := by
  cases dst with
  | acc => exact one rfl rfl
  | mem ea => cases ea <;> first | exact two rfl rfl | exact three rfl rfl | exact fun h => nomatch h

theorem dec (dst : Rmw) : Statement (.dec dst) := by
  cases dst with
  | acc => exact one rfl rfl
  | mem ea => cases ea <;> first | exact two rfl rfl | exact three rfl rfl | exact fun h => nomatch h

theorem inx : Statement (.inx) := one rfl rfl

theorem iny : Statement (.iny) := one rfl rfl

theorem dex : Statement (.dex) := one rfl rfl

theorem dey : Statement (.dey) := one rfl rfl

theorem bcc (rel : Byte) : Statement (.bcc rel) := two rfl rfl

theorem bcs (rel : Byte) : Statement (.bcs rel) := two rfl rfl

theorem beq (rel : Byte) : Statement (.beq rel) := two rfl rfl

theorem bne (rel : Byte) : Statement (.bne rel) := two rfl rfl

theorem bmi (rel : Byte) : Statement (.bmi rel) := two rfl rfl

theorem bpl (rel : Byte) : Statement (.bpl rel) := two rfl rfl

theorem bvc (rel : Byte) : Statement (.bvc rel) := two rfl rfl

theorem bvs (rel : Byte) : Statement (.bvs rel) := two rfl rfl

theorem bra (rel : Byte) : Statement (.bra rel) := two rfl rfl

theorem jmp (target : JmpTarget) : Statement (.jmp target) := by
  cases target <;> exact three rfl rfl

theorem jsr (target : Word) : Statement (.jsr target) := three rfl rfl

theorem rts : Statement (.rts) := one rfl rfl

theorem clc : Statement (.clc) := one rfl rfl

theorem sec : Statement (.sec) := one rfl rfl

theorem cli : Statement (.cli) := one rfl rfl

theorem sei : Statement (.sei) := one rfl rfl

theorem cld : Statement (.cld) := one rfl rfl

theorem sed : Statement (.sed) := one rfl rfl

theorem clv : Statement (.clv) := one rfl rfl

theorem nop : Statement (.nop) := one rfl rfl

theorem brk (sig : Byte) : Statement (.brk sig) := two rfl rfl

theorem rti : Statement (.rti) := one rfl rfl

theorem wai : Statement (.wai) := one rfl rfl

theorem stp : Statement (.stp) := one rfl rfl

theorem rmb0 (zp : Byte) : Statement (.rmb0 zp) := two rfl rfl

theorem rmb1 (zp : Byte) : Statement (.rmb1 zp) := two rfl rfl

theorem rmb2 (zp : Byte) : Statement (.rmb2 zp) := two rfl rfl

theorem rmb3 (zp : Byte) : Statement (.rmb3 zp) := two rfl rfl

theorem rmb4 (zp : Byte) : Statement (.rmb4 zp) := two rfl rfl

theorem rmb5 (zp : Byte) : Statement (.rmb5 zp) := two rfl rfl

theorem rmb6 (zp : Byte) : Statement (.rmb6 zp) := two rfl rfl

theorem rmb7 (zp : Byte) : Statement (.rmb7 zp) := two rfl rfl

theorem smb0 (zp : Byte) : Statement (.smb0 zp) := two rfl rfl

theorem smb1 (zp : Byte) : Statement (.smb1 zp) := two rfl rfl

theorem smb2 (zp : Byte) : Statement (.smb2 zp) := two rfl rfl

theorem smb3 (zp : Byte) : Statement (.smb3 zp) := two rfl rfl

theorem smb4 (zp : Byte) : Statement (.smb4 zp) := two rfl rfl

theorem smb5 (zp : Byte) : Statement (.smb5 zp) := two rfl rfl

theorem smb6 (zp : Byte) : Statement (.smb6 zp) := two rfl rfl

theorem smb7 (zp : Byte) : Statement (.smb7 zp) := two rfl rfl

theorem bbr0 (zp rel : Byte) : Statement (.bbr0 zp rel) := three rfl rfl

theorem bbr1 (zp rel : Byte) : Statement (.bbr1 zp rel) := three rfl rfl

theorem bbr2 (zp rel : Byte) : Statement (.bbr2 zp rel) := three rfl rfl

theorem bbr3 (zp rel : Byte) : Statement (.bbr3 zp rel) := three rfl rfl

theorem bbr4 (zp rel : Byte) : Statement (.bbr4 zp rel) := three rfl rfl

theorem bbr5 (zp rel : Byte) : Statement (.bbr5 zp rel) := three rfl rfl

theorem bbr6 (zp rel : Byte) : Statement (.bbr6 zp rel) := three rfl rfl

theorem bbr7 (zp rel : Byte) : Statement (.bbr7 zp rel) := three rfl rfl

theorem bbs0 (zp rel : Byte) : Statement (.bbs0 zp rel) := three rfl rfl

theorem bbs1 (zp rel : Byte) : Statement (.bbs1 zp rel) := three rfl rfl

theorem bbs2 (zp rel : Byte) : Statement (.bbs2 zp rel) := three rfl rfl

theorem bbs3 (zp rel : Byte) : Statement (.bbs3 zp rel) := three rfl rfl

theorem bbs4 (zp rel : Byte) : Statement (.bbs4 zp rel) := three rfl rfl

theorem bbs5 (zp rel : Byte) : Statement (.bbs5 zp rel) := three rfl rfl

theorem bbs6 (zp rel : Byte) : Statement (.bbs6 zp rel) := three rfl rfl

theorem bbs7 (zp rel : Byte) : Statement (.bbs7 zp rel) := three rfl rfl

theorem nopImp (row : Nibble) (colB : Bool) : Statement (.nopImp row colB) := one rfl rfl

theorem nopImm (row : BitVec 3) (d8 : Byte) : Statement (.nopImm row d8) := two rfl rfl

theorem nopZp (d8 : Byte) : Statement (.nopZp d8) := two rfl rfl

theorem nopZpx (row : Nibble) (d8 : Byte) : Statement (.nopZpx row d8) := two rfl rfl

theorem nopAbs (row : Nibble) (a16 : Word) : Statement (.nopAbs row a16) := three rfl rfl

theorem nopLong (a16 : Word) : Statement (.nopLong a16) := three rfl rfl

theorem nopBit (row : Nibble) (colF : Bool) : Statement (.nopBit row colF) := one rfl rfl

end Sys2Proof.Laws.EncodeLength
end

