-- ==== Sys2Proof/Laws/Turn.lean ====
section
/-! SUPPORT. What the scheduler does before the master is next, as a sequence of beats: it is made of turns, it is the only one,
and a later master only lengthens it (64_bus_scheduler.md R472, R473). -/

namespace Sys2Proof.Machine

/-- From `s` to `t` by beats of the scheduler. -/
inductive Beats : State → State → Prop
  | refl (s : State) : Beats s s
  | step {s t u : State} : s.beat = some t → Beats t u → Beats s u

theorem Beats.trans {s t u : State} (h : Beats s t) (g : Beats t u) : Beats s u := by
  induction h with
  | refl s => exact g
  | step e _ ih => exact .step e (ih g)

/-- Beats are turns. -/
theorem Beats.turns {s t : State} (h : Beats s t) : ∃ n : Nat, turn^[n] s = t := by
  induction h with
  | refl s => exact ⟨0, rfl⟩
  | step e _ ih =>
    obtain ⟨n, hn⟩ := ih
    refine ⟨n + 1, ?_⟩
    rw [Function.iterate_succ_apply]
    unfold turn at hn ⊢
    rw [e]
    exact hn

/-- Beats come to one end only. -/
theorem Beats.unique {s t u : State} (h : Beats s t) (ht : t.beat = none) (g : Beats s u) (hu : u.beat = none) : t = u := by
  induction h with
  | refl s =>
    cases g with
    | refl => rfl
    | step e _ => rw [ht] at e; cases e
  | step e _ ih =>
    cases g with
    | refl => rw [hu] at e; cases e
    | step e' g => rw [e] at e'; injection e' with e'; subst e'; exact ih ht g

/-- Settling is made of beats. -/
theorem State.settle_beats (s : State) : Beats s s.settle := by
  have key : ∀ n io, Beats { s with io := io } { s with io := io.settle s.mapctl s.ram s.inputs n } := by
    intro n
    induction n with
    | zero => exact fun io => .refl _
    | succ n ih =>
      intro io
      unfold Io.settle
      cases h : io.beat s.mapctl s.ram s.inputs with
      | none => exact .refl _
      | some io' => exact .step (t := { s with io := io' }) (by unfold State.beat; simp only; rw [h]) (ih io')
  exact key s.io.beats s.io

/-- Settling comes to where beats end. -/
theorem State.settle_of_beats {s t : State} (hs : s.io.Ok) (h : Beats s t) (ht : t.beat = none) : s.settle = t :=
  Beats.unique s.settle_beats (State.settled_beat (State.settle_settled hs)) h ht

theorem Io.lineAction_later (n : Nat) (io : Io) :
    ({ io with masterDue := io.masterDue + n } : Io).lineAction =
      { io.lineAction with masterDue := io.lineAction.masterDue + n } := by
  unfold Io.lineAction
  simp only
  by_cases h : io.video.line < Config.frameLines
  · simp only [h, if_true]; rfl
  · simp only [h, if_false]

theorem Io.endFrame_later (n : Nat) (io : Io) :
    ({ io with masterDue := io.masterDue + n } : Io).endFrame =
      { io.endFrame with masterDue := io.endFrame.masterDue + n } := by
  have e : ({ io with masterDue := io.masterDue + n } : Io).lineFirst = io.lineFirst := rfl
  unfold Io.endFrame
  rw [e]
  split
  · rw [Io.lineAction_later]; rfl
  · rfl

/-- A device action does not look at the master's deadline. -/
theorem Io.run_later (d : Device) (m : Byte) (ram : List Host.Cell) (inputs : Inputs) (n : Nat) (io : Io) :
    ({ io with masterDue := io.masterDue + n } : Io).run m ram inputs d =
      { io.run m ram inputs d with masterDue := (io.run m ram inputs d).masterDue + n } := by
  cases d
  · rfl
  · exact Io.lineAction_later n io
  · unfold Io.run Io.pixelAction
    have e : ∀ a, Io.access m false a { io with masterDue := io.masterDue + n } =
        { Io.access m false a io with masterDue := (Io.access m false a io).masterDue + n } := fun _ => rfl
    simp only [e]
    split
    · exact Io.endFrame_later n _
    · rfl
  · rfl

/-- A beat stays one when the master comes later, and does not look at the CPU. -/
theorem State.beat_later {s t : State} (k : Cpu) (p : Pipeline) (n : Nat) (h : s.beat = some t) :
    ({ s with cpu := k, pipe := p, io := { s.io with masterDue := s.io.masterDue + n } } : State).beat =
      some { t with cpu := k, pipe := p, io := { t.io with masterDue := t.io.masterDue + n } } := by
  unfold State.beat at h ⊢
  simp only at h ⊢
  cases hb : s.io.beat s.mapctl s.ram s.inputs with
  | none => rw [hb] at h; cases h
  | some io =>
    rw [hb] at h
    injection h with h
    subst h
    suffices g : ({ s.io with masterDue := s.io.masterDue + n } : Io).beat s.mapctl s.ram s.inputs =
        some { io with masterDue := io.masterDue + n } by rw [g]
    unfold Io.beat at hb ⊢
    rw [show Io.queue { s.io with masterDue := s.io.masterDue + n } = s.io.queue from rfl]
    cases he : earliest s.io.queue with
    | none => rw [he] at hb; cases hb
    | some e =>
      obtain ⟨due, d⟩ := e
      rw [he] at hb
      simp only at hb ⊢
      split at hb
      · rename_i hc
        injection hb with hb
        rw [if_pos ⟨hc.1, Nat.le_add_right_of_le hc.2⟩, Io.run_later, hb]
      · rename_i hc
        split at hb
        · rename_i hl
          injection hb with hb
          rw [if_neg (by omega), if_pos (by omega), ← hb]
          rfl
        · cases hb

theorem Beats.later {s t : State} (h : Beats s t) (k : Cpu) (p : Pipeline) (n : Nat) :
    Beats { s with cpu := k, pipe := p, io := { s.io with masterDue := s.io.masterDue + n } }
      { t with cpu := k, pipe := p, io := { t.io with masterDue := t.io.masterDue + n } } := by
  induction h with
  | refl s => exact .refl _
  | step e _ ih => exact .step (State.beat_later k p n e) ih

/-- An instruction that ends after its last access has been settled ends where it would have ended before that. -/
theorem State.Inv.ended_settle {s : State} (h : s.Inv) (f : Finish) : (s.settle.ended f).settle = (s.ended f).settle := by
  refine (State.settle_of_beats (h.ended f).io ?_ (State.settled_beat (State.settle_settled (h.settle.inv.ended f).io))).symm
  exact (s.settle_beats.later f.cpu .atFetch (Config.ticksIdle * f.idle)).trans (State.settle_beats _)

end Sys2Proof.Machine
end

