-- ==== Sys2Proof/Tests/Slice0.lean ====
section
/-! SUPPORT. Tests: the well-formedness checks, decoding of words written out from the encodings of the spec, one step of each
instruction against the vectors of 95_test_vectors.md (or worked by hand from the rule named), the memory map, devices, and a
witness for the hypotheses of each obligation. -/

namespace Sys2Proof.Tests

open Sys2Proof.Machine

/-! ### Well-formedness -/

/-- R141 has no zero-page Y form. -/
theorem test_ill_formed_alu : Instr.wellFormed (.lda (.mem (.zpy 0x10))) = false := by decide

/-- R179 has zp and abs only. -/
theorem test_ill_formed_plain : Instr.wellFormed (.cpx (.mem (.zpx 0x10))) = false := by decide

/-- R143 has no pointer form. -/
theorem test_ill_formed_byX : Instr.wellFormed (.ldy (.mem (.izx 0x10))) = false := by decide

/-- R142 indexes by Y. -/
theorem test_ill_formed_byY : Instr.wellFormed (.ldx (.mem (.abx 0x2000))) = false := by decide

/-- R145 has no indexed absolute form. -/
theorem test_ill_formed_stx : Instr.wellFormed (.stx (.aby 0x2000)) = false := by decide

/-- R146 has no indexed absolute form. -/
theorem test_ill_formed_sty : Instr.wellFormed (.sty (.abx 0x2000)) = false := by decide

/-- R144. -/
theorem test_ill_formed_imm_store : Instr.wellFormed (.sta (.zpy 0x10)) = false := by decide

/-- R147. -/
theorem test_ill_formed_stz : Instr.wellFormed (.stz (.izp 0x10)) = false := by decide

/-- R190. -/
theorem test_ill_formed_tsb : Instr.wellFormed (.tsb (.zpx 0x10)) = false := by decide

/-- R196. -/
theorem test_ill_formed_rmw : Instr.wellFormed (.asl (.mem (.aby 0x2000))) = false := by decide

/-- R189. -/
theorem test_ill_formed_bit : Instr.wellFormed (.bit (.mem (.zpy 0x10))) = false := by decide

/-- $CB is WAI, R268. -/
theorem test_ill_formed_nopImp : Instr.wellFormed (.nopImp 0xC true) = false := by decide

/-- $DB is STP, R268. -/
theorem test_ill_formed_nopImp_d : Instr.wellFormed (.nopImp 0xD true) = false := by decide

/-- $A2 is LDX, R262. -/
theorem test_ill_formed_nopImm : Instr.wellFormed (.nopImm 5 0x00) = false := by decide

/-- $44 is the form of R263. -/
theorem test_ill_formed_nopZpx : Instr.wellFormed (.nopZpx 0x4 0x00) = false := by decide

/-- $5C is the form of R266. -/
theorem test_ill_formed_nopAbs : Instr.wellFormed (.nopAbs 0x5 0x0000) = false := by decide

/-- RMB0 exists here, R267. -/
theorem test_ill_formed_nopBit : Instr.wellFormed (.nopBit 0x0 false) = false := by decide

/-- Without the bit instructions their terms have no encoding (R267). -/
theorem test_ill_formed_bitOps :
    Instr.wellFormedWith false (.rmb0 0x10) = false ∧ Instr.wellFormedWith false (.smb7 0x10) = false ∧
    Instr.wellFormedWith false (.bbr0 0x10 0x00) = false ∧ Instr.wellFormedWith false (.bbs7 0x10 0x00) = false := by decide

/-- One form each of what is well-formed. -/
theorem test_well_formed :
    Instr.wellFormed (.lda (.mem (.izp 0x10))) = true ∧ Instr.wellFormed (.ldx (.mem (.zpy 0x10))) = true ∧
    Instr.wellFormed (.bit (.imm 0x10)) = true ∧ Instr.wellFormed (.inc .acc) = true ∧
    Instr.wellFormed (.nopImp 0xB true) = true ∧ Instr.wellFormed (.nopZpx 0xF 0x00) = true := by decide

/-! ### Decoding: words written out from the encoding lines of the rules -/

/-- R141 to R143, every form. -/
theorem test_decode_loads :
    decodeTableWord 16 0x80A9 = some (.lda (.imm 0x80)) ∧
    decodeTableWord 16 0x10A5 = some (.lda (.mem (.zp 0x10))) ∧
    decodeTableWord 16 0xFFB5 = some (.lda (.mem (.zpx 0xFF))) ∧
    decodeTableWord 24 0x1234AD = some (.lda (.mem (.abs 0x1234))) ∧
    decodeTableWord 24 0x12F0BD = some (.lda (.mem (.abx 0x12F0))) ∧
    decodeTableWord 24 0x12F0B9 = some (.lda (.mem (.aby 0x12F0))) ∧
    decodeTableWord 16 0xFFA1 = some (.lda (.mem (.izx 0xFF))) ∧
    decodeTableWord 16 0x20B1 = some (.lda (.mem (.izy 0x20))) ∧
    decodeTableWord 16 0x20B2 = some (.lda (.mem (.izp 0x20))) ∧
    decodeTableWord 16 0x01A2 = some (.ldx (.imm 0x01)) ∧
    decodeTableWord 16 0x10A6 = some (.ldx (.mem (.zp 0x10))) ∧
    decodeTableWord 16 0xF0B6 = some (.ldx (.mem (.zpy 0xF0))) ∧
    decodeTableWord 24 0x1234AE = some (.ldx (.mem (.abs 0x1234))) ∧
    decodeTableWord 24 0x1234BE = some (.ldx (.mem (.aby 0x1234))) ∧
    decodeTableWord 16 0x7FA0 = some (.ldy (.imm 0x7F)) ∧
    decodeTableWord 16 0x10A4 = some (.ldy (.mem (.zp 0x10))) ∧
    decodeTableWord 16 0x10B4 = some (.ldy (.mem (.zpx 0x10))) ∧
    decodeTableWord 24 0x1234AC = some (.ldy (.mem (.abs 0x1234))) ∧
    decodeTableWord 24 0x1234BC = some (.ldy (.mem (.abx 0x1234))) := by decide

/-- R144 to R147. -/
theorem test_decode_stores :
    decodeTableWord 16 0x1085 = some (.sta (.zp 0x10)) ∧
    decodeTableWord 16 0x1095 = some (.sta (.zpx 0x10)) ∧
    decodeTableWord 24 0x20008D = some (.sta (.abs 0x2000)) ∧
    decodeTableWord 24 0x20009D = some (.sta (.abx 0x2000)) ∧
    decodeTableWord 24 0x400099 = some (.sta (.aby 0x4000)) ∧
    decodeTableWord 16 0x1081 = some (.sta (.izx 0x10)) ∧
    decodeTableWord 16 0x1091 = some (.sta (.izy 0x10)) ∧
    decodeTableWord 16 0x1092 = some (.sta (.izp 0x10)) ∧
    decodeTableWord 16 0x1086 = some (.stx (.zp 0x10)) ∧
    decodeTableWord 16 0x1096 = some (.stx (.zpy 0x10)) ∧
    decodeTableWord 24 0x20008E = some (.stx (.abs 0x2000)) ∧
    decodeTableWord 16 0x1084 = some (.sty (.zp 0x10)) ∧
    decodeTableWord 16 0x1094 = some (.sty (.zpx 0x10)) ∧
    decodeTableWord 24 0x20008C = some (.sty (.abs 0x2000)) ∧
    decodeTableWord 16 0x1064 = some (.stz (.zp 0x10)) ∧
    decodeTableWord 16 0x1074 = some (.stz (.zpx 0x10)) ∧
    decodeTableWord 24 0x20009C = some (.stz (.abs 0x2000)) ∧
    decodeTableWord 24 0x20009E = some (.stz (.abx 0x2000)) := by decide

/-- R148 to R153. -/
theorem test_decode_transfers :
    decodeTableWord 8 0xAA = some (.tax) ∧
    decodeTableWord 8 0xA8 = some (.tay) ∧
    decodeTableWord 8 0x8A = some (.txa) ∧
    decodeTableWord 8 0x98 = some (.tya) ∧
    decodeTableWord 8 0xBA = some (.tsx) ∧
    decodeTableWord 8 0x9A = some (.txs) := by decide

/-- R161 to R168. -/
theorem test_decode_stack :
    decodeTableWord 8 0x48 = some (.pha) ∧
    decodeTableWord 8 0x68 = some (.pla) ∧
    decodeTableWord 8 0x08 = some (.php) ∧
    decodeTableWord 8 0x28 = some (.plp) ∧
    decodeTableWord 8 0xDA = some (.phx) ∧
    decodeTableWord 8 0xFA = some (.plx) ∧
    decodeTableWord 8 0x5A = some (.phy) ∧
    decodeTableWord 8 0x7A = some (.ply) := by decide

/-- R173, R176, R178 to R180. -/
theorem test_decode_arithmetic :
    decodeTableWord 16 0x0169 = some (.adc (.imm 0x01)) ∧
    decodeTableWord 16 0x4461 = some (.adc (.mem (.izx 0x44))) ∧
    decodeTableWord 16 0x4472 = some (.adc (.mem (.izp 0x44))) ∧
    decodeTableWord 24 0x200079 = some (.adc (.mem (.aby 0x2000))) ∧
    decodeTableWord 16 0x01E9 = some (.sbc (.imm 0x01)) ∧
    decodeTableWord 16 0x44F1 = some (.sbc (.mem (.izy 0x44))) ∧
    decodeTableWord 16 0x44F5 = some (.sbc (.mem (.zpx 0x44))) ∧
    decodeTableWord 16 0x40C9 = some (.cmp (.imm 0x40)) ∧
    decodeTableWord 16 0x10D2 = some (.cmp (.mem (.izp 0x10))) ∧
    decodeTableWord 16 0x10E4 = some (.cpx (.mem (.zp 0x10))) ∧
    decodeTableWord 24 0x2000EC = some (.cpx (.mem (.abs 0x2000))) ∧
    decodeTableWord 16 0x80C0 = some (.cpy (.imm 0x80)) ∧
    decodeTableWord 24 0x2000CC = some (.cpy (.mem (.abs 0x2000))) := by decide

/-- R186 to R191. -/
theorem test_decode_logic :
    decodeTableWord 16 0x0F29 = some (.and (.imm 0x0F)) ∧
    decodeTableWord 16 0x1032 = some (.and (.mem (.izp 0x10))) ∧
    decodeTableWord 16 0x8009 = some (.ora (.imm 0x80)) ∧
    decodeTableWord 24 0x20001D = some (.ora (.mem (.abx 0x2000))) ∧
    decodeTableWord 16 0xFF49 = some (.eor (.imm 0xFF)) ∧
    decodeTableWord 16 0x1055 = some (.eor (.mem (.zpx 0x10))) ∧
    decodeTableWord 16 0xC089 = some (.bit (.imm 0xC0)) ∧
    decodeTableWord 16 0x1024 = some (.bit (.mem (.zp 0x10))) ∧
    decodeTableWord 16 0x1034 = some (.bit (.mem (.zpx 0x10))) ∧
    decodeTableWord 24 0x20002C = some (.bit (.mem (.abs 0x2000))) ∧
    decodeTableWord 24 0x20003C = some (.bit (.mem (.abx 0x2000))) ∧
    decodeTableWord 16 0x1004 = some (.tsb (.zp 0x10)) ∧
    decodeTableWord 24 0x20000C = some (.tsb (.abs 0x2000)) ∧
    decodeTableWord 16 0x1014 = some (.trb (.zp 0x10)) ∧
    decodeTableWord 24 0x20001C = some (.trb (.abs 0x2000)) := by decide

/-- R196 to R205. -/
theorem test_decode_shifts :
    decodeTableWord 8 0x0A = some (.asl .acc) ∧
    decodeTableWord 16 0x1006 = some (.asl (.mem (.zp 0x10))) ∧
    decodeTableWord 24 0x20001E = some (.asl (.mem (.abx 0x2000))) ∧
    decodeTableWord 8 0x4A = some (.lsr .acc) ∧
    decodeTableWord 16 0x1056 = some (.lsr (.mem (.zpx 0x10))) ∧
    decodeTableWord 8 0x2A = some (.rol .acc) ∧
    decodeTableWord 24 0x20002E = some (.rol (.mem (.abs 0x2000))) ∧
    decodeTableWord 8 0x6A = some (.ror .acc) ∧
    decodeTableWord 24 0x20007E = some (.ror (.mem (.abx 0x2000))) ∧
    decodeTableWord 8 0x1A = some (.inc .acc) ∧
    decodeTableWord 16 0x10E6 = some (.inc (.mem (.zp 0x10))) ∧
    decodeTableWord 8 0x3A = some (.dec .acc) ∧
    decodeTableWord 16 0x10C6 = some (.dec (.mem (.zp 0x10))) ∧
    decodeTableWord 8 0xE8 = some (.inx) ∧
    decodeTableWord 8 0xC8 = some (.iny) ∧
    decodeTableWord 8 0xCA = some (.dex) ∧
    decodeTableWord 8 0x88 = some (.dey) := by decide

/-- R211 to R222. -/
theorem test_decode_branches :
    decodeTableWord 16 0x8090 = some (.bcc 0x80) ∧
    decodeTableWord 16 0x7FB0 = some (.bcs 0x7F) ∧
    decodeTableWord 16 0xFEF0 = some (.beq 0xFE) ∧
    decodeTableWord 16 0x05D0 = some (.bne 0x05) ∧
    decodeTableWord 16 0x1030 = some (.bmi 0x10) ∧
    decodeTableWord 16 0x0210 = some (.bpl 0x02) ∧
    decodeTableWord 16 0x0250 = some (.bvc 0x02) ∧
    decodeTableWord 16 0x0270 = some (.bvs 0x02) ∧
    decodeTableWord 16 0xFD80 = some (.bra 0xFD) ∧
    decodeTableWord 24 0x12344C = some (.jmp (.abs 0x1234)) ∧
    decodeTableWord 24 0x20FF6C = some (.jmp (.ind 0x20FF)) ∧
    decodeTableWord 24 0x20007C = some (.jmp (.iax 0x2000)) ∧
    decodeTableWord 24 0x101020 = some (.jsr 0x1010) ∧
    decodeTableWord 8 0x60 = some (.rts) := by decide

/-- R231 to R244. -/
theorem test_decode_system :
    decodeTableWord 8 0x18 = some (.clc) ∧
    decodeTableWord 8 0x38 = some (.sec) ∧
    decodeTableWord 8 0x58 = some (.cli) ∧
    decodeTableWord 8 0x78 = some (.sei) ∧
    decodeTableWord 8 0xD8 = some (.cld) ∧
    decodeTableWord 8 0xF8 = some (.sed) ∧
    decodeTableWord 8 0xB8 = some (.clv) ∧
    decodeTableWord 8 0xEA = some (.nop) ∧
    decodeTableWord 16 0xAA00 = some (.brk 0xAA) ∧
    decodeTableWord 8 0x40 = some (.rti) ∧
    decodeTableWord 8 0xCB = some (.wai) ∧
    decodeTableWord 8 0xDB = some (.stp) := by decide

/-- R251, R252. -/
theorem test_decode_bit_modify :
    decodeTableWord 16 0x1007 = some (.rmb0 0x10) ∧
    decodeTableWord 16 0x1017 = some (.rmb1 0x10) ∧
    decodeTableWord 16 0x1027 = some (.rmb2 0x10) ∧
    decodeTableWord 16 0x1037 = some (.rmb3 0x10) ∧
    decodeTableWord 16 0x1047 = some (.rmb4 0x10) ∧
    decodeTableWord 16 0x1057 = some (.rmb5 0x10) ∧
    decodeTableWord 16 0x1067 = some (.rmb6 0x10) ∧
    decodeTableWord 16 0x1077 = some (.rmb7 0x10) ∧
    decodeTableWord 16 0x1087 = some (.smb0 0x10) ∧
    decodeTableWord 16 0x1097 = some (.smb1 0x10) ∧
    decodeTableWord 16 0x10A7 = some (.smb2 0x10) ∧
    decodeTableWord 16 0x10B7 = some (.smb3 0x10) ∧
    decodeTableWord 16 0x10C7 = some (.smb4 0x10) ∧
    decodeTableWord 16 0x10D7 = some (.smb5 0x10) ∧
    decodeTableWord 16 0x10E7 = some (.smb6 0x10) ∧
    decodeTableWord 16 0x10F7 = some (.smb7 0x10) := by decide

/-- R253, R254. -/
theorem test_decode_bit_branch :
    decodeTableWord 24 0xFD100F = some (.bbr0 0x10 0xFD) ∧
    decodeTableWord 24 0xFD101F = some (.bbr1 0x10 0xFD) ∧
    decodeTableWord 24 0xFD102F = some (.bbr2 0x10 0xFD) ∧
    decodeTableWord 24 0xFD103F = some (.bbr3 0x10 0xFD) ∧
    decodeTableWord 24 0xFD104F = some (.bbr4 0x10 0xFD) ∧
    decodeTableWord 24 0xFD105F = some (.bbr5 0x10 0xFD) ∧
    decodeTableWord 24 0xFD106F = some (.bbr6 0x10 0xFD) ∧
    decodeTableWord 24 0xFD107F = some (.bbr7 0x10 0xFD) ∧
    decodeTableWord 24 0xFD108F = some (.bbs0 0x10 0xFD) ∧
    decodeTableWord 24 0xFD109F = some (.bbs1 0x10 0xFD) ∧
    decodeTableWord 24 0xFD10AF = some (.bbs2 0x10 0xFD) ∧
    decodeTableWord 24 0xFD10BF = some (.bbs3 0x10 0xFD) ∧
    decodeTableWord 24 0xFD10CF = some (.bbs4 0x10 0xFD) ∧
    decodeTableWord 24 0xFD10DF = some (.bbs5 0x10 0xFD) ∧
    decodeTableWord 24 0xFD10EF = some (.bbs6 0x10 0xFD) ∧
    decodeTableWord 24 0xFD10FF = some (.bbs7 0x10 0xFD) := by decide

/-- R261 to R266. -/
theorem test_decode_reserved :
    decodeTableWord 8 0x03 = some (.nopImp 0x0 false) ∧
    decodeTableWord 8 0xF3 = some (.nopImp 0xF false) ∧
    decodeTableWord 8 0x0B = some (.nopImp 0x0 true) ∧
    decodeTableWord 8 0xEB = some (.nopImp 0xE true) ∧
    decodeTableWord 16 0xFF02 = some (.nopImm 0 0xFF) ∧
    decodeTableWord 16 0xFFE2 = some (.nopImm 7 0xFF) ∧
    decodeTableWord 16 0x1044 = some (.nopZp 0x10) ∧
    decodeTableWord 16 0x1054 = some (.nopZpx 0x5 0x10) ∧
    decodeTableWord 16 0x10D4 = some (.nopZpx 0xD 0x10) ∧
    decodeTableWord 24 0xFC00DC = some (.nopAbs 0xD 0xFC00) ∧
    decodeTableWord 24 0xFC00FC = some (.nopAbs 0xF 0xFC00) ∧
    decodeTableWord 24 0x20005C = some (.nopLong 0x2000) := by decide

/-- Columns x7 and xF without the bit instructions (R267), and refused bytes: none, and too few (R121). -/
theorem test_decode_edges :
    decodeOpWith false 0x07 0x10 0x00 = .nopBit 0x0 false ∧ decodeOpWith false 0xFF 0x10 0x00 = .nopBit 0xF true ∧
    (match decode [] with | .error .noOpcode => true | _ => false) = true ∧
    (match decode [0xAD, 0x00] with | .error (.truncated 0xAD) => true | _ => false) = true := by decide

/-! ### One step: the vectors of 95_test_vectors.md -/

/-- The CPU of the vectors: at $1000, SP $FF, every other register and flag 0. -/
def k0 : Cpu := { State.reset.cpu with pc := 0x1000, sp := 0xFF, i := false }

/-- Cells written into empty RAM. -/
def cells (l : List (Nat × Nat)) : List Host.Cell := l.foldl (fun m c => Ram.write m c.1 (BitVec.ofNat 8 c.2)) []

/-- A state with code at PC and some cells, the vector window being RAM. -/
def start (code : List Nat) (k : Cpu) (l : List (Nat × Nat)) : State :=
  { State.reset with
    cpu := k, mapctl := 0x08, ram := cells ((code.zipIdx.map fun c => (k.pc.toNat + c.2, c.1)) ++ l) }

/-- What one step leads to passes a check. -/
def ends (o : Host.Outcome State Fault Refusal) (p : State → Bool) : Bool :=
  match o with
  | .next t => p t
  | .fault f => nomatch f
  | .refused _ => false

/-- One step from `start`. -/
def runs (code : List Nat) (k : Cpu) (l : List (Nat × Nat)) (p : State → Bool) : Bool := ends (step (start code k l)) p

/-- N, V, D, I, Z, C. -/
def flags (k : Cpu) : List Bool := [k.n, k.v, k.d, k.i, k.z, k.c]

/-- L3: zero-page wrap. -/
theorem test_lda_zpx :
    runs [0xB5, 0xFF] { k0 with x := 0x02 } [(0x0001, 0x7E), (0x0101, 0x99)] (fun t =>
      t.cpu.a == 0x7E && t.cpu.pc == 0x1002 && flags t.cpu == [false, false, false, false, false, false]) = true := by decide

/-- L5: the pointer wraps in page zero. -/
theorem test_lda_izx :
    runs [0xA1, 0xFF] k0 [(0x00FF, 0x34), (0x0000, 0x12), (0x0100, 0x99), (0x1234, 0xAB)] (fun t =>
      t.cpu.a == 0xAB && flags t.cpu == [true, false, false, false, false, false] && t.cpu.pc == 0x1002) = true := by decide

/-- L9. -/
theorem test_ldx_zpy :
    runs [0xB6, 0xF0] { k0 with y := 0x20 } [(0x0010, 0x80)] (fun t =>
      t.cpu.x == 0x80 && flags t.cpu == [true, false, false, false, false, false] && t.cpu.pc == 0x1002) = true := by decide

/-- L10. -/
theorem test_ldy_imm :
    runs [0xA0, 0x7F] { k0 with z := true } [] (fun t =>
      t.cpu.y == 0x7F && flags t.cpu == [false, false, false, false, false, false] && t.cpu.pc == 0x1002) = true := by decide

/-- L11. -/
theorem test_sta_abx :
    runs [0x9D, 0x00, 0x20] { k0 with a := 0xAA, x := 0x05 } [] (fun t =>
      t.ramAt 0x2005 == 0xAA && flags t.cpu == [false, false, false, false, false, false] && t.cpu.pc == 0x1003) = true := by decide

/-- the effective address of L6, stored to. -/
theorem test_sta_izy :
    runs [0x91, 0x20] { k0 with a := 0x5A, y := 0xFF } [(0x0020, 0x80), (0x0021, 0x30)] (fun t =>
      t.ramAt 0x317F == 0x5A) = true := by decide

/-- L12. -/
theorem test_stx_zp :
    runs [0x86, 0x10] { k0 with x := 0x33, z := true } [] (fun t =>
      t.ramAt 0x0010 == 0x33 && flags t.cpu == [false, false, false, false, true, false]) = true := by decide

/-- L13. -/
theorem test_sty_zpx :
    runs [0x94, 0x10] { k0 with y := 0x44, x := 0xF8 } [] (fun t =>
      t.ramAt 0x0008 == 0x44) = true := by decide

/-- L14. -/
theorem test_stz_abs :
    runs [0x9C, 0x00, 0x20] { k0 with a := 0x55 } [(0x2000, 0xFF)] (fun t =>
      t.ramAt 0x2000 == 0x00) = true := by decide

/-- L15. -/
theorem test_tax :
    runs [0xAA] { k0 with a := 0x80 } [] (fun t =>
      t.cpu.x == 0x80 && flags t.cpu == [true, false, false, false, false, false] && t.cpu.pc == 0x1001) = true := by decide

/-- R149 by hand. -/
theorem test_tay :
    runs [0xA8] { k0 with a := 0x00, n := true } [] (fun t =>
      t.cpu.y == 0x00 && flags t.cpu == [false, false, false, false, true, false]) = true := by decide

/-- R150 by hand. -/
theorem test_txa :
    runs [0x8A] { k0 with x := 0x81, a := 0x01 } [] (fun t =>
      t.cpu.a == 0x81 && flags t.cpu == [true, false, false, false, false, false]) = true := by decide

/-- R151 by hand. -/
theorem test_tya :
    runs [0x98] { k0 with y := 0x7F, a := 0x01 } [] (fun t =>
      t.cpu.a == 0x7F && flags t.cpu == [false, false, false, false, false, false]) = true := by decide

/-- L16. -/
theorem test_txs :
    runs [0x9A] { k0 with x := 0x00, n := true } [] (fun t =>
      t.cpu.sp == 0x00 && flags t.cpu == [true, false, false, false, false, false]) = true := by decide

/-- L17. -/
theorem test_tsx :
    runs [0xBA] { k0 with sp := 0x00 } [] (fun t =>
      t.cpu.x == 0x00 && flags t.cpu == [false, false, false, false, true, false]) = true := by decide

/-- K2: SP wraps. -/
theorem test_pha :
    runs [0x48] { k0 with a := 0x12, sp := 0x00 } [] (fun t =>
      t.ramAt 0x0100 == 0x12 && t.cpu.sp == 0xFF) = true := by decide

/-- K3: SP wraps. -/
theorem test_pla :
    runs [0x68] { k0 with a := 0x55, sp := 0xFF } [] (fun t =>
      t.cpu.a == 0x00 && flags t.cpu == [false, false, false, false, true, false] && t.cpu.sp == 0x00) = true := by decide

/-- K4. -/
theorem test_php :
    runs [0x08] { k0 with n := true, c := true } [] (fun t =>
      t.ramAt 0x01FF == 0xB1 && t.cpu.sp == 0xFE) = true := by decide

/-- K5. -/
theorem test_php_clear :
    runs [0x08] k0 [] (fun t =>
      t.ramAt 0x01FF == 0x30) = true := by decide

/-- K6. -/
theorem test_plp :
    runs [0x28] { k0 with sp := 0xFE } [(0x01FF, 0xFF)] (fun t =>
      flags t.cpu == [true, true, true, true, true, true] && t.cpu.sp == 0xFF) = true := by decide

/-- K7, with I clear before. -/
theorem test_plp_discards :
    runs [0x28] { k0 with sp := 0xFE, n := true, v := true, d := true, z := true, c := true } [(0x01FF, 0x30)] (fun t =>
      flags t.cpu == [false, false, false, false, false, false]) = true := by decide

/-- K8. -/
theorem test_phx :
    runs [0xDA] { k0 with x := 0x7F, sp := 0x80 } [] (fun t =>
      t.ramAt 0x0180 == 0x7F && t.cpu.sp == 0x7F) = true := by decide

/-- R166 by hand. -/
theorem test_plx :
    runs [0xFA] { k0 with sp := 0xFE } [(0x01FF, 0x01)] (fun t =>
      t.cpu.x == 0x01 && flags t.cpu == [false, false, false, false, false, false] && t.cpu.sp == 0xFF) = true := by decide

/-- R167 by hand. -/
theorem test_phy :
    runs [0x5A] { k0 with y := 0x7E, sp := 0x80 } [] (fun t =>
      t.ramAt 0x0180 == 0x7E && t.cpu.sp == 0x7F) = true := by decide

/-- K9. -/
theorem test_ply :
    runs [0x7A] { k0 with sp := 0x7F } [(0x0180, 0x80)] (fun t =>
      t.cpu.y == 0x80 && flags t.cpu == [true, false, false, false, false, false] && t.cpu.sp == 0x80) = true := by decide

/-- A3. -/
theorem test_adc_binary :
    runs [0x69, 0x80] { k0 with a := 0x80 } [] (fun t =>
      t.cpu.a == 0x00 && flags t.cpu == [false, true, false, false, true, true]) = true := by decide

/-- A7, the vector that tells the two readings of V apart. -/
theorem test_adc_decimal :
    runs [0x69, 0x00] { k0 with a := 0x79, d := true, c := true } [] (fun t =>
      t.cpu.a == 0x80 && flags t.cpu == [true, true, true, false, false, false]) = true := by decide

/-- A13. -/
theorem test_sbc_binary :
    runs [0xE9, 0xFF] { k0 with a := 0x7F, c := true } [] (fun t =>
      t.cpu.a == 0x80 && flags t.cpu == [true, true, false, false, false, false]) = true := by decide

/-- A17. -/
theorem test_sbc_decimal :
    runs [0xE9, 0x02] { k0 with a := 0x32, d := true } [] (fun t =>
      t.cpu.a == 0x29 && flags t.cpu == [false, false, true, false, false, true]) = true := by decide

/-- A21. -/
theorem test_cmp_less :
    runs [0xC9, 0xFF] k0 [] (fun t =>
      t.cpu.a == 0x00 && flags t.cpu == [false, false, false, false, false, false]) = true := by decide

/-- A22. -/
theorem test_cmp_more :
    runs [0xC9, 0x00] { k0 with a := 0x80, v := true } [] (fun t =>
      flags t.cpu == [true, true, false, false, false, true]) = true := by decide

/-- A23. -/
theorem test_cpx_zp :
    runs [0xE4, 0x10] { k0 with x := 0x10 } [(0x0010, 0x0F)] (fun t =>
      flags t.cpu == [false, false, false, false, false, true]) = true := by decide

/-- A24. -/
theorem test_cpy_imm :
    runs [0xC0, 0x80] { k0 with y := 0x7F } [] (fun t =>
      flags t.cpu == [true, false, false, false, false, false]) = true := by decide

/-- A5, A6, A8, A9: decimal addition, A, N, V, Z, C. -/
theorem test_addDec :
    addDec 0x09 0x01 false = ⟨0x10, false, false, false, false⟩ ∧
    addDec 0x99 0x01 false = ⟨0x00, false, false, true, true⟩ ∧
    addDec 0x58 0x46 false = ⟨0x04, false, true, false, true⟩ ∧
    addDec 0x50 0x50 false = ⟨0x00, false, true, true, true⟩ := by decide

/-- A7 under the two readings of `P_DEC_V` (D7). -/
theorem test_addDec_readings :
    (addDecWith .seq2 0x79 0x00 true).v = true ∧ (addDecWith .binary 0x79 0x00 true).v = false ∧
    (addDecWith .binary 0x79 0x00 true).r = 0x80 := by decide

/-- A14 to A16, A18: decimal subtraction, A and C. -/
theorem test_subDec :
    (subDec 0x00 0x01 true).r = 0x99 ∧ (subDec 0x00 0x01 true).c = false ∧ (subDec 0x46 0x12 true).r = 0x34 ∧
    (subDec 0x40 0x13 true).r = 0x27 ∧ (subDec 0x10 0x00 false).r = 0x09 ∧ (subDec 0x10 0x00 false).c = true := by decide

/-- G1. -/
theorem test_and_imm :
    runs [0x29, 0x0F] { k0 with a := 0xF0 } [] (fun t =>
      t.cpu.a == 0x00 && flags t.cpu == [false, false, false, false, true, false]) = true := by decide

/-- G2. -/
theorem test_ora_imm :
    runs [0x09, 0x80] { k0 with a := 0x01 } [] (fun t =>
      t.cpu.a == 0x81 && flags t.cpu == [true, false, false, false, false, false]) = true := by decide

/-- G3. -/
theorem test_eor_imm :
    runs [0x49, 0xFF] { k0 with a := 0xFF } [] (fun t =>
      t.cpu.a == 0x00 && flags t.cpu == [false, false, false, false, true, false]) = true := by decide

/-- G4. -/
theorem test_bit_zp :
    runs [0x24, 0x10] { k0 with a := 0x01 } [(0x0010, 0xC0)] (fun t =>
      t.cpu.a == 0x01 && flags t.cpu == [true, true, false, false, true, false]) = true := by decide

/-- G5: Z only. -/
theorem test_bit_imm :
    runs [0x89, 0xC0] { k0 with a := 0x01 } [] (fun t =>
      flags t.cpu == [false, false, false, false, true, false]) = true := by decide

/-- G7. -/
theorem test_tsb :
    runs [0x04, 0x10] { k0 with a := 0x0F } [(0x0010, 0xF0)] (fun t =>
      t.ramAt 0x0010 == 0xFF && flags t.cpu == [false, false, false, false, true, false]) = true := by decide

/-- G8. -/
theorem test_trb :
    runs [0x14, 0x10] { k0 with a := 0x0F } [(0x0010, 0xFF)] (fun t =>
      t.ramAt 0x0010 == 0xF0 && flags t.cpu == [false, false, false, false, false, false]) = true := by decide

/-- G9. -/
theorem test_trb_abs :
    runs [0x1C, 0x00, 0x20] { k0 with a := 0x0F } [(0x2000, 0xF0)] (fun t =>
      t.ramAt 0x2000 == 0xF0 && flags t.cpu == [false, false, false, false, true, false]) = true := by decide

/-- H1. -/
theorem test_asl_acc :
    runs [0x0A] { k0 with a := 0x81 } [] (fun t =>
      t.cpu.a == 0x02 && flags t.cpu == [false, false, false, false, false, true]) = true := by decide

/-- H5. -/
theorem test_asl_zp :
    runs [0x06, 0x10] k0 [(0x0010, 0x40)] (fun t =>
      t.ramAt 0x0010 == 0x80 && flags t.cpu == [true, false, false, false, false, false]) = true := by decide

/-- H2. -/
theorem test_lsr_acc :
    runs [0x4A] { k0 with a := 0x01 } [] (fun t =>
      t.cpu.a == 0x00 && flags t.cpu == [false, false, false, false, true, true]) = true := by decide

/-- H7: zero-page wrap. -/
theorem test_lsr_zpx :
    runs [0x56, 0x10] { k0 with x := 0xF0 } [(0x0000, 0xFF)] (fun t =>
      t.ramAt 0x0000 == 0x7F && flags t.cpu == [false, false, false, false, false, true]) = true := by decide

/-- H3. -/
theorem test_rol_acc :
    runs [0x2A] { k0 with a := 0x80, c := true } [] (fun t =>
      t.cpu.a == 0x01 && flags t.cpu == [false, false, false, false, false, true]) = true := by decide

/-- R198 by hand. -/
theorem test_rol_abs :
    runs [0x2E, 0x00, 0x20] k0 [(0x2000, 0x80)] (fun t =>
      t.ramAt 0x2000 == 0x00 && flags t.cpu == [false, false, false, false, true, true]) = true := by decide

/-- H4. -/
theorem test_ror_acc :
    runs [0x6A] { k0 with a := 0x01, c := true } [] (fun t =>
      t.cpu.a == 0x80 && flags t.cpu == [true, false, false, false, false, true]) = true := by decide

/-- H6. -/
theorem test_ror_abx :
    runs [0x7E, 0x00, 0x20] { k0 with x := 0x01 } [(0x2001, 0x01)] (fun t =>
      t.ramAt 0x2001 == 0x00 && flags t.cpu == [false, false, false, false, true, true]) = true := by decide

/-- H10. -/
theorem test_inc_acc :
    runs [0x1A] { k0 with a := 0x7F, v := true } [] (fun t =>
      t.cpu.a == 0x80 && flags t.cpu == [true, true, false, false, false, false]) = true := by decide

/-- H14. -/
theorem test_inc_abx :
    runs [0xFE, 0xFF, 0x20] { k0 with x := 0x01, c := true } [(0x2100, 0x7F)] (fun t =>
      t.ramAt 0x2100 == 0x80 && flags t.cpu == [true, false, false, false, false, true]) = true := by decide

/-- H11. -/
theorem test_dec_acc :
    runs [0x3A] { k0 with a := 0x01 } [] (fun t =>
      t.cpu.a == 0x00 && flags t.cpu == [false, false, false, false, true, false]) = true := by decide

/-- H9. -/
theorem test_dec_zp :
    runs [0xC6, 0x10] k0 [] (fun t =>
      t.ramAt 0x0010 == 0xFF && flags t.cpu == [true, false, false, false, false, false]) = true := by decide

/-- H12. -/
theorem test_inx :
    runs [0xE8] { k0 with x := 0xFF } [] (fun t =>
      t.cpu.x == 0x00 && flags t.cpu == [false, false, false, false, true, false]) = true := by decide

/-- R203 by hand. -/
theorem test_iny :
    runs [0xC8] { k0 with y := 0x7F } [] (fun t =>
      t.cpu.y == 0x80 && flags t.cpu == [true, false, false, false, false, false]) = true := by decide

/-- R204 by hand. -/
theorem test_dex :
    runs [0xCA] { k0 with x := 0x01 } [] (fun t =>
      t.cpu.x == 0x00 && flags t.cpu == [false, false, false, false, true, false]) = true := by decide

/-- H13. -/
theorem test_dey :
    runs [0x88] k0 [] (fun t =>
      t.cpu.y == 0xFF && flags t.cpu == [true, false, false, false, false, false]) = true := by decide

/-- J1. -/
theorem test_bne_taken :
    runs [0xD0, 0x05] k0 [] (fun t =>
      t.cpu.pc == 0x1007) = true := by decide

/-- J2. -/
theorem test_bne_not :
    runs [0xD0, 0x05] { k0 with z := true } [] (fun t =>
      t.cpu.pc == 0x1002) = true := by decide

/-- J3. -/
theorem test_beq :
    runs [0xF0, 0xFE] { k0 with z := true } [] (fun t =>
      t.cpu.pc == 0x1000) = true := by decide

/-- J4. -/
theorem test_bcc :
    runs [0x90, 0x80] k0 [] (fun t =>
      t.cpu.pc == 0x0F82) = true := by decide

/-- J5. -/
theorem test_bcs :
    runs [0xB0, 0x7F] { k0 with c := true } [] (fun t =>
      t.cpu.pc == 0x1081) = true := by decide

/-- J6. -/
theorem test_bmi :
    runs [0x30, 0x10] { k0 with n := true, pc := 0x10F0 } [] (fun t =>
      t.cpu.pc == 0x1102) = true := by decide

/-- J7. -/
theorem test_bpl :
    runs [0x10, 0x02] k0 [] (fun t =>
      t.cpu.pc == 0x1004) = true := by decide

/-- J8. -/
theorem test_bvc :
    runs [0x50, 0x02] { k0 with v := true } [] (fun t =>
      t.cpu.pc == 0x1002) = true := by decide

/-- J9. -/
theorem test_bvs :
    runs [0x70, 0x02] { k0 with v := true } [] (fun t =>
      t.cpu.pc == 0x1004) = true := by decide

/-- J10. -/
theorem test_bra :
    runs [0x80, 0xFD] k0 [] (fun t =>
      t.cpu.pc == 0x0FFF) = true := by decide

/-- J13: no page wrap. -/
theorem test_jmp_ind :
    runs [0x6C, 0xFF, 0x20] k0 [(0x20FF, 0x00), (0x2100, 0x30), (0x2000, 0x40)] (fun t =>
      t.cpu.pc == 0x3000) = true := by decide

/-- J14. -/
theorem test_jmp_iax :
    runs [0x7C, 0x00, 0x20] { k0 with x := 0x04 } [(0x2004, 0x78), (0x2005, 0x56)] (fun t =>
      t.cpu.pc == 0x5678) = true := by decide

/-- J15. -/
theorem test_jsr :
    runs [0x20, 0x00, 0x20] k0 [] (fun t =>
      t.ramAt 0x01FF == 0x10 && t.ramAt 0x01FE == 0x02 && t.cpu.sp == 0xFD && t.cpu.pc == 0x2000) = true := by decide

/-- J17: the address wraps. -/
theorem test_rts :
    runs [0x60] { k0 with sp := 0xFD } [(0x01FE, 0xFF), (0x01FF, 0xFF)] (fun t =>
      t.cpu.pc == 0x0000 && t.cpu.sp == 0xFF) = true := by decide

/-- B5, R231 to R237. -/
theorem test_clc :
    runs [0x18] { k0 with c := true } [] (fun t =>
      flags t.cpu == [false, false, false, false, false, false] && t.cpu.pc == 0x1001) = true := by decide

/-- B5, R231 to R237. -/
theorem test_sec :
    runs [0x38] k0 [] (fun t =>
      flags t.cpu == [false, false, false, false, false, true] && t.cpu.pc == 0x1001) = true := by decide

/-- B5, R231 to R237. -/
theorem test_cli :
    runs [0x58] { k0 with i := true } [] (fun t =>
      flags t.cpu == [false, false, false, false, false, false] && t.cpu.pc == 0x1001) = true := by decide

/-- B5, R231 to R237. -/
theorem test_sei :
    runs [0x78] k0 [] (fun t =>
      flags t.cpu == [false, false, false, true, false, false] && t.cpu.pc == 0x1001) = true := by decide

/-- B5, R231 to R237. -/
theorem test_cld :
    runs [0xD8] { k0 with d := true } [] (fun t =>
      flags t.cpu == [false, false, false, false, false, false] && t.cpu.pc == 0x1001) = true := by decide

/-- B5, R231 to R237. -/
theorem test_sed :
    runs [0xF8] k0 [] (fun t =>
      flags t.cpu == [false, false, true, false, false, false] && t.cpu.pc == 0x1001) = true := by decide

/-- B5, R231 to R237. -/
theorem test_clv :
    runs [0xB8] { k0 with v := true } [] (fun t =>
      flags t.cpu == [false, false, false, false, false, false] && t.cpu.pc == 0x1001) = true := by decide

/-- R238. -/
theorem test_nop :
    runs [0xEA] { k0 with n := true } [] (fun t =>
      flags t.cpu == [true, false, false, false, false, false] && t.cpu.pc == 0x1001) = true := by decide

/-- B1. -/
theorem test_brk :
    runs [0x00, 0xEA] { k0 with d := true, c := true } [(0xFFFF, 0x80)] (fun t =>
      t.ramAt 0x01FF == 0x10 && t.ramAt 0x01FE == 0x02 && t.ramAt 0x01FD == 0x39 && t.cpu.sp == 0xFC &&
      flags t.cpu == [false, false, false, true, false, true] && t.cpu.pc == 0x8000) = true := by decide

/-- B4. -/
theorem test_rti :
    runs [0x40] { k0 with sp := 0xFC } [(0x01FD, 0xFF), (0x01FF, 0x20)] (fun t =>
      flags t.cpu == [true, true, true, true, true, true] && t.cpu.pc == 0x2000 && t.cpu.sp == 0xFF) = true := by decide

/-- R251 (T1, T3). -/
theorem test_rmb0 :
    runs [0x07, 0x10] { k0 with n := true } [(0x0010, 0xFF)] (fun t =>
      t.ramAt 0x0010 == 0xFE && flags t.cpu == [true, false, false, false, false, false] && t.cpu.pc == 0x1002) = true := by decide

/-- R251 (T1, T3). -/
theorem test_rmb1 :
    runs [0x17, 0x10] { k0 with n := true } [(0x0010, 0xFF)] (fun t =>
      t.ramAt 0x0010 == 0xFD && flags t.cpu == [true, false, false, false, false, false] && t.cpu.pc == 0x1002) = true := by decide

/-- R251 (T1, T3). -/
theorem test_rmb2 :
    runs [0x27, 0x10] { k0 with n := true } [(0x0010, 0xFF)] (fun t =>
      t.ramAt 0x0010 == 0xFB && flags t.cpu == [true, false, false, false, false, false] && t.cpu.pc == 0x1002) = true := by decide

/-- R251 (T1, T3). -/
theorem test_rmb3 :
    runs [0x37, 0x10] { k0 with n := true } [(0x0010, 0xFF)] (fun t =>
      t.ramAt 0x0010 == 0xF7 && flags t.cpu == [true, false, false, false, false, false] && t.cpu.pc == 0x1002) = true := by decide

/-- R251 (T1, T3). -/
theorem test_rmb4 :
    runs [0x47, 0x10] { k0 with n := true } [(0x0010, 0xFF)] (fun t =>
      t.ramAt 0x0010 == 0xEF && flags t.cpu == [true, false, false, false, false, false] && t.cpu.pc == 0x1002) = true := by decide

/-- R251 (T1, T3). -/
theorem test_rmb5 :
    runs [0x57, 0x10] { k0 with n := true } [(0x0010, 0xFF)] (fun t =>
      t.ramAt 0x0010 == 0xDF && flags t.cpu == [true, false, false, false, false, false] && t.cpu.pc == 0x1002) = true := by decide

/-- R251 (T1, T3). -/
theorem test_rmb6 :
    runs [0x67, 0x10] { k0 with n := true } [(0x0010, 0xFF)] (fun t =>
      t.ramAt 0x0010 == 0xBF && flags t.cpu == [true, false, false, false, false, false] && t.cpu.pc == 0x1002) = true := by decide

/-- R251 (T1, T3). -/
theorem test_rmb7 :
    runs [0x77, 0x10] { k0 with n := true } [(0x0010, 0xFF)] (fun t =>
      t.ramAt 0x0010 == 0x7F && flags t.cpu == [true, false, false, false, false, false] && t.cpu.pc == 0x1002) = true := by decide

/-- R252 (T2). -/
theorem test_smb0 :
    runs [0x87, 0x10] { k0 with z := true } [(0x0010, 0x00)] (fun t =>
      t.ramAt 0x0010 == 0x01 && flags t.cpu == [false, false, false, false, true, false] && t.cpu.pc == 0x1002) = true := by decide

/-- R252 (T2). -/
theorem test_smb1 :
    runs [0x97, 0x10] { k0 with z := true } [(0x0010, 0x00)] (fun t =>
      t.ramAt 0x0010 == 0x02 && flags t.cpu == [false, false, false, false, true, false] && t.cpu.pc == 0x1002) = true := by decide

/-- R252 (T2). -/
theorem test_smb2 :
    runs [0xA7, 0x10] { k0 with z := true } [(0x0010, 0x00)] (fun t =>
      t.ramAt 0x0010 == 0x04 && flags t.cpu == [false, false, false, false, true, false] && t.cpu.pc == 0x1002) = true := by decide

/-- R252 (T2). -/
theorem test_smb3 :
    runs [0xB7, 0x10] { k0 with z := true } [(0x0010, 0x00)] (fun t =>
      t.ramAt 0x0010 == 0x08 && flags t.cpu == [false, false, false, false, true, false] && t.cpu.pc == 0x1002) = true := by decide

/-- R252 (T2). -/
theorem test_smb4 :
    runs [0xC7, 0x10] { k0 with z := true } [(0x0010, 0x00)] (fun t =>
      t.ramAt 0x0010 == 0x10 && flags t.cpu == [false, false, false, false, true, false] && t.cpu.pc == 0x1002) = true := by decide

/-- R252 (T2). -/
theorem test_smb5 :
    runs [0xD7, 0x10] { k0 with z := true } [(0x0010, 0x00)] (fun t =>
      t.ramAt 0x0010 == 0x20 && flags t.cpu == [false, false, false, false, true, false] && t.cpu.pc == 0x1002) = true := by decide

/-- R252 (T2). -/
theorem test_smb6 :
    runs [0xE7, 0x10] { k0 with z := true } [(0x0010, 0x00)] (fun t =>
      t.ramAt 0x0010 == 0x40 && flags t.cpu == [false, false, false, false, true, false] && t.cpu.pc == 0x1002) = true := by decide

/-- R252 (T2). -/
theorem test_smb7 :
    runs [0xF7, 0x10] { k0 with z := true } [(0x0010, 0x00)] (fun t =>
      t.ramAt 0x0010 == 0x80 && flags t.cpu == [false, false, false, false, true, false] && t.cpu.pc == 0x1002) = true := by decide

/-- R253 (T4). -/
theorem test_bbr0 :
    runs [0x0F, 0x10, 0x04] k0 [(0x0010, 0xFE)] (fun t =>
      t.cpu.pc == 0x1007 && flags t.cpu == [false, false, false, false, false, false]) = true := by decide

/-- R253 (T4). -/
theorem test_bbr1 :
    runs [0x1F, 0x10, 0x04] k0 [(0x0010, 0xFD)] (fun t =>
      t.cpu.pc == 0x1007 && flags t.cpu == [false, false, false, false, false, false]) = true := by decide

/-- R253 (T4). -/
theorem test_bbr2 :
    runs [0x2F, 0x10, 0x04] k0 [(0x0010, 0xFB)] (fun t =>
      t.cpu.pc == 0x1007 && flags t.cpu == [false, false, false, false, false, false]) = true := by decide

/-- R253 (T4). -/
theorem test_bbr3 :
    runs [0x3F, 0x10, 0x04] k0 [(0x0010, 0xF7)] (fun t =>
      t.cpu.pc == 0x1007 && flags t.cpu == [false, false, false, false, false, false]) = true := by decide

/-- R253 (T4). -/
theorem test_bbr4 :
    runs [0x4F, 0x10, 0x04] k0 [(0x0010, 0xEF)] (fun t =>
      t.cpu.pc == 0x1007 && flags t.cpu == [false, false, false, false, false, false]) = true := by decide

/-- R253 (T4). -/
theorem test_bbr5 :
    runs [0x5F, 0x10, 0x04] k0 [(0x0010, 0xDF)] (fun t =>
      t.cpu.pc == 0x1007 && flags t.cpu == [false, false, false, false, false, false]) = true := by decide

/-- R253 (T4). -/
theorem test_bbr6 :
    runs [0x6F, 0x10, 0x04] k0 [(0x0010, 0xBF)] (fun t =>
      t.cpu.pc == 0x1007 && flags t.cpu == [false, false, false, false, false, false]) = true := by decide

/-- R253 (T4). -/
theorem test_bbr7 :
    runs [0x7F, 0x10, 0x04] k0 [(0x0010, 0x7F)] (fun t =>
      t.cpu.pc == 0x1007 && flags t.cpu == [false, false, false, false, false, false]) = true := by decide

/-- R254 (T6). -/
theorem test_bbs0 :
    runs [0x8F, 0x10, 0xFD] k0 [(0x0010, 0x01)] (fun t =>
      t.cpu.pc == 0x1000 && flags t.cpu == [false, false, false, false, false, false]) = true := by decide

/-- R254 (T6). -/
theorem test_bbs1 :
    runs [0x9F, 0x10, 0xFD] k0 [(0x0010, 0x02)] (fun t =>
      t.cpu.pc == 0x1000 && flags t.cpu == [false, false, false, false, false, false]) = true := by decide

/-- R254 (T6). -/
theorem test_bbs2 :
    runs [0xAF, 0x10, 0xFD] k0 [(0x0010, 0x04)] (fun t =>
      t.cpu.pc == 0x1000 && flags t.cpu == [false, false, false, false, false, false]) = true := by decide

/-- R254 (T6). -/
theorem test_bbs3 :
    runs [0xBF, 0x10, 0xFD] k0 [(0x0010, 0x08)] (fun t =>
      t.cpu.pc == 0x1000 && flags t.cpu == [false, false, false, false, false, false]) = true := by decide

/-- R254 (T6). -/
theorem test_bbs4 :
    runs [0xCF, 0x10, 0xFD] k0 [(0x0010, 0x10)] (fun t =>
      t.cpu.pc == 0x1000 && flags t.cpu == [false, false, false, false, false, false]) = true := by decide

/-- R254 (T6). -/
theorem test_bbs5 :
    runs [0xDF, 0x10, 0xFD] k0 [(0x0010, 0x20)] (fun t =>
      t.cpu.pc == 0x1000 && flags t.cpu == [false, false, false, false, false, false]) = true := by decide

/-- R254 (T6). -/
theorem test_bbs6 :
    runs [0xEF, 0x10, 0xFD] k0 [(0x0010, 0x40)] (fun t =>
      t.cpu.pc == 0x1000 && flags t.cpu == [false, false, false, false, false, false]) = true := by decide

/-- R254 (T6). -/
theorem test_bbs7 :
    runs [0xFF, 0x10, 0xFD] k0 [(0x0010, 0x80)] (fun t =>
      t.cpu.pc == 0x1000 && flags t.cpu == [false, false, false, false, false, false]) = true := by decide

/-- X1; one fetch of 5 ticks. -/
theorem test_nopImp :
    runs [0x03] { k0 with n := true } [] (fun t =>
      t.cpu.pc == 0x1001 && flags t.cpu == [true, false, false, false, false, false] && t.io.tick == 5) = true := by decide

/-- X2. -/
theorem test_nopImm :
    runs [0x02, 0xFF] k0 [] (fun t =>
      t.cpu.pc == 0x1002) = true := by decide

/-- X3. -/
theorem test_nopZp :
    runs [0x44, 0x10] k0 [(0x0010, 0x80)] (fun t =>
      t.cpu.pc == 0x1002 && flags t.cpu == [false, false, false, false, false, false]) = true := by decide

/-- X4. -/
theorem test_nopZpx :
    runs [0xD4, 0x10] { k0 with x := 0x01 } [] (fun t =>
      t.cpu.pc == 0x1002) = true := by decide

/-- X5. -/
theorem test_nopAbs :
    runs [0xDC, 0x00, 0xFC] k0 [] (fun t =>
      t.cpu.pc == 0x1003) = true := by decide

/-- X6. -/
theorem test_nopLong :
    runs [0x5C, 0x00, 0x20] k0 [] (fun t =>
      t.cpu.pc == 0x1003) = true := by decide

/-- X7. -/
theorem test_wai :
    runs [0xCB] k0 [] (fun t =>
      t.cpu.pc == 0x1001) = true := by decide

/-- X8. -/
theorem test_stp :
    runs [0xDB] k0 [] (fun t =>
      t.cpu.pc == 0x1001) = true := by decide

/-- T8: byte $07 where the bit instructions do not exist. -/
theorem test_nopBit :
    decodeOpWith false 0x07 0x10 0x00 = .nopBit 0x0 false ∧
    ends (exec (.nopBit 0x0 false) (start [] k0 [])) (fun t => t.cpu == k0 && t.ramAt 0x0010 == 0) = true := by decide

/-! ### Interrupts: vectors B6 to B9 -/

/-- Timer 0's bit is pending. -/
def pendingIrq (s : State) : State := { s with io := { s.io with pending := 0x01 } }

/-- B6. -/
theorem test_irq_entry :
    ends (step (pendingIrq (start [] { k0 with n := true, pc := 0x1002 } [(0xFFFF, 0x30)]))) (fun t =>
      t.ramAt 0x01FF == 0x10 && t.ramAt 0x01FE == 0x02 && t.ramAt 0x01FD == 0xA0 && t.cpu.sp == 0xFC && t.cpu.i &&
      t.cpu.pc == 0x3000) = true := by decide

/-- B7: masked, the instruction runs. -/
theorem test_irq_masked :
    ends (step (pendingIrq (start [0xE8] { k0 with i := true } []))) (fun t =>
      t.cpu.x == 1 && t.cpu.pc == 0x1001) = true := by decide

/-- B8 and B9: an edge enters the NMI, whatever I is, before an IRQ; the same level does not enter it again. -/
theorem test_nmi_entry :
    ends (step (State.setNmi true (pendingIrq (start [] { k0 with i := true, pc := 0x1234 } [(0xFFFB, 0x40)])))) (fun t =>
      t.ramAt 0x01FF == 0x12 && t.ramAt 0x01FE == 0x34 && t.ramAt 0x01FD == 0x24 && t.cpu.sp == 0xFC &&
      t.cpu.pc == 0x4000 && t.poll == .run) = true := by decide

/-! ### Memory map: vectors M1 to M9 -/

/-- A boot ROM with $A5 at $FE00 and the reset vector $FE00. -/
def rom : List Byte := 0xA5 :: List.replicate 507 0x00 ++ [0x00, 0xFE, 0x00, 0x00]

/-- `LDA` or another instruction under a map, with the RAM of the vectors. -/
def mapped (rom : List Byte) (m : Byte) (code : List Nat) : State :=
  { start code { k0 with a := 0x77 } [(0xFE00, 0x11), (0xFFF8, 0x22), (0xFFFA, 0x33)] with mapctl := m, rom := rom }

/-- M1, M2. -/
theorem test_map_rom :
    ends (step (mapped rom 0x00 [0xAD, 0x00, 0xFE])) (fun t => t.cpu.a == 0xA5) = true ∧
    ends (step (mapped rom 0x04 [0xAD, 0x00, 0xFE])) (fun t => t.cpu.a == 0x11) = true := by
  decide +kernel

/-- M3, M4, M6. -/
theorem test_map_holes :
    ends (step (mapped rom 0x00 [0xAD, 0xF8, 0xFF])) (fun t => t.cpu.a == 0x22) = true ∧
    ends (step (mapped [] 0x00 [0xAD, 0x00, 0xFE])) (fun t => t.cpu.a == 0xFF) = true ∧
    ends (step (mapped rom 0x00 [0xAD, 0xF9, 0xFF])) (fun t => t.cpu.a == 0x00) = true := by
  decide +kernel

/-- M5: a store to ROM is discarded. -/
theorem test_map_rom_store :
    ends (step (mapped rom 0x00 [0x8D, 0x00, 0xFE])) (fun t => t.ramAt 0xFE00 == 0x11 && t.peek 0xFE00 == 0xA5) = true := by
  decide +kernel

/-- M7: the map changes with the store. -/
theorem test_map_mapctl_store :
    ends (step (mapped rom 0x00 [0x8D, 0xF9, 0xFF])) (fun t => t.mapctl == 0x77 && t.peek 0xFFFA == 0x33) = false ∧
    ends (step { mapped rom 0x00 [0x8D, 0xF9, 0xFF] with cpu := { k0 with a := 0x08 } }) (fun t =>
      t.mapctl == 0x08 && t.peek 0xFFFA == 0x33) = true := by
  decide +kernel

/-- M8: with Mikey's page disabled its addresses are RAM. -/
theorem test_map_mikey_disabled :
    ends (step (mapped rom 0x02 [0x8D, 0x00, 0xFD])) (fun t =>
      t.peek 0xFD00 == 0x77 && t.io.timers[0].backup == 0x00) = true := by
  decide +kernel

/-- M9. -/
theorem test_reset_with_rom :
    (State.resetWith rom Cart.reset Inputs.reset ResetDraw.zero).cpu.pc = 0xFE00 ∧
    (State.resetWith rom Cart.reset Inputs.reset ResetDraw.zero).cpu.i = true ∧ State.reset.cpu.pc = 0xFFFF := by
  decide +kernel

/-! ### Devices -/

/-- R346, R345: backup 2, reloading: the firing comes at the third edge, and the counter is reloaded. -/
theorem test_timer :
    Timer.edges 2 { Timer.reset with ctl := 0x18, backup := 2, value := 2 } =
      ({ Timer.reset with ctl := 0x18, backup := 2, value := 0 }, 0) ∧
    Timer.edges 3 { Timer.reset with ctl := 0x18, backup := 2, value := 2 } =
      ({ Timer.reset with ctl := 0x18, backup := 2, value := 2, status := 0x08 }, 1) := by decide

/-- R364: the handler's store of P5 drops the line. -/
theorem test_intrst :
    ends (step (pendingIrq { start [0x8D, 0x80, 0xFD] { k0 with a := 0x01, i := true } [] with mapctl := 0x08 }))
      (fun t => !t.irqLine && t.io.pending == 0x00) = true := by decide

/-- R418 and D39, by hand: left and B, A, up and down, and pause in bit 0 of SWITCHES. -/
theorem test_joystick :
    joystick 0x101 = 0x22 ∧ joystick 0x080 = 0x01 ∧ joystick 0x00A = 0xC0 ∧
    bit (switches 0x020 0) 0 = true ∧ bit (switches 0x1DF 0) 0 = false := by
  refine ⟨by decide, by decide, by decide, ?_, ?_⟩ <;> (unfold switches bit; rw [BitVec.getLsbD_append]; decide)

/-- R357: green from the low half of $FDA0+n, blue and red from $FDB0+n. -/
theorem test_palette :
    ((Io.reset.writeReg 0xA3 0x05).writeReg 0xB3 0x2F).paletteEntry 3 = 0xFFFF5522 := by decide

/-- S8, R408, R420: pen 1 at column 10 is the high nibble of byte 5 of its row: a pending high nibble over $00 stores $10. -/
theorem test_video_byte :
    columnAddr 0x4320 10 = 0x4325 ∧ columnHi 10 = true ∧ ((Accum.empty 0x4325).put true 1).merge 0x00 = 0x10 := by decide

/-- R407: what is drawn and what collides, for pens 0, $E and $F of types 2 and 3. -/
theorem test_pixel_kinds :
    drawnFor 2 0xE = false ∧ drawnFor 2 0xF = false ∧ drawnFor 3 0xE = true ∧ drawnFor 3 0xF = false ∧
    collidesFor 3 0xE = true ∧ collidesFor 4 0xE = true ∧ collidesFor 2 0xE = false ∧ collidesFor 1 0x5 = false := by decide

/-- R384, R385: GO with SCBNEXT's high byte zero: the first step of the walk releases the CPU. -/
theorem test_empty_walk :
    ends (step { State.reset with suzy := Suzy.reset.writeSprgo 0x01 }) (fun t =>
      !t.suzy.halted && !t.suzy.working && t.suzy.phase == .idle) = true := by decide

/-- R394 and R19 by hand: HPOSSTRT $7FFF less HOFF $8000 is $FFFF in sixteen bits, one column left of the screen. -/
theorem test_first_column :
    ({ Suzy.reset with hposstrt := 0x7FFF, hoff := 0x8000 } : Suzy).firstCol = 0xFFFF ∧
    ({ Suzy.reset with sprhpos := 0xFFFF } : Suzy).colOn = false := by decide

/-- R190: TSB has set Z when its first store starts Suzy, and so halts the CPU. -/
theorem test_suspended_tsb :
    ends (step { start [0x0C, 0x91, 0xFC] { k0 with a := 0x02, z := false } [] with
      suzy := { Suzy.reset with sprgo := 0x01 } }) (fun t => t.suzy.halted && t.pipe != .atFetch && t.cpu.z) = true := by
  decide

/-- R384, R468: INC of a SPRGO that holds GO is suspended between its two stores, with the CPU halted. -/
theorem test_suspended_store :
    ends (step
      { start [0xEE, 0x91, 0xFC] k0 [] with suzy := { Suzy.reset with sprgo := 0x01 } }) (fun t =>
      t.suzy.halted && t.suzy.sprgo == 0x01 && t.pipe != .atFetch) = true := by decide

/-- R443 to R445: page 1 of a bank of 256 pages of 2 bytes, second byte. -/
theorem test_cart :
    ({ Cart.reset with bank0 := [10, 11, 12, 13] ++ List.replicate 508 0, shiftReg := 1, counter := 1 } : Cart).port0 = 13 := by
  decide +kernel

/-- R446: AUDIN as an output and high selects the "A" variant. -/
theorem test_audin :
    ({ Cart.reset with bank0 := List.replicate 256 1, bank0A := List.replicate 256 2, iodir := 0x10, iodat := 0x10 } :
      Cart).port0 = 2 := by
  decide +kernel

/-- R440: under the coarse back-end the peer's byte arrives whole in its pulse, and this party's at its stop state. -/
theorem test_coarse :
    (Serial.reset.pulseWith .coarse 0 false (some (0x5A, true))).rxBuf = 0x5A ∧
    (Serial.reset.pulseWith .coarse 0 false none).rxFull = false ∧
    (({ Serial.reset with tx := .data 7, txShift := 0xA5 } : Serial).pulseWith .coarse 0 false none).rxBuf = 0xA5 := by
  decide

/-- R461, R473: to a target one tick on, a run makes one access and returns inside the instruction. -/
theorem test_run_between_accesses :
    (runUntil 20 4 (start [0xA9, 0x80] k0 [])).why = .reached ∧ (runUntil 20 4 (start [0xA9, 0x80] k0 [])).state.cpu.a = 0x00 ∧
    (runUntil 20 4 (start [0xA9, 0x80] k0 [])).state.pipe = .fetch (start [0xA9, 0x80] k0 []).cpu [0xA9] := by decide

/-- R449: a header of a cartridge of one page byte a bank page, and a raw dump of a bad size. -/
theorem test_image :
    (match loadCart (lynxMagic ++ [1, 0] ++ List.replicate 58 0 ++ List.replicate 256 7) with
      | .ok c => c.cart.bank0.length == 256 && c.cart.bank1.isEmpty
      | .error _ => false) = true ∧
    (match loadCart [1, 2, 3] with | .ok _ => false | .error _ => true) = true := by
  decide +kernel

/-! ### Witnesses: for each obligation with hypotheses, data that meet them -/

/-- `LDA #$80` at PC, nothing due. -/
def ready : State := start [0xA9, 0x80] k0 []

/-- What a passing check says. -/
theorem next_of_ends {o : Host.Outcome State Fault Refusal} {p : State → Bool} (h : ends o p = true) :
    ∃ t, o = .next t ∧ p t = true := by
  cases o with
  | next t => exact ⟨t, rfl, h⟩
  | fault f => exact nomatch f
  | refused r => exact nomatch h

theorem ready_ready : ready.Ready := ⟨by decide, by decide, ⟨rfl, rfl⟩, rfl⟩

theorem witness_DecodeOfEncode :
    Instr.wellFormedWith true (.adc (.mem (.izp 0xFF))) = true ∧ Instr.wellFormedWith true (.bbs7 0xFF 0x80) = true ∧
    Instr.wellFormedWith false (.nopBit 0xF true) = true ∧ Instr.wellFormedWith false (.jsr 0xFFFF) = true := by decide

theorem witness_EncodeOfDecode :
    decodeWith true [0x8F, 0x01, 0x02, 0x03] = .ok (.bbs0 0x01 0x02, [0x03]) ∧
    decodeWith false [0x8F, 0x01] = .ok (.nopBit 0x8 true, [0x01]) := by decide

/-- Three bytes are asked for: with one operand byte missing, and with both. -/
theorem witness_DecodeTotal :
    decodeWith true [0x20, 0x01] = .error (.truncated 0x20) ∧
    decodeWith true [0x20, 0x01, 0x02] = .ok (.jsr 0x0201, []) := by decide

/-- The ROM absent, and present with another reset vector. -/
theorem witness_ResetState :
    State.resetWith [] Cart.reset Inputs.reset ResetDraw.zero = State.reset ∧
    (State.resetWith rom Cart.reset Inputs.reset ResetDraw.zero).peek 0xFFFD = 0xFE := ⟨rfl, by decide +kernel⟩

theorem witness_StepRunsTheDecodedInstruction :
    ready.Ready ∧ ready.cpu.waiting = false ∧ ready.poll = .run ∧
    decode [ready.peek ready.cpu.pc, ready.peek (ready.cpu.pc + 1), ready.peek (ready.cpu.pc + 2)] =
      .ok (.lda (.imm 0x80), [0x00]) ∧
    ∀ k : Nat, k < (Instr.lda (.imm 0x80)).length → ready.plain (ready.cpu.pc + BitVec.ofNat 16 k) = true :=
  ⟨ready_ready, rfl, by decide, by decide, by decide⟩

theorem reset_io : State.reset.io.Ok where
  timers k := by unfold Timer.Ok; revert k; decide
  channels k := by unfold Timer.Ok; revert k; decide
  video := ⟨by decide, by decide, rfl, rfl, rfl⟩
  pixel h := absurd rfl h
  pulse := by decide
  lag h := absurd h (by decide)
  late := by decide
  once h := absurd h (by decide)

/-- The invariant for a clean machine with any engine that fits. -/
theorem inv_of_suzy {z : Suzy} (h : z.Ok) : ({ State.reset with suzy := z } : State).Inv where
  ram := rfl
  io := reset_io
  suzy := h

theorem witness_inv : State.reset.Inv :=
  inv_of_suzy (z := Suzy.reset)
    ⟨rfl, fun _ => rfl, nofun, nofun, (by rintro (h | h | h) <;> cases h), (by rintro (h | h) <;> cases h), nofun⟩

/-- A step of the CPU from reset. -/
theorem witness_StepIsTurns : State.reset.Inv ∧ ∃ t, step State.reset = .next t := by
  obtain ⟨t, h, -⟩ := next_of_ends (o := step State.reset) (p := fun _ => true) (by decide)
  exact ⟨witness_inv, t, h⟩

/-- The clock with a display line, a display read and a serial pulse queued, all due, and the master far off. -/
def crowded : Io := { Io.reset with tick := 20, masterDue := 40, lineDue := some 18, pixelDue := some 17, pulseDue := 17 }

/-- The earliest of several due actions, with a tie; nothing due before the master; the master's turn. -/
theorem witness_TurnOrder :
    crowded.queue = [(18, .line)] ++ (17, .pixel) :: [(17, .pulse)] ∧
    (∃ t, ({ State.reset with io := crowded } : State).beat = some t ∧ t.io.video.fetched = 1) ∧
    (∃ t, ({ State.reset with io := { Io.reset with masterDue := 1 } } : State).beat = some t ∧ t.io.tick = 1) ∧
    State.reset.beat = none :=
  ⟨rfl, ⟨_, rfl, rfl⟩, ⟨_, rfl, rfl⟩, rfl⟩

/-- The last byte of a frame's last line is due. -/
def lastByte : State :=
  { State.reset with
    io :=
      { Io.reset with
        pixelDue := some 0
        video :=
          { Video.reset with line := 101, fetched := 79, lineBuf := List.replicate 158 0, frame := List.replicate 16160 0 } } }

/-- Every end of a run but that of the 64-bit clock. -/
theorem witness_RunUntil :
    (runWith (.std false) 20 4 0 ready).why = .reached ∧
    (runWith (.std false) 20 4 0 ready.requestStop).why = .cancelled ∧
    (runWith (.std true) 1 4 0 lastByte).why = .nextFrame ∧
    (runWith { stopAtFrame := false, breakOnBrk := true, traceHook := true } 20 99 0 (start [0x00] k0 [])).why = .debugTrap ∧
    (runWith (.std false) 0 4 0 ready).why = .unfinished ∧
    (runWith (.std false) 20 (2 ^ 65) 0 { ready with io := { ready.io with tick := 2 ^ 64, masterDue := 2 ^ 64 } }).why =
      .tickCounterWrap ∧
    (turn lastByte).io.video.frames ≠ lastByte.io.video.frames ∧
    (let s := start [0x00] k0 []
     s.atBrk = false ∧ (turn s).atBrk = true) := by decide

/-- R324: a budget of 4 ticks runs out before a sample at tick 9, and 20 ticks are enough. -/
theorem test_tick_budget :
    (runFor 20 4 1 1 9 ready).why = .timeout ∧ (runFor 20 4 1 1 9 ready).samples = [] ∧
    (runFor 20 20 1 1 9 ready).why = .reached ∧ (runFor 20 20 1 1 9 ready).samples.length = 1 := by decide

/-- R396: a line start computes the row's addresses before SPRDOFF is read, and leaves them when no row is left. -/
theorem test_row_addresses :
    (let z : Suzy := { Suzy.reset with vidbas := 0x1000, collbas := 0x3000, sprvpos := 2, vidadr := 7 }
     ({ z with rowsLeft := 1 } : Suzy).beginLine.vidadr = 0x10A0 ∧ ({ z with rowsLeft := 1 } : Suzy).beginLine.colladr = 0x30A0 ∧
     z.beginLine.vidadr = 7) := by decide

/-- Both ends of every row of the map, overlay enabled and disabled. -/
theorem witness_MemoryMap :
    [0x0000, 0xFBFF, 0xFC00, 0xFCFF, 0xFD00, 0xFDFF, 0xFE00, 0xFFF7, 0xFFF8, 0xFFF9, 0xFFFA, 0xFFFF].map
        (fun n => State.reset.backingOf (BitVec.ofNat 16 n)) =
      [.ram, .ram, .suzy, .suzy, .mikey, .mikey, .rom, .rom, .ram, .mapctl, .rom, .rom] ∧
    [0xFC00, 0xFCFF, 0xFD00, 0xFDFF, 0xFE00, 0xFFF7, 0xFFF8, 0xFFF9, 0xFFFA, 0xFFFF].map
        (fun n => ({ State.reset with mapctl := 0x0F } : State).backingOf (BitVec.ofNat 16 n)) =
      [.ram, .ram, .ram, .ram, .ram, .ram, .ram, .mapctl, .ram, .ram] := by decide

/-- The offset in its page of each end of each hole of the register files. -/
theorem test_holes :
    [0xFC30, 0xFC51, 0xFC70, 0xFC7F, 0xFC84, 0xFC87, 0xFC89, 0xFC8F, 0xFC93, 0xFCAF, 0xFCB4, 0xFCFF, 0xFD45, 0xFD4F, 0xFD51,
        0xFD7F, 0xFD82, 0xFD89, 0xFD8E, 0xFD93, 0xFD96, 0xFD9F, 0xFDC0, 0xFDFF].map
        (fun n => (lo (BitVec.ofNat 16 n)).toNat) =
      [0x30, 0x51, 0x70, 0x7F, 0x84, 0x87, 0x89, 0x8F, 0x93, 0xAF, 0xB4, 0xFF, 0x45, 0x4F, 0x51,
        0x7F, 0x82, 0x89, 0x8E, 0x93, 0x96, 0x9F, 0xC0, 0xFF] := by decide

/-- Each backing, with the ends of each hole of the register files, and the three reads with an effect. -/
theorem witness_ReadGivesWhatBacks :
    State.reset.rom = [] ∧
    [0xFFF8, 0xFE00, 0xFFF9, 0xFC30, 0xFC51, 0xFC70, 0xFC7F, 0xFC84, 0xFC87, 0xFC89, 0xFC8F, 0xFC93, 0xFCAF, 0xFCB4,
        0xFCFF].map (fun n => State.reset.backingOf (BitVec.ofNat 16 n)) =
      [.ram, .rom, .mapctl, .suzy, .suzy, .suzy, .suzy, .suzy, .suzy, .suzy, .suzy, .suzy, .suzy, .suzy, .suzy] ∧
    [0xFD45, 0xFD4F, 0xFD51, 0xFD7F, 0xFD82, 0xFD89, 0xFD8E, 0xFD93, 0xFD96, 0xFD9F, 0xFDC0, 0xFDFF].map
        (fun n => State.reset.backingOf (BitVec.ofNat 16 n)) = List.replicate 12 .mikey ∧
    (State.reset.backingOf 0xFD8D = .mikey ∧ (lo 0xFD8D).toNat = 0x8D) ∧
    (State.reset.backingOf 0xFCB2 = .suzy ∧ (lo 0xFCB2).toNat = 0xB2) ∧
    (State.reset.backingOf 0xFCB3 = .suzy ∧ (lo 0xFCB3).toNat = 0xB3) := by decide

theorem witness_WriteReachesWhatBacks :
    Ram.wf ready.ram = true ∧ State.reset.backingOf 0xFFFF = .rom ∧ ready.backingOf 0xFFF9 = .mapctl := by decide

theorem witness_AccessTicks : bit ({ State.reset with mapctl := 0x80 } : State).mapctl 7 = true := by decide

/-- `$FFF8` as an operand with nothing but RAM behind it, and a zero-page pointer's target. -/
theorem witness_OperandForms :
    State.reset.plain (State.reset.effAddr (.abs 0xFFF8)).1 = true ∧ ready.plain (ready.effAddr (.izx 0xFF)).1 = true := by
  decide

/-- The one hypothesis of many of the statements: RAM in canonical form. -/
theorem witness_canonical : Ram.wf ready.ram = true ∧ Ram.wf State.reset.ram = true := by decide

theorem witness_Stores : Ram.wf ready.ram = true := by decide
theorem witness_PushesAndPulls : Ram.wf ready.ram = true := by decide
/-- Also a state in which `TSB $FC91` starts Suzy with its first store. -/
theorem witness_TestAndModify :
    Ram.wf ready.ram = true ∧
    (let s : State := { ready with suzy := { Suzy.reset with sprgo := 0x01 } }
     Ram.wf s.ram = true ∧ s.startsSuzy (s.effAddr (.abs 0xFC91)).1 s.suzy.sprgo = true) := by decide
theorem witness_ModifyMemory : Ram.wf ready.ram = true := by decide
theorem witness_CallAndReturn : Ram.wf ready.ram = true ∧ ready.plain ready.cpu.pc = true := by decide
theorem witness_ReturnsRestore : Ram.wf ready.ram = true := by decide
theorem witness_Break : Ram.wf ready.ram = true := by decide

/-- Digits at both ends, and bytes that are none; sums below and above both corrections. -/
theorem witness_DecimalArithmetic :
    isBcd 0x00 ∧ isBcd 0x99 ∧ ¬ isBcd 0x0A ∧ ¬ isBcd 0xA0 := by unfold isBcd; decide

/-- `INC $10` in RAM; `INC $FC91` with GO set before, which starts Suzy again; and the state it leaves, once Suzy is done. -/
theorem witness_ModifyEndsInMemory :
    (∃ (t : State) (old new : Byte) (k : Cpu) (n : Nat),
      ready.Modified (.inc (.mem (.abs 0x0010))) 0x0010 old new k n t ∧ ready.backingOf 0x0010 = .ram) ∧
    (∃ (s t : State) (old new : Byte) (k : Cpu) (n : Nat),
      s.Modified (.inc (.mem (.abs 0xFC91))) 0xFC91 old new k n t ∧ s.backingOf 0xFC91 = .suzy ∧ bit old 0 = true) ∧
    (∃ (t : State) (a : Word) (new : Byte) (k : Cpu) (n : Nat),
      t.OwesWrite (.instr (.inc (.mem (.abs 0x0010)))) k a new n ∧ t.settled = true ∧ t.suzy.halted = false ∧
        t.io.tick < Config.tickLimit ∧ Ram.wf t.ram = true) := by
  refine ⟨?_, ?_, ?_⟩
  · obtain ⟨o, h, -⟩ := modifyAt_spec (.inc (.mem (.abs 0x0010))) (s := ready) (by decide) (m := .abs 0x0010)
      (f := fun b => RmwOp.inc.value b ready.cpu.c) (early := fun _ q => q) (late := fun b q => q.rmwFlags .inc b)
      (n := fun ea => readIdle (.abs 0x0010) (true || crosses (.abs 0x0010) ready.cpu ea)) rfl
    exact ⟨_, o, _, _, _, h, by decide⟩
  · obtain ⟨o, h, -⟩ := modifyAt_spec (.inc (.mem (.abs 0xFC91)))
      (s := { ready with suzy := { Suzy.reset with sprgo := 0x01 } }) (by decide) (m := .abs 0xFC91)
      (f := fun b => RmwOp.inc.value b ready.cpu.c) (early := fun _ q => q) (late := fun b q => q.rmwFlags .inc b)
      (n := fun ea => readIdle (.abs 0xFC91) (true || crosses (.abs 0xFC91) ready.cpu ea)) rfl
    refine ⟨_, _, o, _, _, _, h, by decide, ?_⟩
    obtain ⟨r, u, hq, ho, -⟩ := h
    rw [ho]
    have e : (r.busRead 0xFC91).1 = r.suzy.sprgo := by
      have b : r.backingOf 0xFC91 = .suzy := by unfold State.backingOf; rw [hq.mapctl]; decide
      show (r.charge 0xFC91).peek 0xFC91 = _
      unfold State.peek
      rw [show (r.charge 0xFC91).backingOf 0xFC91 = .suzy from b]
      rfl
    show bit (r.busRead 0xFC91).1 0 = true
    rw [e, hq.suzy]
    decide
  · exact ⟨{ ready with pipe := .work (.instr (.inc (.mem (.abs 0x0010)))) k0 [0x00, 0x00] }, 0x0010, 0x01,
      k0.rmwFlags .inc 0x00, 0, ⟨k0, [0x00, 0x00], rfl, rfl⟩, by decide, rfl, by decide, by decide⟩

/-- A pointer across the page end, and its low byte at the top of memory. -/
theorem witness_Jumps :
    ready.plain 0x12FF = true ∧ ready.plain (0x12FF + 1) = true ∧ ready.plain 0xFFFF = true ∧
    ready.plain (0xFFFF + 1) = true := by decide

/-- Line asserted, I clear and set; an edge, and a latched NMI. -/
theorem witness_InterruptEntry :
    ((pendingIrq ready).Ready ∧ Ram.wf (pendingIrq ready).ram = true ∧ (pendingIrq ready).poll = .irq) ∧
    (pendingIrq { ready with cpu := { k0 with i := true } }).cpu.i = true ∧
    ((State.setNmi true ready).Ready ∧ Ram.wf (State.setNmi true ready).ram = true ∧
      (State.setNmi true ready).poll = .nmi ∧ ({ ready with cpu := { k0 with nmiLatch := true } } : State).poll = .nmi) :=
  ⟨⟨⟨by decide, by decide, ⟨rfl, rfl⟩, rfl⟩, by decide, by decide⟩, rfl,
    ⟨by decide, by decide, ⟨rfl, rfl⟩, rfl⟩, by decide, by decide, by decide⟩

theorem witness_BitInstructions :
    Ram.wf ready.ram = true ∧ ready.plain ready.cpu.pc = true ∧
    bitModifies.map (fun x => (x.1, x.2.1)) = bitBranches.map (fun x => (x.1, x.2.1)) ∧
    bitModifies.length = 16 ∧ bitBranches.length = 16 := by decide

theorem witness_ReservedOpcodes :
    (Instr.nopBit 0xF true, 0) ∈
      [(.nopImp 0xF true, 0), (.nopImm 7 0xFF, 0), (.nopZp 0xFF, 1), (.nopZpx 0xF 0xFF, 2), (.nopAbs 0xF 0xFFFF, 1),
        (.nopLong 0xFFFF, 5), (.nopBit 0xF true, 0), (.wai, 0), (.stp, 0)] := by decide

/-- Waiting without and with the line asserted; stopped. -/
theorem witness_WaitAndStop :
    (∃ s : State, s.Ready ∧ s.cpu.waiting = true ∧ s.poll = .run ∧ s.irqLine = false) ∧
    (∃ s : State, s.Ready ∧ s.cpu.waiting = true ∧ s.poll = .run ∧ s.irqLine = true) ∧
    (∃ s : State, s.io.tick < Config.tickLimit ∧ s.settled = true ∧ s.suzy.halted = false ∧ s.pipe = .atFetch ∧
      s.cpu.stopped = true) :=
  ⟨⟨{ ready with cpu := { k0 with waiting := true } }, ⟨by decide, by decide, ⟨rfl, rfl⟩, rfl⟩, rfl, by decide, by decide⟩,
    ⟨pendingIrq { ready with cpu := { k0 with waiting := true, i := true } }, ⟨by decide, by decide, ⟨rfl, rfl⟩, rfl⟩, rfl,
      by decide, by decide⟩,
    ⟨{ ready with cpu := { k0 with stopped := true } }, by decide, by decide, rfl, rfl, rfl⟩⟩

/-- Backup 0 and 255 for the reloading timer; a timer without reload; a disabled one. -/
theorem witness_TimerPeriod :
    (∀ b ∈ [(0x00 : Byte), 0xFF],
      let t : Timer := { Timer.reset with ctl := 0x18, backup := b, value := b }
      t.enabled = true ∧ t.reloads = true ∧ t.stopped = false ∧ t.value = t.backup) ∧
    (let t : Timer := { Timer.reset with ctl := 0x08, value := 0xFF }
     t.enabled = true ∧ t.reloads = false ∧ t.stopped = false) ∧
    Timer.reset.enabled = false := by decide

/-- The linked selector; the slowest clock with its edge due now; the same a tick too early; a disabled timer. -/
theorem witness_TimerCascade :
    (0x1F : Byte).toNat % 8 = 7 ∧
    (let t : Timer := { Timer.reset with ctl := 0x1E, deadline := 100 }
     t.ctl.toNat % 8 ≠ 7 ∧ t.enabled = true ∧ t.deadline ≤ 100 ∧ 99 < t.deadline) ∧
    (Timer.reset.ctl.toNat % 8 ≠ 7 ∧ Timer.reset.enabled = false) := by decide

/-- Written the same selector again, another one, and while disabled; the done latch cleared; a timer without reload. -/
theorem witness_TimerRegisters :
    (let t : Timer := { Timer.reset with ctl := 0x08 }
     t.enabled = true ∧ t.reloads = false ∧ t.sel = (0x48 : Byte).toNat % 8 ∧ t.sel ≠ (0x4E : Byte).toNat % 8) ∧
    Timer.reset.enabled = false ∧ bit (0x48 : Byte) 6 = true ∧ (0 : Fin 8) ≠ 7 ∧ 256 ≤ (0xFF : Byte).toNat + 1 := by decide

/-- Integrating; not integrating, with the volume that has no negation and an even parity. -/
theorem witness_AudioFiring :
    (let c : Channel := { Channel.reset with timer := { Timer.reset with ctl := 0x38 }, volume := 0x80 }
     bit c.timer.ctl 5 = true) ∧
    (let c : Channel := { Channel.reset with timer := { Timer.reset with ctl := 0x18 }, volume := 0x80 }
     bit c.timer.ctl 5 = false ∧ c.shift = 0 ∧ c.feedback = 0) ∧
    (let c : Channel := { Channel.reset with timer := { Timer.reset with ctl := 0x18 }, volume := 0x7F }
     bit c.timer.ctl 5 = false ∧ c.volume ≠ 0x80) := by decide

/-- The serial request asserted, and not. -/
theorem witness_InterruptRegisters :
    ({ Io.reset with serial := { Serial.reset with ctl := 0x80 } } : Io).serial.irq = true ∧
    ({ Io.reset with serial := { Serial.reset with ctl := 0x80 } } : Io).pendingNow = 0x10 ∧
    Io.reset.serial.irq = false := by decide

theorem witness_SerialByte : bit (0x11 : Byte) 1 = false ∧ bit (0xFD : Byte) 1 = false ∧ bit (0x00 : Byte) 1 = false := by
  decide

/-- A break being sent, and none. -/
theorem witness_SerialRegisters : bit ({ Serial.reset with ctl := 0x02 } : Serial).ctl 1 = true ∧ bit Serial.reset.ctl 1 = false := by
  decide

theorem witness_BreakDetected :
    Serial.reset.lowRun = 0 ∧ Serial.reset.rxBrk = false ∧ ((Serial.rxPulse 0 false)^[24] Serial.reset).lowRun = 24 ∧
    24 ≤ 24 := ⟨rfl, rfl, by decide, Nat.le_refl _⟩

/-- A rising edge, a held and a low strobe; the ports mapped; banks of the smallest and the largest page. -/
theorem witness_CartridgePort :
    (bit (0x01 : Byte) 0 = true ∧ bit Cart.reset.sysctl1 0 = false) ∧
    (bit (0x00 : Byte) 0 = false ∨ bit Cart.reset.sysctl1 0 = true) ∧ bit State.reset.mapctl 0 = false ∧
    (0 ≤ 11 ∧ (List.replicate 256 (7 : Byte)).length = 256 * 2 ^ 0) ∧
    (11 ≤ 11 ∧ (List.replicate 524288 (7 : Byte)).length = 256 * 2 ^ 11) := by
  simp only [List.length_replicate]; decide

theorem witness_Palette : (0x0 : Nibble) ≠ BitVec.ofNat 4 15 := by decide

/-- Timers 0 and 2, both reloading with value 0, their next edges at `d0` and `d2`. -/
def firing (d0 d2 : Nat) : Io :=
  { Io.reset with
    timers := (Io.reset.timers.set 0 { Timer.reset with ctl := 0x18, deadline := d0 }).set 2
      { Timer.reset with ctl := 0x18, deadline := d2 } }

/-- R77, R471: in a display read, a line start queued before the frame end goes before it, one queued with it comes after. -/
theorem test_frame_end_in_read :
    ((firing 2 4).pixelAction 0 []).lineDue = none ∧ ((firing 3 3).pixelAction 0 []).lineDue = some 3 := by decide

/-- A read with no frame end near; ones in whose ticks timer 2 fires alone, after timer 0, and with it; a whole line of bytes, the first and the last; the vertical
blank; a line whose time just suffices, and one with time to spare. -/
theorem witness_DisplayFrame :
    (Io.reset.access 0 false Io.reset.video.address).frameDue = none ∧
    (let io : Io := { Io.reset with timers := Io.reset.timers.set 2 { Timer.reset with ctl := 0x18, deadline := 3 } }
     io.frameDue = none ∧ (io.access 0 false io.video.address).frameDue = some 3 ∧
       (io.access 0 false io.video.address).lineDue = none) ∧
    (let io := firing 2 4
     io.frameDue = none ∧ (io.access 0 false io.video.address).frameDue = some 4 ∧
       (io.access 0 false io.video.address).lineDue = some 2) ∧
    (let io := firing 3 3
     io.frameDue = none ∧ (io.access 0 false io.video.address).frameDue = some 3 ∧
       (io.access 0 false io.video.address).lineDue = some 3) ∧
    ((List.replicate 80 (0x12 : Byte)).length = 80 ∧ Io.reset.video.fetched = 0 ∧ Io.reset.video.lineBuf = [] ∧
      Io.reset.video.line < 102 ∧ 101 < 102 ∧ 102 ≤ 102) ∧
    (let io : Io := { Io.reset with timers := Io.reset.timers.set 0 { Timer.reset with ctl := 0x18, value := 49, deadline := 16 } }
     io.lineLeft = some 800 ∧ 10 * 80 ≤ 800 ∧ 10 * 1 ≤ 800) := by decide

theorem witness_SpriteGo :
    Ram.wf ready.ram = true ∧ bit ready.mapctl 0 = false ∧ bit (0x05 : Byte) 0 = true ∧ bit (0x04 : Byte) 0 = false := by
  decide

/-- A walk at an SCB in empty RAM, whose skip bit is clear, and at one whose skip bit is set; the link at the top of memory. -/
theorem witness_SpriteWalk :
    (let s : State := { State.reset with suzy := { Suzy.reset with phase := .chain, scbnext := 0xFFFE } }
     s.suzy.phase = .chain ∧ hi s.suzy.scbnext ≠ 0 ∧ bit (s.ramAt (0xFFFE + BitVec.ofNat 16 1)) 2 = false) ∧
    (let s : State := { State.reset with ram := cells [(0xFFFF, 0x04)], suzy := { Suzy.reset with phase := .chain, scbnext := 0xFFFE } }
     s.suzy.phase = .chain ∧ hi s.suzy.scbnext ≠ 0 ∧ bit (s.ramAt (0xFFFE + BitVec.ofNat 16 1)) 2 = true) := by decide

/-- A pen within the budget exactly; each kind of header; a budget a bit short; the shifter empty and full but for one byte. -/
theorem witness_PixelParser :
    ({ Suzy.reset with budget := 4, sprctl0 := 0xC0 } : Suzy).bpp = 4 ∧
    (let z : Suzy := { Suzy.reset with parse := .header, budget := 5, shifter := 0xF8000000 }
     z.parse = .header ∧ 5 ≤ z.budget ∧ z.shifter.toNat / 2 ^ 31 = 1 ∧ z.shifter.toNat / 2 ^ 27 % 16 = 15) ∧
    ((0x08000000 : BitVec 32).toNat / 2 ^ 31 = 0 ∧ (0x08000000 : BitVec 32).toNat / 2 ^ 27 % 16 = 1) ∧
    ((0x07FFFFFF : BitVec 32).toNat / 2 ^ 31 = 0 ∧ (0x07FFFFFF : BitVec 32).toNat / 2 ^ 27 % 16 = 0) ∧
    ({ Suzy.reset with parse := .header, budget := 4 } : Suzy).budget <
      ({ Suzy.reset with parse := .header, budget := 4 } : Suzy).needed ∧
    (let z : Suzy := { Suzy.reset with phase := .parse, shifter := 0xFFFFFF00, shiftCount := 24 }
     z.phase = .parse ∧ z.colsLeft = 0 ∧ z.shiftCount ≤ 24 ∧ z.shifter.toNat % 2 ^ (32 - z.shiftCount) = 0) ∧
    ((0 : BitVec 32).toNat % 2 ^ (32 - 0) = 0) := by decide

/-- A column on the screen's last column and one beside it; a pixel drawn into an even and into an odd column, over a byte begun
and over none; one that is not drawn; a collision of type 0, of type 2 with its byte there, and none; a deposit. -/
theorem witness_SpriteDraws :
    (let z : Suzy := { Suzy.reset with phase := .parse, colsLeft := 1, sprhpos := 159 }
     z.phase = .parse ∧ z.colsLeft ≠ 0 ∧ z.sprhpos.toNat < 160 ∧ ¬ (z.sprhpos + 1).toNat < 160) ∧
    (let z : Suzy := { Suzy.reset with phase := .video, sprhpos := 10 }
     z.phase = .video ∧ z.request = none ∧ drawnFor z.kind (z.pens[z.curPen.toNat]'z.curPen.isLt) = true) ∧
    (let z : Suzy := { Suzy.reset with phase := .video, sprhpos := 11, videoAcc := some ((Accum.empty 5).put true 1) }
     z.phase = .video ∧ z.request = none ∧ drawnFor z.kind (z.pens[z.curPen.toNat]'z.curPen.isLt) = true) ∧
    (let z : Suzy := { Suzy.reset with phase := .video, sprctl0 := 0x04 }
     z.phase = .video ∧ z.request = none ∧ drawnFor z.kind (z.pens[z.curPen.toNat]'z.curPen.isLt) = false) ∧
    (let z : Suzy := { Suzy.reset with phase := .coll }
     z.phase = .coll ∧ z.request = none ∧ z.colliding = true ∧ z.kind = 0) ∧
    (let z : Suzy := { Suzy.reset with phase := .coll, sprctl0 := 0x02, pens := .replicate 16 1, collAcc := some (.loaded 0 0x30) }
     z.phase = .coll ∧ z.request = none ∧ z.colliding = true ∧ z.kind ≠ 0) ∧
    (let z : Suzy := { Suzy.reset with phase := .coll, noColl := true }
     z.phase = .coll ∧ z.request = none ∧ z.colliding = false) ∧
    ({ Suzy.reset with phase := .deposit } : Suzy).phase = .deposit := by decide

/-- A state in which Suzy is to deposit a collision number at $2000. -/
def depositing : State :=
  { State.reset with
    suzy := { Suzy.reset with working := true, halted := true, phase := .deposit, hiColl := 5, scbadr := 0x2000 } }

/-- A state in which the last byte of the screen at $4000 is to be flushed. -/
def flushing : State :=
  { State.reset with
    suzy :=
      { Suzy.reset with
        working := true, halted := true, phase := .rowVideo, vidbas := 0x4000
        videoAcc := some (.loaded (0x4000 + 8159) 0x12) } }

/-- The walk going on, and over in each of its ways. -/
theorem witness_HaltedCpu :
    (depositing.suzy.halted = true ∧ depositing.settled = true ∧ depositing.io.tick < Config.tickLimit ∧
      depositing.suzy.working = true ∧ depositing.suzy.phase = .deposit ∧ depositing.suzy.stopBit = false) ∧
    (let z : Suzy := { depositing.suzy with sprsys := 0x02 }
     z.halted = true ∧ z.working = true ∧ z.phase = .deposit ∧ z.stopBit = true) ∧
    (let z : Suzy := { depositing.suzy with scbnext := 0x00FF, phase := .chain }
     z.halted = true ∧ z.working = true ∧ z.phase = .chain ∧ hi z.scbnext = 0) := by decide

theorem depositing_inv : depositing.Inv :=
  inv_of_suzy ⟨rfl, nofun, nofun, nofun, (by rintro (h | h | h) <;> cases h), (by rintro (h | h) <;> cases h), nofun⟩

theorem flushing_inv : flushing.Inv :=
  inv_of_suzy
    ⟨rfl, nofun, fun c h => by
      obtain rfl : _ = c := Option.some.inj h
      exact ⟨rfl, nofun, by unfold inArea; decide⟩, nofun, (by rintro (h | h | h) <;> cases h), (by rintro (h | h) <;> cases h), nofun⟩

/-- A collision number is deposited; the last byte of the screen is written. -/
theorem witness_SuzyWritesOnScreen :
    (depositing.Inv ∧ depositing.suzy.halted = true ∧
      ∃ t, step depositing = .next t ∧ t.ramAt 0x2000 ≠ depositing.ramAt 0x2000) ∧
    (flushing.Inv ∧ flushing.suzy.halted = true ∧
      ∃ t, step flushing = .next t ∧ t.ramAt (0x4000 + 8159) ≠ flushing.ramAt (0x4000 + 8159)) := by
  refine ⟨⟨depositing_inv, rfl, ?_⟩, ⟨flushing_inv, rfl, ?_⟩⟩
  · obtain ⟨t, h, g⟩ := next_of_ends (o := step depositing) (p := fun t => t.ramAt 0x2000 != depositing.ramAt 0x2000)
      (by decide)
    exact ⟨t, h, by simpa using g⟩
  · obtain ⟨t, h, g⟩ := next_of_ends (o := step flushing)
      (p := fun t => t.ramAt (0x4000 + 8159) != flushing.ramAt (0x4000 + 8159)) (by decide)
    exact ⟨t, h, by simpa using g⟩

theorem witness_StepKeepsInvariant : State.reset.Inv ∧ ∃ t, step State.reset = .next t := witness_StepIsTurns

theorem witness_ResetInvariant :
    Ram.wf ResetDraw.zero.ram = true ∧ ResetDraw.zero.suzy.videoAcc = none ∧ ResetDraw.zero.suzy.collAcc = none := by decide

theorem witness_StepAnswersNext : State.reset.io.tick < Config.tickLimit := by decide

end Sys2Proof.Tests
end

section
/-! PROOFS. The family of 42_arithmetic_compare.md: binary addition and subtraction, and the compares. -/

namespace Sys2Proof.Machine

/-! ### Bit 7 of a byte -/

theorem bit_seven_eq_decide (b : Byte) : bit b 7 = decide (128 ≤ b.toNat) :=
  (BitVec.msb_eq_getLsbD_last b).symm.trans (BitVec.msb_eq_decide b)

/-- Bit 7 as the spec's masks test it. -/
theorem bit_seven_eq_mask (b : Byte) : bit b 7 = ((b &&& 0x80) != 0) := by
  have h : b &&& 0x80 = if b.getLsbD 7 then BitVec.twoPow 8 7 else 0#8 := BitVec.and_twoPow b 7
  rw [h, bit]
  cases b.getLsbD 7 <;> decide

/-! ### The overflow of an addition and of a subtraction -/

theorem addOverflow_iff (a m t : Byte) : addOverflow a m t = true ↔ bit a 7 = bit m 7 ∧ bit t 7 ≠ bit a 7 := by
  unfold addOverflow bit
  simp only [BitVec.getLsbD_and, BitVec.getLsbD_not, BitVec.getLsbD_xor]
  cases a.getLsbD 7 <;> cases m.getLsbD 7 <;> cases t.getLsbD 7 <;> decide

theorem subOverflow_iff (a m t : Byte) : subOverflow a m t = true ↔ bit a 7 ≠ bit m 7 ∧ bit t 7 = bit m 7 := by
  unfold subOverflow bit
  simp only [BitVec.getLsbD_and, BitVec.getLsbD_xor]
  cases a.getLsbD 7 <;> cases m.getLsbD 7 <;> cases t.getLsbD 7 <;> decide

/-- Subtracting `m` overflows where adding its complement does. -/
theorem subOverflow_eq_addOverflow_not (a m t : Byte) : subOverflow a m t = addOverflow a (~~~m) t := by
  have h : ~~~(a ^^^ ~~~m) = a ^^^ m := by rw [← BitVec.not_xor_right, BitVec.not_not]
  unfold subOverflow addOverflow
  rw [h]

/-! ### Binary addition -/

theorem carry_eq_toNat (c : Bool) : carry c = c.toNat := by cases c <;> rfl

@[simp] theorem addBin_r_toNat (a m : Byte) (c : Bool) :
    (addBin a m c).r.toNat = (a.toNat + m.toNat + c.toNat) % 256 := by
  rw [← carry_eq_toNat]
  exact BitVec.toNat_ofNat _ _

@[simp] theorem addBin_c (a m : Byte) (c : Bool) : (addBin a m c).c = decide (a.toNat + m.toNat + c.toNat > 255) := by
  rw [← carry_eq_toNat]
  rfl

theorem addBin_v (a m : Byte) (c : Bool) : (addBin a m c).v = addOverflow a m (addBin a m c).r := rfl

/-- V says that the signed sum leaves the range of a byte. -/
theorem addBin_v_iff_signed (a m : Byte) (c : Bool) :
    (addBin a m c).v = true ↔ a.toInt + m.toInt + c.toNat < -128 ∨ 127 < a.toInt + m.toInt + c.toNat := by
  have hr := addBin_r_toNat a m c
  have hc := c.toNat_le
  have ha := a.isLt
  have hm := m.isLt
  rw [addBin_v, addOverflow_iff]
  simp only [bit_seven_eq_decide, BitVec.toInt_eq_toNat_cond, decide_eq_decide, ne_eq]
  omega

/-! ### Binary subtraction -/

/-- The sum with the complement is the exact difference plus 256: the same byte, and a carry for no borrow (R174). -/
theorem not_toNat_add_carry (a m : Byte) (c : Bool) :
    ((a.toNat + (~~~m).toNat + c.toNat : Nat) : Int) = (a.toNat : Int) - m.toNat - (1 - c.toNat) + 256 := by
  have hm := m.isLt
  rw [BitVec.toNat_not]
  omega

theorem subBin_r_toNat (a m : Byte) (c : Bool) :
    ((subBin a m c).r.toNat : Int) = ((a.toNat : Int) - m.toNat - (1 - c.toNat)) % 256 := by
  rw [← carry_eq_toNat]
  show ((u8 _).toNat : Int) = _
  rw [u8, BitVec.toNat_ofInt]
  omega

@[simp] theorem subBin_c (a m : Byte) (c : Bool) :
    (subBin a m c).c = decide ((a.toNat : Int) - m.toNat - (1 - c.toNat) ≥ 0) := by
  rw [← carry_eq_toNat]
  rfl

theorem subBin_v (a m : Byte) (c : Bool) : (subBin a m c).v = subOverflow a m (subBin a m c).r := rfl

theorem subBin_r_eq_addBin_not (a m : Byte) (c : Bool) : (subBin a m c).r = (addBin a (~~~m) c).r := by
  have hs := subBin_r_toNat a m c
  have hd := not_toNat_add_carry a m c
  refine BitVec.eq_of_toNat_eq ?_
  rw [addBin_r_toNat]
  omega

theorem subBin_c_eq_addBin_not (a m : Byte) (c : Bool) : (subBin a m c).c = (addBin a (~~~m) c).c := by
  have hd := not_toNat_add_carry a m c
  rw [subBin_c, addBin_c, decide_eq_decide]
  omega

/-- N and Z follow from the byte, so the byte, V and C determine a result. -/
theorem aluResult_congr {r r' : Byte} {v v' c c' : Bool} (hr : r = r') (hv : v = v') (hc : c = c') :
    aluResult r v c = aluResult r' v' c' := by rw [hr, hv, hc]

theorem subBin_eq_addBin_not (a m : Byte) (c : Bool) : subBin a m c = addBin a (~~~m) c := by
  have hr := subBin_r_eq_addBin_not a m c
  have hv : (subBin a m c).v = (addBin a (~~~m) c).v := by
    rw [subBin_v, addBin_v, subOverflow_eq_addOverflow_not, hr]
  exact aluResult_congr hr hv (subBin_c_eq_addBin_not a m c)

/-- Settles O20, from the lemmas about each component of `addBin` and `subBin`. -/
theorem binaryArithmetic : Obligations.BinaryArithmetic := by
  intro a m c
  refine ⟨⟨addBin_r_toNat a m c, addBin_c a m c, bit_seven_eq_mask _, addOverflow_iff _ _ _, addBin_v_iff_signed a m c,
    rfl, rfl⟩, subBin_r_toNat a m c, subBin_c a m c, bit_seven_eq_mask _, subOverflow_iff _ _ _, rfl, rfl, ?_⟩
  have hm : m ^^^ 0xFF = ~~~m := BitVec.xor_allOnes
  rw [hm]
  exact subBin_eq_addBin_not a m c

/-! ### Instructions with an operand -/

/-- An instruction whose whole effect is to change the registers by its operand. -/
theorem exec_withOperand {i : Instr} {p : Cpu → Prog Finish} {s : State} {src : Src} {n : Nat} {f : Byte → Cpu → Cpu}
    (hi : exec i s = .next (perform (.instr i) p s)) (hp : p s.cpu = withOperand src n f s.cpu) :
    ∃ t, exec i s = .next t ∧ s.Kept (s.cartAfterOperand src) t ∧ t.Ended (f (s.operand src).1.value s.cpu) := by
  obtain ⟨hend, hkept⟩ := withOperand_spec (.instr i) s hp
  exact ⟨_, hi, hkept, hend⟩

/-- An instruction that compares the register `reg` with its operand (R177). -/
theorem exec_compare {i : Instr} {p : Cpu → Prog Finish} {s : State} {src : Src} (reg : Cpu → Byte)
    (hi : exec i s = .next (perform (.instr i) p s))
    (hp : p s.cpu = withOperand src 0 (fun m k => k.compare (reg k) m) s.cpu) :
    let m := (s.operand src).1.value
    ∃ t, exec i s = .next t ∧ s.Kept (s.cartAfterOperand src) t ∧
      t.Ended
        { s.cpu with
          c := decide (m.toNat ≤ (reg s.cpu).toNat), z := decide (reg s.cpu = m), n := bit (reg s.cpu - m) 7 } :=
  exec_withOperand hi hp

/-- Settles O23: the three instructions are one comparison, of A, X and Y. -/
theorem compares : Obligations.Compares := by
  intro src s
  exact ⟨exec_compare Cpu.a rfl rfl, exec_compare Cpu.x rfl rfl, exec_compare Cpu.y rfl rfl⟩

end Sys2Proof.Machine
end

section
/-! PROOFS. The family of 60_exceptions.md: the return from an interrupt. -/

namespace Sys2Proof.Machine

theorem returnFromTrap_calm (k : Cpu) : (returnFromTrap k).Calm :=
  (pull_calm _).bind fun _ => (pullWord_calm _).bind fun _ => trivial

/-- The three pulls of a return: the status byte, then PC with its low byte first. -/
theorem returnFromTrap_eval (k : Cpu) (s : State) :
    ∃ t, (returnFromTrap k).eval s =
      ({ cpu :=
          { k.setP (s.ramAt (stackAddr (k.sp + 1))) with
            sp := k.sp + 3
            pc := join (s.ramAt (stackAddr (k.sp + 3))) (s.ramAt (stackAddr (k.sp + 2))) }
         idle := 2 }, t) ∧
      s.Quiet t := by
  obtain ⟨t, hp, qp⟩ := pull_eval k s
  obtain ⟨u, hw, qw⟩ :=
    pullWord_eval ({ k with sp := k.sp + 1 }.setP (s.ramAt (stackAddr (k.sp + 1)))) t
  refine ⟨u, ?_, qp.trans qw⟩
  have h2 : k.sp + 1 + 1 = k.sp + 2 := BitVec.add_assoc k.sp 1 1
  have h3 : k.sp + 1 + 2 = k.sp + 3 := BitVec.add_assoc k.sp 1 2
  unfold returnFromTrap
  rw [Prog.eval_bind, hp, Prog.eval_bind, hw]
  simp only [Prog.eval_done, Cpu.setP_eq, qp.ram, h2, h3]

/-- A return from a trap. -/
theorem returnFromTrap_spec (w : Work) {p : Cpu → Prog Finish} (s : State) (hp : p s.cpu = returnFromTrap s.cpu) :
    (perform w p s).Ended
      { s.cpu.setP (s.ramAt (stackAddr (s.cpu.sp + 1))) with
        sp := s.cpu.sp + 3
        pc := join (s.ramAt (stackAddr (s.cpu.sp + 3))) (s.ramAt (stackAddr (s.cpu.sp + 2))) } ∧
    s.Quiet (perform w p s) := by
  have h : (p s.cpu).Calm := by rw [hp]; exact returnFromTrap_calm _
  obtain ⟨t, e, q⟩ := returnFromTrap_eval s.cpu s
  rw [h.perform w, hp, e]
  exact ⟨⟨rfl, rfl⟩, q.trans (State.ended_quiet _ _)⟩

/-- Settles O35: RTI is the return from a trap. -/
theorem returnFromInterrupt : Obligations.ReturnFromInterrupt := by
  intro s
  obtain ⟨hend, hquiet⟩ := returnFromTrap_spec (.instr .rti) (p := progRti) s rfl
  exact ⟨_, rfl, hquiet, hend⟩

end Sys2Proof.Machine
end

section
/-! PROOFS. The family of 61_mikey.md: the palette. -/

namespace Sys2Proof

/-! ### Nibbles of a byte -/

theorem loNib_toNat (b : Byte) : (loNib b).toNat = b.toNat % 16 := by simp [loNib]

theorem hiNib_toNat (b : Byte) : (hiNib b).toNat = b.toNat / 16 := by
  have := b.isLt
  simp [hiNib, BitVec.extractLsb'_toNat, Nat.shiftRight_eq_div_pow]; omega

/-- The pen of the palette's `n`-th register pair. -/
theorem pen_toNat (n : Fin 16) : (BitVec.ofNat 4 n.val).toNat = n.val := by
  rw [BitVec.toNat_ofNat]; exact Nat.mod_eq_of_lt n.isLt

namespace Machine

/-! ### The palette's registers as read and written (R356) -/

section
variable (io : Io) (n : Fin 16) (v : Byte)

theorem Io.readReg_green (cart : Cart) (pins : Byte) : io.readReg cart pins (0xA0 + n.val) = io.green[n] := by
  unfold Io.readReg
  rw [dif_neg (by omega), dif_neg (by omega), dif_neg (by omega), dif_pos (by omega)]
  simp only [Nat.add_sub_cancel_left, Fin.getElem_fin]

theorem Io.readReg_blueRed (cart : Cart) (pins : Byte) : io.readReg cart pins (0xB0 + n.val) = io.blueRed[n] := by
  unfold Io.readReg
  rw [dif_neg (by omega), dif_neg (by omega), dif_neg (by omega), dif_neg (by omega), dif_pos (by omega)]
  simp only [Nat.add_sub_cancel_left, Fin.getElem_fin]

theorem Io.writeReg_green : io.writeReg (0xA0 + n.val) v = { io with green := io.green.set n v } := by
  unfold Io.writeReg
  rw [dif_neg (by omega), dif_neg (by omega), dif_neg (by omega), dif_pos (by omega)]
  simp only [Nat.add_sub_cancel_left]

theorem Io.writeReg_blueRed : io.writeReg (0xB0 + n.val) v = { io with blueRed := io.blueRed.set n v } := by
  unfold Io.writeReg
  rw [dif_neg (by omega), dif_neg (by omega), dif_neg (by omega), dif_neg (by omega), dif_pos (by omega)]
  simp only [Nat.add_sub_cancel_left]

end

/-! ### An entry and its two bytes (R357) -/

theorem expand_toNat (c : Nibble) : (expand c).toNat = 17 * c.toNat := by
  have := c.isLt
  simp [expand]; omega

/-- A byte put behind a word is its lowest byte. -/
theorem append_byte_toNat {w : Nat} (x : BitVec w) (b : Byte) : (x ++ b).toNat = 0x100 * x.toNat + b.toNat := by
  rw [BitVec.toNat_append, ← Nat.shiftLeft_add_eq_or_of_lt b.isLt, Nat.shiftLeft_eq]; omega

theorem Io.paletteEntry_toNat (io : Io) (n : Fin 16) :
    (io.paletteEntry (BitVec.ofNat 4 n.val)).toNat =
      0xFF000000 + 0x10000 * (17 * (io.blueRed[n].toNat % 16)) + 0x100 * (17 * (io.green[n].toNat % 16)) +
        17 * (io.blueRed[n].toNat / 16) := by
  unfold Io.paletteEntry
  simp only [append_byte_toNat, expand_toNat, loNib_toNat, hiNib_toNat, pen_toNat, Fin.getElem_fin,
    BitVec.reduceToNat]
  omega

/-- An entry is a function of its own two bytes. -/
theorem Io.paletteEntry_congr {p io : Io} {pen : Nibble}
    (hg : p.green[pen.toNat]'pen.isLt = io.green[pen.toNat]'pen.isLt)
    (hbr : p.blueRed[pen.toNat]'pen.isLt = io.blueRed[pen.toNat]'pen.isLt) : p.paletteEntry pen = io.paletteEntry pen := by
  unfold Io.paletteEntry
  rw [hg, hbr]

/-- A write to register `n` of a palette half leaves the half's byte of another pen. -/
theorem getElem_set_other_pen (half : Vector Byte 16) (n : Fin 16) (v : Byte) {other : Nibble}
    (h : other ≠ BitVec.ofNat 4 n.val) :
    (half.set n v)[other.toNat]'other.isLt = half[other.toNat]'other.isLt :=
  Vector.getElem_set_ne n.isLt other.isLt fun e => h (BitVec.eq_of_toNat_eq (e.symm.trans (pen_toNat n).symm))

/-- Settles O50: a write sets one byte of one pair, and an entry depends on its own pair alone. -/
theorem palette : Obligations.Palette := by
  intro io n v pins cart
  simp only [Io.writeReg_green, Io.writeReg_blueRed, Io.readReg_green, Io.readReg_blueRed, Io.paletteEntry_toNat,
    Fin.getElem_fin, Vector.getElem_set_self, true_and]
  exact ⟨fun _ h => Io.paletteEntry_congr (getElem_set_other_pen _ n v h) rfl,
    fun _ h => Io.paletteEntry_congr rfl (getElem_set_other_pen _ n v h)⟩

end Machine
end Sys2Proof
end

section
/-! PROOFS. The family of 63_comlynx_cart.md: break detection. -/

namespace Sys2Proof.Machine

/-! ### The break counter and RXBRK in one pulse (R439) -/

@[simp] theorem Serial.rxMove_lowRun (now : Nat) (w : Bool) (p : Serial) : (p.rxMove now w).lowRun = p.lowRun := by
  unfold Serial.rxMove Serial.deliver
  cases p.rx <;> simp only
  case idle => split <;> rfl

@[simp] theorem Serial.rxMove_rxBrk (now : Nat) (w : Bool) (p : Serial) : (p.rxMove now w).rxBrk = p.rxBrk := by
  unfold Serial.rxMove Serial.deliver
  cases p.rx <;> simp only
  case idle => split <;> rfl

@[simp] theorem Serial.rxPulse_high_lowRun (now : Nat) (p : Serial) : (p.rxPulse now true).lowRun = 0 := rfl

@[simp] theorem Serial.rxPulse_low_lowRun (now : Nat) (p : Serial) : (p.rxPulse now false).lowRun = p.lowRun + 1 :=
  congrArg (· + 1) (p.rxMove_lowRun now false)

@[simp] theorem Serial.rxPulse_high_rxBrk (now : Nat) (p : Serial) : (p.rxPulse now true).rxBrk = p.rxBrk := by
  simp [Serial.rxPulse, Serial.heed]

@[simp] theorem Serial.rxPulse_low_rxBrk (now : Nat) (p : Serial) :
    (p.rxPulse now false).rxBrk = (p.rxBrk || p.lowRun + 1 == 25) := by
  simp [Serial.rxPulse, Serial.heed]

/-! ### A wire that stays low -/

theorem Serial.lowRun_after_low (now n : Nat) (p : Serial) :
    ((Serial.rxPulse now false)^[n] p).lowRun = p.lowRun + n := by
  induction n with
  | zero => rfl
  | succ n ih => rw [Function.iterate_succ_apply', Serial.rxPulse_low_lowRun, ih, Nat.add_assoc]

/-- RXBRK is raised in the pulse that takes the counter to 25, and stays. -/
theorem Serial.rxBrk_after_low (now n : Nat) (p : Serial) :
    ((Serial.rxPulse now false)^[n] p).rxBrk = true ↔ p.rxBrk = true ∨ p.lowRun < 25 ∧ 25 ≤ p.lowRun + n := by
  induction n with
  | zero =>
    have : ¬ (p.lowRun < 25 ∧ 25 ≤ p.lowRun + 0) := by omega
    simp only [Function.iterate_zero_apply, this, or_false]
  | succ n ih =>
    rw [Function.iterate_succ_apply', Serial.rxPulse_low_rxBrk, Bool.or_eq_true, ih, Serial.lowRun_after_low,
      beq_iff_eq, or_assoc]
    exact or_congr_right (by omega)

/-- Settles O47: from a counter of 0, `n` low bit times raise RXBRK exactly if `n` is at least 25. -/
theorem breakDetected : Obligations.BreakDetected := by
  intro p now
  refine ⟨p.rxPulse_high_lowRun now, p.rxPulse_high_rxBrk now, p.rxPulse_low_lowRun now, fun hrun hbrk => ?_⟩
  have raised (n : Nat) : ((Serial.rxPulse now false)^[n] p).rxBrk = true ↔ 25 ≤ n := by
    simp [Serial.rxBrk_after_low, hrun, hbrk]
  exact ⟨fun n hn => Bool.eq_false_iff.mpr fun h => absurd ((raised n).mp h) (by omega), (raised 25).mpr (Nat.le_refl _)⟩

end Sys2Proof.Machine
end

section
/-! PROOFS. The family of 30_encoding.md: the encoder and the decoder are inverse to each other. -/

namespace Sys2Proof

/-! ### An instruction is its opcode and its operand bytes -/

theorem Instr.operandBytes_le (i : Instr) : i.operandBytes ≤ 2 := by
  have := Machine.Instr.prefetched_cases i
  omega

theorem Addr.fill_fill (a b c d : Byte) (m : Addr) : (m.fill a b).fill c d = m.fill c d := by cases m <;> rfl

theorem Src.fill_fill (a b c d : Byte) (s : Src) : (s.fill a b).fill c d = s.fill c d := by
  cases s <;> simp [Src.fill, Addr.fill_fill]

theorem Rmw.fill_fill (a b c d : Byte) (m : Rmw) : (m.fill a b).fill c d = m.fill c d := by
  cases m <;> simp [Rmw.fill, Addr.fill_fill]

theorem JmpTarget.fill_fill (a b c d : Byte) (t : JmpTarget) : (t.fill a b).fill c d = t.fill c d := by cases t <;> rfl

theorem Instr.fill_fill (a b c d : Byte) (i : Instr) : (i.fill a b).fill c d = i.fill c d := by
  cases i <;> simp [Instr.fill, Addr.fill_fill, Src.fill_fill, Rmw.fill_fill, JmpTarget.fill_fill]

/-- Only the operand bytes that the instruction has matter. -/
theorem Instr.fill_congr {a b c d : Byte} {i : Instr} (h : [a, b].take i.operandBytes = [c, d].take i.operandBytes) :
    i.fill a b = i.fill c d := by
  have hle := i.operandBytes_le
  rcases hn : i.operandBytes with _ | _ | _ | n
  · rw [Instr.fill_none a b hn, Instr.fill_none c d hn]
  · rw [hn] at h
    obtain rfl : a = c := by simpa using h
    rw [Instr.fill_one a b (by omega), Instr.fill_one a d (by omega)]
  · rw [hn] at h
    obtain ⟨rfl, rfl⟩ : a = c ∧ b = d := by simpa using h
    rfl
  · omega

theorem Addr.exists_fill (a : Addr) : ∃ b1 b2, a.fill b1 b2 = a := by
  cases a with
  | abs w | abx w | aby w => exact ⟨lo w, hi w, by simp [Addr.fill]⟩
  | _ b => exact ⟨b, 0, rfl⟩

theorem Src.exists_fill (s : Src) : ∃ b1 b2, s.fill b1 b2 = s := by
  cases s with
  | imm b => exact ⟨b, 0, rfl⟩
  | mem a =>
    obtain ⟨b1, b2, h⟩ := a.exists_fill
    exact ⟨b1, b2, congrArg Src.mem h⟩

theorem Rmw.exists_fill (d : Rmw) : ∃ b1 b2, d.fill b1 b2 = d := by
  cases d with
  | acc => exact ⟨0, 0, rfl⟩
  | mem a =>
    obtain ⟨b1, b2, h⟩ := a.exists_fill
    exact ⟨b1, b2, congrArg Rmw.mem h⟩

/-- Every instruction is itself with its own operand bytes filled in. -/
theorem Instr.exists_fill (i : Instr) : ∃ b1 b2, i.fill b1 b2 = i := by
  cases i with
  | lda s | ldx s | ldy s | adc s | sbc s | cmp s | cpx s | cpy s | and s | ora s | eor s | bit s =>
    obtain ⟨b1, b2, h⟩ := s.exists_fill
    exact ⟨b1, b2, by simp only [Instr.fill, h]⟩
  | sta a | stx a | sty a | stz a | tsb a | trb a =>
    obtain ⟨b1, b2, h⟩ := a.exists_fill
    exact ⟨b1, b2, by simp only [Instr.fill, h]⟩
  | asl d | lsr d | rol d | ror d | inc d | dec d =>
    obtain ⟨b1, b2, h⟩ := d.exists_fill
    exact ⟨b1, b2, by simp only [Instr.fill, h]⟩
  | jmp t => cases t with | _ w => exact ⟨lo w, hi w, by simp only [Instr.fill, JmpTarget.fill, join_hi_lo]⟩
  | jsr w | nopAbs _ w | nopLong w => exact ⟨lo w, hi w, by simp only [Instr.fill, join_hi_lo]⟩
  | bbr0 a b | bbr1 a b | bbr2 a b | bbr3 a b | bbr4 a b | bbr5 a b | bbr6 a b | bbr7 a b
  | bbs0 a b | bbs1 a b | bbs2 a b | bbs3 a b | bbs4 a b | bbs5 a b | bbs6 a b | bbs7 a b => exact ⟨a, b, rfl⟩
  | nopImm _ b | nopZpx _ b => exact ⟨b, 0, rfl⟩
  | nopImp _ _ | nopBit _ _ => exact ⟨0, 0, rfl⟩
  | bcc b | bcs b | beq b | bne b | bmi b | bpl b | bvc b | bvs b | bra b | brk b | nopZp b
  | rmb0 b | rmb1 b | rmb2 b | rmb3 b | rmb4 b | rmb5 b | rmb6 b | rmb7 b
  | smb0 b | smb1 b | smb2 b | smb3 b | smb4 b | smb5 b | smb6 b | smb7 b => exact ⟨b, 0, rfl⟩
  | _ => exact ⟨0, 0, rfl⟩

/-! ### The encoder: an opcode, and behind it the operand bytes -/

theorem withOpcode_head {o : Option Byte} {l : List Byte} {op : Byte} (h : (withOpcode o l).head? = some op) :
    o = some op := by
  cases o with
  | none => cases h
  | some b => exact h

theorem Addr.encode_fill {k : Codes} {a : Addr} {op : Byte} (b1 b2 : Byte) (h : (a.encode k).head? = some op) :
    (a.fill b1 b2).encode k = op :: [b1, b2].take a.operandBytes := by
  cases a with
  | _ => simp [Addr.fill, Addr.encode, withOpcode_head h, withOpcode, Addr.operandBytes]

theorem Src.encode_fill {k : Codes} {s : Src} {op : Byte} (b1 b2 : Byte) (h : (s.encode k).head? = some op) :
    (s.fill b1 b2).encode k = op :: [b1, b2].take s.operandBytes := by
  cases s with
  | imm b => simp [Src.fill, Src.encode, withOpcode_head h, withOpcode, Src.operandBytes]
  | mem a => exact Addr.encode_fill b1 b2 h

theorem Rmw.encode_fill {k : Codes} {d : Rmw} {op : Byte} (b1 b2 : Byte) (h : (d.encode k).head? = some op) :
    (d.fill b1 b2).encode k = op :: [b1, b2].take d.operandBytes := by
  cases d with
  | acc => simp [Rmw.fill, Rmw.encode, withOpcode_head h, withOpcode, Rmw.operandBytes]
  | mem a => exact Addr.encode_fill b1 b2 h

/-- An instruction that has an opcode is encoded as the opcode and the operand bytes, whatever these are (R101). -/
theorem encode_fill {i : Instr} {op : Byte} (b1 b2 : Byte) (h : (encode i).head? = some op) :
    encode (i.fill b1 b2) = op :: [b1, b2].take i.operandBytes := by
  cases i with
  | lda s | ldx s | ldy s | adc s | sbc s | cmp s | cpx s | cpy s | and s | ora s | eor s | bit s =>
    exact Src.encode_fill b1 b2 h
  | sta a | stx a | sty a | stz a | tsb a | trb a => exact Addr.encode_fill b1 b2 h
  | asl d | lsr d | rol d | ror d | inc d | dec d => exact Rmw.encode_fill b1 b2 h
  | jmp t =>
    cases t <;> cases h <;> simp [Instr.fill, JmpTarget.fill, encode, Instr.operandBytes]
  | jsr | nopAbs | nopLong => cases h; simp [Instr.fill, encode, Instr.operandBytes]
  | _ => cases h; rfl

/-! ### The opcode -/

/-- What an opcode decodes to has an encoding, and it begins with the opcode (R120). -/
theorem decodeOp_encodes (bitOps : Bool) (op : Byte) :
    (decodeOpWith bitOps op 0 0).wellFormedWith bitOps = true ∧
      (encode (decodeOpWith bitOps op 0 0)).head? = some op := by
  obtain ⟨n⟩ := op
  cases bitOps <;> fin_cases n <;> exact ⟨rfl, rfl⟩

/-- A well-formed instruction has an opcode, which decodes to its operand form (R120). -/
theorem exists_opcode {bitOps : Bool} {i : Instr} (h : i.wellFormedWith bitOps = true) :
    ∃ op, (encode i).head? = some op ∧ decodeOpWith bitOps op 0 0 = i.fill 0 0 := by
  cases i with
  | lda s | ldx s | ldy s | adc s | sbc s | cmp s | cpx s | cpy s | and s | ora s | eor s | bit s =>
    cases s with
    | imm => exact ⟨_, rfl, rfl⟩
    | mem a => cases a <;> cases h <;> exact ⟨_, rfl, rfl⟩
  | sta a | stx a | sty a | stz a | tsb a | trb a =>
    cases a <;> cases h <;> exact ⟨_, rfl, rfl⟩
  | asl d | lsr d | rol d | ror d | inc d | dec d =>
    cases d with
    | acc => exact ⟨_, rfl, rfl⟩
    | mem a => cases a <;> cases h <;> exact ⟨_, rfl, rfl⟩
  | jmp t => cases t <;> exact ⟨_, rfl, rfl⟩
  | nopImp row col | nopBit row col =>
    obtain ⟨n⟩ := row
    cases bitOps <;> cases col <;> fin_cases n <;> cases h <;> exact ⟨_, rfl, rfl⟩
  | nopImm row | nopZpx row | nopAbs row =>
    obtain ⟨n⟩ := row
    fin_cases n <;> cases h <;> exact ⟨_, rfl, rfl⟩
  | rmb0 | rmb1 | rmb2 | rmb3 | rmb4 | rmb5 | rmb6 | rmb7 | smb0 | smb1 | smb2 | smb3 | smb4 | smb5 | smb6 | smb7
  | bbr0 | bbr1 | bbr2 | bbr3 | bbr4 | bbr5 | bbr6 | bbr7 | bbs0 | bbs1 | bbs2 | bbs3 | bbs4 | bbs5 | bbs6 | bbs7 =>
    cases h
    exact ⟨_, rfl, rfl⟩
  | _ => exact ⟨_, rfl, rfl⟩

/-! ### Decoding -/

/-- The decoder on an opcode and the bytes behind it: the operand form decides how many of them it takes. -/
theorem decodeWith_cons (bitOps : Bool) (op : Byte) (rest : List Byte) :
    decodeWith bitOps (op :: rest) =
      if rest.length < (decodeOpWith bitOps op 0 0).operandBytes then .error (.truncated op)
      else .ok (decodeOpWith bitOps op (rest.getD 0 0) (rest.getD 1 0),
        rest.drop (decodeOpWith bitOps op 0 0).operandBytes) := by
  have h : (decodeOpWith bitOps op (rest.getD 0 0) (rest.getD 1 0)).operandBytes =
      (decodeOpWith bitOps op 0 0).operandBytes := by rw [decodeOp_fill, Instr.fill_operandBytes]
  rw [← h]
  rfl

/-- The first bytes of a list that holds them. -/
theorem take_getD_pair {n : Nat} {l : List Byte} (h : n ≤ l.length) (hn : n ≤ 2) :
    [l.getD 0 0, l.getD 1 0].take n = l.take n := by
  match n, l with
  | 0, _ => rfl
  | 1, _ :: _ => rfl
  | 2, _ :: _ :: _ => rfl

/-- Settles O2: the opcode decodes to the operand form, which the operand bytes fill in. -/
theorem decodeOfEncode : Obligations.DecodeOfEncode := by
  intro bitOps i rest hwf
  obtain ⟨op, hop, hdec⟩ := exists_opcode hwf
  obtain ⟨b1, b2, hself⟩ := i.exists_fill
  have hle := i.operandBytes_le
  have hlen : ([b1, b2].take i.operandBytes).length = i.operandBytes := by simp; omega
  have henc : encode i = op :: [b1, b2].take i.operandBytes := by rw [← encode_fill b1 b2 hop, hself]
  have hform : (decodeOpWith bitOps op 0 0).operandBytes = i.operandBytes := by rw [hdec, Instr.fill_operandBytes]
  rw [henc, List.cons_append, decodeWith_cons, hform, if_neg (by simp [hlen]), List.drop_left' hlen,
    decodeOp_fill, hdec, Instr.fill_fill]
  refine congrArg (fun j => Except.ok (j, rest)) (Eq.trans (Instr.fill_congr ?_) hself)
  rw [take_getD_pair (by simp [hlen]) hle, List.take_left' hlen]

/-- Settles O3: of the bytes, the opcode is that of the operand form, and the others are its operand bytes. -/
theorem encodeOfDecode : Obligations.EncodeOfDecode := by
  intro bitOps bytes rest i h
  cases bytes with
  | nil => cases h
  | cons op l =>
    obtain ⟨hwf, hop⟩ := decodeOp_encodes bitOps op
    rw [decodeWith_cons] at h
    split at h
    · cases h
    · next hlen =>
      injection h with h
      injection h with hi hrest
      subst hi hrest
      rw [decodeOp_fill, Instr.fill_wellFormed, encode_fill _ _ hop,
        take_getD_pair (Nat.not_lt.mp hlen) (Instr.operandBytes_le _), List.cons_append, List.take_append_drop]
      exact ⟨hwf, rfl⟩

/-- Settles O4: the opcode alone decides how many bytes follow it. -/
theorem decodeTotal : Obligations.DecodeTotal := by
  intro bitOps op
  refine ⟨_, (decodeOpWith bitOps op 0 0).operandBytes_le, fun rest =>
    ⟨fun h => ⟨decodeOpWith bitOps op (rest.getD 0 0) (rest.getD 1 0), ?_, ?_⟩, fun h => ?_⟩⟩
  · rw [decodeWith_cons, if_neg (Nat.not_lt.mpr h)]
  · rw [decodeOp_fill, Instr.length, Instr.fill_operandBytes, Nat.add_comm]
  · rw [decodeWith_cons, if_pos h]

/-- Settles O1. -/
theorem decodeSampleWords : Obligations.DecodeSampleWords := by
  unfold Obligations.DecodeSampleWords
  decide

end Sys2Proof
end

section
/-! PROOFS. The step of the machine: what it is in each case, the invariant, and the turns of the scheduler that it is made of
(10_state.md R31; 60_exceptions.md R306; 64_bus_scheduler.md R464, R468, R473, R475). -/

namespace Sys2Proof.Machine

/-! ### The step, case by case -/

section
variable {s : State}

theorem step_unsettled (ht : s.io.tick < Config.tickLimit) (hs : s.settled = false) : step s = .next s.settle := by
  simp [step, Nat.not_le.mpr ht, hs]

theorem step_halted (ht : s.io.tick < Config.tickLimit) (hs : s.settled = true) (hh : s.suzy.halted = true) :
    step s = .next (suzyStep s) := by
  simp [step, Nat.not_le.mpr ht, hs, hh]

theorem step_work (ht : s.io.tick < Config.tickLimit) (hs : s.settled = true) (hh : s.suzy.halted = false) {w : Work}
    {start : Cpu} {log : List Byte} (hp : s.pipe = .work w start log) : step s = .next (resumeWork w start log s) := by
  simp [step, Nat.not_le.mpr ht, hs, hh, hp]

theorem step_fetch (ht : s.io.tick < Config.tickLimit) (hs : s.settled = true) (hh : s.suzy.halted = false) {start : Cpu}
    {log : List Byte} (hp : s.pipe = .fetch start log) :
    step s = exec (resumeFetch start log s).1 (resumeFetch start log s).2 := by
  simp [step, Nat.not_le.mpr ht, hs, hh, hp]

theorem step_stopped (ht : s.io.tick < Config.tickLimit) (hs : s.settled = true) (hh : s.suzy.halted = false)
    (hp : s.pipe = .atFetch) (hc : s.cpu.stopped = true) : step s = .next s.postpone.settle := by
  simp [step, Nat.not_le.mpr ht, hs, hh, hp, hc]

theorem State.Ready.step_eq (h : s.Ready) : step s = cpuStep s := by
  obtain ⟨hh, hc⟩ := h.running
  simp [step, Nat.not_le.mpr h.tick, h.settled, hh, h.pipe, hc]

theorem cpuStep_nmi (h : s.poll = .nmi) : cpuStep s = .next (perform .nmi nmiEntry s.afterPoll.wake) := by
  simp [cpuStep, h]

theorem cpuStep_irq (h : s.poll = .irq) : cpuStep s = .next (perform .irq irqEntry s.afterPoll.wake) := by
  simp [cpuStep, h]

theorem cpuStep_waits (h : s.poll = .run) (hw : s.keepsWaiting = true) :
    cpuStep s = .next s.afterPoll.postpone.settle := by
  simp [cpuStep, h, hw]

theorem cpuStep_runs (h : s.poll = .run) (hw : s.keepsWaiting = false) :
    cpuStep s = exec (fetchInstr s.afterPoll.wake).1 (fetchInstr s.afterPoll.wake).2 := by
  simp [cpuStep, h, hw]

theorem step_below_limit {t : State} (h : step s = .next t) : s.io.tick < Config.tickLimit := by
  by_contra hn
  simp [step, Nat.not_lt.mp hn] at h

end

/-! ### The invariant -/

/-- Settles O58. -/
theorem stepKeepsInvariant : Obligations.StepKeepsInvariant :=
  ⟨fun _ _ h e => ⟨(step_fit h e).inv, (step_fit h e).settled⟩, fun _ h => h.turn⟩

/-- Settles O57: a step of the halted machine is a beat or a turn of Suzy, whose one write the engine places. -/
theorem suzyWritesOnScreen : Obligations.SuzyWritesOnScreen := by
  intro s t h hh e a ha
  have ht := step_below_limit e
  cases hs : s.settled with
  | false =>
    rw [step_unsettled ht hs] at e
    cases e
    exact absurd rfl ha
  | true =>
    rw [step_halted ht hs hh] at e
    cases e
    obtain ⟨v, hr, hv⟩ := (suzyTurn_drew h.ram).ram a ha
    obtain ⟨hok, hvid, hcoll⟩ := h.suzy.toAccess
    refine ⟨v, hr, hv, ?_⟩
    rw [← hvid, ← hcoll]
    exact hok.written hr

/-! ### The bus does not look at the pipeline -/

/-- The CPU's place in its instruction alone. -/
def State.withPipe (s : State) (p : Pipeline) : State := { s with pipe := p }

theorem State.busRead_withPipe (s : State) (p : Pipeline) (a : Word) :
    (s.withPipe p).busRead a = ((s.busRead a).1, (s.busRead a).2.withPipe p) := by
  have h : ((s.withPipe p).charge a).readEffect a = ((s.charge a).readEffect a).withPipe p := by
    show ((s.charge a).withPipe p).readEffect a = _
    unfold State.readEffect
    rw [show ((s.charge a).withPipe p).backingOf a = (s.charge a).backingOf a from rfl]
    split <;> rfl
  unfold State.busRead State.rawRead
  rw [h]
  rfl

theorem State.busWrite_withPipe (s : State) (p : Pipeline) (a : Word) (v : Byte) :
    (s.withPipe p).busWrite a v = (s.busWrite a v).withPipe p := by
  have h : ((s.withPipe p).charge a).store a v = ((s.charge a).store a v).withPipe p := by
    show ((s.charge a).withPipe p).store a v = _
    unfold State.store
    rw [show ((s.charge a).withPipe p).backingOf a = (s.charge a).backingOf a from rfl]
    split <;> rfl
  unfold State.busWrite State.rawWrite
  rw [h]
  rfl

theorem Prog.eval_withPipe {α : Type} (q : Prog α) (s : State) (p : Pipeline) :
    q.eval (s.withPipe p) = ((q.eval s).1, (q.eval s).2.withPipe p) := by
  induction q generalizing s with
  | done a => rfl
  | read k a next ih =>
    rw [Prog.eval_read, Prog.eval_read, State.busRead_withPipe]
    exact ih _ ((s.busRead a).2.withCpu k)
  | write k a v next ih =>
    rw [Prog.eval_write, Prog.eval_write, State.busWrite_withPipe]
    exact ih ((s.busWrite a v).withCpu k)

theorem Prog.runFrom_withPipe (w : Work) (start : Cpu) (log : List Byte) (q : Prog Finish) (s : State) (p : Pipeline) :
    Prog.runFrom w start log q (s.withPipe p) = Prog.runFrom w start log q s := by
  induction q generalizing s log with
  | done f => rfl
  | read k a next ih =>
    rw [Prog.runFrom_read, Prog.runFrom_read, State.busRead_withPipe]
    exact ih _ _ ((s.busRead a).2.withCpu k)
  | write k a v next ih =>
    rw [Prog.runFrom_write, Prog.runFrom_write, State.busWrite_withPipe]
    exact if_congr Iff.rfl rfl (ih _ ((s.busWrite a v).withCpu k))

/-! ### Sequences of turns -/

/-- The scheduler's loop comes from `s` to `t`. -/
def Turns (s t : State) : Prop := ∃ n : Nat, turn^[n] s = t

theorem Turns.refl (s : State) : Turns s s := ⟨0, rfl⟩

theorem Turns.trans {s t u : State} (h : Turns s t) (g : Turns t u) : Turns s u := by
  obtain ⟨n, rfl⟩ := h
  obtain ⟨m, rfl⟩ := g
  exact ⟨m + n, Function.iterate_add_apply _ _ _ _⟩

theorem Turns.settle (s : State) : Turns s s.settle := s.settle_beats.turns

/-- One turn, and then others. -/
theorem Turns.pos {s t u : State} (h : turn s = t) (g : Turns t u) : ∃ n : Nat, 0 < n ∧ turn^[n] s = u := by
  obtain ⟨n, rfl⟩ := g
  exact ⟨n + 1, Nat.succ_pos n, by rw [Function.iterate_succ_apply, h]⟩

theorem Turns.of_turn {s t u : State} (h : turn s = t) (g : Turns t u) : Turns s u :=
  let ⟨n, _, e⟩ := Turns.pos h g
  ⟨n, e⟩

theorem turn_halted {s : State} (hs : s.settled = true) (hh : s.suzy.halted = true) : turn s = s.suzyTurn := by
  simp [turn, State.settled_beat hs, hh]

theorem turn_cpu {s : State} (hs : s.settled = true) (hh : s.suzy.halted = false) : turn s = s.cpuTurn := by
  simp [turn, State.settled_beat hs, hh]

/-! ### The rest of an instruction, by single accesses -/

theorem State.goOn_of_access (w : Work) (start : Cpu) (log : List Byte) {p : Prog Finish} (s : State)
    (hp : p.isDone = false) : s.goOn w start log p = s.suspend w start log := by
  cases p with
  | done f => cases hp
  | read k a next => rfl
  | write k a v next => rfl

/-- A suspended instruction is settled, and its next access is the CPU's next turn. -/
theorem Turns.goOn {w : Work} {start : Cpu} {log : List Byte} {p : Prog Finish} {r : State} (h : r.Inv)
    (hh : p.isDone = false → r.suzy.halted = false) (hp : Prog.after log (program w start) = p)
    (rest : ∀ {s : State}, s.Fit → s.suzy.halted = false →
      Turns (s.advance w start log p) (Prog.runFrom w start log p s)) :
    Turns (r.goOn w start log p) (Prog.runFrom w start log p r.settle) := by
  cases hd : p.isDone with
  | true =>
    cases p with
    | done f =>
      rw [Prog.runFrom_done, h.ended_settle]
      exact Turns.settle (r.ended f)
    | read k a next => cases hd
    | write k a v next => cases hd
  | false =>
    rw [State.goOn_of_access w start log r hd]
    have f : (r.suspend w start log).settle.Fit := (h.pipe _).settle
    have hh : (r.suspend w start log).settle.suzy.halted = false := hh hd
    refine (Turns.settle _).trans (Turns.of_turn (turn_cpu f.settled hh) ?_)
    have e : (r.suspend w start log).settle.cpuTurn = (r.suspend w start log).settle.advance w start log p := by
      rw [← hp]; rfl
    rw [e]
    have g : Prog.runFrom w start log p (r.suspend w start log).settle = Prog.runFrom w start log p r.settle :=
      Prog.runFrom_withPipe w start log p r.settle (.work w start log)
    exact g ▸ rest f hh

/-- What is left of an instruction or trap entry runs by single accesses to where it runs whole. -/
theorem Turns.advance (w : Work) (start : Cpu) {log : List Byte} {p : Prog Finish}
    (hp : Prog.after log (program w start) = p) {s : State} (h : s.Fit) (hh : s.suzy.halted = false) :
    Turns (s.advance w start log p) (Prog.runFrom w start log p s) := by
  induction p generalizing log s with
  | done f => exact Turns.settle _
  | read k a next ih =>
    have hn : Prog.after (log ++ [((s.withCpu k).rawRead a).1]) (program w start) = _ := Prog.after_read hp _
    exact Turns.goOn ((h.withCpu k).rawRead a) (fun _ => ((s.withCpu k).busRead_suzy a ▸ hh :))
      hn fun f hf => ih _ hn f hf
  | write k a v next ih =>
    have hn : Prog.after (log ++ [0]) (program w start) = next := Prog.after_write hp 0
    have hinv : ((s.withCpu k).rawWrite a v).Inv := (h.withCpu k).rawWrite hh a v
    show Turns (((s.withCpu k).rawWrite a v).goOn w start (log ++ [0]) next) _
    unfold Prog.runFrom
    split
    · next hs =>
      obtain ⟨-, hd⟩ := Bool.and_eq_true_iff.mp hs
      rw [State.goOn_of_access _ _ _ _ (by simpa using hd)]
      exact Turns.settle _
    · next hs =>
      refine Turns.goOn hinv (fun hd => ?_) hn fun f hf => ih hn f hf
      have hsz : (s.withCpu k).startsSuzy a v = false := by simpa [hd] using hs
      exact (State.busWrite_halted hsz).trans hh

/-- A whole program, from its first access on. -/
theorem Turns.program (w : Work) {s : State} (h : s.Fit) (hh : s.suzy.halted = false) :
    Turns (s.advance w s.cpu [] (Machine.program w s.cpu)) (perform w (Machine.program w) s) :=
  Turns.advance w s.cpu (Prog.after_nil _) h hh

/-! ### The rest of a fetch, by single accesses -/

/-- A decoded instruction goes on with its program. -/
theorem Turns.begin {f : Fetched} {r : State} (h : r.Inv) (hh : r.suzy.halted = false) :
    Turns (r.begin f) (perform (.instr f.instr) (instrProg f.instr) (r.settle.withCpu f.cpu)) :=
  Turns.goOn (w := .instr f.instr) (h.cpu f.cpu) (fun _ => hh) (Prog.after_nil _) fun g hg =>
    Turns.advance (.instr f.instr) f.cpu (Prog.after_nil _) g hg

/-- What a fetch, of which `p` is left, comes to: the instruction it gives, run whole. -/
def runFetched (p : Prog Fetched) (s : State) : State :=
  perform (.instr (fetchRest p s).1) (instrProg (fetchRest p s).1) (fetchRest p s).2

theorem runFetched_withPipe (p : Prog Fetched) (s : State) (q : Pipeline) : runFetched p (s.withPipe q) = runFetched p s := by
  unfold runFetched fetchRest
  rw [Prog.eval_withPipe]
  exact Prog.runFrom_withPipe _ _ _ _ ((p.eval s).2.withCpu (p.eval s).1.cpu) q

/-- After an access of a fetch. -/
theorem Turns.goOnFetch {start : Cpu} {log : List Byte} {p : Prog Fetched} {r : State} (h : r.Inv)
    (hh : r.suzy.halted = false) (hp : Prog.after log (fetchProg start) = p)
    (rest : ∀ {s : State}, s.Fit → s.suzy.halted = false → Turns (s.advanceFetch start log p) (runFetched p s)) :
    Turns (r.goOnFetch start log p) (runFetched p r.settle) := by
  have suspended : Turns (r.withPipe (.fetch start log)) (runFetched p r.settle) := by
    have f : (r.withPipe (.fetch start log)).settle.Fit := (h.pipe _).settle
    refine (Turns.settle _).trans (Turns.of_turn (turn_cpu f.settled hh) ?_)
    have e : (r.withPipe (.fetch start log)).settle.cpuTurn =
        (r.withPipe (.fetch start log)).settle.advanceFetch start log p := by rw [← hp]; rfl
    rw [e, ← runFetched_withPipe p r.settle (.fetch start log)]
    exact rest f hh
  cases p with
  | done f => exact Turns.begin h hh
  | read k a next => exact suspended
  | write k a v next => exact suspended

/-- What is left of a fetch, and then the instruction, run by single accesses to where they run whole. -/
theorem Turns.advanceFetch (start : Cpu) {log : List Byte} {p : Prog Fetched}
    (hp : Prog.after log (fetchProg start) = p) (hc : p.Calm) {s : State} (h : s.Fit) (hh : s.suzy.halted = false) :
    Turns (s.advanceFetch start log p) (runFetched p s) := by
  induction p generalizing log s with
  | done f =>
    have e : s.settle = s := State.settle_id h.settled
    have g := Turns.begin (f := f) h.inv hh
    rw [e] at g
    exact g
  | read k a next ih =>
    have hr : ((s.withCpu k).rawRead a).2.Inv := (h.withCpu k).rawRead a
    have hz : ((s.withCpu k).rawRead a).2.suzy.halted = false := (congrArg Suzy.halted ((s.withCpu k).busRead_suzy a)).trans hh
    exact Turns.goOnFetch hr hz (Prog.after_read hp _) fun f hf => ih _ (Prog.after_read hp _) (hc _) f hf
  | write k a v next ih =>
    have hz : (s.withCpu k).startsSuzy a v = false := State.startsSuzy_low _ v hc.1
    exact Turns.goOnFetch ((h.withCpu k).rawWrite hh a v) ((State.busWrite_halted hz).trans hh) (Prog.after_write hp 0)
      fun f hf => ih (Prog.after_write hp 0) hc.2 f hf

/-- A fetch and its instruction, as `step` runs them. -/
theorem exec_fetchRest (p : Prog Fetched) (s : State) : exec (fetchRest p s).1 (fetchRest p s).2 = .next (runFetched p s) :=
  exec_eq _ _

/-! ### A step is made of turns -/

/-- A CPU-step at a fetch boundary. -/
theorem Turns.cpuStep {s t : State} (h : s.Fit) (hh : s.suzy.halted = false) (e : cpuStep s = .next t) :
    Turns s.beginStep t := by
  have f : s.afterPoll.wake.Fit := (h.cpu _).cpu _
  unfold State.beginStep
  cases hp : s.poll with
  | nmi =>
    cases (cpuStep_nmi hp).symm.trans e
    exact Turns.program .nmi f hh
  | irq =>
    cases (cpuStep_irq hp).symm.trans e
    exact Turns.program .irq f hh
  | run =>
    cases hw : s.keepsWaiting with
    | true =>
      cases (cpuStep_waits hp hw).symm.trans e
      exact Turns.settle _
    | false =>
      have e' := (cpuStep_runs hp hw).symm.trans e
      rw [fetchInstr, exec_fetchRest] at e'
      cases e'
      exact Turns.advanceFetch _ (Prog.after_nil _) (fetchProg_calm _) f hh

/-- The CPU's step, when it is its turn. -/
theorem Turns.cpuTurn {s t : State} (h : s.Fit) (hh : s.suzy.halted = false) (e : step s = .next t) :
    Turns s.cpuTurn t := by
  have ht := step_below_limit e
  cases hp : s.pipe with
  | work w start log =>
    cases (step_work ht h.settled hh hp).symm.trans e
    simp only [State.cpuTurn, hp]
    exact Turns.advance w start rfl h hh
  | fetch start log =>
    have e' := (step_fetch ht h.settled hh hp).symm.trans e
    rw [resumeFetch, exec_fetchRest] at e'
    cases e'
    simp only [State.cpuTurn, hp]
    exact Turns.advanceFetch start rfl ((fetchProg_calm start).after log) h hh
  | atFetch =>
    cases hc : s.cpu.stopped with
    | true =>
      cases (step_stopped ht h.settled hh hp hc).symm.trans e
      simp only [State.cpuTurn, hp, hc, if_true]
      exact Turns.settle _
    | false =>
      rw [(State.Ready.step_eq ⟨ht, h.settled, ⟨hh, hc⟩, hp⟩)] at e
      simp only [State.cpuTurn, hp, hc]
      exact Turns.cpuStep h hh e

/-- Settles O7: the first turn is a beat, or the master's first access; the rest of the step follows by single accesses. -/
theorem stepIsTurns : Obligations.StepIsTurns := by
  intro s t h e
  have ht := step_below_limit e
  cases hs : s.settled with
  | false =>
    cases (step_unsettled ht hs).symm.trans e
    obtain ⟨n, hn⟩ := Turns.settle s
    refine ⟨n, Nat.pos_of_ne_zero fun h0 => ?_, hn⟩
    subst h0
    have hs' : s.settle.settled = true := h.settle.settled
    rw [← show s = s.settle from hn, hs] at hs'
    cases hs'
  | true =>
    cases hh : s.suzy.halted with
    | true =>
      cases (step_halted ht hs hh).symm.trans e
      exact Turns.pos (turn_halted hs hh) (Turns.settle _)
    | false => exact Turns.pos (turn_cpu hs hh) (Turns.cpuTurn ⟨h, hs⟩ hh e)

end Sys2Proof.Machine
end

section
/-! PROOFS. Operand forms, loads, stores, transfers, counts, flag instructions and the stack (30_encoding.md R105 to R113;
40_load_store_transfer.md; 41_stack.md; 43_logic_bit.md R186 to R189; 46_flag_system.md R231 to R238). -/

namespace Sys2Proof.Machine

/-! ### What an instruction answers, by the shape of its program -/

/-- An instruction without an access of its own. -/
theorem exec_implied {i : Instr} {s : State} {k : Cpu} {n : Nat} (hp : instrProg i s.cpu = implied k n) :
    ∃ t, exec i s = .next t ∧ s.Quiet t ∧ t.Ended k := by
  obtain ⟨hend, hquiet, -⟩ := implied_spec (.instr i) s hp
  exact ⟨_, exec_eq i s, hquiet, hend⟩

/-- A store. -/
theorem exec_storeTo {i : Instr} {s : State} (hw : Ram.wf s.ram = true) {m : Addr} {v : Byte}
    (hp : instrProg i s.cpu = storeTo m v s.cpu) :
    ∃ t, exec i s = .next t ∧ t.Ended s.cpu ∧ s.Stored (s.effAddr m).1 v t :=
  ⟨_, exec_eq i s, storeTo_spec (.instr i) hw hp⟩

/-- A push instruction. -/
theorem exec_pushReg {i : Instr} {s : State} (hw : Ram.wf s.ram = true) {v : Byte}
    (hp : instrProg i s.cpu = pushReg v s.cpu) :
    ∃ t, exec i s = .next t ∧ t.Ended { s.cpu with sp := s.cpu.sp - 1 } ∧ s.Stored (stackAddr s.cpu.sp) v t ∧
      t.ramAt (stackAddr s.cpu.sp) = v := by
  obtain ⟨hend, hst⟩ := pushReg_spec (.instr i) hw hp
  exact ⟨_, exec_eq i s, hend, hst, (hst.low (stackAddr_low _)).1⟩

/-- A pull instruction. -/
theorem exec_pullReg {i : Instr} {s : State} {f : Byte → Cpu → Cpu} (hp : instrProg i s.cpu = pullReg f s.cpu) :
    ∃ t, exec i s = .next t ∧ s.Quiet t ∧
      t.Ended (f (s.ramAt (stackAddr (s.cpu.sp + 1))) { s.cpu with sp := s.cpu.sp + 1 }) := by
  obtain ⟨hend, hquiet⟩ := pullReg_spec (.instr i) s hp
  exact ⟨_, exec_eq i s, hquiet, hend⟩

/-! ### Operand forms -/

/-- A pointer in page zero as a number, both of its bytes taken inside the page (R12). -/
theorem State.pointer_toNat (s : State) {z : Byte} {n : Nat} (h : z.toNat = n % 256) :
    (s.pointer z).toNat =
      (s.ramAt (BitVec.ofNat 16 (n % 256))).toNat + 256 * (s.ramAt (BitVec.ofNat 16 ((n + 1) % 256))).toNat := by
  have hl : zext z = BitVec.ofNat 16 (n % 256) := by
    apply BitVec.eq_of_toNat_eq; rw [zext_toNat, BitVec.toNat_ofNat]; omega
  have hh : zext (z + 1) = BitVec.ofNat 16 ((n + 1) % 256) := by
    apply BitVec.eq_of_toNat_eq; rw [zext_toNat, BitVec.toNat_ofNat, BitVec.toNat_add]; simp only [BitVec.reduceToNat]; omega
  rw [State.pointer, join_toNat, hl, hh]

theorem add_zext_toNat (a : Word) (b : Byte) : (a + zext b).toNat = (a.toNat + b.toNat) % 65536 := by
  rw [BitVec.toNat_add, zext_toNat]

/-- A memory operand is read at its effective address (R140). -/
theorem operand_mem_plain (m : Addr) {s : State} (h : s.plain (s.effAddr m).1 = true) :
    (s.operand (.mem m)).1.value = s.peek (s.effAddr m).1 := by
  obtain ⟨-, hquiet, -⟩ := effAddr_spec m s
  rw [(operand_mem m s).1, State.busRead_plain ((hquiet.plain _).trans h), hquiet.peek h]

/-- Settles O14: the model's effective addresses are the formulas of `State.target`. -/
theorem operandForms : Obligations.OperandForms := by
  intro s d8 a16
  simp only [(effAddr_spec _ s).1, State.target]
  refine ⟨zext_toNat d8, ?_, ?_, trivial, add_zext_toNat _ _, add_zext_toNat _ _, s.pointer_toNat (BitVec.toNat_add _ _), ?_,
    s.pointer_toNat (Nat.mod_eq_of_lt d8.isLt).symm, rfl, rfl, fun m => ?_⟩
  · rw [zext_toNat, BitVec.toNat_add]
  · rw [zext_toNat, BitVec.toNat_add]
  · rw [add_zext_toNat, s.pointer_toNat (Nat.mod_eq_of_lt d8.isLt).symm]
  · obtain ⟨haddr, hquiet, hcpu⟩ := effAddr_spec m s
    change _ ∧ _ ∧ _ = ((s.effAddr m).2.busRead (s.target m)).1 ∧ (s.plain (s.target m) = true → _ = s.peek (s.target m)) ∧ _ ∧
      s.Kept (s.cartAfterRead (s.target m)) _
    rw [← haddr]
    exact ⟨hcpu, hquiet, (operand_mem m s).1, operand_mem_plain m, operand_cpu _ s, haddr ▸ operand_kept (.mem m) s⟩

/-! ### Loads, stores, logic -/

/-- Settles O15. -/
theorem loads : Obligations.Loads := by
  intro src s
  obtain ⟨a, ha, ka, ea⟩ := exec_withOperand (i := .lda src) (s := s) rfl rfl
  obtain ⟨x, hx, kx, ex⟩ := exec_withOperand (i := .ldx src) (s := s) rfl rfl
  obtain ⟨y, hy, ky, ey⟩ := exec_withOperand (i := .ldy src) (s := s) rfl rfl
  exact ⟨⟨a, ha, ea, ka⟩, ⟨x, hx, ex, kx⟩, y, hy, ey, ky⟩

/-- Settles O16. -/
theorem stores : Obligations.Stores := fun _ _ hw =>
  ⟨exec_storeTo hw rfl, exec_storeTo hw rfl, exec_storeTo hw rfl, exec_storeTo hw rfl⟩

/-- Settles O24. -/
theorem logic : Obligations.Logic := by
  intro src s
  have hand := exec_withOperand (i := .and src) (s := s) rfl rfl
  have hora := exec_withOperand (i := .ora src) (s := s) rfl rfl
  have heor := exec_withOperand (i := .eor src) (s := s) rfl rfl
  exact ⟨hand, hora, heor⟩

/-- Settles O25: the flags of BIT depend on whether its operand is an immediate byte. -/
theorem bitTest : Obligations.BitTest := by
  intro d8 a s
  have himm := exec_withOperand (i := .bit (.imm d8)) (s := s) rfl rfl
  have hmem := exec_withOperand (i := .bit (.mem a)) (s := s) rfl rfl
  exact ⟨himm, hmem⟩

/-- Settles O22. -/
theorem addAndSubtract : Obligations.AddAndSubtract := by
  intro src s
  have hadc := exec_withOperand (i := .adc src) (s := s) rfl rfl
  have hsbc := exec_withOperand (i := .sbc src) (s := s) rfl rfl
  exact ⟨hadc, hsbc⟩

/-! ### Instructions without an operand -/

/-- A register count, with the new byte as a number beside it. -/
theorem exec_count {i : Instr} {s : State} {r : Byte} {m : Nat} (k : Byte → Cpu) (hp : instrProg i s.cpu = implied (k r) 1)
    (hr : r.toNat = m) : ∃ (t : State) (r : Byte), exec i s = .next t ∧ s.Quiet t ∧ r.toNat = m ∧ t.Ended (k r) := by
  obtain ⟨t, he, hq, hend⟩ := exec_implied hp
  exact ⟨t, r, he, hq, hr, hend⟩

theorem add_one_toNat (b : Byte) : (b + 1).toNat = (b.toNat + 1) % 256 := BitVec.toNat_add _ _

theorem sub_one_toNat (b : Byte) : (b - 1).toNat = (b.toNat + 255) % 256 := by
  rw [BitVec.toNat_sub]; simp only [BitVec.reduceToNat]; omega

/-- Settles O17: each is its register write. -/
theorem impliedInstructions : Obligations.ImpliedInstructions := fun s =>
  ⟨exec_implied rfl, exec_implied rfl, exec_implied rfl, exec_implied rfl, exec_implied rfl, exec_implied rfl,
    exec_count (fun r => { s.cpu with x := r, n := bit r 7, z := r == 0 }) rfl (add_one_toNat _),
    exec_count (fun r => { s.cpu with y := r, n := bit r 7, z := r == 0 }) rfl (add_one_toNat _),
    exec_count (fun r => { s.cpu with x := r, n := bit r 7, z := r == 0 }) rfl (sub_one_toNat _),
    exec_count (fun r => { s.cpu with y := r, n := bit r 7, z := r == 0 }) rfl (sub_one_toNat _),
    exec_implied rfl, exec_implied rfl, exec_implied rfl, exec_implied rfl, exec_implied rfl, exec_implied rfl,
    exec_implied rfl, exec_implied rfl⟩

/-! ### The stack and the status byte -/

/-- Settles O19. -/
theorem pushesAndPulls : Obligations.PushesAndPulls := fun _ =>
  ⟨fun hw => ⟨exec_pushReg hw rfl, exec_pushReg hw rfl, exec_pushReg hw rfl, exec_pushReg hw rfl⟩,
    exec_pullReg (f := fun v k => k.loadA v) rfl, exec_pullReg (f := fun v k => k.loadX v) rfl,
    exec_pullReg (f := fun v k => k.loadY v) rfl, exec_pullReg (f := fun v k => k.setP v) rfl⟩

theorem bit_or (a b : Byte) (k : Nat) : bit (a ||| b) k = (bit a k || bit b k) := BitVec.getLsbD_or

theorem bit_and (a b : Byte) (k : Nat) : bit (a &&& b) k = (bit a k && bit b k) := BitVec.getLsbD_and

/-- One flag in its place in a byte. -/
theorem bit_flag (b : Bool) (n k : Nat) (hk : k < 8) : bit (if b then bitMask n else 0#8) k = (b && decide (k = n)) := by
  cases b
  · simp [bit]
  · simp [bit_mask n k hk]

/-- The status byte, bit by bit (R27). -/
theorem Cpu.status_bit (k : Cpu) (b : Bool) :
    bit (k.status b) 7 = k.n ∧ bit (k.status b) 6 = k.v ∧ bit (k.status b) 5 = true ∧ bit (k.status b) 4 = b ∧
      bit (k.status b) 3 = k.d ∧ bit (k.status b) 2 = k.i ∧ bit (k.status b) 1 = k.z ∧ bit (k.status b) 0 = k.c := by
  simp [Cpu.status, bit_or, bit_flag, bit_mask]

/-- A byte is its eight bits. -/
theorem byte_ext {a b : Byte} (h : ∀ k < 8, bit a k = bit b k) : a = b := BitVec.eq_of_getLsbD_eq h

/-- Settles O18: the byte that is pushed after a pull keeps six bits of the byte pulled. -/
theorem statusByte : Obligations.StatusByte := by
  intro k b v
  refine ⟨k.status_bit b, rfl, byte_ext fun j hj => ?_⟩
  obtain ⟨h7, h6, h5, h4, h3, h2, h1, h0⟩ := (k.setP v).status_bit b
  have hb : bit (if b then 0x10 else 0x00) j = (b && decide (j = 4)) := bit_flag b 4 j hj
  simp only [bit_or, bit_and, hb]
  interval_cases j <;> simp only [h7, h6, h5, h4, h3, h2, h1, h0] <;> simp [bit]

end Sys2Proof.Machine
end

section
/-! PROOFS. Read-modify-writes (20_memory.md R73; 43_logic_bit.md R190, R191; 44_shift_incdec.md R195 to R201;
47_bit_branch_modify.md R250 to R252). -/

namespace Sys2Proof.Machine

/-! ### In memory -/

/-- A read-modify-write by a function of the byte, with the flags set before its first write. -/
theorem exec_modifyMem {i : Instr} {s : State} (hw : Ram.wf s.ram = true) {f : Byte → Byte} {flags : Byte → Cpu → Cpu}
    {m : Addr} (hp : instrProg i s.cpu = modifyMem f flags m s.cpu) :
    ∃ (t : State) (old : Byte), exec i s = .next t ∧
      s.Modified i (s.effAddr m).1 old (f old) (flags old s.cpu) 0 t ∧
      (s.startsSuzy (s.effAddr m).1 old = true → t.cpu = flags old s.cpu) := by
  obtain ⟨old, hmod, hsz⟩ := modifyAt_spec i hw (n := fun _ => 0) (late := fun _ q => q) hp
  exact ⟨_, old, exec_eq i s, hmod, hsz⟩

/-- Settles O26. -/
theorem testAndModify : Obligations.TestAndModify := by
  intro dst s hw
  have htsb := exec_modifyMem (i := .tsb dst) (s := s) hw (f := fun m => m ||| s.cpu.a) (flags := testBits) rfl
  have htrb := exec_modifyMem (i := .trb dst) (s := s) hw (f := fun m => m &&& ~~~s.cpu.a) (flags := testBits) rfl
  exact ⟨htsb, htrb⟩

/-- A shift, rotation, increment or decrement in memory. -/
theorem exec_rmw_mem {i : Instr} {s : State} (hw : Ram.wf s.ram = true) (f : RmwOp) {fixed : Bool} {m : Addr}
    (hp : instrProg i s.cpu = rmw f fixed (.mem m) s.cpu) :
    ∃ (t : State) (old r : Byte) (k : Nat), exec i s = .next t ∧ r = f.value old s.cpu.c ∧
      s.Modified i (s.effAddr m).1 old r { s.cpu with n := bit r 7, z := r == 0, c := f.carryOut old s.cpu.c } k t := by
  obtain ⟨old, hmod, -⟩ := modifyAt_spec i hw hp
  exact ⟨_, old, _, _, exec_eq i s, rfl, hmod⟩

/-- The carry as bit 7. -/
theorem carry_shifted (c : Bool) : (if c then bitMask 7 else 0) = (if c then 1#8 else 0#8) <<< 7 := by
  cases c <;> rfl

/-- Settles O28. -/
theorem modifyMemory : Obligations.ModifyMemory := by
  intro dst s hw
  refine ⟨exec_rmw_mem hw .asl rfl, exec_rmw_mem hw .lsr rfl, exec_rmw_mem hw .rol rfl, ?_, exec_rmw_mem hw .inc rfl,
    exec_rmw_mem hw .dec rfl⟩
  obtain ⟨t, old, r, k, he, hr, hmod⟩ := exec_rmw_mem (i := .ror (.mem dst)) hw .ror rfl
  exact ⟨t, old, r, k, he, by rw [hr, ← carry_shifted]; rfl, hmod⟩

/-! ### In the accumulator -/

/-- A shift, rotation, increment or decrement of A: the new byte as a number, its N by `n`, and the carry. -/
theorem exec_rmw_acc {i : Instr} {s : State} (f : RmwOp) (n : Byte → Bool) {m : Nat} {c : Bool}
    (hp : instrProg i s.cpu = rmw f false .acc s.cpu) (hm : (f.value s.cpu.a s.cpu.c).toNat = m)
    (hn : bit (f.value s.cpu.a s.cpu.c) 7 = n (f.value s.cpu.a s.cpu.c)) (hc : f.carryOut s.cpu.a s.cpu.c = c) :
    ∃ (t : State) (r : Byte), exec i s = .next t ∧ s.Quiet t ∧ r.toNat = m ∧
      t.Ended { s.cpu with a := r, n := n r, z := r == 0, c := c } := by
  obtain ⟨t, he, hq, hend⟩ := exec_implied (i := i) (s := s) hp
  refine ⟨t, _, he, hq, hm, ?_⟩
  rw [← hn, ← hc]
  exact hend

section
variable (v : Byte) (c : Bool)

theorem bit_zero_eq_decide : bit v 0 = decide (v.toNat % 2 = 1) := by
  simp [bit, BitVec.getLsbD, Nat.testBit_zero]

theorem shl_toNat : (v <<< 1).toNat = 2 * v.toNat % 256 := by
  rw [BitVec.toNat_shiftLeft, Nat.shiftLeft_eq]; omega

theorem shr_toNat : (v >>> 1).toNat = v.toNat / 2 := by
  rw [BitVec.toNat_ushiftRight, Nat.shiftRight_eq_div_pow, Nat.pow_one]

/-- A bit shifted in from below (bit 0 is free after the shift). -/
theorem shl_or_bit_toNat {w : Nat} (x : BitVec w) (c : Bool) :
    (x <<< 1 ||| (if c then 1#w else 0#w)).toNat = (2 * x.toNat + c.toNat) % 2 ^ w := by
  have h : x <<< 1 &&& (if c then 1#w else 0#w) = 0#w := by
    ext i hi
    by_cases h : i = 0
    · subst h; simp
    · cases c <;> simp [BitVec.getElem_one, h]
  rw [← BitVec.add_eq_or_of_and_eq_zero _ _ h, BitVec.toNat_add, BitVec.toNat_shiftLeft, Nat.shiftLeft_eq]
  cases c <;> simp [Nat.mul_comm]

/-- A bit shifted in from above (bit 7 is free after the shift). -/
theorem shr_or_bit_toNat : (v >>> 1 ||| (if c then 128#8 else 0#8)).toNat = v.toNat / 2 + 128 * c.toNat := by
  have hv := v.isLt
  rw [BitVec.toNat_or, shr_toNat]
  cases c
  · simp
  · have h := Nat.two_pow_add_eq_or_of_lt (i := 7) (b := v.toNat / 2) (by omega) 1
    simp only [Nat.reducePow, Nat.mul_one] at h
    simp [Nat.or_comm _ 128, ← h, Nat.add_comm]

/-- Bit 7 after a shift to the right is the bit shifted in. -/
theorem shr_or_bit_seven : bit (v >>> 1 ||| (if c then 128#8 else 0#8)) 7 = c := by
  have hv := v.isLt
  rw [bit_seven_eq_decide, shr_or_bit_toNat]
  cases c <;> simp; omega

theorem shr_seven : bit (v >>> 1) 7 = false := by
  have hv := v.isLt
  rw [bit_seven_eq_decide, shr_toNat]
  simp; omega

end

/-- Settles O27. -/
theorem modifyAccumulator : Obligations.ModifyAccumulator := fun s =>
  ⟨exec_rmw_acc .asl (bit · 7) rfl (shl_toNat _) rfl (bit_seven_eq_decide _),
    exec_rmw_acc .lsr (fun _ => false) rfl (shr_toNat _) (shr_seven _) (bit_zero_eq_decide _),
    exec_rmw_acc .rol (bit · 7) rfl (shl_or_bit_toNat _ _) rfl (bit_seven_eq_decide _),
    exec_rmw_acc .ror (fun _ => s.cpu.c) rfl (shr_or_bit_toNat _ _) (shr_or_bit_seven _ _) (bit_zero_eq_decide _),
    exec_rmw_acc .inc (bit · 7) rfl (add_one_toNat _) rfl rfl, exec_rmw_acc .dec (bit · 7) rfl (sub_one_toNat _) rfl rfl⟩

/-! ### What a read-modify-write leaves in memory -/

theorem State.startsSuzy_backing {s : State} {a : Word} {v : Byte} (h : s.startsSuzy a v = true) :
    s.backingOf a = .suzy := by
  simp only [State.startsSuzy, Bool.and_eq_true, beq_iff_eq] at h
  exact h.1.1

/-- A store to a RAM byte, in full. -/
theorem State.Stored.ram {s t : State} {a : Word} {v : Byte} (h : s.Stored a v t) (ha : s.backingOf a = .ram) :
    t.ramAt a = v ∧ t.mapctl = s.mapctl ∧ t.rom = s.rom ∧ t.suzy = s.suzy ∧ t.cart = s.cart ∧ t.inputs = s.inputs ∧
      s.io.TimePassed t.io := by
  obtain ⟨u, hu, hio⟩ := h.io
  have hh := h.here
  have hm := h.mapctl
  have hs := h.suzy
  have hc := h.cart
  simp only [ha, if_true, reduceCtorEq, if_false] at hh hm hs hc hio
  exact ⟨hh, hm, h.rom, hs, hc, h.inputs, hu.trans hio⟩

/-- A read-modify-write of a RAM byte. -/
theorem State.Modified.ram {s t : State} {i : Instr} {a : Word} {old new : Byte} {k : Cpu} {n : Nat}
    (h : s.Modified i a old new k n t) (ha : s.backingOf a = .ram) :
    old = s.ramAt a ∧ t.ramAt a = new ∧ (∀ b : Word, b ≠ a → t.ramAt b = s.ramAt b) ∧ t.Ended k ∧
      t.mapctl = s.mapctl ∧ t.rom = s.rom ∧ t.suzy = s.suzy ∧ t.cart = s.cart ∧ t.inputs = s.inputs ∧
      s.io.TimePassed t.io := by
  obtain ⟨r, u, hr, hold, hu, ht⟩ := h
  have hplain : r.plain a = true := by simp [State.plain, hr.backingOf, ha, Backing.isReg]
  have hq : s.Quiet (r.busRead a).2 := hr.trans (State.busRead_quiet hplain)
  have hns : ¬s.startsSuzy a old = true := fun e => by simpa [ha] using State.startsSuzy_backing e
  rw [if_neg hns] at ht
  have hsu : s.Stored a old u := .afterQuiet hq hu
  obtain ⟨-, um, ur, us, uc, ui, uio⟩ := hsu.ram ha
  have hua : u.backingOf a = .ram := by rw [State.backingOf, um]; exact ha
  obtain ⟨th, tm, tr, ts, tc, ti, tio⟩ := ht.1.ram hua
  refine ⟨?_, th, fun b hb => (ht.1.others b hb).trans (hsu.others b hb), ht.2, tm.trans um, tr.trans ur, ts.trans us,
    tc.trans uc, ti.trans ui, uio.trans tio⟩
  rw [hold, State.busRead_plain hplain, State.peek, hr.backingOf, ha]
  exact hr.ram a

/-- A read-modify-write of SPRGO whose first store has the GO bit still owes its second. -/
theorem State.Modified.sprgo {s t : State} {i : Instr} {old new : Byte} {k : Cpu} {n : Nat}
    (h : s.Modified i 0xFC91 old new k n t) (ha : s.backingOf 0xFC91 = .suzy) (hb : bit old 0 = true) :
    t.OwesWrite (.instr i) k 0xFC91 new n ∧ t.suzy.halted = true := by
  obtain ⟨r, u, hr, -, hu, ht⟩ := h
  have hs : s.startsSuzy 0xFC91 old = true := by
    have hlo : lo (0xFC91 : Word) = 0x91 := by decide
    rw [State.startsSuzy, ha, hlo, hb]; rfl
  rw [if_pos hs] at ht
  have hback : (r.busRead 0xFC91).2.backingOf 0xFC91 = .suzy := by
    rw [(State.busRead_kept r 0xFC91).backingOf, hr.backingOf, ha]
  refine ⟨ht.2, ?_⟩
  have hgo : u.suzy = (r.busRead 0xFC91).2.suzy.writeReg 0x91 old := by
    rw [hu.suzy, if_pos hback]; rfl
  rw [ht.1.suzy, hgo]
  simp [Suzy.writeReg, Suzy.writeSprgo, hb]

/-- The second store, made once the CPU is released. -/
theorem State.OwesWrite.step {t : State} {w : Work} {a : Word} {new : Byte} {k : Cpu} {n : Nat}
    (h : t.OwesWrite w k a new n) (hs : t.settled = true) (hh : t.suzy.halted = false)
    (ht : t.io.tick < Config.tickLimit) (hw : Ram.wf t.ram = true) :
    ∃ u, step t = .next u ∧ t.Stored a new u ∧ u.Ended k := by
  obtain ⟨start, log, hp, hafter⟩ := h
  have hst : t.Stored a new (t.busWrite a new) := State.busWrite_stored hw a new
  refine ⟨_, step_work ht hs hh hp, ?_⟩
  rw [resumeWork, hafter, Prog.runFrom_write]
  simp only [Prog.isDone, Bool.not_true, Bool.and_false, Bool.false_eq_true, if_false, Prog.runFrom_done]
  exact ⟨hst.thenQuiet ((State.quiet_cpu _ _).trans (State.ended_quiet _ _)) hst.canonical, ⟨rfl, rfl⟩⟩

/-- Settles O29. -/
theorem modifyEndsInMemory : Obligations.ModifyEndsInMemory :=
  ⟨fun _ _ _ _ _ _ _ _ h => ⟨h.ram, fun ha hback hb => by subst ha; exact h.sprgo hback hb⟩,
    fun _ _ _ _ _ _ h hs hh ht hw => h.step hs hh ht hw⟩

/-! ### Bit instructions -/

/-- RMBn and SMBn by their number and the bit's new value. -/
theorem bitModifies_prog : ∀ x ∈ bitModifies, ∀ (zp : Byte) (k : Cpu),
    instrProg (x.2.2 zp) k =
      modifyMem (fun m => if x.2.1 then m ||| bitMask x.1 else m &&& ~~~(bitMask x.1)) (fun _ q => q) (.zp zp) k := by
  simp only [bitModifies, List.forall_mem_cons]
  exact ⟨fun _ _ => rfl, fun _ _ => rfl, fun _ _ => rfl, fun _ _ => rfl, fun _ _ => rfl, fun _ _ => rfl, fun _ _ => rfl,
    fun _ _ => rfl, fun _ _ => rfl, fun _ _ => rfl, fun _ _ => rfl, fun _ _ => rfl, fun _ _ => rfl, fun _ _ => rfl,
    fun _ _ => rfl, fun _ _ => rfl, fun _ h => nomatch h⟩

/-- BBRn and BBSn by their number and the value branched on. -/
theorem bitBranches_prog : ∀ x ∈ bitBranches, ∀ (zp rel : Byte) (k : Cpu),
    instrProg (x.2.2 zp rel) k = branchOnBit x.1 x.2.1 zp k := by
  simp only [bitBranches, List.forall_mem_cons]
  exact ⟨fun _ _ _ => rfl, fun _ _ _ => rfl, fun _ _ _ => rfl, fun _ _ _ => rfl, fun _ _ _ => rfl, fun _ _ _ => rfl,
    fun _ _ _ => rfl, fun _ _ _ => rfl, fun _ _ _ => rfl, fun _ _ _ => rfl, fun _ _ _ => rfl, fun _ _ _ => rfl,
    fun _ _ _ => rfl, fun _ _ _ => rfl, fun _ _ _ => rfl, fun _ _ _ => rfl, fun _ h => nomatch h⟩

/-- One bit of a byte set or reset. -/
theorem bit_modified (n : Nat) (set : Bool) (m : Byte) {k : Nat} (hk : k < 8) :
    bit (if set then m ||| bitMask n else m &&& ~~~(bitMask n)) k = if k = n then set else bit m k := by
  have hm := bit_mask n k hk
  cases set
  · have hnot : bit (~~~(bitMask n)) k = !(bit (bitMask n) k) := by simp [bit, hk]
    rw [if_neg Bool.false_ne_true, bit_and, hnot, hm]
    by_cases h : k = n <;> simp [h]
  · rw [if_pos rfl, bit_or, hm]
    by_cases h : k = n <;> simp [h]

/-- Settles O37. -/
theorem bitInstructions : Obligations.BitInstructions := by
  refine ⟨fun x hx zp s hw => ?_, fun x hx zp rel s => ?_⟩
  · obtain ⟨t, old, he, hmod, -⟩ := exec_modifyMem (m := .zp zp) hw (bitModifies_prog x hx zp s.cpu)
    exact ⟨t, old, _, he, hmod, fun k hk => bit_modified x.1 x.2.1 old hk⟩
  · obtain ⟨u, hu, hkept, hplain, hend⟩ :=
      branchOnBit_spec (.instr (x.2.2 zp rel)) (p := instrProg (x.2.2 zp rel)) s (bitBranches_prog x hx zp rel s.cpu)
    exact ⟨u, _, exec_eq _ _, hu, hkept, hplain, hend⟩

end Sys2Proof.Machine
end

section
/-! PROOFS. Decimal addition and subtraction (42_arithmetic_compare.md R170, R172, R175). -/

namespace Sys2Proof.Machine

/-! ### Addition -/

/-- The sum of the low digits, corrected to a digit and a carry. -/
def lowDigitSum (a m : Byte) (c : Bool) : Nat :=
  let low := a.toNat % 16 + m.toNat % 16 + c.toNat
  if 10 ≤ low then (low + 6) % 16 + 16 else low

theorem addDecIntermediate_eq (a m : Byte) (c : Bool) :
    addDecIntermediate a m c = 16 * (a.toNat / 16) + 16 * (m.toNat / 16) + lowDigitSum a m c := by
  simp only [addDecIntermediate, lowDigitSum, carry_eq_toNat]
  split <;> omega

/-- The intermediate sum with its high digit corrected. -/
def correctedSum (t : Nat) : Nat := if 0xA0 ≤ t then t + 0x60 else t

theorem addDecWith_r_toNat (rule : DecimalV) (a m : Byte) (c : Bool) :
    (addDecWith rule a m c).r.toNat = correctedSum (addDecIntermediate a m c) % 256 := BitVec.toNat_ofNat _ _

theorem addDecWith_c (rule : DecimalV) (a m : Byte) (c : Bool) :
    (addDecWith rule a m c).c = decide (0x100 ≤ correctedSum (addDecIntermediate a m c)) := rfl

theorem lowDigitSum_bcd {a m : Byte} (c : Bool) (ha : isBcd a) (hm : isBcd m) :
    lowDigitSum a m c = a.toNat % 16 + m.toNat % 16 + c.toNat + if 10 ≤ a.toNat % 16 + m.toNat % 16 + c.toNat then 6 else 0 := by
  have hcarry := c.toNat_le
  obtain ⟨-, ha0⟩ := ha
  obtain ⟨-, hm0⟩ := hm
  rw [lowDigitSum]
  split <;> omega

/-- On two decimal digits each, addition modulo 100: the high digit is corrected exactly when the sum is at least 100. -/
theorem addDec_bcd {a m : Byte} (c : Bool) (ha : isBcd a) (hm : isBcd m) :
    isBcd (addDec a m c).r ∧ bcdValue (addDec a m c).r = (bcdValue a + bcdValue m + c.toNat) % 100 ∧
      (addDec a m c).c = decide (bcdValue a + bcdValue m + c.toNat ≥ 100) := by
  have hr : (addDec a m c).r.toNat = _ := addDecWith_r_toNat _ a m c
  have hc : (addDec a m c).c = _ := addDecWith_c _ a m c
  have hcarry := c.toNat_le
  have hlow := lowDigitSum_bcd c ha hm
  obtain ⟨ha1, ha0⟩ := ha
  obtain ⟨hm1, hm0⟩ := hm
  rw [hc, decide_eq_decide]
  simp only [isBcd, bcdValue]
  rw [addDecIntermediate_eq] at hr ⊢
  generalize lowDigitSum a m c = l at *
  generalize (addDec a m c).r.toNat = r at *
  generalize hd : a.toNat / 16 * 10 + a.toNat % 16 + (m.toNat / 16 * 10 + m.toNat % 16) + c.toNat = d
  rw [correctedSum] at hr ⊢
  split at hr
  · next hcorr =>
    rw [if_pos hcorr]
    have hr' : r = 16 * (a.toNat / 16) + 16 * (m.toNat / 16) + l + 0x60 - 256 := by split at hlow <;> omega
    have hd100 : d % 100 = d - 100 := by split at hlow <;> omega
    rw [hd100]
    split at hlow <;> omega
  · next hcorr =>
    rw [if_neg hcorr]
    have hr' : r = 16 * (a.toNat / 16) + 16 * (m.toNat / 16) + l := by omega
    have hd100 : d % 100 = d := by split at hlow <;> omega
    rw [hd100]
    split at hlow <;> omega

/-! ### Subtraction -/

/-- The difference with a borrow, less 6 for each digit that borrowed. -/
def correctedDifference (a m : Byte) (c : Bool) : Int :=
  (a.toNat : Int) - m.toNat - (1 - c.toNat) - (if (a.toNat : Int) - m.toNat - (1 - c.toNat) < 0 then 0x60 else 0) -
    (if ((a.toNat % 16 : Nat) : Int) - (m.toNat % 16 : Nat) - (1 - c.toNat) < 0 then 0x06 else 0)

theorem subDec_r_toNat (a m : Byte) (c : Bool) : ((subDec a m c).r.toNat : Int) = correctedDifference a m c % 256 := by
  have h : (subDec a m c).r = u8 (correctedDifference a m c) := by
    simp only [subDec, aluResult, correctedDifference, carry_eq_toNat]
    congr 1
    split <;> split <;> omega
  rw [h, u8, BitVec.toNat_ofInt]
  omega

/-- On two decimal digits each, subtraction modulo 100: both differences are negative, or neither is. -/
theorem subDec_bcd {a m : Byte} (c : Bool) (ha : isBcd a) (hm : isBcd m) :
    isBcd (subDec a m c).r ∧
      (bcdValue (subDec a m c).r : Int) = ((bcdValue a : Int) - bcdValue m - (1 - c.toNat)) % 100 := by
  have hr := subDec_r_toNat a m c
  have hcarry := c.toNat_le
  obtain ⟨ha1, ha0⟩ := ha
  obtain ⟨hm1, hm0⟩ := hm
  simp only [isBcd, bcdValue]
  generalize hd : ((a.toNat / 16 * 10 + a.toNat % 16 : Nat) : Int) - (m.toNat / 16 * 10 + m.toNat % 16 : Nat) - (1 - c.toNat) = d
  rw [correctedDifference] at hr
  generalize (subDec a m c).r.toNat = r at *
  split at hr
  · next hneg =>
    have hd100 : d % 100 = d + 100 := by omega
    rw [hd100]
    split at hr
    · have hr' : (r : Int) = (a.toNat : Int) - m.toNat - (1 - c.toNat) - 0x60 - 0x06 + 256 := by omega
      omega
    · have hr' : (r : Int) = (a.toNat : Int) - m.toNat - (1 - c.toNat) - 0x60 + 256 := by omega
      omega
  · next hpos =>
    have hd100 : d % 100 = d := by omega
    rw [hd100]
    split at hr
    · have hr' : (r : Int) = (a.toNat : Int) - m.toNat - (1 - c.toNat) - 0x06 := by omega
      omega
    · have hr' : (r : Int) = (a.toNat : Int) - m.toNat - (1 - c.toNat) := by omega
      omega

/-- Settles O21. -/
theorem decimalArithmetic : Obligations.DecimalArithmetic := by
  intro a m c
  refine ⟨⟨fun rule => ⟨?_, ?_⟩, ?_, rfl, rfl⟩, ⟨rfl, rfl, addDec_bcd c⟩, rfl, rfl, rfl, rfl, subDec_bcd c⟩
  · rw [addDecWith_r_toNat, addDecIntermediate_eq]; rfl
  · rw [addDecWith_c, addDecIntermediate_eq]; rfl
  · show addOverflow a m (BitVec.ofNat 8 (addDecIntermediate a m c)) = _
    rw [addDecIntermediate_eq, addOverflow, bit_seven_eq_mask]
    rfl

end Sys2Proof.Machine
end

section
/-! PROOFS. Branches, jumps, calls and returns, BRK and the reserved opcodes (45_branch_jump.md R210 to R222;
46_flag_system.md R239, R240; 48_reserved_nop.md). -/

namespace Sys2Proof.Machine

/-! ### Branches -/

/-- A branch whose condition is said as `cond`. -/
theorem exec_branch {i : Instr} {s : State} {c cond : Bool} {rel : Byte} (hp : instrProg i s.cpu = branchTo c rel 0 s.cpu)
    (hc : c = cond) :
    ∃ t, exec i s = .next t ∧ s.Quiet t ∧
      t.Ended { s.cpu with pc := if cond then BitVec.ofInt 16 ((s.cpu.pc.toNat : Int) + rel.toInt) else s.cpu.pc } := by
  obtain ⟨hend, hquiet⟩ := branchTo_spec (.instr i) s hp
  exact ⟨_, exec_eq i s, hquiet, hc ▸ hend⟩

/-- Settles O30. -/
theorem branches : Obligations.Branches := fun _ s =>
  ⟨exec_branch rfl (beq_false s.cpu.c).symm, exec_branch rfl (beq_true s.cpu.c).symm, exec_branch rfl (beq_true s.cpu.z).symm,
    exec_branch rfl (beq_false s.cpu.z).symm, exec_branch rfl (beq_true s.cpu.n).symm,
    exec_branch rfl (beq_false s.cpu.n).symm, exec_branch rfl (beq_false s.cpu.v).symm,
    exec_branch rfl (beq_true s.cpu.v).symm, exec_branch rfl rfl⟩

/-! ### Programs whose writes cannot start Suzy -/

/-- Such an instruction ends with the registers of its program's end, and only time passes after its last access. -/
theorem exec_calm {i : Instr} {s u : State} {f : Finish} (hc : (instrProg i s.cpu).Calm)
    (he : (instrProg i s.cpu).eval s = (f, u)) : ∃ t, exec i s = .next t ∧ t.Ended f.cpu ∧ u.Quiet t := by
  refine ⟨_, exec_eq i s, ?_⟩
  rw [hc.perform, he]
  exact ⟨⟨rfl, rfl⟩, State.ended_quiet _ _⟩

/-! ### Jumps -/

/-- The two reads of a pointer (R12). -/
theorem read16_eval (a : Word) (s : State) :
    (read16 a s.cpu).eval s =
      (join ((s.busRead a).2.busRead (a + 1)).1 (s.busRead a).1, ((s.busRead a).2.busRead (a + 1)).2.withCpu s.cpu) := by
  simp [read16, memRead]

/-- A jump through the pointer at `p`. -/
theorem exec_jmp_pointer {target : JmpTarget} {p : Word} {s : State} (h : jumpTarget target s.cpu = read16 p s.cpu) :
    ∃ w t, exec (.jmp target) s = .next t ∧ w = (s.busRead p).2 ∧
      t.Ended { s.cpu with pc := join (w.busRead (p + 1)).1 (s.busRead p).1 } ∧ w.Kept (w.cartAfterRead (p + 1)) t ∧
      (s.plain p = true → s.plain (p + 1) = true →
        s.Quiet t ∧ t.cpu = { s.cpu with pc := join (s.peek (p + 1)) (s.peek p) }) := by
  have hcalm : (instrProg (.jmp target) s.cpu).Calm := (jumpTarget_calm target s.cpu).bind fun _ => implied_calm _ _
  have heval : (instrProg (.jmp target) s.cpu).eval s =
      ({ cpu := { s.cpu with pc := ((read16 p s.cpu).eval s).1 }, idle := jumpIdle target }, ((read16 p s.cpu).eval s).2) := by
    show ((jumpTarget target s.cpu).bind _).eval s = _
    rw [Prog.eval_bind, h]
    rfl
  obtain ⟨t, he, hend, hquiet⟩ := exec_calm hcalm heval
  refine ⟨_, t, he, rfl, ?_, ?_, fun hp hp1 => ?_⟩
  · rw [read16_eval] at hend
    exact hend
  · rw [read16_eval] at hquiet
    exact ((State.busRead_kept _ _).thenQuiet (State.quiet_cpu _ _)).thenQuiet hquiet
  · obtain ⟨hword, hq⟩ := read16_spec s.cpu hp hp1
    rw [hword] at hend
    exact ⟨hq.trans hquiet, hend.cpu⟩

/-- Settles O31. -/
theorem jumps : Obligations.Jumps := by
  refine fun a16 s => ⟨exec_implied rfl, fun p target h => ?_⟩
  rcases h with ⟨rfl, rfl⟩ | ⟨rfl, rfl⟩
  · exact exec_jmp_pointer rfl
  · have hp : a16 + zext s.cpu.x = BitVec.ofNat 16 (a16.toNat + s.cpu.x.toNat) := by
      apply BitVec.eq_of_toNat_eq
      rw [add_zext_toNat, BitVec.toNat_ofNat]
    exact exec_jmp_pointer (hp ▸ rfl)

/-! ### Calls and returns -/

/-- The two pushes of a word, the high byte first (R66). -/
theorem pushWord_eval (w : Word) {s : State} (hw : Ram.wf s.ram = true) :
    ∃ p q, (pushWord w s.cpu).eval s = ({ s.cpu with sp := s.cpu.sp - 2 }, q) ∧
      s.Stored (stackAddr s.cpu.sp) (hi w) p ∧ p.Stored (stackAddr (s.cpu.sp - 1)) (lo w) q := by
  have hp := State.busWrite_stored hw (stackAddr s.cpu.sp) (hi w)
  have hq := State.busWrite_stored hp.canonical (stackAddr (s.cpu.sp - 1)) (lo w)
  refine ⟨_, _, ?_, hp, hq.thenQuiet (State.quiet_cpu _ { s.cpu with sp := s.cpu.sp - 1 }) hq.canonical⟩
  have h2 : s.cpu.sp - 1 - 1 = s.cpu.sp - 2 := sp_sub _
  simp only [pushWord, push, memWrite, Prog.write_bind, Prog.eval_write, Prog.done_bind, Prog.eval_done, h2,
    State.busWrite_withCpu, State.withCpu_withCpu]
  rfl

/-- A store on the stack leaves what backs an address. -/
theorem State.Stored.stack_backingOf {s t : State} {b v : Byte} (h : s.Stored (stackAddr b) v t) (a : Word) :
    t.backingOf a = s.backingOf a := by
  rw [State.backingOf, (h.low (stackAddr_low b)).2.1]; rfl

/-- JSR: two stores on the stack, the read of its third byte, and time. -/
theorem exec_jsr (target : Word) {s : State} (hw : Ram.wf s.ram = true) :
    ∃ p q t, exec (.jsr target) s = .next t ∧
      s.Stored (stackAddr s.cpu.sp) (hi s.cpu.pc) p ∧ p.Stored (stackAddr (s.cpu.sp - 1)) (lo s.cpu.pc) q ∧
      t.Ended { s.cpu with sp := s.cpu.sp - 2, pc := join (q.busRead s.cpu.pc).1 (lo target) } ∧
      q.Kept (q.cartAfterRead s.cpu.pc) t ∧
      (s.plain s.cpu.pc = true → t.cpu.pc = join (q.peek s.cpu.pc) (lo target)) := by
  obtain ⟨p, q, hpush, hp, hq⟩ := pushWord_eval s.cpu.pc hw
  have heval : (instrProg (.jsr target) s.cpu).eval s =
      ({ cpu := { s.cpu with sp := s.cpu.sp - 2, pc := join (q.busRead s.cpu.pc).1 (lo target) }, idle := 1 },
        (q.busRead s.cpu.pc).2.withCpu { s.cpu with sp := s.cpu.sp - 2 }) := by
    show ((pushWord s.cpu.pc s.cpu).bind _).eval s = _
    rw [Prog.eval_bind, hpush]
    simp [memRead, implied]
  obtain ⟨t, he, hend, hquiet⟩ := exec_calm (i := .jsr target) (callWith_calm (lo target) s.cpu) heval
  refine ⟨p, q, t, he, hp, hq, hend,
    ((State.busRead_kept q _).thenQuiet (State.quiet_cpu _ _)).thenQuiet hquiet, fun hplain => ?_⟩
  have hqplain : q.plain s.cpu.pc = true := by
    rw [State.plain, hq.stack_backingOf, hp.stack_backingOf]; exact hplain
  rw [hend.cpu, State.busRead_plain hqplain]

/-- RTS: two pulls, and one more than the word pulled. -/
theorem exec_rts (s : State) :
    ∃ t, exec .rts s = .next t ∧ s.Quiet t ∧
      t.Ended
        { s.cpu with
          sp := s.cpu.sp + 2
          pc := join (s.ramAt (stackAddr (s.cpu.sp + 2))) (s.ramAt (stackAddr (s.cpu.sp + 1))) + 1 } := by
  obtain ⟨u, hpull, hu⟩ := pullWord_eval s.cpu s
  have heval : (instrProg .rts s.cpu).eval s =
      ({ cpu :=
          { s.cpu with
            sp := s.cpu.sp + 2
            pc := join (s.ramAt (stackAddr (s.cpu.sp + 2))) (s.ramAt (stackAddr (s.cpu.sp + 1))) + 1 }
         idle := 3 }, u) := by
    show ((pullWord s.cpu).bind _).eval s = _
    rw [Prog.eval_bind, hpull]
    rfl
  obtain ⟨t, he, hend, hquiet⟩ := exec_calm (i := .rts) ((pullWord_calm s.cpu).bind fun _ => implied_calm _ _) heval
  exact ⟨t, he, hu.trans hquiet, hend⟩

/-- Settles O32. -/
theorem callAndReturn : Obligations.CallAndReturn := fun target s => ⟨fun hw => exec_jsr target hw, exec_rts s⟩

/-! ### BRK and the returns -/

/-- BRK is the trap entry behind its signature byte, which is skipped (R313). -/
theorem exec_brk (sig : Byte) {s : State} (hw : Ram.wf s.ram = true) :
    ∃ t, exec (.brk sig) s = .next t ∧ s.Entered s.cpu (s.cpu.pc + 1) true 0xFFFE t := by
  obtain ⟨h, -⟩ := trapEntry_spec (.instr (.brk sig)) (p := progBrk sig) (vec := Config.vecIrq) (b := true) (n := 1)
    (k := { s.cpu with pc := s.cpu.pc + 1 }) hw (by decide) (by decide) rfl
  exact ⟨_, rfl, h.ended, h.high, h.low, h.status, h.others, h.mapctl, h.rom, h.suzy, h.inputs, h.cart, h.io⟩

/-- Settles O34. -/
theorem breakEntersTrap : Obligations.Break := fun sig _ hw => exec_brk sig hw

/-- RTS after JSR. -/
theorem rts_after_jsr (target : Word) {s : State} (hw : Ram.wf s.ram = true) :
    ∃ t u, exec (.jsr target) s = .next t ∧ exec .rts t = .next u ∧ u.Ended { s.cpu with pc := s.cpu.pc + 1 } := by
  obtain ⟨p, q, t, he, hp, hq, hend, hkept, -⟩ := exec_jsr target hw
  obtain ⟨u, he', -, hend'⟩ := exec_rts t
  refine ⟨t, u, he, he', ?_⟩
  have h2 : s.cpu.sp - 2 + 2 = s.cpu.sp := BitVec.sub_add_cancel _ _
  have h1 : s.cpu.sp - 2 + 1 = s.cpu.sp - 1 := by rw [← sp_sub, BitVec.sub_add_cancel]
  have hhigh : t.ramAt (stackAddr s.cpu.sp) = hi s.cpu.pc := by
    rw [hkept.ram, hq.others _ (stackAddr_ne (sp_ne1 _)), (hp.low (stackAddr_low _)).1]
  have hlow : t.ramAt (stackAddr (s.cpu.sp - 1)) = lo s.cpu.pc := by
    rw [hkept.ram, (hq.low (stackAddr_low _)).1]
  simp only [hend.cpu, h2, h1, hhigh, hlow, join_hi_lo] at hend'
  exact hend'

/-- RTI after BRK. -/
theorem rti_after_brk (sig : Byte) {s : State} (hw : Ram.wf s.ram = true) :
    ∃ t u, exec (.brk sig) s = .next t ∧ exec .rti t = .next u ∧ u.Ended { s.cpu with pc := s.cpu.pc + 1 } := by
  obtain ⟨t, he, h⟩ := exec_brk sig hw
  obtain ⟨u, he', -, hend⟩ := returnFromInterrupt t
  refine ⟨t, u, he, he', ?_⟩
  have h3 : s.cpu.sp - 3 + 3 = s.cpu.sp := BitVec.sub_add_cancel _ _
  have h2 : s.cpu.sp - 3 + 2 = s.cpu.sp - 1 := by bv_omega
  have h1 : s.cpu.sp - 3 + 1 = s.cpu.sp - 2 := by rw [← sp_sub3, BitVec.sub_add_cancel]
  obtain ⟨hn, hv, -, -, hd, hi', hz, hc⟩ := s.cpu.status_bit true
  simp only [h.ended.cpu, h3, h2, h1, h.high, h.low, h.status, join_hi_lo, hn, hv, hd, hi', hz, hc] at hend
  exact hend

/-- Settles O33. -/
theorem returnsRestore : Obligations.ReturnsRestore := fun target sig _ hw =>
  ⟨rts_after_jsr target hw, rti_after_brk sig hw⟩

/-! ### Reserved opcodes -/

/-- Settles O38: the program of each is its idle cycles. -/
theorem reservedOpcodes : Obligations.ReservedOpcodes := by
  intro row row3 col d8 a16 s i k hmem
  have hp : instrProg i s.cpu = implied s.cpu k := by
    simp only [List.mem_cons, Prod.mk.injEq, List.not_mem_nil, or_false] at hmem
    rcases hmem with ⟨rfl, rfl⟩ | ⟨rfl, rfl⟩ | ⟨rfl, rfl⟩ | ⟨rfl, rfl⟩ | ⟨rfl, rfl⟩ | ⟨rfl, rfl⟩ | ⟨rfl, rfl⟩ |
      ⟨rfl, rfl⟩ | ⟨rfl, rfl⟩ <;> rfl
  obtain ⟨hend, hquiet, hidle⟩ := implied_spec (.instr i) s hp
  exact ⟨_, exec_eq i s, hquiet, hend, hidle⟩

end Sys2Proof.Machine
end

section
/-! PROOFS. A step at a fetch boundary: the interrupts, the instruction at PC, the waiting and the stopped CPU; and what no step
can do (60_exceptions.md R301 to R312; 46_flag_system.md R243, R244; 64_bus_scheduler.md R474). -/

namespace Sys2Proof.Machine

/-! ### The poll -/

theorem poll_run (s : State) : s.poll = .run ↔ s.nmiDue = false ∧ s.irqDue = false := by
  unfold State.poll; split
  · simp [*]
  · split <;> simp_all

/-- Only the registers differ between a state and the one in which its polled interrupts are consumed. -/
theorem State.afterPoll_wake_quiet (s : State) : s.Quiet s.afterPoll.wake := s.quiet_cpu _

/-- A trap entered from a state that differs in its registers only. -/
theorem State.Entered.ofCpu {s t : State} {c k : Cpu} {ret : Word} {b : Bool} {vec : Word}
    (h : ({ s with cpu := c } : State).Entered k ret b vec t) : s.Entered k ret b vec t :=
  ⟨h.ended, h.high, h.low, h.status, h.others, h.mapctl, h.rom, h.suzy, h.inputs, h.cart, h.io⟩

/-- The entry of an interrupt at a fetch boundary. -/
theorem enters_interrupt {w : Work} {p : Cpu → Prog Finish} {vec : Word} {s : State}
    (hp : ∀ k, p k = trapEntry vec false 2 k) (hv : 0xFFFA ≤ vec.toNat) (hv2 : vec.toNat < 0xFFFF)
    (hw : Ram.wf s.ram = true) :
    s.Entered s.afterPoll.wake.cpu s.cpu.pc false vec (perform w p s.afterPoll.wake) :=
  State.Entered.ofCpu (s := s) (c := s.afterPoll.wake.cpu) (trapEntry_spec w (s := s.afterPoll.wake) hw hv hv2 (hp _)).1

theorem step_irq {s : State} (hr : s.Ready) (hw : Ram.wf s.ram = true) (hp : s.poll = .irq) :
    ∃ t, step s = .next t ∧
      s.Entered { s.cpu with nmiPrev := s.inputs.nmiLine, irqLatch := false, nmiLatch := false, waiting := false }
        s.cpu.pc false 0xFFFE t := by
  obtain ⟨hn, -⟩ := (poll_irq s).1 hp
  have h := enters_interrupt (w := .irq) (p := irqEntry) (s := s) (fun _ => rfl) (by decide) (by decide) hw
  rw [State.wake_cpu, State.afterPoll_cpu, hn, Bool.false_and] at h
  exact ⟨_, hr.step_eq.trans (cpuStep_irq hp), h⟩

/-- An NMI's level is remembered by its poll, so that it is not due again. -/
theorem State.Entered.nmi_once {s t : State} {k : Cpu} {ret : Word} {b : Bool} {vec : Word} (h : s.Entered k ret b vec t)
    (hl : k.nmiLatch = false) (hp : k.nmiPrev = s.inputs.nmiLine) : t.poll ≠ .nmi := by
  rw [Ne, poll_nmi, State.nmiDue, h.inputs, h.ended.cpu]
  simp [hl, hp]

theorem step_nmi {s : State} (hr : s.Ready) (hw : Ram.wf s.ram = true) (hp : s.poll = .nmi) :
    ∃ t, step s = .next t ∧ t.poll ≠ .nmi ∧
      s.Entered
        { s.cpu with
          nmiPrev := s.inputs.nmiLine, irqLatch := s.irqLine && !s.cpu.i, nmiLatch := false, waiting := false }
        s.cpu.pc false 0xFFFA t := by
  have h := enters_interrupt (w := .nmi) (p := nmiEntry) (s := s) (fun _ => rfl) (by decide) (by decide) hw
  rw [State.wake_cpu, State.afterPoll_cpu, (poll_nmi s).1 hp, Bool.true_and, State.irqDue, Bool.and_comm] at h
  exact ⟨_, hr.step_eq.trans (cpuStep_nmi hp), h.nmi_once rfl rfl, h⟩

/-- Settles O36. -/
theorem interruptEntry : Obligations.InterruptEntry := by
  refine fun s => ⟨?_, fun hi hp => ?_, ?_, step_irq, step_nmi⟩
  · rw [poll_irq, State.nmiDue, State.irqDue]
    simp only [Bool.and_eq_true, Bool.not_eq_true', Bool.or_eq_false_iff, Bool.and_eq_false_iff, Bool.not_eq_false']
    tauto
  · have := ((poll_irq s).1 hp).2
    simp [State.irqDue, hi] at this
  · rw [poll_nmi, State.nmiDue]
    simp

/-! ### The instruction at PC -/

theorem step_instr {s : State} (hr : s.Ready) (hk : s.keepsWaiting = false) (hp : s.poll = .run) :
    step s = exec (fetchInstr s.afterPoll.wake).1 (fetchInstr s.afterPoll.wake).2 :=
  hr.step_eq.trans (cpuStep_runs hp hk)

/-- Settles O6. -/
theorem stepRunsTheDecodedInstruction : Obligations.StepRunsTheDecodedInstruction := by
  intro s hr hw hp
  have e := step_instr hr (by rw [State.keepsWaiting, hw, Bool.false_and]) hp
  refine ⟨e, fun i rest hd hplain => ?_⟩
  obtain ⟨hi, hq, hc⟩ := fetchInstr_spec (s := s.afterPoll.wake) hd hplain
  refine ⟨_, e.trans (hi _), s.afterPoll_wake_quiet.trans hq, hc.trans ?_⟩
  rw [State.wake_cpu, State.afterPoll_cpu, ((poll_run s).1 hp).1, Bool.false_and]

/-! ### WAI and STP -/

/-- A fetch changes PC only. -/
theorem fetchProg_cpu (k : Cpu) (s : State) : ∃ pc, ((fetchProg k).eval s).1.cpu = { k with pc := pc } := by
  unfold fetchProg
  rw [Prog.eval_bind]
  split <;> exact ⟨_, rfl⟩

theorem fetchInstr_waiting (s : State) : (fetchInstr s).2.cpu.waiting = s.cpu.waiting := by
  obtain ⟨pc, h⟩ := fetchProg_cpu s.cpu s
  show ((fetchProg s.cpu).eval s).1.cpu.waiting = _
  rw [h]

/-- An instruction without an access of its own, under the program `p`. -/
theorem perform_implied (w : Work) {p : Cpu → Prog Finish} (s : State) {k : Cpu} {n : Nat} (hp : p s.cpu = implied k n) :
    s.Quiet (perform w p s) ∧ (perform w p s).Ended k := by
  obtain ⟨hend, hquiet, -⟩ := implied_spec w s hp
  exact ⟨hquiet, hend⟩

/-- Settles O39. -/
theorem waitAndStop : Obligations.WaitAndStop := by
  refine fun s => ⟨perform_implied _ s rfl, perform_implied _ s rfl, fun hr hw hp hl => ?_, fun hr _ hp hl => ?_,
    fun ht hs hh hp hc => ?_⟩
  · have hk : s.keepsWaiting = true := by rw [State.keepsWaiting, hw, hl]; rfl
    exact ⟨_, hr.step_eq.trans (cpuStep_waits hp hk),
      (s.quiet_cpu s.afterPoll.cpu).trans ((State.postpone_quiet _).trans (State.settle_quiet _)), rfl, hr.pipe⟩
  · have hk : s.keepsWaiting = false := by rw [State.keepsWaiting, hl, Bool.not_true, Bool.and_false]
    exact ⟨step_instr hr hk hp, fetchInstr_waiting _⟩
  · exact ⟨_, step_stopped ht hs hh hp hc, s.postpone_quiet.trans (State.settle_quiet _), rfl, hp⟩

/-! ### What no step can do -/

/-- From `s` to `t` time did not run backwards, and neither the boot ROM, the cartridge's banks nor the host's inputs changed. -/
structure State.Safe (s t : State) : Prop where
  tick : s.io.tick ≤ t.io.tick
  rom : t.rom = s.rom
  inputs : t.inputs = s.inputs
  banks : t.cart.bank0 = s.cart.bank0 ∧ t.cart.bank1 = s.cart.bank1 ∧ t.cart.bank0A = s.cart.bank0A ∧
    t.cart.bank1A = s.cart.bank1A

theorem State.Safe.trans {s t u : State} (h : s.Safe t) (g : t.Safe u) : s.Safe u := by
  obtain ⟨h0, h1, h2, h3⟩ := h.banks
  obtain ⟨g0, g1, g2, g3⟩ := g.banks
  exact ⟨h.tick.trans g.tick, g.rom.trans h.rom, g.inputs.trans h.inputs, g0.trans h0, g1.trans h1, g2.trans h2, g3.trans h3⟩

theorem State.Kept.safe {s t : State} (h : s.Quiet t) : s.Safe t :=
  ⟨h.io.tick, h.rom, h.inputs, by rw [h.cart]; exact ⟨rfl, rfl, rfl, rfl⟩⟩

theorem State.safe_settle (s : State) : s.Safe s.settle := s.settle_quiet.safe

theorem State.safe_withCpu (s : State) (k : Cpu) : s.Safe (s.withCpu k) := (s.quiet_cpu k).safe

theorem State.safe_ended (f : Finish) (s : State) : s.Safe (s.ended f).settle := (State.ended_quiet f s).safe

theorem Io.writeReg_tick (o : Nat) (v : Byte) (io : Io) : (io.writeReg o v).tick = io.tick := (io.writeReg_queue o v).1

theorem Cart.writeMikeyReg_banks (o : Nat) (v : Byte) (c : Cart) :
    (c.writeMikeyReg o v).bank0 = c.bank0 ∧ (c.writeMikeyReg o v).bank1 = c.bank1 ∧
    (c.writeMikeyReg o v).bank0A = c.bank0A ∧ (c.writeMikeyReg o v).bank1A = c.bank1A := by
  unfold Cart.writeMikeyReg
  split
  · split <;> exact ⟨rfl, rfl, rfl, rfl⟩
  all_goals exact ⟨rfl, rfl, rfl, rfl⟩

theorem State.safe_store (s : State) (a : Word) (v : Byte) : s.Safe (s.store a v) := by
  unfold State.store
  split
  case h_3 =>
    exact ⟨(Io.writeReg_tick _ _ _).ge, rfl, rfl, Cart.writeMikeyReg_banks _ _ _⟩
  all_goals exact ⟨Nat.le_refl _, rfl, rfl, rfl, rfl, rfl, rfl⟩

theorem State.safe_busRead (s : State) (a : Word) : s.Safe (s.busRead a).2 := by
  have h := s.busRead_kept a
  refine ⟨h.io.tick, h.rom, h.inputs, ?_⟩
  rw [h.cart]
  unfold State.cartAfterRead
  split <;> exact ⟨rfl, rfl, rfl, rfl⟩

theorem State.safe_busWrite (s : State) (a : Word) (v : Byte) : s.Safe (s.busWrite a v) :=
  (s.charge_quiet a).safe.trans (((s.charge a).safe_store a v).trans (State.safe_settle _))

theorem Prog.eval_safe {α : Type} (p : Prog α) (s : State) : s.Safe (p.eval s).2 := by
  induction p generalizing s with
  | done a => exact (State.Kept.refl s).safe
  | read k a next ih => exact ((s.safe_withCpu k).trans (State.safe_busRead _ a)).trans (ih _ _)
  | write k a v next ih => exact ((s.safe_withCpu k).trans (State.safe_busWrite _ a v)).trans (ih _)

theorem Prog.runFrom_safe (w : Work) (start : Cpu) (log : List Byte) (p : Prog Finish) (s : State) :
    s.Safe (Prog.runFrom w start log p s) := by
  induction p generalizing s log with
  | done f => exact s.safe_ended f
  | read k a next ih => exact ((s.safe_withCpu k).trans (State.safe_busRead _ a)).trans (ih _ _ _)
  | write k a v next ih =>
    have h := (s.safe_withCpu k).trans (State.safe_busWrite _ a v)
    unfold Prog.runFrom
    split
    · exact h.trans ⟨Nat.le_refl _, rfl, rfl, rfl, rfl, rfl, rfl⟩
    · exact h.trans (ih _ _)

/-- Suzy's turn, whatever RAM looks like. -/
theorem suzyTurn_frame (s : State) :
    s.suzyTurn.cpu = s.cpu ∧ s.suzyTurn.pipe = s.pipe ∧ s.suzyTurn.mapctl = s.mapctl ∧ s.suzyTurn.rom = s.rom ∧
    s.suzyTurn.cart = s.cart ∧ s.suzyTurn.inputs = s.inputs ∧ s.io.TimePassed s.suzyTurn.io := by
  unfold State.suzyTurn
  split
  · rename_i r _
    cases r <;> exact ⟨rfl, rfl, rfl, rfl, rfl, rfl, Io.masterAccess_timePassed _ _ _ _⟩
  · exact ⟨rfl, rfl, rfl, rfl, rfl, rfl, .refl _⟩

theorem suzyTurn_safe (s : State) : s.Safe s.suzyTurn := by
  obtain ⟨-, -, -, hrom, hcart, hin, hio⟩ := suzyTurn_frame s
  exact ⟨hio.tick, hrom, hin, by rw [hcart]; exact ⟨rfl, rfl, rfl, rfl⟩⟩

theorem exec_safe (i : Instr) (s : State) : ∃ t, exec i s = .next t ∧ s.Safe t :=
  ⟨_, exec_eq i s, Prog.runFrom_safe _ _ _ _ _⟩

theorem fetchRest_safe (p : Prog Fetched) (s : State) : s.Safe (fetchRest p s).2 :=
  (p.eval_safe s).trans (State.safe_withCpu _ _)

/-- A fetched instruction is run. -/
theorem exec_fetched_safe (p : Prog Fetched) (s : State) :
    ∃ t, exec (fetchRest p s).1 (fetchRest p s).2 = .next t ∧ s.Safe t := by
  obtain ⟨t, e, h⟩ := exec_safe (fetchRest p s).1 (fetchRest p s).2
  exact ⟨t, e, (fetchRest_safe p s).trans h⟩

theorem cpuStep_safe (s : State) : ∃ t, cpuStep s = .next t ∧ s.Safe t := by
  have hw : s.Safe s.afterPoll.wake := s.afterPoll_wake_quiet.safe
  cases hp : s.poll with
  | nmi => exact ⟨_, cpuStep_nmi hp, hw.trans (Prog.runFrom_safe _ _ _ _ _)⟩
  | irq => exact ⟨_, cpuStep_irq hp, hw.trans (Prog.runFrom_safe _ _ _ _ _)⟩
  | run =>
    cases hk : s.keepsWaiting with
    | true =>
      exact ⟨_, cpuStep_waits hp hk,
        ((s.quiet_cpu _).trans ((State.postpone_quiet _).trans (State.settle_quiet _))).safe⟩
    | false =>
      obtain ⟨t, e, h⟩ := exec_fetched_safe (fetchProg s.afterPoll.wake.cpu) s.afterPoll.wake
      exact ⟨t, (cpuStep_runs hp hk).trans e, hw.trans h⟩

theorem step_safe {s : State} (ht : s.io.tick < Config.tickLimit) : ∃ t, step s = .next t ∧ s.Safe t := by
  cases hs : s.settled with
  | false => exact ⟨_, step_unsettled ht hs, s.safe_settle⟩
  | true =>
    cases hh : s.suzy.halted with
    | true => exact ⟨_, step_halted ht hs hh, (suzyTurn_safe s).trans (State.safe_settle _)⟩
    | false =>
      cases hp : s.pipe with
      | work w start log => exact ⟨_, step_work ht hs hh hp, Prog.runFrom_safe _ _ _ _ _⟩
      | fetch start log =>
        obtain ⟨t, e, h⟩ := exec_fetched_safe (Prog.after log (fetchProg start)) s
        exact ⟨t, (step_fetch ht hs hh hp).trans e, h⟩
      | atFetch =>
        cases hc : s.cpu.stopped with
        | true => exact ⟨_, step_stopped ht hs hh hp hc, (s.postpone_quiet.trans (State.settle_quiet _)).safe⟩
        | false =>
          obtain ⟨t, e, h⟩ := cpuStep_safe s
          exact ⟨t, (State.Ready.step_eq ⟨ht, hs, ⟨hh, hc⟩, hp⟩).trans e, h⟩

/-- Settles O60. -/
theorem stepAnswersNext : Obligations.StepAnswersNext := by
  refine ⟨fun i s => ⟨_, exec_eq i s⟩, fun s ht => ?_⟩
  obtain ⟨t, e, h⟩ := step_safe ht
  exact ⟨t, e, h.tick, h.rom, h.inputs, h.banks⟩

/-! ### While Suzy holds the CPU -/

/-- The engine works exactly while it holds the CPU. -/
def Suzy.Together (z : Suzy) : Prop := z.halted = z.working

theorem Suzy.Walks.together {z z' : Suzy} (g : z.Walks z') (h : z.Together) : z'.Together :=
  g.halted.trans (h.trans g.working.symm)

theorem Suzy.Stays.together {z z' : Suzy} (g : z.Stays z') (h : z.Together) : z'.Together :=
  g.halted.trans (h.trans g.working.symm)

theorem Suzy.afterDeposit_together {z : Suzy} (h : z.Together) : z.afterDeposit.Together := by
  unfold Suzy.afterDeposit
  split
  · rfl
  · exact h

theorem Suzy.lineHead_together {z : Suzy} (h : z.Together) : z.lineHead.Together := by
  unfold Suzy.lineHead
  simp only
  split
  · exact h
  · split
    · exact (Suzy.endQuadrant_walks _).together h
    · split
      · exact h
      · split <;> exact h

theorem Suzy.collide_together {z : Suzy} (h : z.Together) : z.collide.Together := by
  unfold Suzy.collide
  split
  · exact h
  · split <;> exact h

theorem Suzy.leaveColumn_together {z : Suzy} (h : z.Together) : z.leaveColumn.Together := by
  unfold Suzy.leaveColumn
  split <;> exact h

theorem Suzy.rowMove_together {z : Suzy} (hp : z.phase = .parse) (h : z.Together) : z.rowMove.Together := by
  unfold Suzy.rowMove
  split
  · exact (z.parseMove_stays hp).1.together h
  · split <;> exact h

theorem Suzy.move_together {z : Suzy} (h : z.Together) : z.move.Together := by
  unfold Suzy.move
  split <;> rename_i hp
  case h_1 =>
    unfold Suzy.chainStep
    split
    · rfl
    · exact h
  case h_2 => exact Suzy.lineHead_together h
  case h_3 => exact Suzy.rowMove_together hp h
  case h_4 =>
    split
    · exact Suzy.collide_together h
    · exact h
  case h_5 => split <;> exact Suzy.leaveColumn_together h
  case h_8 => exact (Suzy.nextRow_walks _).together h
  case h_9 => exact Suzy.afterDeposit_together h
  all_goals exact h

theorem Suzy.wrote_together {z : Suzy} (h : z.Together) : z.wrote.Together := by
  unfold Suzy.wrote
  split
  case h_5 => exact Suzy.afterDeposit_together h
  all_goals exact h

theorem Suzy.gotByte_halted (z : Suzy) (b : Byte) : (z.gotByte b).halted = z.halted := by
  unfold Suzy.gotByte
  split
  case h_1 => exact (Suzy.scbByte_walks _ _ _).halted
  case h_2 => exact (Suzy.reloadByte_walks _ _ _).halted
  case h_3 => exact (Suzy.paletteByte_walks _ _ _).halted
  case h_6 => split <;> rfl
  all_goals rfl

/-- Settles O56. -/
theorem haltedCpu : Obligations.HaltedCpu := by
  refine ⟨fun s hh hs ht => ?_, fun z b hw => ?_⟩
  · obtain ⟨hcpu, hpipe, hmap, hrom, hcart, hin, hio⟩ := suzyTurn_frame s
    exact ⟨_, step_halted ht hs hh, hcpu, hpipe, hmap, hrom, hcart, hin, hio.trans (State.settle_quiet _).io,
      fun h => (suzyTurn_ok h.suzy).halted, suzyTurn_suzy s⟩
  · refine ⟨z.move_working hw, z.wrote_working hw, (z.gotByte_working b).trans hw, fun hh => ?_⟩
    have h : z.Together := hh.trans hw.symm
    exact ⟨Suzy.move_together h, Suzy.wrote_together h, (z.gotByte_halted b).trans hh⟩

/-! ### Reset -/

theorem Timer.reset_ok (now : Nat) : Timer.reset.Ok now := fun h => nomatch h

/-- Settles O59. -/
theorem resetInvariant : Obligations.ResetInvariant := by
  refine fun rom cart inputs draw hw hv hc => ⟨hw, ⟨fun k => ?_, fun k => ?_, ?_, nofun, ?_, nofun, ?_, nofun⟩, ?_⟩
  · show ((Vector.replicate 8 Timer.reset)[k]).Ok 0
    rw [Fin.getElem_fin, Vector.getElem_replicate]
    exact Timer.reset_ok 0
  · show ((Vector.replicate 4 Channel.reset)[k]).timer.Ok 0
    rw [Fin.getElem_fin, Vector.getElem_replicate]
    exact Timer.reset_ok 0
  · exact ⟨Nat.zero_le _, Nat.zero_lt_succ 79, rfl, rfl, rfl⟩
  · show 0 < 16 + 15
    decide
  · exact Nat.zero_le _
  · refine ⟨rfl, fun _ => rfl, fun c e => ?_, fun c e => ?_, nofun, nofun, nofun⟩
    · exact nomatch hv.symm.trans e
    · exact nomatch hc.symm.trans e

theorem State.peek_rom {s : State} {a : Word} (h : s.backingOf a = .rom) :
    s.peek a = romByte s.rom (a.toNat - 0xFE00) := by
  unfold State.peek; rw [h]

/-- Settles O5. -/
theorem resetState : Obligations.ResetState := by
  refine fun rom cart inputs draw => ⟨?_, rfl, fun h => by rw [h]; rfl, rfl, rfl, rfl, rfl, rfl, rfl, rfl, rfl, rfl, rfl, rfl,
    rfl, rfl, rfl, rfl, rfl, fun k r => ?_, fun k r => ?_, rfl, ?_, rfl, rfl, rfl, rfl, rfl, rfl, rfl, rfl, rfl, rfl, rfl, rfl,
    rfl, rfl, rfl, rfl, rfl, rfl⟩
  · rw [State.peek_rom (by show backing 0 0xFFFD = .rom; decide), State.peek_rom (by show backing 0 0xFFFC = .rom; decide)]
    rfl
  · show ((Vector.replicate 8 Timer.reset)[k]).readReg r = 0
    rw [Fin.getElem_fin, Vector.getElem_replicate]
    unfold Timer.readReg
    split <;> rfl
  · show ((Vector.replicate 4 Channel.reset)[k]).readReg r = 0
    rw [Fin.getElem_fin, Vector.getElem_replicate]
    unfold Channel.readReg
    split <;> rfl
  · show (((0 : Byte) ||| if Serial.reset.irq then bitMask 4 else 0) != 0) = false
    decide

end Sys2Proof.Machine
end

section
/-! PROOFS. The memory map, what a read and a write of the CPU do, and what an access costs (20_memory.md R60 to R64; 64_bus_scheduler.md
R462, R463). -/

namespace Sys2Proof.Machine

/-! ### The map -/

/-- The map in natural numbers. -/
theorem backing_toNat (m : Byte) (a : Word) :
    backing m a =
      if a.toNat < 0xFC00 then .ram
      else if a.toNat < 0xFD00 then (if bit m 0 then .ram else .suzy)
      else if a.toNat < 0xFE00 then (if bit m 1 then .ram else .mikey)
      else if a.toNat < 0xFFF8 then (if bit m 2 then .ram else .rom)
      else if a.toNat = 0xFFF8 then .ram
      else if a.toNat = 0xFFF9 then .mapctl
      else (if bit m 3 then .ram else .rom) := by
  have h8 : a = 0xFFF8 ↔ a.toNat = 0xFFF8 := BitVec.toNat_inj.symm
  have h9 : a = 0xFFF9 ↔ a.toNat = 0xFFF9 := BitVec.toNat_inj.symm
  simp only [backing, h8, h9]

/-- The boot ROM never lies below $FE00, nor at $FFF8 or $FFF9. -/
theorem backing_rom {m : Byte} {a : Word} (h : backing m a = .rom) :
    0xFE00 ≤ a.toNat ∧ a.toNat ≠ 0xFFF8 ∧ a.toNat ≠ 0xFFF9 := by
  rw [backing_toNat] at h
  split_ifs at h <;> omega

/-- Settles O10. -/
theorem memoryMap : Obligations.MemoryMap := by
  refine fun s a => ⟨fun h => s.backingOf_low (by omega), fun h => ?_, fun h => ?_, fun h => ?_, fun h => ?_, fun h => ?_,
    fun h => ?_, fun h => ?_⟩
  · rw [State.backingOf, backing_toNat, if_neg (by omega), if_pos (by omega)]
  · rw [State.backingOf, backing_toNat, if_neg (by omega), if_neg (by omega), if_pos (by omega)]
  · rw [State.backingOf, backing_toNat, if_neg (by omega), if_neg (by omega), if_neg (by omega), if_pos (by omega)]
  · rw [State.backingOf, backing_toNat, if_neg (by omega), if_neg (by omega), if_neg (by omega), if_neg (by omega), if_pos h]
  · rw [State.backingOf, backing_toNat, if_neg (by omega), if_neg (by omega), if_neg (by omega), if_neg (by omega),
      if_neg (by omega), if_pos h]
  · rw [State.backingOf, backing_toNat, if_neg (by omega), if_neg (by omega), if_neg (by omega), if_neg (by omega),
      if_neg (by omega), if_neg (by omega)]
  · obtain ⟨h1, h2, h3⟩ := backing_rom h
    have := a.isLt
    exact ⟨State.peek_rom h, by omega, by omega, by omega⟩

/-! ### Reads -/

theorem State.plain_of_backing {s : State} {a : Word} {b : Backing} (h : s.backingOf a = b) (hb : b.isReg = false) :
    s.plain a = true := by
  rw [State.plain, h, hb]; rfl

theorem State.peek_ram {s : State} {a : Word} (h : s.backingOf a = .ram) : s.peek a = s.ramAt a := by
  unfold State.peek; rw [h]

theorem State.peek_mapctl {s : State} {a : Word} (h : s.backingOf a = .mapctl) : s.peek a = s.mapctl := by
  unfold State.peek; rw [h]

theorem State.peek_suzy {s : State} {a : Word} (h : s.backingOf a = .suzy) :
    s.peek a = s.suzy.readReg s.cart s.inputs s.io.tick (lo a).toNat := by
  unfold State.peek; rw [h]

theorem State.peek_mikey {s : State} {a : Word} (h : s.backingOf a = .mikey) :
    s.peek a = s.io.readReg s.cart s.inputs.pins (lo a).toNat := by
  unfold State.peek; rw [h]

/-- Without a boot ROM its area reads $FF. -/
theorem romByte_eq (rom : List Byte) (o : Nat) : romByte rom o = if rom = [] then 0xFF else romByte rom o := by
  split
  · next h => rw [h]; rfl
  · rfl

/-- Suzy's register file reads $FF in its holes. -/
theorem Suzy.readReg_hole (z : Suzy) (cart : Cart) (inp : Inputs) (tick : Nat) {o : Nat}
    (h : 0x30 ≤ o ∧ o < 0x52 ∨ 0x70 ≤ o ∧ o < 0x80 ∨ 0x84 ≤ o ∧ o < 0x88 ∨ 0x89 ≤ o ∧ o < 0x90 ∨ 0x93 ≤ o ∧ o < 0xB0 ∨
      0xB4 ≤ o) : z.readReg cart inp tick o = 0xFF := by
  unfold Suzy.readReg
  rw [if_neg (by omega), if_neg (by omega)]
  split
  case h_13 => rfl
  all_goals omega

/-- Mikey's register file reads $FF in its holes. -/
theorem Io.readReg_hole (io : Io) (cart : Cart) (pins : Byte) {o : Nat}
    (h : 0x45 ≤ o ∧ o < 0x50 ∨ 0x51 ≤ o ∧ o < 0x80 ∨ 0x82 ≤ o ∧ o < 0x8A ∨ 0x8E ≤ o ∧ o < 0x94 ∨ 0x96 ≤ o ∧ o < 0xA0 ∨
      0xC0 ≤ o) : io.readReg cart pins o = 0xFF := by
  unfold Io.readReg
  rw [dif_neg (by omega), dif_neg (by omega), dif_neg (by omega), dif_neg (by omega), dif_neg (by omega)]
  split
  case h_11 => rfl
  all_goals omega

/-- What a read changes: SERDAT's full flag or the cartridge's counter. -/
theorem State.readEffect_eq (s : State) (a : Word) :
    s.readEffect a =
      if s.backingOf a = .mikey ∧ (lo a).toNat = 0x8D then
        { s with io := { s.io with serial := { s.io.serial with rxFull := false } } }
      else if s.backingOf a = .suzy ∧ ((lo a).toNat = 0xB2 ∨ (lo a).toNat = 0xB3) then
        { s with cart := { s.cart with counter := s.cart.counter + 1 } }
      else s := by
  unfold State.readEffect
  cases s.backingOf a with
  | mikey =>
    unfold Io.readEffect
    by_cases h : (lo a).toNat = 0x8D
    · simp only [h, and_self, if_true]; rfl
    · simp [h]
  | suzy =>
    unfold Cart.readEffect
    by_cases h : (lo a).toNat = 0xB2 ∨ (lo a).toNat = 0xB3
    · simp [h]
    · simp [h]
  | ram => simp
  | rom => simp
  | mapctl => simp

/-- Settles O11. -/
theorem readGivesWhatBacks : Obligations.ReadGivesWhatBacks := by
  refine fun s a => ⟨fun h => ?_, fun h => ?_, fun h => ?_, fun h => ?_, fun h => ?_, s.busRead_cpu a, s.busRead_kept a, ?_⟩
  · rw [State.busRead_plain (State.plain_of_backing h rfl), State.peek_ram h]
  · rw [State.busRead_plain (State.plain_of_backing h rfl), State.peek_rom h]
    exact romByte_eq _ _
  · rw [State.busRead_plain (State.plain_of_backing h rfl), State.peek_mapctl h]
  · have e : (s.busRead a).1 = s.suzy.readReg s.cart s.inputs (s.charge a).io.tick (lo a).toNat :=
      State.peek_suzy (s := s.charge a) h
    exact ⟨e, fun hole => e.trans (Suzy.readReg_hole _ _ _ _ hole)⟩
  · have e : (s.busRead a).1 = (s.charge a).io.readReg s.cart s.inputs.pins (lo a).toNat :=
      State.peek_mikey (s := s.charge a) h
    exact ⟨e, fun hole => e.trans (Io.readReg_hole _ _ _ hole)⟩
  · exact congrArg State.settle (State.readEffect_eq (s.charge a) a)

/-! ### Writes -/

/-- A write where no RAM lies changes no byte of RAM. -/
theorem State.Stored.ramAt_of_backing {s t : State} {a : Word} {v : Byte} (h : s.Stored a v t)
    (hb : s.backingOf a ≠ .ram) (b : Word) : t.ramAt b = s.ramAt b := by
  by_cases e : b = a
  · rw [e, h.here, if_neg hb]
  · exact h.others b e

/-- Settles O12. -/
theorem writeReachesWhatBacks : Obligations.WriteReachesWhatBacks := by
  intro s a v hw
  have h := State.busWrite_stored hw a v
  refine ⟨h, s.busWrite_cpu a v, fun hb => ⟨h.ramAt_of_backing (by rw [hb]; exact nofun), h.rom⟩, fun hb b => ?_⟩
  rw [State.backingOf, h.mapctl, if_pos hb]

/-! ### Ticks -/

theorem Io.chargeOf_eq (io : Io) (m : Byte) (r : Bool) (a : Word) :
    io.chargeOf m r a = if !r && (!(bit m 7) && (io.lastAddr.map hi == some (hi a))) then 4 else 5 := by
  rw [← Bool.and_assoc]; rfl

/-- Settles O13. -/
theorem accessTicks : Obligations.AccessTicks := by
  refine fun s a => ⟨?_, rfl, ?_, rfl, ?_, fun h => ?_, ?_⟩
  · show s.io.tick + s.io.chargeOf s.mapctl (s.backingOf a).isReg a = _
    rw [Io.chargeOf_eq]; rfl
  · show s.io.tick + s.io.chargeOf s.mapctl false a = _
    rw [Io.chargeOf_eq]; rfl
  · rw [(Io.pixelAction_queue s.mapctl s.ram s.io).1, Io.chargeOf_eq]; rfl
  · show s.io.tick + s.io.chargeOf s.mapctl (s.backingOf a).isReg a = _
    rw [Io.chargeOf_eq, h, Bool.not_true, Bool.false_and, Bool.and_false]; rfl
  · show 0 + Io.reset.chargeOf 0 (State.reset.backingOf a).isReg a = 5
    rw [Io.chargeOf_eq, show (Io.reset.lastAddr.map hi == some (hi a)) = false from rfl, Bool.and_false, Bool.and_false]; rfl

end Sys2Proof.Machine
end

section
/-! PROOFS. The turn of the scheduler and runs of turns (64_bus_scheduler.md R464, R470 to R473, R480, R484; 60_exceptions.md R324). -/

namespace Sys2Proof.Machine

/-! ### The earliest entry -/

theorem earliest_eq_none {q : List (Nat × Device)} (h : earliest q = none) : q = [] := by
  cases q with
  | nil => rfl
  | cons a rest =>
    unfold earliest at h
    split at h
    · split at h <;> cases h
    · cases h

/-- The entry that is popped splits the queue: what stands before it comes later, what stands behind it not earlier. -/
theorem earliest_split {q : List (Nat × Device)} {e : Nat × Device} (h : earliest q = some e) :
    ∃ before after, q = before ++ e :: after ∧ (∀ f ∈ before, e.1 < f.1) ∧ (∀ f ∈ after, e.1 ≤ f.1) := by
  induction q generalizing e with
  | nil => cases h
  | cons a rest ih =>
    unfold earliest at h
    split at h
    · next f hf =>
      split at h <;> cases h
      · next hle => exact ⟨[], rest, rfl, nofun, fun g hg => hle.trans ((earliest_spec hf).2 g hg)⟩
      · next hle =>
        obtain ⟨before, after, rfl, hb, ha⟩ := ih hf
        exact ⟨a :: before, after, rfl, List.forall_mem_cons.2 ⟨by omega, hb⟩, ha⟩
    · next hn =>
      cases h
      exact ⟨[], rest, rfl, nofun, by rw [earliest_eq_none hn]; exact nofun⟩

theorem entry_sublist (due : Option Nat) (d : Device) : ((entry due d).map Prod.snd).Sublist [d] := by
  cases due with
  | none => exact List.nil_sublist _
  | some n => exact List.Sublist.refl _

/-- Each kind of action is queued once at most, in the order of priority. -/
theorem Io.queue_kinds (io : Io) : (io.queue.map Prod.snd).Sublist [.frame, .line, .pixel, .pulse] := by
  simp only [Io.queue, List.map_append]
  exact (((entry_sublist io.frameDue .frame).append (entry_sublist io.lineDue .line)).append
    (entry_sublist io.pixelDue .pixel)).append (List.Sublist.refl [Device.pulse])

/-! ### A beat -/

theorem State.beat_io {s t : State} (h : s.beat = some t) :
    ∃ io, s.io.beat s.mapctl s.ram s.inputs = some io ∧ t = { s with io := io } := by
  unfold State.beat at h
  split at h
  · next io e => exact ⟨io, e, (Option.some.inj h).symm⟩
  · cases h

theorem State.beat_eq_none {s : State} (h : s.beat = none) : s.io.beat s.mapctl s.ram s.inputs = none := by
  unfold State.beat at h
  split at h
  · cases h
  · assumption

theorem turn_beat {s t : State} (h : s.beat = some t) : turn s = t := by
  unfold turn; rw [h]

theorem turn_master {s : State} (h : s.beat = none) : turn s = if s.suzy.halted then s.suzyTurn else s.cpuTurn := by
  unfold turn; rw [h]

/-- A beat is the earliest entry that is due, the first of a tie, or a tick of time. -/
theorem Io.beat_split {m : Byte} {ram : List Host.Cell} {inputs : Inputs} {io io' : Io}
    (h : io.beat m ram inputs = some io') :
    (∃ (due : Nat) (d : Device) (before after : List (Nat × Device)),
      io.queue = before ++ (due, d) :: after ∧ (∀ e ∈ before, due < e.1) ∧ (∀ e ∈ after, due ≤ e.1) ∧
      due ≤ io.tick ∧ due ≤ io.masterDue ∧ io' = io.run m ram inputs d) ∨
    (∀ e ∈ io.queue, io.tick < e.1) ∧ io.tick < io.masterDue ∧ io' = io.elapse 1 := by
  unfold Io.beat at h
  split at h
  · next due d he =>
    split at h
    · next hd =>
      obtain ⟨before, after, hq, hb, ha⟩ := earliest_split he
      exact .inl ⟨due, d, before, after, hq, hb, ha, hd.1, hd.2, (Option.some.inj h).symm⟩
    · next hd =>
      split at h
      · next ht =>
        refine .inr ⟨fun e hq => ?_, ht, (Option.some.inj h).symm⟩
        have := (earliest_spec he).2 e hq
        simp only at this
        omega
      · cases h
  · cases h

/-! ### The ticks of a turn -/

/-- From `s` to `t` at most the charge of one access has passed. -/
def State.OneAccess (s t : State) : Prop := s.io.tick ≤ t.io.tick ∧ t.io.tick ≤ s.io.tick + 5

theorem State.OneAccess.still {s t : State} (h : t.io.tick = s.io.tick) : s.OneAccess t := by
  unfold State.OneAccess; omega

theorem State.OneAccess.then_still {s t u : State} (h : s.OneAccess t) (e : u.io.tick = t.io.tick) : s.OneAccess u := by
  unfold State.OneAccess at *; omega

theorem Io.masterAccess_tick (m : Byte) (r : Bool) (a : Word) (io : Io) :
    io.tick ≤ (io.masterAccess m r a).tick ∧ (io.masterAccess m r a).tick ≤ io.tick + 5 := by
  have e : (io.masterAccess m r a).tick = io.tick + io.chargeOf m r a := rfl
  have := io.chargeOf_le m r a
  omega

theorem State.readEffect_tick (s : State) (a : Word) : (s.readEffect a).io.tick = s.io.tick := by
  unfold State.readEffect; split <;> rfl

theorem State.store_tick (s : State) (a : Word) (v : Byte) : (s.store a v).io.tick = s.io.tick := by
  unfold State.store
  split
  case h_3 => exact Io.writeReg_tick _ _ _
  all_goals rfl

theorem State.rawRead_oneAccess (s : State) (a : Word) : s.OneAccess (s.rawRead a).2 :=
  State.OneAccess.then_still (t := s.charge a) (Io.masterAccess_tick _ _ _ _) (State.readEffect_tick _ a)

theorem State.rawWrite_oneAccess (s : State) (a : Word) (v : Byte) : s.OneAccess (s.rawWrite a v) :=
  State.OneAccess.then_still (t := s.charge a) (Io.masterAccess_tick _ _ _ _) (State.store_tick _ a v)

theorem State.goOn_tick (w : Work) (start : Cpu) (log : List Byte) (p : Prog Finish) (s : State) :
    (s.goOn w start log p).io.tick = s.io.tick := by
  unfold State.goOn; split <;> rfl

theorem State.goOnFetch_tick (start : Cpu) (log : List Byte) (p : Prog Fetched) (s : State) :
    (s.goOnFetch start log p).io.tick = s.io.tick := by
  unfold State.goOnFetch
  split
  · exact State.goOn_tick _ _ _ _ _
  all_goals rfl

theorem State.advance_oneAccess (w : Work) (start : Cpu) (log : List Byte) (p : Prog Finish) (s : State) :
    s.OneAccess (s.advance w start log p) := by
  unfold State.advance
  split
  · exact State.OneAccess.still rfl
  · next k a next => exact ((s.withCpu k).rawRead_oneAccess a).then_still (State.goOn_tick _ _ _ _ _)
  · next k a v next => exact ((s.withCpu k).rawWrite_oneAccess a v).then_still (State.goOn_tick _ _ _ _ _)

theorem State.advanceFetch_oneAccess (start : Cpu) (log : List Byte) (p : Prog Fetched) (s : State) :
    s.OneAccess (s.advanceFetch start log p) := by
  unfold State.advanceFetch
  split
  · exact State.OneAccess.still (State.goOn_tick _ _ _ _ _)
  · next k a next => exact ((s.withCpu k).rawRead_oneAccess a).then_still (State.goOnFetch_tick _ _ _ _)
  · next k a v next => exact ((s.withCpu k).rawWrite_oneAccess a v).then_still (State.goOnFetch_tick _ _ _ _)

theorem State.beginStep_oneAccess (s : State) : s.OneAccess s.beginStep := by
  unfold State.beginStep
  split
  · exact State.advance_oneAccess _ _ _ _ s.afterPoll.wake
  · exact State.advance_oneAccess _ _ _ _ s.afterPoll.wake
  · split
    · exact State.OneAccess.still rfl
    · exact State.advanceFetch_oneAccess _ _ _ s.afterPoll.wake

theorem State.cpuTurn_oneAccess (s : State) : s.OneAccess s.cpuTurn := by
  unfold State.cpuTurn
  split
  · exact s.advance_oneAccess _ _ _ _
  · exact s.advanceFetch_oneAccess _ _ _
  · split
    · exact State.OneAccess.still rfl
    · exact s.beginStep_oneAccess

theorem State.suzyTurn_oneAccess (s : State) : s.OneAccess s.suzyTurn := by
  unfold State.suzyTurn
  split
  · next r _ => cases r <;> exact Io.masterAccess_tick _ _ _ _
  · exact State.OneAccess.still rfl

theorem Io.run_tick (m : Byte) (ram : List Host.Cell) (inputs : Inputs) (d : Device) (io : Io) :
    io.tick ≤ (io.run m ram inputs d).tick ∧ (io.run m ram inputs d).tick ≤ io.tick + 5 := by
  cases d with
  | frame => exact ⟨Nat.le_refl _, Nat.le_add_right _ _⟩
  | line =>
    have e : (io.run m ram inputs .line).tick = io.tick := io.lineAction_queue.1
    omega
  | pixel =>
    have e : (io.run m ram inputs .pixel).tick = io.tick + io.chargeOf m false io.video.address :=
      (Io.pixelAction_queue m ram io).1
    have := io.chargeOf_le m false io.video.address
    omega
  | pulse => exact ⟨Nat.le_refl _, Nat.le_add_right _ _⟩

theorem turn_oneAccess (s : State) : s.OneAccess (turn s) := by
  cases h : s.beat with
  | some t =>
    rw [turn_beat h]
    obtain ⟨io, e, rfl⟩ := State.beat_io h
    rcases Io.beat_split e with ⟨due, d, -, -, -, -, -, -, -, rfl⟩ | ⟨-, -, rfl⟩
    · exact Io.run_tick _ _ _ _ _
    · exact ⟨Nat.le_add_right _ _, by show s.io.tick + 1 ≤ _; omega⟩
  | none =>
    rw [turn_master h]
    split
    · exact s.suzyTurn_oneAccess
    · exact s.cpuTurn_oneAccess

/-- Settles O8. -/
theorem turnOrder : Obligations.TurnOrder := by
  refine fun s => ⟨fun t h => ⟨turn_beat h, ?_⟩, fun h => ?_, s.io.queue_kinds, turn_oneAccess s⟩
  · obtain ⟨io, e, rfl⟩ := State.beat_io h
    exact ⟨io, rfl, Io.beat_split e⟩
  · obtain ⟨hd, hq⟩ := Io.beat_none (State.beat_eq_none h)
    exact ⟨hd, hq, turn_master h⟩

/-! ### Runs -/

/-- What it means that a run from `s` ended as `r` after `n` turns. -/
def Ran.Because (o : RunOptions) (bound target : Nat) (s : State) (n : Nat) (r : Ran) : Prop :=
  match r.why with
  | .reached => ∀ d ∈ r.state.io.deadlines, target < d
  | .cancelled => r.state.inputs.stopRequested = true
  | .nextFrame => o.stopAtFrame = true ∧ 0 < n ∧ r.state.io.video.frames ≠ (turn^[n - 1] s).io.video.frames
  | .debugTrap => o.breakOnBrk = true ∧ 0 < n ∧ r.state.atBrk = true ∧ (turn^[n - 1] s).atBrk = false
  | .tickCounterWrap => Config.tickLimit ≤ r.state.io.tick
  | .unfinished => n = bound
  | .timeout => False

/-- `r` is what `n` turns from `s` come to, none of which was the last but the `n`-th. -/
structure Ran.Of (o : RunOptions) (most target calls : Nat) (s : State) (r : Ran) (n : Nat) : Prop where
  bound : n ≤ most
  state : r.state = turn^[n] s
  goes : ∀ m : Nat, m < n → (turn^[m] s).beyond target = false ∧ (turn^[m] s).inputs.stopRequested = false ∧
    (turn^[m] s).io.tick < Config.tickLimit
  frame : o.stopAtFrame = true → ∀ m : Nat, m < n → (turn^[m + 1] s).io.video.frames ≠ (turn^[m] s).io.video.frames →
    m + 1 = n ∧ (r.why = .nextFrame ∨ r.why = .debugTrap)
  brk : o.breakOnBrk = true → ∀ m : Nat, m < n → (turn^[m] s).atBrk = false → (turn^[m + 1] s).atBrk = true →
    m + 1 = n ∧ r.why = .debugTrap
  why : r.Because o most target s n
  traced : r.traced = calls + if o.traceHook then (List.range n).countP fun m => (turn^[m] s).beginsInstr else 0

/-- A run that ends before its first turn. -/
theorem Ran.Of.here {o : RunOptions} {bound target calls : Nat} {s : State} {why : RunEnd}
    (h : Ran.Because o bound target s 0 { state := s, why := why, traced := calls }) :
    Ran.Of o bound target calls s { state := s, why := why, traced := calls } 0 where
  bound := Nat.zero_le _
  state := rfl
  goes := nofun
  frame := fun _ => nofun
  brk := fun _ => nofun
  why := h
  traced := by simp

section
variable {o : RunOptions} {bound target calls : Nat} {s : State}

/-- The number of calls of the trace hook, the first turn's apart. -/
theorem countP_turns (n : Nat) (s : State) :
    ((List.range (n + 1)).countP fun m => (turn^[m] s).beginsInstr) =
      (if s.beginsInstr then 1 else 0) + (List.range n).countP fun m => (turn^[m] (turn s)).beginsInstr := by
  rw [List.range_succ_eq_map, List.countP_cons, List.countP_map, Nat.add_comm]
  rfl

/-- A run whose first turn is its last. -/
theorem Ran.Of.once {why : RunEnd} (hg : s.beyond target = false ∧ s.inputs.stopRequested = false ∧
      s.io.tick < Config.tickLimit)
    (hf : o.stopAtFrame = true → (turn s).io.video.frames ≠ s.io.video.frames → why = .nextFrame ∨ why = .debugTrap)
    (hb : o.breakOnBrk = true → s.atBrk = false → (turn s).atBrk = true → why = .debugTrap)
    {calls' : Nat} (hc : calls' = if o.traceHook && s.beginsInstr then calls + 1 else calls)
    (h : Ran.Because o (bound + 1) target s 1 { state := turn s, why := why, traced := calls' }) :
    Ran.Of o (bound + 1) target calls s { state := turn s, why := why, traced := calls' } 1 where
  bound := Nat.le_add_left _ _
  state := rfl
  goes := fun m hm => by obtain rfl : m = 0 := by omega
                         exact hg
  frame := fun ho m hm hn => by obtain rfl : m = 0 := by omega
                                exact ⟨rfl, hf ho hn⟩
  brk := fun ho m hm h0 h1 => by obtain rfl : m = 0 := by omega
                                 exact ⟨rfl, hb ho h0 h1⟩
  why := h
  traced := by
    rw [countP_turns]
    subst hc
    cases o.traceHook <;> cases s.beginsInstr <;> rfl

theorem Ran.Because.next {r : Ran} {n : Nat} (h : r.Because o bound target (turn s) n) :
    r.Because o (bound + 1) target s (n + 1) := by
  unfold Ran.Because at *
  split at h
  · exact h
  · exact h
  · obtain ⟨ho, hn, hf⟩ := h
    obtain ⟨k, rfl⟩ := Nat.exists_eq_succ_of_ne_zero hn.ne'
    exact ⟨ho, Nat.succ_pos _, hf⟩
  · obtain ⟨ho, hn, h1, h0⟩ := h
    obtain ⟨k, rfl⟩ := Nat.exists_eq_succ_of_ne_zero hn.ne'
    exact ⟨ho, Nat.succ_pos _, h1, h0⟩
  · exact h
  · exact congrArg (· + 1) h
  · exact h

/-- A run that goes on after its first turn. -/
theorem Ran.Of.next {r : Ran} {n calls' : Nat} (h : Ran.Of o bound target calls' (turn s) r n)
    (hg : s.beyond target = false ∧ s.inputs.stopRequested = false ∧ s.io.tick < Config.tickLimit)
    (hf : o.stopAtFrame = true → (turn s).io.video.frames = s.io.video.frames)
    (hb : o.breakOnBrk = true → s.atBrk = false → (turn s).atBrk = false)
    (hc : calls' = if o.traceHook && s.beginsInstr then calls + 1 else calls) :
    Ran.Of o (bound + 1) target calls s r (n + 1) where
  bound := Nat.succ_le_succ h.bound
  state := h.state
  goes := fun m hm => by
    cases m with
    | zero => exact hg
    | succ m => exact h.goes m (by omega)
  frame := fun ho m hm hn => by
    cases m with
    | zero => exact absurd (hf ho) hn
    | succ m =>
      obtain ⟨hm', hw⟩ := h.frame ho m (by omega) hn
      exact ⟨by omega, hw⟩
  brk := fun ho m hm h0 h1 => by
    cases m with
    | zero => exact absurd h1 (by rw [show turn^[0 + 1] s = turn s from rfl, hb ho h0]; exact nofun)
    | succ m =>
      obtain ⟨hm', hw⟩ := h.brk ho m (by omega) h0 h1
      exact ⟨by omega, hw⟩
  why := h.why.next
  traced := by
    rw [countP_turns, h.traced]
    subst hc
    cases o.traceHook <;> cases s.beginsInstr <;> simp; omega

end

theorem State.beyond_iff (target : Nat) (s : State) : s.beyond target = true ↔ ∀ d ∈ s.io.deadlines, target < d := by
  simp [State.beyond]

/-- What a run comes to. -/
theorem runWith_spec (o : RunOptions) (bound target calls : Nat) (s : State) :
    ∃ n, Ran.Of o bound target calls s (runWith o bound target calls s) n := by
  induction bound generalizing calls s with
  | zero => exact ⟨0, .here rfl⟩
  | succ k ih =>
    unfold runWith
    split
    · next hs => exact ⟨0, .here hs⟩
    · next hs =>
      split
      · next hb => exact ⟨0, .here ((State.beyond_iff _ _).1 hb)⟩
      · next hb =>
        split
        · next ht => exact ⟨0, .here ht⟩
        · next ht =>
          have hg : s.beyond target = false ∧ s.inputs.stopRequested = false ∧ s.io.tick < Config.tickLimit :=
            ⟨Bool.eq_false_iff.2 hb, Bool.eq_false_iff.2 hs, Nat.lt_of_not_le ht⟩
          extract_lets t calls'
          split
          · next hbrk =>
            simp only [Bool.and_eq_true, Bool.not_eq_true'] at hbrk
            obtain ⟨⟨ho, h1⟩, h0⟩ := hbrk
            exact ⟨1, .once hg (fun _ _ => .inr rfl) (fun _ _ _ => rfl) rfl ⟨ho, Nat.one_pos, h1, h0⟩⟩
          · next hbrk =>
            have hb : o.breakOnBrk = true → s.atBrk = false → (turn s).atBrk = false := fun ho h0 => by
              simpa [ho, h0] using hbrk
            split
            · next hfr =>
              simp only [Bool.and_eq_true, bne_iff_ne] at hfr
              exact ⟨1, .once hg (fun _ _ => .inl rfl) (fun ho h0 h1 => absurd h1 (by rw [hb ho h0]; exact nofun)) rfl
                ⟨hfr.1, Nat.one_pos, hfr.2⟩⟩
            · next hfr =>
              obtain ⟨n, h⟩ := ih calls' t
              exact ⟨n + 1, h.next hg (fun ho => by simpa [ho] using hfr) hb rfl⟩

/-- Settles O9. -/
theorem runUntil_spec : Obligations.RunUntil := by
  intro o bound target calls s
  obtain ⟨n, h⟩ := runWith_spec o bound target calls s
  exact ⟨n, h.bound, h.state, h.goes, h.frame, h.brk, h.why, h.traced⟩

end Sys2Proof.Machine
end

section
/-! PROOFS. Timers: the period law, the cascade and the registers (61_mikey.md R340 to R349, R364). -/

namespace Sys2Proof.Machine

/-! ### One edge -/

section
variable {t : Timer}

theorem Timer.count_down (he : t.enabled = true) (hs : t.stopped = false) (hv : t.value ≠ 0) :
    t.count = ({ t with value := t.value - 1 }, false) := by
  unfold Timer.count
  rw [if_pos (by simp [he, hs]), if_neg hv]

theorem Timer.count_reload (he : t.enabled = true) (hs : t.stopped = false) (hv : t.value = 0) (hr : t.reloads = true) :
    t.count = ({ t with status := t.status ||| bitMask 3, value := t.backup, stopped := false }, true) := by
  simp [Timer.count, he, hs, hv, hr]

theorem Timer.count_once (he : t.enabled = true) (hs : t.stopped = false) (hv : t.value = 0) (hr : t.reloads = false) :
    t.count = ({ t with status := t.status ||| bitMask 3, value := 0, stopped := true }, true) := by
  simp [Timer.count, he, hs, hv, hr]

theorem Timer.count_disabled (he : t.enabled = false) : t.count = (t, false) := by simp [Timer.count, he]

theorem Timer.count_stopped (hs : t.stopped = true) : t.count = (t, false) := by simp [Timer.count, hs]

theorem Timer.edges_succ (n : Nat) (t : Timer) :
    Timer.edges (n + 1) t = ((Timer.edges n t).1.count.1, (Timer.edges n t).2 + if (Timer.edges n t).1.count.2 then 1 else 0) := rfl

theorem Timer.edges_add (n m : Nat) (t : Timer) :
    Timer.edges (n + m) t = ((Timer.edges m (Timer.edges n t).1).1, (Timer.edges n t).2 + (Timer.edges m (Timer.edges n t).1).2) := by
  induction m with
  | zero => rfl
  | succ m ih => rw [← Nat.add_assoc, Timer.edges_succ, Timer.edges_succ, ih]; simp only [Nat.add_assoc]

/-- Edges of a timer that stays as it is. -/
theorem Timer.edges_still (h : t.count = (t, false)) (n : Nat) : Timer.edges n t = (t, 0) := by
  induction n with
  | zero => rfl
  | succ n ih => rw [Timer.edges_succ, ih, h]; rfl

/-- A counting timer after as many edges as it does not fire on. -/
theorem Timer.edges_down (he : t.enabled = true) (hs : t.stopped = false) {k : Nat} (hk : k ≤ t.value.toNat) :
    Timer.edges k t = ({ t with value := t.value - BitVec.ofNat 8 k }, 0) := by
  induction k with
  | zero => rw [show t.value - BitVec.ofNat 8 0 = t.value from BitVec.sub_zero _]; rfl
  | succ k ih =>
    have hv : t.value - BitVec.ofNat 8 k ≠ 0 := by bv_omega
    have hn : t.value - BitVec.ofNat 8 k - 1 = t.value - BitVec.ofNat 8 (k + 1) := by bv_omega
    rw [Timer.edges_succ, ih (by omega), Timer.count_down (t := { t with value := t.value - BitVec.ofNat 8 k }) he hs hv]
    simp only [hn]
    rfl

/-- A counting timer on the edge after it has come to 0. -/
theorem Timer.edges_fire (he : t.enabled = true) (hs : t.stopped = false) :
    Timer.edges (t.value.toNat + 1) t = (({ t with value := 0 } : Timer).count.1, 1) := by
  have hv : t.value - BitVec.ofNat 8 t.value.toNat = 0 := by bv_omega
  rw [Timer.edges_succ, Timer.edges_down he hs (Nat.le_refl _)]
  simp only [hv]
  cases hr : t.reloads with
  | true => rw [Timer.count_reload (t := { t with value := 0 }) he hs rfl hr]; rfl
  | false => rw [Timer.count_once (t := { t with value := 0 }) he hs rfl hr]; rfl

end

/-! ### The period law -/

/-- A reloading timer at the start of its period. -/
structure Timer.AtStart (b : Byte) (t : Timer) : Prop where
  enabled : t.enabled = true
  reloads : t.reloads = true
  counts : t.stopped = false
  backup : t.backup = b
  value : t.value = b

theorem Timer.done_of_or (s : Byte) : bit (s ||| bitMask 3) 3 = true := by
  have h : bit (bitMask 3) 3 = true := by decide
  unfold bit at *
  rw [BitVec.getLsbD_or, h, Bool.or_true]

/-- One period brings it to the next one, with one firing. -/
theorem Timer.AtStart.period {b : Byte} {t : Timer} (h : t.AtStart b) :
    (Timer.edges (b.toNat + 1) t).1.AtStart b ∧ (Timer.edges (b.toNat + 1) t).2 = 1 ∧
      (Timer.edges (b.toNat + 1) t).1.done = true := by
  have e := Timer.edges_fire h.enabled h.counts
  rw [Timer.count_reload (t := { t with value := 0 }) h.enabled h.counts rfl h.reloads, h.value] at e
  rw [e]
  exact ⟨⟨h.enabled, h.reloads, rfl, h.backup, h.backup⟩, rfl, Timer.done_of_or _⟩

theorem Timer.AtStart.periods {b : Byte} {t : Timer} (h : t.AtStart b) (n : Nat) :
    (Timer.edges (n * (b.toNat + 1)) t).1.AtStart b ∧ (Timer.edges (n * (b.toNat + 1)) t).2 = n ∧
      (0 < n → (Timer.edges (n * (b.toNat + 1)) t).1.done = true) := by
  induction n with
  | zero =>
    rw [Nat.zero_mul]
    exact ⟨h, rfl, nofun⟩
  | succ n ih =>
    obtain ⟨hs, hn, -⟩ := ih
    obtain ⟨h1, h2, h3⟩ := hs.period
    rw [Nat.succ_mul, Timer.edges_add]
    exact ⟨h1, by rw [hn, h2], fun _ => h3⟩

/-- A timer without reload fires once and then stands at 0. -/
theorem Timer.edges_once {t : Timer} (he : t.enabled = true) (hr : t.reloads = false) (hs : t.stopped = false) (n : Nat) :
    (Timer.edges (t.value.toNat + 1 + n) t).2 = 1 ∧ (Timer.edges (t.value.toNat + 1 + n) t).1.value = 0 := by
  rw [Timer.edges_add, Timer.edges_fire he hs, Timer.count_once (t := { t with value := 0 }) he hs rfl hr]
  rw [Timer.edges_still (Timer.count_stopped rfl)]
  exact ⟨rfl, rfl⟩

/-- Settles O40. -/
theorem timerPeriod : Obligations.TimerPeriod := by
  refine fun t => ⟨fun he hr hs hv n k hk => ?_, Timer.edges_once, fun he => Timer.edges_still (Timer.count_disabled he)⟩
  have h : t.AtStart t.backup := ⟨he, hr, hs, rfl, hv⟩
  obtain ⟨hn, hf, hd⟩ := h.periods n
  have hk' : k ≤ (Timer.edges (n * (t.backup.toNat + 1)) t).1.value.toNat := by rw [hn.value]; exact hk
  rw [Timer.edges_add, Timer.edges_down hn.enabled hn.counts hk']
  refine ⟨hf, ?_, hd⟩
  show ((Timer.edges (n * (t.backup.toNat + 1)) t).1.value - BitVec.ofNat 8 k).toNat = _
  rw [hn.value]
  bv_omega

/-! ### The cascade -/

theorem Timer.sel_eq (t : Timer) : t.sel = t.ctl.toNat % 8 := by
  unfold Timer.sel
  rw [BitVec.toNat_and]
  exact Nat.and_two_pow_sub_one_eq_mod _ 3

theorem Timer.upTo_linked {t : Timer} (h : t.ctl.toNat % 8 = 7) (now : Nat) (up : Bool) :
    t.upTo now up = if up then t.count else (t, false) := by
  have hl : t.linked = true := by rw [Timer.linked, t.sel_eq, h]; rfl
  unfold Timer.upTo
  rw [if_pos hl]

theorem Timer.upTo_clocked {t : Timer} (h : t.ctl.toNat % 8 ≠ 7) (now : Nat) (up : Bool) :
    t.upTo now up =
      if t.enabled = true ∧ t.deadline ≤ now then
        ({ t.count.1 with deadline := t.deadline + 16 * 2 ^ (t.ctl.toNat % 8) }, t.count.2)
      else (t, false) := by
  have hl : t.linked = false := by rw [Timer.linked, t.sel_eq]; exact beq_false_of_ne h
  unfold Timer.upTo
  rw [hl, t.sel_eq]
  simp only [Bool.and_eq_true, decide_eq_true_eq]
  rfl

/-- Bit `k` of the mask of fired timers. -/
theorem bit_firedMask (t : Vector Timer 8) (f : Vector Bool 8) (k : Fin 8) :
    bit (firedMask t f) k.val = (f[k] && t[k].intEnabled) := by
  have hm : ∀ (b : Bool) (j : Nat), bit (if b then bitMask j else 0) k = (b && decide (k.val = j)) :=
    fun b j => bit_flag b j k k.isLt
  unfold firedMask
  simp only [bit_or, hm]
  fin_cases k <;> simp

/-- Settles O41. -/
theorem timerCascade : Obligations.TimerCascade := by
  refine ⟨fun io ticks => ⟨rfl, rfl, rfl, rfl, rfl, rfl, rfl, rfl, rfl, rfl, rfl, rfl, rfl, rfl, fun k => ?_⟩,
    fun t now up => ⟨fun h => Timer.upTo_linked h now up, fun h he hd => ?_, fun h hn => ?_⟩, fun unit now up c => ?_⟩
  · show bit (io.pending ||| firedMask io.timers (cascade (io.tick + ticks) io.timers io.channels).fired) k.val = _
    rw [bit_or, bit_firedMask]
  · rw [Timer.upTo_clocked h, if_pos ⟨he, hd⟩]
  · rw [Timer.upTo_clocked h, if_neg]
    rintro ⟨he, hd⟩
    rcases hn with hn | hn
    · rw [he] at hn; cases hn
    · omega
  · unfold Channel.upTo
    simp only
    generalize c.timer.upTo now up = r
    obtain ⟨timer, fired⟩ := r
    cases fired <;> rfl

/-! ### The registers -/

theorem Io.readReg_timer (io : Io) (cart : Cart) (pins : Byte) (k : Fin 8) {r : Nat} (hr : r < 4) :
    io.readReg cart pins (4 * k.val + r) = io.timers[k].readReg r := by
  have hk := k.isLt
  have h1 : (4 * k.val + r) / 4 = k.val := by omega
  have h2 : (4 * k.val + r) % 4 = r := by omega
  unfold Io.readReg
  rw [dif_pos (by omega)]
  simp only [h1, h2]
  rfl

theorem Io.writeReg_timer (io : Io) (v : Byte) (k : Fin 8) {r : Nat} (hr : r < 4) :
    (io.writeReg (4 * k.val + r) v).timers = io.timers.set k (io.timers[k].writeReg k io.tick r v) := by
  have hk := k.isLt
  have h1 : (4 * k.val + r) / 4 = k.val := by omega
  have h2 : (4 * k.val + r) % 4 = r := by omega
  unfold Io.writeReg
  rw [dif_pos (by omega)]
  simp only [h1, h2]
  rfl

theorem Io.writeReg_timer_same (io : Io) (v : Byte) (k : Fin 8) {r : Nat} (hr : r < 4) :
    (io.writeReg (4 * k.val + r) v).timers[k] = io.timers[k].writeReg k io.tick r v := by
  rw [Io.writeReg_timer io v k hr, Fin.getElem_fin, Vector.getElem_set_self]

theorem Io.writeReg_timer_other (io : Io) (v : Byte) (k : Fin 8) {r : Nat} (hr : r < 4) {j : Fin 8} (hj : j ≠ k) :
    (io.writeReg (4 * k.val + r) v).timers[j] = io.timers[j] := by
  rw [Io.writeReg_timer io v k hr]
  exact Vector.getElem_set_ne _ _ fun e => hj (Fin.ext e.symm)

/-- What is written to a timer's register is read there. -/
theorem Timer.readReg_writeReg (unit now : Nat) {r : Nat} (hr : r < 4) (v : Byte) (t : Timer) :
    (t.writeReg unit now r v).readReg r = v := by
  match r, hr with
  | 0, _ => rfl
  | 1, _ => rfl
  | 2, _ => rfl
  | 3, _ => rfl

theorem sel_mask (v : Byte) : (v &&& 7).toNat = v.toNat % 8 := by
  rw [BitVec.toNat_and]
  exact Nat.and_two_pow_sub_one_eq_mod _ 3

/-- The next edge after a write of control A. -/
theorem Timer.writeCtl_deadline (unit now : Nat) (v : Byte) (t : Timer) :
    (t.enabled = true → t.sel = v.toNat % 8 → (t.writeCtl unit now v).deadline = t.deadline) ∧
    (t.enabled = false ∨ t.sel ≠ v.toNat % 8 →
      now < (t.writeCtl unit now v).deadline ∧ (t.writeCtl unit now v).deadline ≤ now + 16 * 2 ^ (v.toNat % 8)) := by
  have e : (t.writeCtl unit now v).deadline =
      if t.enabled = true ∧ t.sel = v.toNat % 8 then t.deadline
      else now + 1 + Config.timerPhase unit now % (16 * 2 ^ (v.toNat % 8)) := by
    show (if _ then _ else _) = _
    simp only [sel_mask, Bool.and_eq_true, beq_iff_eq]
    rfl
  refine ⟨fun he hs => by rw [e, if_pos ⟨he, hs⟩], fun h => ?_⟩
  rw [e, if_neg (by rintro ⟨he, hs⟩; rcases h with h | h <;> simp_all)]
  have hp : 0 < 16 * 2 ^ (v.toNat % 8) := Nat.mul_pos (by decide) (Nat.two_pow_pos _)
  have := Nat.mod_lt (Config.timerPhase unit now) hp
  omega

/-- A timer without reload whose counter has been set fires on the edge after 0 and on no other. -/
theorem Timer.edges_writeValue {t : Timer} (he : t.enabled = true) (hr : t.reloads = false) (v : Byte) {n : Nat}
    (hn : n ≤ v.toNat + 1) : (Timer.edges n (t.writeValue v)).2 = if n = v.toNat + 1 then 1 else 0 := by
  split
  · next h => subst h; exact (Timer.edges_once (t := t.writeValue v) he hr rfl 0).1
  · next h => rw [Timer.edges_down (t := t.writeValue v) he rfl (by show n ≤ v.toNat; omega)]

/-- Settles O42. -/
theorem timerRegisters : Obligations.TimerRegisters := by
  intro io k v pins cart
  have w := fun r hr => io.writeReg_timer_same v k (r := r) hr
  obtain ⟨hkeep, hnew⟩ := Timer.writeCtl_deadline k.val io.tick v io.timers[k]
  refine ⟨w 0 (by decide), ⟨_, w 1 (by decide), hkeep, hnew⟩, fun hb => ?_, w 2 (by decide), fun he hr n hn => ?_,
    w 3 (by decide), fun r hr => ⟨?_, fun j hj => io.writeReg_timer_other v k hr hj⟩⟩
  · show (io.writeReg (4 * k.val + 1) v).timers[k].done = false
    rw [w 1 (by decide)]
    show bit (if bit v 6 then io.timers[k].status &&& ~~~(bitMask 3) else io.timers[k].status) 3 = false
    rw [if_pos hb]
    simp [bit, bitMask]
  · show (Timer.edges n (io.writeReg (4 * k.val + 2) v).timers[k]).2 = _
    rw [w 2 (by decide)]
    exact Timer.edges_writeValue he hr v hn
  · rw [Io.readReg_timer _ _ _ _ hr, w r hr, Timer.readReg_writeReg _ _ hr]

end Sys2Proof.Machine
end

section
/-! PROOFS. Mikey's other devices: an audio channel's firing, the interrupt registers, the cartridge port, the inputs and the mixer
(61_mikey.md R358 to R366; 63_comlynx_cart.md R443 to R446; 62_suzy.md R418). -/

namespace Sys2Proof.Machine

/-! ### Audio channels -/

/-- How many tapped bits are set. -/
def Channel.tapCount (c : Channel) : Nat := (c.taps.map fun t => (t.1 && t.2).toNat).sum

/-- An exclusive-or over a list is the parity of its count. -/
theorem foldl_xor_toNat (l : List (Bool × Bool)) (p : Bool) :
    (l.foldl (fun p t => p ^^ (t.1 && t.2)) p).toNat = (p.toNat + (l.map fun t => (t.1 && t.2).toNat).sum) % 2 := by
  induction l generalizing p with
  | nil => cases p <;> rfl
  | cons t l ih =>
    rw [List.foldl_cons, ih, List.map_cons, List.sum_cons]
    cases p <;> cases t.1 && t.2 <;> simp; omega

/-- The new bit 0 is the inverted parity of the tapped bits. -/
theorem Channel.newBit_eq (c : Channel) : c.newBit = decide (c.tapCount % 2 = 0) := by
  have h := foldl_xor_toNat c.taps false
  unfold Channel.newBit Channel.tapCount
  generalize c.taps.foldl (fun p t => p ^^ (t.1 && t.2)) false = x at h
  rw [Bool.toNat_false, Nat.zero_add] at h
  rw [← h]
  cases x <;> rfl

theorem Channel.newBit_toNat (c : Channel) : c.newBit.toNat = (c.tapCount + 1) % 2 := by
  rw [c.newBit_eq]
  by_cases h : c.tapCount % 2 = 0
  · rw [decide_eq_true h]; simp; omega
  · rw [decide_eq_false h]; simp; omega

/-- A saturated integer, read as a signed byte. -/
theorem saturate_toInt (v : Int) : (saturate v).toInt = max (-128) (min 127 v) := by
  unfold saturate u8
  rw [BitVec.toInt_ofInt]
  split
  · rw [Int.bmod_eq_of_le] <;> omega
  · split
    · rw [Int.bmod_eq_of_le] <;> omega
    · rw [Int.bmod_eq_of_le] <;> omega

/-- The negated volume; of -128 the model says nothing. -/
theorem negatedVolume_toInt (unit now : Nat) {v : Byte} (h : v ≠ 0x80) : (negatedVolume unit now v).toInt = -v.toInt := by
  rw [negatedVolume, if_neg h]
  exact BitVec.toInt_neg_of_ne_intMin h

section
variable (unit now : Nat) (c : Channel)

theorem Channel.fire_shift : (c.fire unit now).shift.toNat = (2 * c.shift.toNat + (c.tapCount + 1) % 2) % 4096 := by
  rw [← c.newBit_toNat]
  exact shl_or_bit_toNat c.shift c.newBit

/-- The sign that the tapped bits give. -/
def Channel.sign (c : Channel) : Int := if c.tapCount % 2 = 0 then 1 else -1

theorem Channel.fire_integrate (h : bit c.timer.ctl 5 = true) :
    (c.fire unit now).output.toInt = max (-128) (min 127 (c.output.toInt + c.sign * c.volume.toInt)) := by
  show (if bit c.timer.ctl 5 then _ else _ : Byte).toInt = _
  rw [if_pos h, saturate_toInt, c.newBit_eq, Channel.sign]
  by_cases ht : c.tapCount % 2 = 0
  · simp [ht]
  · simp [ht, Int.sub_eq_add_neg]

theorem Channel.fire_volume (h : bit c.timer.ctl 5 = false) (hv : c.volume ≠ 0x80 ∨ c.tapCount % 2 = 0) :
    (c.fire unit now).output.toInt = c.sign * c.volume.toInt := by
  show (if bit c.timer.ctl 5 then _ else _ : Byte).toInt = _
  rw [h, c.newBit_eq, Channel.sign]
  by_cases ht : c.tapCount % 2 = 0
  · simp [ht]
  · simp [ht, negatedVolume_toInt unit now (hv.resolve_right ht)]

end

/-- Settles O43. -/
theorem audioFiring : Obligations.AudioFiring := by
  intro unit now c
  have h : c.tapCount = (bit c.feedback 0 && c.shift.getLsbD 0).toNat + (bit c.feedback 1 && c.shift.getLsbD 1).toNat +
      (bit c.feedback 2 && c.shift.getLsbD 2).toNat + (bit c.feedback 3 && c.shift.getLsbD 3).toNat +
      (bit c.feedback 4 && c.shift.getLsbD 4).toNat + (bit c.feedback 5 && c.shift.getLsbD 5).toNat +
      (bit c.timer.ctl 7 && c.shift.getLsbD 7).toNat + (bit c.feedback 6 && c.shift.getLsbD 10).toNat +
      (bit c.feedback 7 && c.shift.getLsbD 11).toNat := by
    simp only [Channel.tapCount, Channel.taps, List.map_cons, List.map_nil, List.sum_cons, List.sum_nil, Nat.add_zero,
      Nat.add_assoc]
  have hshift := c.fire_shift unit now
  have hint := c.fire_integrate unit now
  have hvol := c.fire_volume unit now
  rw [Channel.sign] at hint hvol
  rw [h] at hshift hint hvol
  exact ⟨hshift, hint, hvol, rfl, rfl, rfl⟩

/-! ### Interrupt registers -/

theorem bit_not (b : Byte) {k : Nat} (hk : k < 8) : bit (~~~b) k = !(bit b k) := by simp [bit, hk]

theorem Io.bit_pendingNow (io : Io) {k : Nat} (hk : k < 8) :
    bit io.pendingNow k = (bit io.pending k || (decide (k = 4) && io.serial.irq)) := by
  have h : bit (if io.serial.irq then bitMask 4 else 0) k = (io.serial.irq && decide (k = 4)) := bit_flag _ 4 k hk
  rw [Io.pendingNow, bit_or, h, Bool.and_comm]

theorem Io.irqLine_iff (io : Io) : io.irqLine = true ↔ io.pendingNow ≠ 0 := bne_iff_ne

/-- A serial request keeps the line asserted. -/
theorem Io.irqLine_of_serial {io : Io} (h : io.serial.irq = true) : io.irqLine = true := by
  rw [Io.irqLine_iff]
  intro e
  have h4 := io.bit_pendingNow (k := 4) (by decide)
  rw [e, h] at h4
  simp [bit] at h4

/-- Settles O44. -/
theorem interruptRegisters : Obligations.InterruptRegisters := by
  refine fun io cart pins v => ⟨rfl, rfl, fun k hk => ?_, fun k hk => ?_, fun k _ => bit_or _ _ k, io.irqLine_iff,
    fun h => Io.irqLine_of_serial h⟩
  · rw [io.bit_pendingNow hk, Serial.irq, Bool.and_assoc]
  · show bit (io.pending &&& ~~~v) k = _
    rw [bit_and, bit_not v hk]

/-! ### The cartridge port -/

section
variable (c : Cart) (v : Byte)

theorem Cart.strobe_rises (h : bit v 0 = true) (h0 : bit c.sysctl1 0 = false) :
    c.writeMikeyReg 0x87 v =
      { c with sysctl1 := v, counter := 0, shiftReg := (c.shiftReg <<< 1) ||| (if bit c.iodat 1 then 1 else 0) } := by
  simp [Cart.writeMikeyReg, h, h0]

theorem Cart.strobe_held (h : bit v 0 = false ∨ bit c.sysctl1 0 = true) :
    c.writeMikeyReg 0x87 v = { c with sysctl1 := v } := by
  rcases h with h | h <;> simp [Cart.writeMikeyReg, h]

theorem Cart.bit_readIodat (pins : Byte) {k : Nat} (hk : k < 8) :
    bit (c.readIodat pins) k = if bit c.iodir k then bit c.iodat k else bit pins k := by
  rw [Cart.readIodat, bit_or, bit_and, bit_and, bit_not _ hk]
  cases bit c.iodir k <;> simp

end

/-- The bank that AUDIN selects. -/
theorem Cart.selected_eq (c : Cart) (base variant : List Byte) :
    c.selected base variant =
      if bit c.iodir 4 = true ∧ bit c.iodat 4 = true ∧ variant ≠ [] then variant else base := by
  unfold Cart.selected
  cases bit c.iodir 4 <;> cases bit c.iodat 4 <;> cases variant <;> simp

/-- A bank of 256 pages of a power of two. -/
theorem Cart.current_eq (c : Cart) {bank : List Byte} {bits : Nat} (h : bank.length = 256 * 2 ^ bits) :
    c.current bank = c.shiftReg.toNat * 2 ^ bits + c.counter.toNat % 2 ^ bits := by
  have hp : bank.length / 256 = 2 ^ bits := by rw [h, Nat.mul_div_cancel_left _ (by decide)]
  unfold Cart.current
  simp only [hp, Nat.log2_two_pow, Nat.and_two_pow_sub_one_eq_mod]
  rw [← Nat.shiftLeft_add_eq_or_of_lt (Nat.mod_lt _ (Nat.two_pow_pos bits)), Nat.shiftLeft_eq]

/-- A read of a cartridge port. -/
theorem State.busRead_port {s : State} (hm : bit s.mapctl 0 = false) {a : Word} {port : Byte}
    (ha : 0xFC00 ≤ a.toNat ∧ a.toNat ≤ 0xFCFF) (ho : (lo a).toNat = 0xB2 ∨ (lo a).toNat = 0xB3)
    (hport : ∀ tick, s.suzy.readReg s.cart s.inputs tick (lo a).toNat = port) :
    (s.busRead a).1 = port ∧ (s.busRead a).2.cart = { s.cart with counter := s.cart.counter + 1 } := by
  obtain ⟨-, hsuzy, -⟩ := memoryMap s a
  have hb : s.backingOf a = .suzy := (hsuzy ha).trans (by rw [hm]; rfl)
  refine ⟨(State.peek_suzy (s := s.charge a) hb).trans (hport _), ?_⟩
  rw [(s.busRead_kept a).cart, State.cartAfterRead, if_pos hb, Cart.readEffect, if_pos ho]

/-- Settles O48. -/
theorem cartridgePort : Obligations.CartridgePort := by
  refine ⟨fun c v => ⟨?_, fun h h0 => ?_, fun h => ?_⟩, fun s hm => ?_, fun c bank bits _ h => c.current_eq h,
    fun io c pins v => ⟨fun k hk => c.bit_readIodat pins hk, rfl, rfl⟩⟩
  · unfold Cart.writeMikeyReg
    simp only
    split <;> rfl
  · rw [c.strobe_rises v h h0]
    exact ⟨rfl, shl_or_bit_toNat c.shiftReg (bit c.iodat 1)⟩
  · rw [c.strobe_held v h]
    exact ⟨rfl, rfl⟩
  · obtain ⟨h0, c0⟩ := State.busRead_port (a := 0xFCB2) (port := s.cart.port0) hm (by decide) (by decide) fun _ => rfl
    obtain ⟨h1, c1⟩ := State.busRead_port (a := 0xFCB3) (port := s.cart.port1) hm (by decide) (by decide) fun _ => rfl
    rw [Cart.port0, Cart.selected_eq] at h0
    rw [Cart.port1, Cart.selected_eq] at h1
    exact ⟨h0, c0, h1, c1⟩

/-! ### Inputs and mixer -/

/-- The nine keys as JOYSTICK shows them. -/
theorem bit_joystick (k : BitVec 9) :
    bit (joystick k) 7 = k.getLsbD 1 ∧ bit (joystick k) 6 = k.getLsbD 3 ∧ bit (joystick k) 5 = k.getLsbD 0 ∧
    bit (joystick k) 4 = k.getLsbD 2 ∧ bit (joystick k) 3 = k.getLsbD 4 ∧ bit (joystick k) 2 = k.getLsbD 6 ∧
    bit (joystick k) 1 = k.getLsbD 8 ∧ bit (joystick k) 0 = k.getLsbD 7 := by
  simp [joystick, bit_or, bit_flag]

theorem bit_switches (k : BitVec 9) (tick : Nat) : bit (switches k tick) 0 = k.getLsbD 5 := by
  unfold bit switches
  rw [BitVec.getLsbD_append]
  cases k.getLsbD 5 <;> rfl

theorem Io.gain16_left (io : Io) (c : Fin 4) :
    io.gain16 4 c =
      if bit io.stereo (4 + c.val) then 0
      else if bit io.attenEnable (4 + c.val) then ((io.atten[c].toNat / 16 : Nat) : Int) else 16 := by
  rw [← hiNib_toNat]; rfl

theorem Io.gain16_right (io : Io) (c : Fin 4) :
    io.gain16 0 c =
      if bit io.stereo c.val then 0
      else if bit io.attenEnable c.val then ((io.atten[c].toNat % 16 : Nat) : Int) else 16 := by
  rw [← loNib_toNat, Io.gain16, Nat.zero_add]; rfl

theorem Io.ear16_eq (io : Io) (shift : Nat) :
    io.ear16 shift = ∑ c : Fin 4, io.channels[c].output.toInt * io.gain16 shift c := by
  rw [Fin.sum_univ_four]; rfl

/-- Settles O49. -/
theorem inputsAndMixer : Obligations.InputsAndMixer := by
  refine ⟨fun s keys tick => ?_, fun io inputs => ⟨rfl, rfl⟩, fun since now level rest => ⟨rfl, rfl⟩, fun s => ?_⟩
  · obtain ⟨h7, h6, h5, h4, h3, h2, h1, h0⟩ := bit_joystick keys
    exact ⟨h7, h6, h5, h4, h3, h2, h1, h0, bit_switches keys tick⟩
  · show (s.io.ear16 4, s.io.ear16 0) = _
    simp only [Io.ear16_eq, Io.gain16_left, Io.gain16_right]

end Sys2Proof.Machine
end

section
/-! PROOFS. The serial port: its registers, and a byte from one party to both (63_comlynx_cart.md R430 to R442). -/

namespace Sys2Proof.Machine

/-! ### The registers -/

/-- SERCTL as read, bit by bit (R432). -/
theorem Serial.bit_readCtl (p : Serial) :
    bit p.readCtl 7 = !p.txFull ∧ bit p.readCtl 6 = p.rxFull ∧
    bit p.readCtl 5 = (decide (p.tx = .idle) && !p.txFull) ∧ bit p.readCtl 4 = p.parErr ∧
    bit p.readCtl 3 = p.overrun ∧ bit p.readCtl 2 = p.framErr ∧ bit p.readCtl 1 = p.rxBrk ∧ bit p.readCtl 0 = p.parBit := by
  have h5 : (if p.tx = .idle ∧ p.txFull = false then bitMask 5 else 0) =
      if decide (p.tx = .idle) && !p.txFull then bitMask 5 else (0 : Byte) := by
    cases p.txFull <;> by_cases h : p.tx = .idle <;> simp [h]
  have flag : ∀ (b : Bool) (n k : Nat), k < 8 → bit (if b then bitMask n else 0) k = (b && decide (k = n)) := bit_flag
  rw [Serial.readCtl, h5]
  simp only [bit_or, flag, Nat.reduceLT]
  simp

theorem Serial.writeCtl_eq (p : Serial) (v : Byte) :
    p.writeCtl v =
      { p with
        ctl := v, parErr := p.parErr && !(bit v 3), overrun := p.overrun && !(bit v 3),
        framErr := p.framErr && !(bit v 3), rxBrk := p.rxBrk && !(bit v 3) } := by
  unfold Serial.writeCtl
  cases bit v 3 <;> simp

theorem Serial.txPulse_of_break {p : Serial} (h : bit p.ctl 1 = true) : p.txPulse.pulling = true := by
  show (p.txMove.pulling || bit p.ctl 1) = true
  rw [h, Bool.or_true]

theorem Serial.txPulse_of_noBreak {p : Serial} (h : bit p.ctl 1 = false) : p.txPulse = p.txMove := by
  show { p.txMove with pulling := p.txMove.pulling || bit p.ctl 1 } = p.txMove
  rw [h, Bool.or_false]

/-- Settles O46. -/
theorem serialRegisters : Obligations.SerialRegisters := by
  intro io cart pins v peer
  obtain ⟨h7, h6, h5, h4, h3, h2, h1, h0⟩ := io.serial.bit_readCtl
  obtain ⟨hw, -⟩ := (io.serial.writeData v).bit_readCtl
  obtain ⟨-, hr, -⟩ := io.serial.readDataEffect.bit_readCtl
  refine ⟨h7, h6, h5, h4, h3, h2, h1, h0, io.serial.writeCtl_eq v, rfl, hw, rfl, rfl, hr, fun h => ⟨?_, ?_⟩,
    Serial.txPulse_of_noBreak⟩
  · exact Serial.txPulse_of_break h
  · rw [Serial.txPulse_of_break h]
    rfl

/-! ### One pulse of two parties -/

/-- The pulse of two parties on one wire at bit time `now`. -/
def pairPulse (now : Nat) (q : Serial × Serial) : Serial × Serial :=
  (q.1.txPulse.rxPulse now (wire q.1.txPulse.pulling q.2.txPulse.pulling),
    q.2.txPulse.rxPulse now (wire q.2.txPulse.pulling q.1.txPulse.pulling))

theorem pulses_succ (n : Nat) (q : Serial × Serial) : pulses (n + 1) q = pairPulse n (pulses n q) := rfl

/-- The transmitter's move changes nothing of the receiver. -/
theorem Serial.txMove_eq (p : Serial) : ∃ tx shift full pulling,
    p.txMove = { p with tx := tx, txShift := shift, txFull := full, pulling := pulling } := by
  unfold Serial.txMove Serial.txIdle
  split
  case h_3 =>
    split
    · exact ⟨_, _, _, _, rfl⟩
    · split <;> exact ⟨_, _, _, _, rfl⟩
  case h_1 | h_5 => split <;> exact ⟨_, _, _, _, rfl⟩
  all_goals exact ⟨_, _, _, _, rfl⟩

/-- The receiver's pulse changes nothing of the transmitter. -/
theorem Serial.rxPulse_tx (now : Nat) (w : Bool) (p : Serial) :
    (p.rxPulse now w).tx = p.tx ∧ (p.rxPulse now w).txShift = p.txShift ∧ (p.rxPulse now w).txFull = p.txFull ∧
    (p.rxPulse now w).ctl = p.ctl := by
  unfold Serial.rxPulse Serial.rxMove
  split
  case h_1 => split <;> exact ⟨rfl, rfl, rfl, rfl⟩
  all_goals exact ⟨rfl, rfl, rfl, rfl⟩

/-! ### The sender and the other party -/

/-- The first party sends `v` and is at `tx`; the second sends nothing; both are set to `ctl`. -/
structure OnWire (v ctl : Byte) (tx : TxState) (q : Serial × Serial) : Prop where
  tx : q.1.tx = tx
  shift : q.1.txShift = v
  sent : q.1.txFull = false
  silent : q.2.tx = .idle ∧ q.2.txFull = false
  ctl : q.1.ctl = ctl ∧ q.2.ctl = ctl

/-- A party with nothing to send releases the wire. -/
theorem Serial.txPulse_silent {p : Serial} (hb : bit p.ctl 1 = false) (ht : p.tx = .idle) (hf : p.txFull = false) :
    p.txPulse = { p with tx := .idle, pulling := false } := by
  rw [Serial.txPulse_of_noBreak hb]
  simp [Serial.txMove, Serial.txIdle, ht, hf]

/-- One pulse: the sender moves on to `tx'` and puts `w` on the wire, which both hear. -/
theorem OnWire.pulse {v ctl : Byte} {tx tx' : TxState} {w : Bool} {q : Serial × Serial} (h : OnWire v ctl tx q)
    (hb : bit ctl 1 = false) (now : Nat) (hm : q.1.txMove = { q.1 with tx := tx', pulling := !w }) :
    OnWire v ctl tx' (pairPulse now q) ∧ (pairPulse now q).1 = q.1.txMove.rxPulse now w ∧
      (pairPulse now q).2 = q.2.txMove.rxPulse now w := by
  obtain ⟨ht2, hf2⟩ := h.silent
  obtain ⟨hc1, hc2⟩ := h.ctl
  have e1 : q.1.txPulse = q.1.txMove := Serial.txPulse_of_noBreak (by rw [hc1]; exact hb)
  have e2 : q.2.txPulse = q.2.txMove := Serial.txPulse_of_noBreak (by rw [hc2]; exact hb)
  have m2 : q.2.txMove = { q.2 with tx := .idle, pulling := false } := e2 ▸ Serial.txPulse_silent (by rw [hc2]; exact hb) ht2 hf2
  have p1 : (pairPulse now q).1 = q.1.txMove.rxPulse now w := by
    show q.1.txPulse.rxPulse now (wire q.1.txPulse.pulling q.2.txPulse.pulling) = _
    rw [e1, e2, hm, m2]
    cases w <;> rfl
  have p2 : (pairPulse now q).2 = q.2.txMove.rxPulse now w := by
    show q.2.txPulse.rxPulse now (wire q.2.txPulse.pulling q.1.txPulse.pulling) = _
    rw [e1, e2, hm, m2]
    cases w <;> rfl
  refine ⟨?_, p1, p2⟩
  obtain ⟨a1, a2, a3, a4⟩ := Serial.rxPulse_tx now w q.1.txMove
  obtain ⟨b1, -, b3, b4⟩ := Serial.rxPulse_tx now w q.2.txMove
  refine ⟨?_, ?_, ?_, ⟨?_, ?_⟩, ?_, ?_⟩
  · rw [p1, a1, hm]
  · rw [p1, a2, hm]; exact h.shift
  · rw [p1, a3, hm]; exact h.sent
  · rw [p2, b1, m2]
  · rw [p2, b3, m2]; exact hf2
  · rw [p1, a4, Serial.txMove_ctl]; exact hc1
  · rw [p2, b4, Serial.txMove_ctl]; exact hc2

/-! ### The receivers -/

/-- A receiver at `rx` that has nothing in its buffer and met no error. -/
structure Serial.Clean (rx : RxState) (p : Serial) : Prop where
  rx : p.rx = rx
  rxFull : p.rxFull = false
  framErr : p.framErr = false
  parErr : p.parErr = false
  overrun : p.overrun = false

theorem Serial.Clean.txMove {rx : RxState} {p : Serial} (h : p.Clean rx) : p.txMove.Clean rx := by
  obtain ⟨_, _, _, _, e⟩ := p.txMove_eq
  rw [e]
  exact ⟨h.rx, h.rxFull, h.framErr, h.parErr, h.overrun⟩

theorem Serial.txMove_rxShift (p : Serial) : p.txMove.rxShift = p.rxShift := by
  obtain ⟨_, _, _, _, e⟩ := p.txMove_eq
  rw [e]

theorem Serial.txMove_rxPar (p : Serial) : p.txMove.rxPar = p.rxPar := by
  obtain ⟨_, _, _, _, e⟩ := p.txMove_eq
  rw [e]

/-- Where a receiver is after its eighth bit. -/
def afterData (parity : Bool) (k : Nat) : RxState := if k < 7 then .data (k + 1) else if parity then .parity else .stop

/-- A data bit is taken in. -/
theorem Serial.Clean.takeBit {k : Nat} {p : Serial} (h : p.Clean (.data k)) (hk : k < 8) (now : Nat) (v : Byte)
    (hv : ∀ j < k, bit p.rxShift j = bit v j) :
    (p.rxPulse now (bit v k)).Clean (afterData p.parEn k) ∧
      ∀ j < k + 1, bit (p.rxPulse now (bit v k)).rxShift j = bit v j := by
  have hm : p.rxMove now (bit v k) =
      { p with
        rxShift := if bit v k then p.rxShift ||| bitMask k else p.rxShift &&& ~~~(bitMask k)
        rx := afterData p.parEn k } := by
    unfold Serial.rxMove
    rw [h.rx]
    rfl
  refine ⟨⟨?_, ?_, ?_, ?_, ?_⟩, fun j hj => ?_⟩
  · show (p.rxMove now (bit v k)).rx = _
    rw [hm]
  · show (p.rxMove now (bit v k)).rxFull = _
    rw [hm]; exact h.rxFull
  · show (p.rxMove now (bit v k)).framErr = _
    rw [hm]; exact h.framErr
  · show (p.rxMove now (bit v k)).parErr = _
    rw [hm]; exact h.parErr
  · show (p.rxMove now (bit v k)).overrun = _
    rw [hm]; exact h.overrun
  · show bit (p.rxMove now (bit v k)).rxShift j = _
    rw [hm]
    show bit (if bit v k then p.rxShift ||| bitMask k else p.rxShift &&& ~~~(bitMask k)) j = _
    rw [bit_modified k (bit v k) p.rxShift (by omega)]
    split
    · next e => rw [e]
    · next e => exact hv j (by omega)

/-- The parity bit is taken in. -/
theorem Serial.Clean.takeParity {p : Serial} (h : p.Clean .parity) (now : Nat) (w : Bool) :
    (p.rxPulse now w).Clean .stop ∧ (p.rxPulse now w).rxShift = p.rxShift ∧ (p.rxPulse now w).rxPar = w := by
  have hm : p.rxMove now w = { p with rxPar := w, rx := .stop } := by
    unfold Serial.rxMove
    rw [h.rx]
  unfold Serial.rxPulse
  rw [hm]
  exact ⟨⟨rfl, h.rxFull, h.framErr, h.parErr, h.overrun⟩, rfl, rfl⟩

/-- The byte is in the receive buffer without an error. -/
structure Serial.Holds (v : Byte) (p : Serial) : Prop where
  rxBuf : p.rxBuf = v
  rxFull : p.rxFull = true
  framErr : p.framErr = false
  parErr : p.parErr = false
  overrun : p.overrun = false

/-- The stop bit delivers the byte. -/
theorem Serial.Clean.deliver {p : Serial} (h : p.Clean .stop) (now : Nat)
    (hp : p.parEn = true → p.rxPar = p.parityOf p.rxShift) : (p.rxPulse now true).Holds p.rxShift := by
  have hm : p.rxMove now true = p.deliver now true := by
    unfold Serial.rxMove
    rw [h.rx]
  unfold Serial.rxPulse
  rw [hm]
  refine ⟨rfl, rfl, ?_, ?_, ?_⟩
  · show (p.framErr || !true) = false
    rw [h.framErr]; rfl
  · show (p.parErr || (p.parEn && p.rxPar != p.parityOf p.rxShift)) = false
    rw [h.parErr, Bool.false_or]
    cases he : p.parEn with
    | false => rfl
    | true => rw [hp he]; simp
  · show (p.overrun || p.rxFull) = false
    rw [h.overrun, h.rxFull]; rfl

/-! ### A byte crosses the wire -/

/-- Both receivers at `rx`, with the bits below `k` of `v` taken in. -/
def Hearing (v : Byte) (rx : RxState) (k : Nat) (q : Serial × Serial) : Prop :=
  (q.1.Clean rx ∧ ∀ j < k, bit q.1.rxShift j = bit v j) ∧ (q.2.Clean rx ∧ ∀ j < k, bit q.2.rxShift j = bit v j)

section
variable {v ctl : Byte} (hb : bit ctl 1 = false)
include hb

theorem Hearing.pulse {tx tx' : TxState} {k : Nat} {q : Serial × Serial} (hk : k < 8) (h : OnWire v ctl tx q)
    (g : Hearing v (.data k) k q) (now : Nat) (hm : q.1.txMove = { q.1 with tx := tx', pulling := !(bit v k) }) :
    OnWire v ctl tx' (pairPulse now q) ∧ Hearing v (afterData (bit ctl 4) k) (k + 1) (pairPulse now q) := by
  obtain ⟨hw, e1, e2⟩ := h.pulse hb now hm
  obtain ⟨⟨c1, b1⟩, c2, b2⟩ := g
  obtain ⟨hc1, hc2⟩ := h.ctl
  have take : ∀ p : Serial, p.ctl = ctl → p.Clean (.data k) → (∀ j < k, bit p.rxShift j = bit v j) →
      (p.txMove.rxPulse now (bit v k)).Clean (afterData (bit ctl 4) k) ∧
        ∀ j < k + 1, bit (p.txMove.rxPulse now (bit v k)).rxShift j = bit v j := fun p hc c b => by
    have hpar : p.txMove.parEn = bit ctl 4 := by rw [Serial.parEn, Serial.txMove_ctl, hc]
    rw [← hpar]
    exact c.txMove.takeBit hk now v fun j hj => by rw [p.txMove_rxShift]; exact b j hj
  refine ⟨hw, ?_, ?_⟩
  · rw [e1]; exact take _ hc1 c1 b1
  · rw [e2]; exact take _ hc2 c2 b2

end

/-- The transmitter's first pulse of a byte starts both receivers. -/
theorem pulse_start {v ctl : Byte} (hb : bit ctl 1 = false) {q : Serial × Serial}
    (hq : q = ({ Serial.reset with ctl := ctl, txBuf := v, txFull := true }, { Serial.reset with ctl := ctl })) :
    OnWire v ctl .start (pairPulse 0 q) ∧ Hearing v (.data 0) 0 (pairPulse 0 q) := by
  have e1 : q.1.txPulse =
      { Serial.reset with ctl := ctl, txBuf := v, txShift := v, txFull := false, tx := .start, pulling := true } := by
    rw [hq, Serial.txPulse_of_noBreak hb]; rfl
  have e2 : q.2.txPulse = { Serial.reset with ctl := ctl, tx := .idle, pulling := false } := by
    rw [hq]; exact Serial.txPulse_silent hb rfl rfl
  unfold pairPulse
  rw [e1, e2]
  exact ⟨⟨rfl, rfl, rfl, ⟨rfl, rfl⟩, rfl, rfl⟩, ⟨⟨rfl, rfl, rfl, rfl, rfl⟩, nofun⟩, ⟨rfl, rfl, rfl, rfl, rfl⟩, nofun⟩

/-- From the start bit to data bit `n`. -/
theorem pulses_data {v ctl : Byte} (hb : bit ctl 1 = false) {q : Serial × Serial}
    (hq : q = ({ Serial.reset with ctl := ctl, txBuf := v, txFull := true }, { Serial.reset with ctl := ctl })) {n : Nat}
    (hn : n < 8) :
    OnWire v ctl (.data n) (pulses (n + 2) q) ∧ Hearing v (afterData (bit ctl 4) n) (n + 1) (pulses (n + 2) q) := by
  induction n with
  | zero =>
    obtain ⟨h, g⟩ := pulse_start hb hq
    refine Hearing.pulse hb (by decide) h g 1 ?_
    unfold Serial.txMove
    simp only [h.tx, h.shift]
  | succ n ih =>
    obtain ⟨h, g⟩ := ih (by omega)
    rw [afterData, if_pos (by omega)] at g
    refine Hearing.pulse hb hn h g (n + 2) ?_
    unfold Serial.txMove
    simp only [h.tx, h.shift]
    rw [if_pos (by omega)]

/-- Both receivers hold all eight bits and, with parity, the parity bit. -/
structure Complete (v ctl : Byte) (q : Serial × Serial) : Prop where
  first : q.1.Clean .stop ∧ q.1.rxShift = v
  second : q.2.Clean .stop ∧ q.2.rxShift = v
  parity : bit ctl 4 = true → q.1.rxPar = q.1.parityOf v ∧ q.2.rxPar = q.2.parityOf v

/-- The stop bit, with which both hold the byte. -/
theorem Complete.pulse {v ctl : Byte} (hb : bit ctl 1 = false) {tx : TxState} {q : Serial × Serial}
    (h : OnWire v ctl tx q) (g : Complete v ctl q) (now : Nat)
    (hm : q.1.txMove = { q.1 with tx := .stop, pulling := false }) :
    OnWire v ctl .stop (pairPulse now q) ∧ (pairPulse now q).1.Holds v ∧ (pairPulse now q).2.Holds v := by
  obtain ⟨hw, e1, e2⟩ := h.pulse (w := true) hb now hm
  have take : ∀ p : Serial, p.ctl = ctl → p.Clean .stop → p.rxShift = v →
      (bit ctl 4 = true → p.rxPar = p.parityOf v) → (p.txMove.rxPulse now true).Holds v := fun p hc c hs hp => by
    have hpar : ∀ b, p.txMove.parityOf b = p.parityOf b := fun b => by
      unfold Serial.parityOf Serial.parEven
      rw [Serial.txMove_ctl]
    have := c.txMove.deliver now fun he => by
      rw [p.txMove_rxPar, p.txMove_rxShift, hpar, hs]
      exact hp (by rw [← hc, ← p.txMove_ctl]; exact he)
    rwa [p.txMove_rxShift, hs] at this
  refine ⟨hw, ?_, ?_⟩
  · rw [e1]; exact take _ h.ctl.1 g.first.1 g.first.2 fun hp => (g.parity hp).1
  · rw [e2]; exact take _ h.ctl.2 g.second.1 g.second.2 fun hp => (g.parity hp).2

/-- The parity bit, with which both are complete. -/
theorem Hearing.parity {v ctl : Byte} (hb : bit ctl 1 = false) (hp : bit ctl 4 = true) {q : Serial × Serial}
    (h : OnWire v ctl (.data 7) q) (g : Hearing v .parity 8 q) (now : Nat) :
    OnWire v ctl .parity (pairPulse now q) ∧ Complete v ctl (pairPulse now q) := by
  have hm : q.1.txMove = { q.1 with tx := .parity, pulling := !(q.1.parityOf v) } := by
    have he : q.1.parEn = true := by rw [Serial.parEn, h.ctl.1, hp]
    unfold Serial.txMove
    simp only [h.tx, h.shift, he]
    rfl
  obtain ⟨hw, e1, e2⟩ := h.pulse hb now hm
  obtain ⟨⟨c1, b1⟩, c2, b2⟩ := g
  have take : ∀ p r : Serial, p.ctl = ctl → p.Clean .parity → (∀ j < 8, bit p.rxShift j = bit v j) →
      r = p.txMove.rxPulse now (q.1.parityOf v) → r.Clean .stop ∧ r.rxShift = v ∧ r.rxPar = r.parityOf v := by
    intro p r hc c b hr
    obtain ⟨h1, h2, h3⟩ := c.txMove.takeParity now (q.1.parityOf v)
    refine ⟨hr ▸ h1, ?_, ?_⟩
    · rw [hr, h2, p.txMove_rxShift]; exact byte_ext b
    · rw [hr, h3]
      unfold Serial.parityOf Serial.parEven
      rw [(Serial.rxPulse_tx _ _ _).2.2.2, p.txMove_ctl, hc, h.ctl.1]
  obtain ⟨x1, y1, z1⟩ := take _ _ h.ctl.1 c1 b1 e1
  obtain ⟨x2, y2, z2⟩ := take _ _ h.ctl.2 c2 b2 e2
  exact ⟨hw, ⟨x1, y1⟩, ⟨x2, y2⟩, fun _ => ⟨z1, z2⟩⟩

/-- A byte sent is a byte received by both, with and without parity. -/
theorem pulses_byte {v ctl : Byte} (hb : bit ctl 1 = false) {q : Serial × Serial}
    (hq : q = ({ Serial.reset with ctl := ctl, txBuf := v, txFull := true }, { Serial.reset with ctl := ctl })) :
    OnWire v ctl .stop (pulses (if bit ctl 4 then 11 else 10) q) ∧
      (pulses (if bit ctl 4 then 11 else 10) q).1.Holds v ∧ (pulses (if bit ctl 4 then 11 else 10) q).2.Holds v := by
  obtain ⟨h, g⟩ := pulses_data hb hq (n := 7) (by decide)
  cases hp : bit ctl 4 with
  | true =>
    rw [hp] at g
    obtain ⟨h, g⟩ := Hearing.parity hb hp h g 9
    refine Complete.pulse hb h g 10 ?_
    unfold Serial.txMove
    simp only [h.tx]
  | false =>
    rw [hp] at g
    obtain ⟨⟨c1, b1⟩, c2, b2⟩ := g
    have complete : Complete v ctl (pulses 9 q) :=
      ⟨⟨c1, byte_ext b1⟩, ⟨c2, byte_ext b2⟩, fun e => nomatch hp.symm.trans e⟩
    refine Complete.pulse hb h complete 9 ?_
    have he : (pulses 9 q).1.parEn = false := by rw [Serial.parEn, h.ctl.1, hp]
    unfold Serial.txMove
    simp only [h.tx, he]
    rfl

/-- Settles O45. -/
theorem serialByte : Obligations.SerialByte := by
  refine ⟨fun v ctl hb => ?_, by decide⟩
  obtain ⟨hw, h1, h2⟩ := pulses_byte (v := v) hb rfl
  exact ⟨hw.sent, h2.rxBuf, h2.rxFull, h2.framErr, h2.parErr, h2.overrun, h1.rxBuf, h1.rxFull, h1.framErr, h1.parErr,
    h1.overrun⟩

end Sys2Proof.Machine
end

section
/-! PROOFS. The display's reads, lines and frames (61_mikey.md R348 to R353). -/

namespace Sys2Proof.Machine

/-! ### A display read -/

theorem Video.address_toNat (v : Video) : v.address.toNat = (v.base.toNat + 80 * v.line + v.fetched) % 65536 := by
  show (v.base + BitVec.ofNat 16 (v.line * 80 + v.fetched)).toNat = _
  rw [BitVec.toNat_add, BitVec.toNat_ofNat]
  omega

section
variable (io : Io) (m : Byte) (ram : List Host.Cell)

/-- No frame period ends in the read's own ticks. -/
theorem Io.pixelAction_take (h : io.frameDue ≠ none ∨ (io.access m false io.video.address).frameDue = none) :
    io.pixelAction m ram = (io.access m false io.video.address).takeByte (Ram.read ram io.video.address.toNat) := by
  unfold Io.pixelAction
  refine if_neg fun hc => ?_
  simp only [Bool.and_eq_true, Option.isNone_iff_eq_none, Option.isSome_iff_ne_none] at hc
  exact h.elim (fun h => h hc.2) fun h => hc.1 h

/-- A frame period ends in the read's own ticks. -/
theorem Io.pixelAction_drop {f : Nat} (h : io.frameDue = none)
    (hf : (io.access m false io.video.address).frameDue = some f) :
    io.pixelAction m ram = (io.access m false io.video.address).endFrame := by
  unfold Io.pixelAction
  exact if_pos (by simp [h, hf])

/-- The line start that is queued before the end of the frame period. -/
theorem Io.lineFirst_iff {f : Nat} (hf : io.frameDue = some f) :
    io.lineFirst = true ↔ ∃ l, io.lineDue = some l ∧ l < f := by
  unfold Io.lineFirst
  rw [hf]
  cases io.lineDue with
  | none => simp
  | some l => simp

theorem Io.endFrame_lineFirst {f : Nat} (hf : io.frameDue = some f) (h : ∃ l, io.lineDue = some l ∧ l < f) :
    io.endFrame = io.lineAction.frameAction := if_pos ((io.lineFirst_iff hf).2 h)

theorem Io.endFrame_noLine {f : Nat} (hf : io.frameDue = some f) (h : ∀ l, io.lineDue = some l → f ≤ l) :
    io.endFrame = io.frameAction :=
  if_neg fun hc => by
    obtain ⟨l, hl, hlt⟩ := (io.lineFirst_iff hf).1 hc
    exact absurd (h l hl) (Nat.not_le.2 hlt)

end

/-! ### A line of bytes -/

/-- Bytes that do not complete a line gather in its buffer; the palette stands. -/
theorem foldl_takeByte (bytes : List Byte) {io : Io} (h : io.video.fetched + bytes.length < 80) :
    (bytes.foldl (fun q b => q.takeByte b) io).video =
      { io.video with
        fetched := io.video.fetched + bytes.length, lineBuf := io.video.lineBuf ++ bytes.flatMap io.pixels } ∧
    (bytes.foldl (fun q b => q.takeByte b) io).pixels = io.pixels := by
  induction bytes generalizing io with
  | nil => exact ⟨by simp, rfl⟩
  | cons b bytes ih =>
    rw [List.length_cons] at h
    have hv : (io.takeByte b).video =
        { io.video with fetched := io.video.fetched + 1, lineBuf := io.video.lineBuf ++ io.pixels b } :=
      if_neg (show ¬io.video.fetched + 1 = 80 by omega)
    obtain ⟨h1, h2⟩ := ih (io := io.takeByte b) (by rw [hv]; show io.video.fetched + 1 + _ < 80; omega)
    rw [List.foldl_cons, h1, h2, hv]
    refine ⟨?_, rfl⟩
    simp only [List.length_cons, List.flatMap_cons, List.append_assoc]
    rw [Nat.add_assoc, Nat.add_comm 1]
    rfl

/-- The byte that completes a line. -/
theorem Io.takeByte_last {io : Io} (b : Byte) (h : io.video.fetched + 1 = 80) :
    (io.takeByte b).pixelDue = none ∧
    (io.takeByte b).video =
      ({ io.video with fetched := 80, lineBuf := io.video.lineBuf ++ io.pixels b } : Video).emitLine := by
  refine ⟨if_pos h, ?_⟩
  rw [← h]
  exact if_pos h

/-- A line is emitted; after the last one the frame is committed. -/
theorem Video.emitLine_spec (v : Video) :
    v.emitLine.line = v.line + 1 ∧ v.emitLine.fetched = 0 ∧ v.emitLine.lineBuf = [] ∧
    if v.line = 101 then
      v.emitLine.sink = v.frame ++ v.lineBuf ∧ v.emitLine.frames = v.frames + 1 ∧ v.emitLine.frame = []
    else v.emitLine.frame = v.frame ++ v.lineBuf ∧ v.emitLine.sink = v.sink ∧ v.emitLine.frames = v.frames := by
  have hc : v.line + 1 = Config.frameLines ↔ v.line = 101 := by
    show v.line + 1 = 102 ↔ _
    omega
  unfold Video.emitLine
  simp only [hc]
  split <;> exact ⟨rfl, rfl, rfl, rfl, rfl, rfl⟩

/-- Eighty bytes make a line. -/
theorem foldl_takeByte_line {io : Io} {bytes : List Byte} (hlen : bytes.length = 80) (hf : io.video.fetched = 0)
    (hb : io.video.lineBuf = []) :
    (bytes.foldl (fun q b => q.takeByte b) io).pixelDue = none ∧
    (bytes.foldl (fun q b => q.takeByte b) io).video =
      ({ io.video with fetched := 80, lineBuf := bytes.flatMap io.pixels } : Video).emitLine := by
  obtain ⟨init, last, rfl⟩ : ∃ init last, bytes = init ++ [last] :=
    ⟨_, _, (List.dropLast_append_getLast (List.ne_nil_of_length_eq_add_one hlen)).symm⟩
  rw [List.length_append, List.length_singleton] at hlen
  obtain ⟨hv, hp⟩ := foldl_takeByte init (io := io) (by omega)
  rw [List.foldl_append, List.foldl_cons, List.foldl_nil]
  obtain ⟨h1, h2⟩ := Io.takeByte_last (io := init.foldl (fun q b => q.takeByte b) io) last (by rw [hv]; show _ + _ + 1 = 80; omega)
  refine ⟨h1, ?_⟩
  rw [h2, hv, hp, hb, List.flatMap_append, List.flatMap_singleton, List.nil_append]

/-! ### Starts and gaps -/

theorem Io.lineAction_start {io : Io} (h : io.video.line < 102) :
    io.lineAction =
      { io with
        lineDue := none, pixelDue := some (io.tick + io.gap Config.lineBytes), video := io.video.startLine io.dispadr } :=
  if_pos h

/-- The gap before a read leaves 10 ticks for each read that is left. -/
theorem Io.gap_le {io : Io} {left avail : Nat} (ha : io.lineLeft = some avail) (h : 10 * left ≤ avail) :
    io.gap left + 10 * left ≤ avail := by
  unfold Io.gap
  rw [ha]
  have := Nat.mod_lt (Config.dmaGap io.tick) (show 0 < 1 + (avail - 10 * left) by omega)
  simp only
  omega

/-- Settles O51. -/
theorem displayFrame : Obligations.DisplayFrame := by
  refine ⟨fun io m ram => ⟨io.video.address_toNat, io.pixelAction_take m ram, fun f h hf => ⟨fun hl => ?_, fun hl => ?_⟩⟩,
    fun io bytes hlen hf hb _ => ?_, fun io => ⟨fun h => ?_, fun h => if_neg (Nat.not_lt.2 h), rfl, fun left avail _ =>
      Io.gap_le⟩⟩
  · rw [io.pixelAction_drop m ram h hf, Io.endFrame_lineFirst _ hf hl]
  · rw [io.pixelAction_drop m ram h hf, Io.endFrame_noLine _ hf hl]
  · obtain ⟨hd, hv⟩ := foldl_takeByte_line hlen hf hb
    obtain ⟨h1, h2, h3, h4⟩ :=
      Video.emitLine_spec { io.video with fetched := 80, lineBuf := bytes.flatMap io.pixels }
    rw [← hv] at h1 h2 h3 h4
    exact ⟨hd, h1, h2, h3, h4⟩
  · rw [Io.lineAction_start h]
    exact ⟨rfl, _, rfl, Nat.le_add_right _ _⟩

end Sys2Proof.Machine
end

section
/-! PROOFS. The start of sprite processing and the pixel parser (62_suzy.md R384, R399 to R403). -/

namespace Sys2Proof.Machine

/-! ### SPRGO -/

/-- Settles O52. -/
theorem spriteGo : Obligations.SpriteGo := by
  intro s v hw hm
  obtain ⟨-, hsuzy, -⟩ := memoryMap s 0xFC91
  have hb : s.backingOf 0xFC91 = .suzy := (hsuzy (by decide)).trans (by rw [hm]; rfl)
  have h : (s.busWrite 0xFC91 v).suzy = s.suzy.writeSprgo v := by
    rw [(State.busWrite_stored hw _ v).suzy, if_pos hb]; rfl
  rw [h]
  exact ⟨fun hv => if_pos hv, fun hv => if_neg (by rw [hv]; exact Bool.false_ne_true)⟩

/-! ### The shifter -/

theorem Suzy.look_eq (z : Suzy) (k : Nat) : z.look k = z.shifter.toNat / 2 ^ (32 - k) := by
  rw [Suzy.look, BitVec.toNat_ushiftRight, Nat.shiftRight_eq_div_pow]

theorem Suzy.look_lt (z : Suzy) {k : Nat} (hk : k ≤ 32) : z.look k < 2 ^ k := by
  rw [z.look_eq, Nat.div_lt_iff_lt_mul (Nat.two_pow_pos _), ← Nat.pow_add, Nat.add_sub_cancel' hk]
  exact z.shifter.isLt

theorem Suzy.bpp_le (z : Suzy) : z.bpp ≤ 4 := by
  have := (z.sprctl0.extractLsb' 6 2).isLt
  unfold Suzy.bpp
  omega

/-- A pen fits its nibble. -/
theorem Suzy.pen_toNat (z : Suzy) : (BitVec.ofNat 4 (z.look z.bpp)).toNat = z.look z.bpp := by
  have h := z.look_lt (k := z.bpp) (by have := z.bpp_le; omega)
  have hp : 2 ^ z.bpp ≤ 2 ^ 4 := Nat.pow_le_pow_right (by decide) z.bpp_le
  rw [BitVec.toNat_ofNat]
  exact Nat.mod_eq_of_lt (by omega)

/-- The flag of a block header is its top bit. -/
theorem Suzy.look_flag (z : Suzy) : z.look 1 = z.look 5 / 16 := by
  rw [z.look_eq, z.look_eq]
  omega

theorem Suzy.look_flag_lt (z : Suzy) : z.look 1 < 2 := z.look_lt (by decide)

/-- A byte enters behind the bits that the shifter holds. -/
theorem shifter_push {s : BitVec 32} {n : Nat} (b : Byte) (hn : n ≤ 24) (h : s.toNat % 2 ^ (32 - n) = 0) :
    (s ||| ((b.setWidth 32 <<< 24) >>> n)).toNat = s.toNat + b.toNat * 2 ^ (24 - n) := by
  have hb := b.isLt
  have h24 : (2 : Nat) ^ 24 = 2 ^ (24 - n) * 2 ^ n := by rw [← Nat.pow_add]; congr 1; omega
  have h32 : (2 : Nat) ^ (32 - n) = 2 ^ 8 * 2 ^ (24 - n) := by rw [← Nat.pow_add]; congr 1; omega
  have low : ((b.setWidth 32 <<< 24) >>> n).toNat = b.toNat * 2 ^ (24 - n) := by
    rw [BitVec.toNat_ushiftRight, BitVec.toNat_shiftLeft, BitVec.toNat_setWidth, Nat.shiftRight_eq_div_pow,
      Nat.shiftLeft_eq, Nat.mod_eq_of_lt (a := b.toNat) (by omega), Nat.mod_eq_of_lt (by omega), h24, ← Nat.mul_assoc,
      Nat.mul_div_cancel _ (Nat.two_pow_pos n)]
  have lt : b.toNat * 2 ^ (24 - n) < 2 ^ (32 - n) := by
    rw [h32]
    exact Nat.mul_lt_mul_of_pos_right hb (Nat.two_pow_pos _)
  have high : s.toNat = (s.toNat / 2 ^ (32 - n)) <<< (32 - n) := by
    rw [Nat.shiftLeft_eq, Nat.div_mul_cancel (Nat.dvd_of_mod_eq_zero h)]
  rw [BitVec.toNat_or, low]
  conv_lhs => rw [high, ← Nat.shiftLeft_add_eq_or_of_lt lt, ← high]

/-! ### The parser's moves -/

section
variable {z : Suzy}

/-- The fields that a taken pen sets. -/
theorem Suzy.takePen_spec (z : Suzy) (next : Nibble → Parse) :
    (z.takePen next).parse = next (BitVec.ofNat 4 (z.look z.bpp)) ∧
    ((z.takePen next).curPen.toNat = z.look z.bpp ∧ (z.takePen next).colsLeft = (hi (z.hsizacum + z.sprhsiz)).toNat ∧
      (z.takePen next).hsizacum = zext (lo (z.hsizacum + z.sprhsiz)) ∧ (z.takePen next).phase = z.phase) ∧
    ((z.takePen next).shifter = z.shifter <<< z.bpp ∧ (z.takePen next).shiftCount = z.shiftCount - z.bpp ∧
      (z.takePen next).budget = z.budget - z.bpp) :=
  ⟨rfl, ⟨z.pen_toNat, rfl, rfl, rfl⟩, rfl, rfl, rfl⟩

theorem Suzy.parseMove_short (h : z.budget < z.needed) : z.parseMove = { z with phase := .rowVideo } := if_pos h

theorem Suzy.parseMove_literal (hp : z.parse = .literal) (h : z.bpp ≤ z.budget) :
    z.parseMove = z.takePen fun _ => .literal := by
  unfold Suzy.parseMove Suzy.needed
  simp only [hp, if_neg (Nat.not_lt.2 h)]

theorem Suzy.parseMove_block {n : Nat} (hp : z.parse = .block (n + 1)) (h : z.bpp ≤ z.budget) :
    z.parseMove = z.takePen fun _ => .block n := by
  unfold Suzy.parseMove Suzy.needed
  simp only [hp, if_neg (Nat.not_lt.2 h)]

theorem Suzy.parseMove_runPen {n : Nat} (hp : z.parse = .runPen n) (h : z.bpp ≤ z.budget) :
    z.parseMove = z.takePen fun p => .run n p := by
  unfold Suzy.parseMove Suzy.needed
  simp only [hp, if_neg (Nat.not_lt.2 h)]

theorem Suzy.parseMove_header (hp : z.parse = .header) (h : 5 ≤ z.budget) : z.parseMove = z.takeHeader := by
  unfold Suzy.parseMove Suzy.needed
  simp only [hp, if_neg (Nat.not_lt.2 h)]

theorem Suzy.parseMove_done (hp : z.parse = .block 0 ∨ ∃ pen, z.parse = .run 0 pen) :
    z.parseMove = { z with parse := .header } := by
  unfold Suzy.parseMove Suzy.needed
  rcases hp with hp | ⟨pen, hp⟩ <;> simp only [hp, if_neg (Nat.not_lt_zero _)]

theorem Suzy.parseMove_run {n : Nat} {pen : Nibble} (hp : z.parse = .run (n + 1) pen) :
    z.parseMove = { z.emit pen with parse := .run n pen } := by
  unfold Suzy.parseMove Suzy.needed
  simp only [hp, if_neg (Nat.not_lt_zero _)]

theorem Suzy.takeHeader_block (h : z.look 1 = 1) :
    z.takeHeader = { z.drop 5 with parse := .block (z.look 5 % 16 + 1) } := if_pos (z.look_flag.symm.trans h)

theorem Suzy.takeHeader_end (h : z.look 1 = 0) (hc : z.look 5 % 16 = 0) :
    z.takeHeader = { z.drop 5 with phase := .rowVideo } := by
  unfold Suzy.takeHeader
  simp only [← z.look_flag, h, hc]
  rfl

theorem Suzy.takeHeader_run (h : z.look 1 = 0) (hc : z.look 5 % 16 ≠ 0) :
    z.takeHeader = { z.drop 5 with parse := .runPen (z.look 5 % 16) } := by
  unfold Suzy.takeHeader
  simp only [← z.look_flag, h, if_neg hc]
  rfl

/-- A header leaves the shifter and the budget, whatever it says. -/
theorem Suzy.takeHeader_took (z : Suzy) :
    z.takeHeader.shifter = z.shifter <<< 5 ∧ z.takeHeader.shiftCount = z.shiftCount - 5 ∧
    z.takeHeader.budget = z.budget - 5 := by
  unfold Suzy.takeHeader
  simp only
  split
  · exact ⟨rfl, rfl, rfl⟩
  · split <;> exact ⟨rfl, rfl, rfl⟩

theorem Suzy.request_parse (hp : z.phase = .parse) :
    z.request =
      if z.colsLeft = 0 ∧ z.needed ≤ z.budget ∧ z.needed ≠ 0 ∧ z.shiftCount < 24 ∧ z.shiftCount < z.budget then
        some (.read z.procadr)
      else none := by
  unfold Suzy.request Suzy.refills Suzy.parsing
  simp only [hp, Bool.and_eq_true, beq_iff_eq, bne_iff_ne, decide_eq_true_eq, and_assoc]

theorem Suzy.move_parse (hp : z.phase = .parse) (hc : z.colsLeft = 0) : z.move = z.parseMove := by
  unfold Suzy.move Suzy.rowMove
  simp only [hp, if_pos hc]

theorem Suzy.gotByte_parse (hp : z.phase = .parse) (b : Byte) : z.gotByte b = z.pushByte b := by
  unfold Suzy.gotByte
  simp only [hp]

end

/-- Settles O54. -/
theorem pixelParser : Obligations.PixelParser := by
  intro z b
  simp only [← z.look_eq]
  refine ⟨fun hb => ⟨fun hp => ?_, fun n hp => ?_, fun n hp => ?_⟩, fun hp hb => ?_, Suzy.parseMove_done, fun n pen hp => ?_,
    Suzy.parseMove_short, fun hp => ⟨Suzy.request_parse hp, Suzy.move_parse hp, fun hn hz => ?_⟩⟩
  · rw [Suzy.parseMove_literal hp hb]
    exact z.takePen_spec _
  · rw [Suzy.parseMove_block hp hb]
    exact z.takePen_spec _
  · rw [Suzy.parseMove_runPen hp hb]
    exact z.takePen_spec _
  · rw [Suzy.parseMove_header hp hb]
    refine ⟨z.takeHeader_took, fun h => ?_, fun h hc => ?_, fun h hc => ?_⟩
    · rw [Suzy.takeHeader_block h]
      exact ⟨rfl, rfl⟩
    · rw [Suzy.takeHeader_run h hc]
      exact ⟨rfl, rfl⟩
    · rw [Suzy.takeHeader_end h hc]
  · rw [Suzy.parseMove_run hp]
    exact ⟨rfl, ⟨rfl, rfl, rfl, rfl⟩, (BitVec.shiftLeft_zero _).symm, rfl, rfl⟩
  · rw [Suzy.gotByte_parse hp]
    exact ⟨shifter_push b hn hz, rfl, rfl⟩

end Sys2Proof.Machine
end

section
/-! PROOFS. What the sprite walk loads from an SCB, byte by byte (62_suzy.md R385 to R391). -/

namespace Sys2Proof.Machine

/-! ### Up to an access -/

/-- An engine that wants an access makes no move. -/
theorem Suzy.proceed_request {z : Suzy} (h : z.request.isSome = true) (n : Nat) : z.proceed n = z := by
  cases n with
  | zero => rfl
  | succ n => simp [Suzy.proceed, h]

theorem Suzy.toAccess_request {z : Suzy} (h : z.request.isSome = true) : z.toAccess = z := Suzy.proceed_request h _

/-- One move comes to an access. -/
theorem Suzy.toAccess_move {z : Suzy} (h : z.request = none) (hp : z.phase ≠ .idle) (hm : z.move.request.isSome = true) :
    z.toAccess = z.move := by
  show z.proceed ((2 ^ 20 - 1) + 1) = _
  unfold Suzy.proceed
  rw [if_neg (by simp [h, hp]), Suzy.proceed_request hm]

/-- The chain's head goes on to an SCB. -/
theorem Suzy.toAccess_chain {z : Suzy} (hp : z.phase = .chain) (hl : hi z.scbnext ≠ 0) :
    z.toAccess = { z with scbadr := z.scbnext, tmpadr := z.scbnext, phase := .scb 0 } := by
  have hm : z.move = { z with scbadr := z.scbnext, tmpadr := z.scbnext, phase := .scb 0 } := by
    unfold Suzy.move Suzy.chainStep
    simp only [hp, if_neg hl]
  rw [Suzy.toAccess_move (by unfold Suzy.request; rw [hp]) (by rw [hp]; exact nofun) (by rw [hm]; rfl), hm]

/-! ### The turns of a walk -/

/-- After `n` turns of Suzy the engine has come to `z` and its next access; RAM and the CPU are as they were. -/
structure State.WalksTo (s : State) (n : Nat) (z : Suzy) : Prop where
  ram : (State.suzyTurn^[n] s).ram = s.ram
  cpu : (State.suzyTurn^[n] s).cpu = s.cpu
  suzy : (State.suzyTurn^[n] s).suzy = z.toAccess

/-- A turn that reads. -/
theorem suzyTurn_read {s : State} {a : Word} (h : s.suzy.toAccess.request = some (.read a)) :
    s.suzyTurn.ram = s.ram ∧ s.suzyTurn.cpu = s.cpu ∧
    s.suzyTurn.suzy = (s.suzy.toAccess.gotByte (s.ramAt a)).toAccess := by
  have hs := suzyTurn_suzy s
  rw [h] at hs
  refine ⟨?_, (suzyTurn_frame s).1, hs⟩
  unfold State.suzyTurn
  rw [h]
  rfl

/-- The first turn begins at the head of the chain. -/
theorem State.WalksTo.first {s : State} (hp : s.suzy.phase = .chain) (hl : hi s.suzy.scbnext ≠ 0) :
    s.WalksTo 1
      { s.suzy with
        scbadr := s.suzy.scbnext, tmpadr := s.suzy.scbnext + 1, sprctl0 := s.ramAt s.suzy.scbnext, phase := .scb 1 } := by
  have e := Suzy.toAccess_chain hp hl
  obtain ⟨h1, h2, h3⟩ := suzyTurn_read (s := s) (a := s.suzy.scbnext) (by rw [e]; rfl)
  refine ⟨h1, h2, h3.trans ?_⟩
  rw [e]
  rfl

/-- The address of the byte behind `n` bytes. -/
theorem offset_succ (a : Word) (n : Nat) : a + BitVec.ofNat 16 n + 1 = a + BitVec.ofNat 16 (n + 1) := by
  rw [BitVec.add_assoc]
  congr 1
  exact BitVec.ofNat_add_ofNat n 1

/-- The phases that read the SCB at TMPADR. -/
def Phase.loads : Phase → Bool
  | .scb _ | .reload _ | .palette _ => true
  | .idle | .chain | .fill _ | .lineHead | .parse | .coll | .video | .rowVideo | .rowColl | .rowEnd | .deposit => false

theorem Suzy.request_loads {z : Suzy} (h : z.phase.loads = true) : z.request = some (.read z.tmpadr) := by
  unfold Suzy.request
  cases hp : z.phase <;> rw [hp] at h
  all_goals cases h

/-- The next turn of a walk reads the byte at TMPADR. -/
theorem State.WalksTo.next {s : State} {n : Nat} {z : Suzy} (h : s.WalksTo n z) (hp : z.phase.loads = true) :
    s.WalksTo (n + 1) (z.gotByte (s.ramAt z.tmpadr)) := by
  have hr := Suzy.request_loads hp
  have e : z.toAccess = z := Suzy.toAccess_request (by rw [hr]; rfl)
  have hz : (State.suzyTurn^[n] s).suzy = z := h.suzy.trans e
  obtain ⟨h1, h2, h3⟩ := suzyTurn_read (s := State.suzyTurn^[n] s) (a := z.tmpadr) (by rw [hz, e]; exact hr)
  have hram : (State.suzyTurn^[n] s).ramAt z.tmpadr = s.ramAt z.tmpadr := congrArg (Ram.read · z.tmpadr.toNat) h.ram
  rw [← Function.iterate_succ_apply' State.suzyTurn n s] at h1 h2 h3
  refine ⟨h1.trans h.ram, h2.trans h.cpu, h3.trans ?_⟩
  rw [hz, e, hram]

theorem Suzy.gotByte_scb {z : Suzy} {k : Nat} (hp : z.phase = .scb k) (b : Byte) : z.gotByte b = z.bumpTmp.scbByte k b := by
  unfold Suzy.gotByte
  simp only [hp]

theorem Suzy.gotByte_reload {z : Suzy} {k : Nat} (hp : z.phase = .reload k) (b : Byte) :
    z.gotByte b = z.bumpTmp.reloadByte k b := by
  unfold Suzy.gotByte
  simp only [hp]

theorem Suzy.gotByte_palette {z : Suzy} {k : Nat} (hp : z.phase = .palette k) (b : Byte) :
    z.gotByte b = z.bumpTmp.paletteByte k b := by
  unfold Suzy.gotByte
  simp only [hp]

theorem Suzy.bumpTmp_eq {z : Suzy} {a : Word} {n : Nat} (h : z.tmpadr = a + BitVec.ofNat 16 n) :
    z.bumpTmp = { z with tmpadr := a + BitVec.ofNat 16 (n + 1) } := by
  rw [Suzy.bumpTmp, h, offset_succ]

/-! ### The eleven bytes of the SCB -/

/-- The byte read goes to what the phase makes of it, TMPADR standing behind it. -/
theorem State.WalksTo.load {s : State} {a : Word} {n : Nat} {z : Suzy} {f : Byte → Suzy → Suzy} (h : s.WalksTo n z)
    (hp : z.phase.loads = true) (hf : ∀ b, z.gotByte b = f b z.bumpTmp) (ht : z.tmpadr = a + BitVec.ofNat 16 n) :
    s.WalksTo (n + 1)
      (f (s.ramAt (a + BitVec.ofNat 16 n)) { z with tmpadr := a + BitVec.ofNat 16 (n + 1) }) := by
  have g := h.next hp
  rwa [hf, Suzy.bumpTmp_eq ht, ht] at g

/-- SCB byte `k`. -/
theorem State.WalksTo.scb {s : State} {a : Word} {n k : Nat} {z : Suzy} (h : s.WalksTo n z) (hp : z.phase = .scb k)
    (ht : z.tmpadr = a + BitVec.ofNat 16 n) :
    s.WalksTo (n + 1)
      (({ z with tmpadr := a + BitVec.ofNat 16 (n + 1) } : Suzy).scbByte k (s.ramAt (a + BitVec.ofNat 16 n))) :=
  h.load (f := Suzy.scbByte k) (by rw [hp]; rfl) (Suzy.gotByte_scb hp) ht

@[simp] theorem setHi_setLo (w : Word) (l h : Byte) : setHi (setLo w l) h = join h l := by
  rw [setHi, setLo, lo_join]

section
variable (s : State)

/-- Byte `k` of the SCB at the link. -/
def State.scbByte (k : Nat) : Byte := s.ramAt (s.suzy.scbnext + BitVec.ofNat 16 k)

/-- The word at offset `k` of the SCB at the link. -/
def State.scbWord (k : Nat) : Word := join (s.scbByte (k + 1)) (s.scbByte k)

/-- The engine with the control bytes and the link loaded. -/
def State.controlLoaded : Suzy :=
  { s.suzy with
    scbadr := s.suzy.scbnext, tmpadr := s.suzy.scbnext + BitVec.ofNat 16 5, sprctl0 := s.scbByte 0, sprctl1 := s.scbByte 1,
    sprcoll := s.scbByte 2, scbnext := s.scbWord 3, phase := .scb 5 }

/-- The engine with the data pointer and the position loaded too. -/
def State.scbLoaded : Suzy :=
  { s.controlLoaded with
    tmpadr := s.suzy.scbnext + BitVec.ofNat 16 11, sprdline := s.scbWord 5, hposstrt := s.scbWord 7,
    vposstrt := s.scbWord 9 }

variable {s}

/-- The first five bytes. -/
theorem State.walksTo_control (hp : s.suzy.phase = .chain) (hl : hi s.suzy.scbnext ≠ 0) :
    s.WalksTo 5 { s.controlLoaded with phase := if bit (s.scbByte 1) 2 then .chain else .scb 5 } := by
  have h0 : s.ramAt s.suzy.scbnext = s.scbByte 0 := by
    rw [State.scbByte, show s.suzy.scbnext + BitVec.ofNat 16 0 = s.suzy.scbnext from BitVec.add_zero _]
  have h1 := State.WalksTo.first hp hl
  rw [h0] at h1
  have h5 := (((h1.scb (a := s.suzy.scbnext) rfl rfl).scb (a := s.suzy.scbnext) rfl rfl).scb (a := s.suzy.scbnext) rfl
    rfl).scb (a := s.suzy.scbnext) rfl rfl
  simp only [Suzy.scbByte, setHi_setLo] at h5
  exact h5

/-- The eleven bytes of a sprite that is not skipped. -/
theorem State.walksTo_scb (hp : s.suzy.phase = .chain) (hl : hi s.suzy.scbnext ≠ 0) (hs : bit (s.scbByte 1) 2 = false) :
    s.WalksTo 11 s.scbLoaded.afterScb := by
  have h5 := State.walksTo_control hp hl
  rw [hs] at h5
  have h10 := ((((h5.scb (a := s.suzy.scbnext) rfl rfl).scb (a := s.suzy.scbnext) rfl rfl).scb (a := s.suzy.scbnext) rfl
    rfl).scb (a := s.suzy.scbnext) rfl rfl).scb (a := s.suzy.scbnext) rfl rfl
  have h11 := h10.scb (a := s.suzy.scbnext) rfl rfl
  simp only [Suzy.scbByte, setHi_setLo] at h11
  exact h11

/-! ### Size, stretch and tilt -/

theorem Suzy.reloadSet_phase (k : Nat) (b : Byte) (p : Phase) (z : Suzy) :
    ({ z with phase := p } : Suzy).reloadSet k b = { z.reloadSet k b with phase := p } := by
  unfold Suzy.reloadSet
  split <;> rfl

/-- What the reload bytes leave as it is. -/
theorem Suzy.reloadSet_keeps (k : Nat) (b : Byte) (z : Suzy) :
    (z.reloadSet k b).tmpadr = z.tmpadr ∧ (z.reloadSet k b).sprctl1 = z.sprctl1 ∧ (z.reloadSet k b).pens = z.pens := by
  unfold Suzy.reloadSet
  split <;> exact ⟨rfl, rfl, rfl⟩

theorem Suzy.afterReload_phase (p : Phase) (z : Suzy) : ({ z with phase := p } : Suzy).afterReload = z.afterReload := by
  unfold Suzy.afterReload
  exact if_congr Iff.rfl rfl rfl

theorem Suzy.reloadBytes_congr {z y : Suzy} (h : z.sprctl1 = y.sprctl1) : z.reloadBytes = y.reloadBytes := by
  unfold Suzy.reloadBytes Suzy.reloadField
  rw [h]

variable (s) in
/-- The engine with `j` bytes of the reload fields loaded. -/
def State.reloaded : Nat → Suzy
  | 0 => s.scbLoaded
  | j + 1 =>
    ({ State.reloaded j with tmpadr := s.suzy.scbnext + BitVec.ofNat 16 (11 + j + 1) } : Suzy).reloadSet j
      (s.scbByte (11 + j))

theorem State.reloaded_keeps (j : Nat) :
    (s.reloaded j).tmpadr = s.suzy.scbnext + BitVec.ofNat 16 (11 + j) ∧ (s.reloaded j).sprctl1 = s.scbByte 1 ∧
    (s.reloaded j).pens = s.suzy.pens := by
  induction j with
  | zero => exact ⟨rfl, rfl, rfl⟩
  | succ j ih =>
    obtain ⟨h1, h2, h3⟩ := Suzy.reloadSet_keeps j (s.scbByte (11 + j))
      { s.reloaded j with tmpadr := s.suzy.scbnext + BitVec.ofNat 16 (11 + j + 1) }
    exact ⟨h1, h2.trans ih.2.1, h3.trans ih.2.2⟩

theorem State.reloaded_bytes (j : Nat) : (s.reloaded j).reloadBytes = s.scbLoaded.reloadBytes :=
  Suzy.reloadBytes_congr (s.reloaded_keeps j).2.1

/-- One byte of the reload fields. -/
theorem State.WalksTo.reload {j : Nat} (h : s.WalksTo (11 + j) { s.reloaded j with phase := .reload j }) :
    s.WalksTo (11 + j + 1)
      (if j + 1 < s.scbLoaded.reloadBytes then { s.reloaded (j + 1) with phase := .reload (j + 1) }
      else (s.reloaded (j + 1)).afterReload) := by
  have g := h.load (f := Suzy.reloadByte j) rfl (Suzy.gotByte_reload rfl) (s.reloaded_keeps j).1
  unfold Suzy.reloadByte at g
  rw [Suzy.reloadSet_phase j _ (.reload j)
    { s.reloaded j with tmpadr := s.suzy.scbnext + BitVec.ofNat 16 (11 + j + 1) }] at g
  simp only [Suzy.afterReload_phase] at g
  rw [← s.reloaded_bytes (j + 1)]
  exact g

theorem State.walksTo_reloading (h : s.WalksTo 11 s.scbLoaded.afterScb) {j : Nat} (hj : j < s.scbLoaded.reloadBytes) :
    s.WalksTo (11 + j) { s.reloaded j with phase := .reload j } := by
  induction j with
  | zero =>
    rw [Suzy.afterScb, if_neg (Nat.pos_iff_ne_zero.1 hj)] at h
    exact h
  | succ j ih =>
    have g := (ih (by omega)).reload
    rwa [if_pos hj] at g

/-- All bytes that the reload field asks for. -/
theorem State.walksTo_reloaded (h : s.WalksTo 11 s.scbLoaded.afterScb) :
    s.WalksTo (11 + s.scbLoaded.reloadBytes) (s.reloaded s.scbLoaded.reloadBytes).afterReload := by
  cases hn : s.scbLoaded.reloadBytes with
  | zero =>
    rw [Suzy.afterScb, if_pos hn] at h
    exact h
  | succ j =>
    have g := (s.walksTo_reloading h (j := j) (by omega)).reload
    rwa [if_neg (by omega)] at g

/-! ### The palette -/

/-- A pen table with `j` of its bytes loaded. -/
def loadPens (m : Nat → Byte) (pens : Vector Nibble 16) : Nat → Vector Nibble 16
  | 0 => pens
  | j + 1 => ((loadPens m pens j).setIfInBounds (2 * j) (hiNib (m j))).setIfInBounds (2 * j + 1) (loNib (m j))

theorem loadPens_get (m : Nat → Byte) (pens : Vector Nibble 16) (j : Nat) {k : Nat} (hk : k < 16) :
    (loadPens m pens j)[k] =
      if k < 2 * j then (if k % 2 = 0 then hiNib (m (k / 2)) else loNib (m (k / 2))) else pens[k] := by
  induction j with
  | zero => rw [if_neg (by omega)]; rfl
  | succ j ih =>
    rw [loadPens, Vector.getElem_setIfInBounds, Vector.getElem_setIfInBounds, ih]
    by_cases h1 : 2 * j + 1 = k
    · rw [if_pos h1, if_pos (by omega), if_neg (by omega), show k / 2 = j by omega]
    · by_cases h0 : 2 * j = k
      · rw [if_neg h1, if_pos h0, if_pos (by omega), if_pos (by omega), show k / 2 = j by omega]
      · rw [if_neg h1, if_neg h0]
        exact if_congr (by omega) rfl rfl

variable (s) in
/-- The engine with `n` bytes of the reload fields and `j` bytes of the palette loaded. -/
def State.paletted (n j : Nat) : Suzy :=
  { s.reloaded n with
    tmpadr := s.suzy.scbnext + BitVec.ofNat 16 (11 + n + j)
    pens := loadPens (fun i => s.scbByte (11 + n + i)) s.suzy.pens j }

theorem State.paletted_zero (n : Nat) : s.paletted n 0 = s.reloaded n := by
  obtain ⟨ht, -, hp⟩ := s.reloaded_keeps n
  unfold State.paletted loadPens
  rw [Nat.add_zero, ← ht, ← hp]

/-- One byte of the palette. -/
theorem State.WalksTo.palette {n j : Nat} (h : s.WalksTo (11 + n + j) { s.paletted n j with phase := .palette j }) :
    s.WalksTo (11 + n + j + 1)
      (if j + 1 < 8 then { s.paletted n (j + 1) with phase := .palette (j + 1) }
      else (s.paletted n (j + 1)).beginSprite) := by
  exact h.load (f := Suzy.paletteByte j) rfl (Suzy.gotByte_palette rfl) rfl

theorem State.walksTo_palette {n j : Nat} (h : s.WalksTo (11 + n) { s.reloaded n with phase := .palette 0 })
    (hj : j < 8) : s.WalksTo (11 + n + j) { s.paletted n j with phase := .palette j } := by
  induction j with
  | zero => rw [State.paletted_zero]; exact h
  | succ j ih =>
    have g := (ih (by omega)).palette
    rwa [if_pos hj] at g

/-- The whole palette, unless it is reused. -/
theorem State.walksTo_sprite {n : Nat} (h : s.WalksTo (11 + n) (s.reloaded n).afterReload) :
    s.WalksTo (11 + n + if bit (s.scbByte 1) 3 then 0 else 8)
      (s.paletted n (if bit (s.scbByte 1) 3 then 0 else 8)).beginSprite := by
  have hr : (s.reloaded n).reusePalette = bit (s.scbByte 1) 3 := by rw [Suzy.reusePalette, (s.reloaded_keeps n).2.1]
  rw [Suzy.afterReload, hr] at h
  split
  · next hb =>
    rw [if_pos hb] at h
    rw [State.paletted_zero]
    exact h
  · next hb =>
    rw [if_neg hb] at h
    exact (s.walksTo_palette h (j := 7) (by decide)).palette

/-! ### The whole walk -/

theorem State.scbLoaded_reloadBytes :
    s.scbLoaded.reloadBytes = [0, 4, 6, 8].getD ((s.scbByte 1).toNat / 16 % 4) 0 := by
  have h : s.scbLoaded.reloadField = (s.scbByte 1).toNat / 16 % 4 := by
    show ((s.scbByte 1).extractLsb' 4 2).toNat = _
    rw [BitVec.extractLsb'_toNat, Nat.shiftRight_eq_div_pow]
  have hlt : (s.scbByte 1).toNat / 16 % 4 < 4 := Nat.mod_lt _ (by decide)
  unfold Suzy.reloadBytes
  rw [h]
  interval_cases (s.scbByte 1).toNat / 16 % 4 <;> rfl

theorem State.scbLoaded_reloadBytes_cases :
    s.scbLoaded.reloadBytes = 0 ∨ s.scbLoaded.reloadBytes = 4 ∨ s.scbLoaded.reloadBytes = 6 ∨
      s.scbLoaded.reloadBytes = 8 := by
  unfold Suzy.reloadBytes
  split <;> simp

/-- What reload byte `k` leaves in the four registers. -/
theorem Suzy.reloadSet_registers (k : Nat) (b : Byte) (z : Suzy) :
    (z.reloadSet k b).sprhsiz = (if k = 0 then setLo z.sprhsiz b else if k = 1 then setHi z.sprhsiz b else z.sprhsiz) ∧
    (z.reloadSet k b).sprvsiz = (if k = 2 then setLo z.sprvsiz b else if k = 3 then setHi z.sprvsiz b else z.sprvsiz) ∧
    (z.reloadSet k b).stretch = (if k = 4 then setLo z.stretch b else if k = 5 then setHi z.stretch b else z.stretch) ∧
    (z.reloadSet k b).tilt = (if k < 6 then z.tilt else if k = 6 then setLo z.tilt b else setHi z.tilt b) := by
  unfold Suzy.reloadSet
  split
  case h_8 h0 h1 h2 h3 h4 h5 h6 =>
    simp only [imp_false] at h0 h1 h2 h3 h4 h5 h6
    rw [if_neg h0, if_neg h1, if_neg h2, if_neg h3, if_neg h4, if_neg h5, if_neg (show ¬k < 6 by omega), if_neg h6]
    exact ⟨rfl, rfl, rfl, rfl⟩
  all_goals exact ⟨rfl, rfl, rfl, rfl⟩

/-- What the reload fields leave in the four registers. -/
theorem State.reloaded_fields {n : Nat} (hn : n = 0 ∨ n = 4 ∨ n = 6 ∨ n = 8) :
    (s.reloaded n).sprhsiz = (if 4 ≤ n then s.scbWord 11 else s.suzy.sprhsiz) ∧
    (s.reloaded n).sprvsiz = (if 4 ≤ n then s.scbWord 13 else s.suzy.sprvsiz) ∧
    (s.reloaded n).stretch = (if 6 ≤ n then s.scbWord 15 else s.suzy.stretch) ∧
    (s.reloaded n).tilt = (if 8 ≤ n then s.scbWord 17 else s.suzy.tilt) := by
  have hz : s.scbLoaded.sprhsiz = s.suzy.sprhsiz ∧ s.scbLoaded.sprvsiz = s.suzy.sprvsiz ∧
      s.scbLoaded.stretch = s.suzy.stretch ∧ s.scbLoaded.tilt = s.suzy.tilt := ⟨rfl, rfl, rfl, rfl⟩
  rcases hn with rfl | rfl | rfl | rfl <;> simp [State.reloaded, Suzy.reloadSet_registers, State.scbWord, hz]

/-- What the reload bytes leave of what the SCB's eleven bytes set. -/
theorem State.reloaded_scb (j : Nat) :
    (s.reloaded j).scbadr = s.suzy.scbnext ∧ (s.reloaded j).sprctl0 = s.scbByte 0 ∧ (s.reloaded j).sprctl1 = s.scbByte 1 ∧
    (s.reloaded j).sprcoll = s.scbByte 2 ∧ (s.reloaded j).scbnext = s.scbWord 3 ∧ (s.reloaded j).sprdline = s.scbWord 5 ∧
    (s.reloaded j).hposstrt = s.scbWord 7 ∧ (s.reloaded j).vposstrt = s.scbWord 9 ∧
    (s.reloaded j).sprsys = s.suzy.sprsys := by
  induction j with
  | zero => exact ⟨rfl, rfl, rfl, rfl, rfl, rfl, rfl, rfl, rfl⟩
  | succ j ih =>
    unfold State.reloaded Suzy.reloadSet
    split <;> exact ih

/-- Collisions are off for a disabled sprite, by SPRSYS, or for types 1 and 5. -/
theorem Suzy.collisionsOff_eq (z : Suzy) :
    z.collisionsOff =
      (bit z.sprcoll 5 || bit z.sprsys 5 || decide (z.sprctl0.toNat % 8 = 1 ∨ z.sprctl0.toNat % 8 = 5)) := by
  have hk : z.kind = z.sprctl0.toNat % 8 := sel_mask z.sprctl0
  have hc : (!z.collides) = decide (z.sprctl0.toNat % 8 = 1 ∨ z.sprctl0.toNat % 8 = 5) := by
    rw [Suzy.collides, hk, Bool.not_and, Bool.decide_or]
    simp only [bne, Bool.not_not]
    rfl
  rw [Suzy.collisionsOff, hc]
  rfl

end

/-- Settles O53. -/
theorem spriteWalk : Obligations.SpriteWalk := by
  intro s hp hl
  refine ⟨fun hs => ?_, fun hs => ?_⟩
  · have h := State.walksTo_control hp hl
    rw [show bit (s.scbByte 1) 2 = true from hs] at h
    exact ⟨h.ram, h.cpu, h.suzy⟩
  · intro n p t z
    have hn : s.scbLoaded.reloadBytes = n := s.scbLoaded_reloadBytes
    have h := s.walksTo_sprite (s.walksTo_reloaded (State.walksTo_scb hp hl hs))
    rw [hn] at h
    have hz : z = (s.paletted n p).beginSprite := h.suzy.trans (Suzy.toAccess_request rfl)
    obtain ⟨f1, f2, f3, f4⟩ := s.reloaded_fields (hn ▸ s.scbLoaded_reloadBytes_cases)
    obtain ⟨g1, g2, g3, g4, g5, g6, g7, g8, g9⟩ := s.reloaded_scb n
    refine ⟨h.ram, h.cpu, ?_⟩
    rw [hz]
    refine ⟨rfl, g1, rfl, g2, g3, g4, g5, g6, g6, g7, g8, f1, f2, f3, f4, fun k => ?_, rfl, rfl, ?_⟩
    · refine (loadPens_get _ _ _ k.isLt).trans ?_
      have hpc : p = 0 ∨ p = 8 := by
        show (if bit (s.scbByte 1) 3 then 0 else 8) = 0 ∨ (if bit (s.scbByte 1) 3 then 0 else 8) = 8
        split <;> simp
      rcases hpc with e | e
      · rw [e]; rfl
      · rw [e, if_pos (by omega)]; rfl
    · refine (Suzy.collisionsOff_eq (s.paletted n p)).trans ?_
      rw [show (s.paletted n p).sprcoll = _ from g4, show (s.paletted n p).sprsys = _ from g9,
        show (s.paletted n p).sprctl0 = _ from g2]
      rfl

end Sys2Proof.Machine
end
